-- ==== Sys2Proof/Word.lean ====
section
/-!
DEFINITION. The words of the machine (spec/00_scope.md R5, R8): the bit vectors the registers hold.
-/
namespace Sys2Proof

/-- A 64-bit integer register, an address (R8). -/
abbrev Word := BitVec 64

/-- A byte of memory (R5). -/
abbrev Byte := BitVec 8

/-- One FP32 or INT32 lane (R242). -/
abbrev Lane := BitVec 32

/-- The 256-byte image of a vector register or of a slot line (R242, R271). -/
abbrev Line256 := BitVec 2048

end Sys2Proof
end

