-- ==== Sys2Proof/Config.lean ====
section
/-!
DEFINITION. What the spec leaves open: free values without a body, and the constants the model names.
-/
namespace Sys2Proof.Config

/-- Free 64-bit value number `n`: a value the spec states no result for (log entry 3). -/
opaque freeWord : Nat → Word

/-- Free choice of R248: which of the two bracketing values an approximation delivers, by function (0 VRCP,
1 VRSQ, 2 VEXP2, 3 VLOG2) and operand; a fixed function of the operand (log entry 9). -/
opaque approxUp : Nat → Lane → Bool

/-- Free choice of R248 for VLOG2 on operands in [0.5, 2): a candidate result, taken only when it lies within 2^−22
(log entry 9). -/
opaque log2Near : Lane → Lane

/-- Free choice of R168: the index entry that KOPEN tries first (log entry 10). -/
opaque freshEntry : Nat → Nat

/-- Address of the boot ROM, DESIGN CHOICE (R432 gives none; log entry 5). -/
def romBase : Nat := 0x3000_0000_0000

/-- Bytes of the boot ROM, DESIGN CHOICE (log entry 5). -/
def romSize : Nat := 0x10_0000

/-- Number of gangs (R16). -/
def gangs : Nat := 64

end Sys2Proof.Config
end

