-- ==== Sys2Proof/Machine/Map.lean ====
section
/-!
DEFINITION. Finite maps as association lists in ascending order of key: registers, memory, tables.
`put` keeps every entry; `set` drops an entry equal to the default, so that equal contents are equal lists.
-/
namespace Sys2Proof.Machine

/-- A finite map from numbers; a key that is not listed reads as the default its reader names. -/
abbrev NMap (α : Type) := List (Nat × α)

/-- The value at `k`, or `d` when `k` is not listed. -/
def NMap.get {α : Type} (d : α) : NMap α → Nat → α
  | [], _ => d
  | (j, v) :: m, k => if j = k then v else NMap.get d m k

/-- The value at `k`, if listed. -/
def NMap.find {α : Type} : NMap α → Nat → Option α
  | [], _ => none
  | (j, v) :: m, k => if j = k then some v else NMap.find m k

/-- The map without `k`. -/
def NMap.erase {α : Type} : NMap α → Nat → NMap α
  | [], _ => []
  | (j, v) :: m, k => if j = k then NMap.erase m k else (j, v) :: NMap.erase m k

/-- The entry placed before the first greater key. -/
def NMap.insert {α : Type} (k : Nat) (v : α) : NMap α → NMap α
  | [] => [(k, v)]
  | (j, u) :: m => if k < j then (k, v) :: (j, u) :: m else (j, u) :: NMap.insert k v m

/-- `k` now reads `v`; every entry is kept. -/
def NMap.put {α : Type} (m : NMap α) (k : Nat) (v : α) : NMap α :=
  NMap.insert k v (NMap.erase m k)

/-- `k` now reads `v`; an entry equal to the default `d` is not listed. -/
def NMap.set {α : Type} [DecidableEq α] (d : α) (m : NMap α) (k : Nat) (v : α) : NMap α :=
  if v = d then NMap.erase m k else NMap.put m k v

/-- The keys rise strictly. -/
def NMap.sorted {α : Type} : NMap α → Bool
  | [] => true
  | [_] => true
  | (j, _) :: (k, v) :: m => decide (j < k) && NMap.sorted ((k, v) :: m)

/-- Canonical form: keys rise strictly and no entry equals the default. -/
def NMap.canon {α : Type} [DecidableEq α] (d : α) (m : NMap α) : Bool :=
  NMap.sorted m && m.all (fun e => decide (e.2 ≠ d))

/-- The listed keys. -/
def NMap.keys {α : Type} (m : NMap α) : List Nat := m.map (·.1)

/-- A set of numbers: the map that is `true` on its members. -/
abbrev NSet := NMap Bool

/-- Membership. -/
def NSet.mem (s : NSet) (k : Nat) : Bool := NMap.get false s k

/-- Insertion. -/
def NSet.add (s : NSet) (k : Nat) : NSet := NMap.set false s k true

/-- Removal. -/
def NSet.del (s : NSet) (k : Nat) : NSet := NMap.set false s k false

/-- The `n` numbers from `a`. -/
def span (a : Nat) : Nat → List Nat
  | 0 => []
  | n + 1 => a :: span (a + 1) n

/-- Little-endian value of `n` bytes from address `a` (R5). -/
def leRead (f : Nat → Byte) (a : Nat) : Nat → Nat
  | 0 => 0
  | n + 1 => (f a).toNat + 256 * leRead f (a + 1) n

/-- The `n` little-endian bytes of `v` (R5). -/
def leBytes (v : Nat) : Nat → List Byte
  | 0 => []
  | n + 1 => BitVec.ofNat 8 (v % 256) :: leBytes (v / 256) n

/-- The number a little-endian list of bytes spells (R5). -/
def ofLE : List Byte → Nat
  | [] => 0
  | b :: bs => b.toNat + 256 * ofLE bs

/-- The bytes written from address `a` on; a byte equal to the default is not listed. -/
def putBytes (d : Byte) (m : NMap Byte) (a : Nat) : List Byte → NMap Byte
  | [] => m
  | b :: bs => putBytes d (NMap.set d m a b) (a + 1) bs

/-- Field `hi..lo` of a number. -/
def bits (v hi lo : Nat) : Nat := (v / 2 ^ lo) % 2 ^ (hi + 1 - lo)

/-- Bit `i` of a number. -/
def bitOf (v i : Nat) : Bool := v.testBit i

/-- Two's complement value of the low `n` bits. -/
def sx (n v : Nat) : Int :=
  let u := v % 2 ^ n
  if n = 0 then 0 else if u ≥ 2 ^ (n - 1) then (u : Int) - (2 ^ n : Nat) else u

/-- An integer kept to `n` bits (R13). -/
def wrap (n : Nat) (v : Int) : Nat := (v % ((2 ^ n : Nat) : Int)).toNat

/-- Round up to a multiple of `m`. -/
def roundUp (v m : Nat) : Nat := ((v + m - 1) / m) * m

/-- Parity(x) of R14 over the low `n` bits. -/
def parityN : Nat → Nat → Bool
  | 0, _ => false
  | n + 1, v => (v % 2 == 1) != parityN n (v / 2)

end Sys2Proof.Machine
end

