-- ==== Sys2Proof/Syntax.lean ====
section
/-!
DEFINITION. The operations of the package: one constructor per row of the opcode table. An encoded row has the fields
of its word, the gap `g` first (R184); a row without a word has the parameters that name the occurrence.
-/
namespace Sys2Proof

/-- Every operation and event of the opcode table. -/
inductive Instr where
  /- Every map and the common scalar map (R187, R194 to R198, R212 to R233, R100). -/
  /-- Issues in its slot and does nothing else (R194). -/
  | nop (g : BitVec 4)
  /-- Executes as NOP with its gap honoured and never faults at decode (R194). -/
  | hint (g : BitVec 4) (k : BitVec 2) (i : BitVec 21)
  /-- Delays the stream's next instruction by an immediate count of gang cycles (R195). -/
  | idleImm (g : BitVec 4) (n : BitVec 20)
  /-- Delays the stream's next instruction by the count in a register (R195). -/
  | idleReg (g : BitVec 4) (s : BitVec 5)
  /-- Stops the stream at a tagged alignment point until all sixteen streams reach it (R37). -/
  | align (g : BitVec 4) (t : BitVec 8)
  /-- Closing alignment point at which the stream waits for retirement (R39). -/
  | rdv (g : BitVec 4)
  /-- Reads the stream's fflags into an x register (R197). -/
  | ffrd (g : BitVec 4) (d : BitVec 5)
  /-- Writes the stream's fflags from an x register, ORed with flags set on the same cycle (R197). -/
  | ffwr (g : BitVec 4) (s : BitVec 5)
  /-- Copies a mailbox into an x register (R198). -/
  | mbget (g : BitVec 4) (d : BitVec 5) (n : BitVec 4)
  /-- Writes an x register into a mailbox, performing on g + 3 (R198). -/
  | mbput (g : BitVec 4) (s : BitVec 5) (n : BitVec 4)
  /-- Adds two registers modulo 2^64 (R212). -/
  | add (g : BitVec 4) (d : BitVec 5) (a : BitVec 5) (b : BitVec 5)
  /-- Subtracts two registers modulo 2^64 (R212). -/
  | sub (g : BitVec 4) (d : BitVec 5) (a : BitVec 5) (b : BitVec 5)
  /-- Bitwise AND of two registers (R212). -/
  | and (g : BitVec 4) (d : BitVec 5) (a : BitVec 5) (b : BitVec 5)
  /-- Bitwise OR of two registers (R212). -/
  | or (g : BitVec 4) (d : BitVec 5) (a : BitVec 5) (b : BitVec 5)
  /-- Bitwise XOR of two registers (R212). -/
  | xor (g : BitVec 4) (d : BitVec 5) (a : BitVec 5) (b : BitVec 5)
  /-- Shifts left by the low six bits of the second register (R212). -/
  | sll (g : BitVec 4) (d : BitVec 5) (a : BitVec 5) (b : BitVec 5)
  /-- Logical right shift (R212). -/
  | srl (g : BitVec 4) (d : BitVec 5) (a : BitVec 5) (b : BitVec 5)
  /-- Arithmetic right shift (R212). -/
  | sra (g : BitVec 4) (d : BitVec 5) (a : BitVec 5) (b : BitVec 5)
  /-- Signed less-than comparison giving 1 or 0 (R212). -/
  | slt (g : BitVec 4) (d : BitVec 5) (a : BitVec 5) (b : BitVec 5)
  /-- Unsigned less-than comparison giving 1 or 0 (R212). -/
  | sltu (g : BitVec 4) (d : BitVec 5) (a : BitVec 5) (b : BitVec 5)
  /-- Signed minimum of two registers (R212). -/
  | min (g : BitVec 4) (d : BitVec 5) (a : BitVec 5) (b : BitVec 5)
  /-- Signed maximum of two registers (R212). -/
  | max (g : BitVec 4) (d : BitVec 5) (a : BitVec 5) (b : BitVec 5)
  /-- Unsigned minimum of two registers (R212). -/
  | minu (g : BitVec 4) (d : BitVec 5) (a : BitVec 5) (b : BitVec 5)
  /-- Unsigned maximum of two registers (R212). -/
  | maxu (g : BitVec 4) (d : BitVec 5) (a : BitVec 5) (b : BitVec 5)
  /-- Low 64 bits of the product, performing on g + 3 (R213). -/
  | mul (g : BitVec 4) (d : BitVec 5) (a : BitVec 5) (b : BitVec 5)
  /-- High 64 bits of the signed product (R213). -/
  | mulh (g : BitVec 4) (d : BitVec 5) (a : BitVec 5) (b : BitVec 5)
  /-- High 64 bits of the unsigned product (R213). -/
  | mulhu (g : BitVec 4) (d : BitVec 5) (a : BitVec 5) (b : BitVec 5)
  /-- High 64 bits of the signed-by-unsigned product (R213). -/
  | mulhsu (g : BitVec 4) (d : BitVec 5) (a : BitVec 5) (b : BitVec 5)
  /-- Adds a sign-extended 11-bit immediate (R214). -/
  | addi (g : BitVec 4) (d : BitVec 5) (a : BitVec 5) (i : BitVec 11)
  /-- ANDs with a sign-extended immediate (R214). -/
  | andi (g : BitVec 4) (d : BitVec 5) (a : BitVec 5) (i : BitVec 11)
  /-- ORs with a sign-extended immediate (R214). -/
  | ori (g : BitVec 4) (d : BitVec 5) (a : BitVec 5) (i : BitVec 11)
  /-- XORs with a sign-extended immediate (R214). -/
  | xori (g : BitVec 4) (d : BitVec 5) (a : BitVec 5) (i : BitVec 11)
  /-- Shifts left by an immediate amount (R214). -/
  | slli (g : BitVec 4) (d : BitVec 5) (a : BitVec 5) (h : BitVec 6)
  /-- Logical right shift by an immediate amount (R214). -/
  | srli (g : BitVec 4) (d : BitVec 5) (a : BitVec 5) (h : BitVec 6)
  /-- Arithmetic right shift by an immediate amount (R214). -/
  | srai (g : BitVec 4) (d : BitVec 5) (a : BitVec 5) (h : BitVec 6)
  /-- Signed comparison with an immediate (R214). -/
  | slti (g : BitVec 4) (d : BitVec 5) (a : BitVec 5) (i : BitVec 11)
  /-- Unsigned comparison with a sign-extended immediate (R214). -/
  | sltiu (g : BitVec 4) (d : BitVec 5) (a : BitVec 5) (i : BitVec 11)
  /-- Loads a sign-extended 16-bit immediate (R215). -/
  | lil (g : BitVec 4) (d : BitVec 5) (i : BitVec 16)
  /-- Shifts the register left by 16 and ORs in a 16-bit immediate (R215). -/
  | lih (g : BitVec 4) (d : BitVec 5) (i : BitVec 16)
  /-- Branches when two registers are equal (R216). -/
  | beq (g : BitVec 4) (a : BitVec 5) (b : BitVec 5) (o : BitVec 11)
  /-- Branches when two registers differ (R216). -/
  | bne (g : BitVec 4) (a : BitVec 5) (b : BitVec 5) (o : BitVec 11)
  /-- Branches on signed less-than (R216). -/
  | blt (g : BitVec 4) (a : BitVec 5) (b : BitVec 5) (o : BitVec 11)
  /-- Branches on signed greater-or-equal (R216). -/
  | bge (g : BitVec 4) (a : BitVec 5) (b : BitVec 5) (o : BitVec 11)
  /-- Branches on unsigned less-than (R216). -/
  | bltu (g : BitVec 4) (a : BitVec 5) (b : BitVec 5) (o : BitVec 11)
  /-- Branches on unsigned greater-or-equal (R216). -/
  | bgeu (g : BitVec 4) (a : BitVec 5) (b : BitVec 5) (o : BitVec 11)
  /-- Jumps to a relative target and writes the link address (R217). -/
  | jal (g : BitVec 4) (d : BitVec 5) (o : BitVec 16)
  /-- Jumps through a register plus offset and writes the link address (R217). -/
  | jr (g : BitVec 4) (d : BitVec 5) (a : BitVec 5) (i : BitVec 11)
  /-- Decrements a count register and branches back at zero cost while it exceeds 1 (R218). -/
  | loop (g : BitVec 4) (x : BitVec 5) (o : BitVec 16)
  /-- Loads a sign-extended byte through a capability (R220). -/
  | ldb (g : BitVec 4) (d : BitVec 5) (c : BitVec 4) (o : BitVec 2) (s : BitVec 3) (f : BitVec 4)
  /-- Loads a zero-extended byte through a capability (R220). -/
  | ldbu (g : BitVec 4) (d : BitVec 5) (c : BitVec 4) (o : BitVec 2) (s : BitVec 3) (f : BitVec 4)
  /-- Loads a sign-extended halfword (R220). -/
  | ldh (g : BitVec 4) (d : BitVec 5) (c : BitVec 4) (o : BitVec 2) (s : BitVec 3) (f : BitVec 4)
  /-- Loads a zero-extended halfword (R220). -/
  | ldhu (g : BitVec 4) (d : BitVec 5) (c : BitVec 4) (o : BitVec 2) (s : BitVec 3) (f : BitVec 4)
  /-- Loads a sign-extended word (R220). -/
  | ldw (g : BitVec 4) (d : BitVec 5) (c : BitVec 4) (o : BitVec 2) (s : BitVec 3) (f : BitVec 4)
  /-- Loads a zero-extended word (R220). -/
  | ldwu (g : BitVec 4) (d : BitVec 5) (c : BitVec 4) (o : BitVec 2) (s : BitVec 3) (f : BitVec 4)
  /-- Loads a doubleword, freezing the gang on a global access (R220). -/
  | ldd (g : BitVec 4) (d : BitVec 5) (c : BitVec 4) (o : BitVec 2) (s : BitVec 3) (f : BitVec 4)
  /-- Stores a byte through a capability (R221). -/
  | stb (g : BitVec 4) (s : BitVec 5) (c : BitVec 4) (o : BitVec 2) (e : BitVec 3) (f : BitVec 5)
  /-- Stores a halfword through a capability (R221). -/
  | sth (g : BitVec 4) (s : BitVec 5) (c : BitVec 4) (o : BitVec 2) (e : BitVec 3) (f : BitVec 5)
  /-- Stores a word through a capability (R221). -/
  | stw (g : BitVec 4) (s : BitVec 5) (c : BitVec 4) (o : BitVec 2) (e : BitVec 3) (f : BitVec 5)
  /-- Stores a doubleword through a capability (R221). -/
  | std (g : BitVec 4) (s : BitVec 5) (c : BitVec 4) (o : BitVec 2) (e : BitVec 3) (f : BitVec 5)
  /-- Atomic add at the granule's home, returning the old value (R223). -/
  | aadd (g : BitVec 4) (d : BitVec 5) (c : BitVec 4) (w : BitVec 1) (o : BitVec 2) (s : BitVec 3)
  /-- Atomic signed minimum at the home (R223). -/
  | amin (g : BitVec 4) (d : BitVec 5) (c : BitVec 4) (w : BitVec 1) (o : BitVec 2) (s : BitVec 3)
  /-- Atomic signed maximum at the home (R223). -/
  | amax (g : BitVec 4) (d : BitVec 5) (c : BitVec 4) (w : BitVec 1) (o : BitVec 2) (s : BitVec 3)
  /-- Atomic AND at the home (R223). -/
  | aand (g : BitVec 4) (d : BitVec 5) (c : BitVec 4) (w : BitVec 1) (o : BitVec 2) (s : BitVec 3)
  /-- Atomic OR at the home (R223). -/
  | aor (g : BitVec 4) (d : BitVec 5) (c : BitVec 4) (w : BitVec 1) (o : BitVec 2) (s : BitVec 3)
  /-- Atomic XOR at the home (R223). -/
  | axor (g : BitVec 4) (d : BitVec 5) (c : BitVec 4) (w : BitVec 1) (o : BitVec 2) (s : BitVec 3)
  /-- Atomic swap at the home (R223). -/
  | aswp (g : BitVec 4) (d : BitVec 5) (c : BitVec 4) (w : BitVec 1) (o : BitVec 2) (s : BitVec 3)
  /-- Atomic compare-and-swap at the home, returning the old value (R224). -/
  | acas (g : BitVec 4) (d : BitVec 5) (c : BitVec 4) (s : BitVec 5) (w : BitVec 1) (o : BitVec 2) (e : BitVec 3)
  /-- Orders the stream's accesses by kind and scope, holding the gang where required (R144). -/
  | fence (g : BitVec 4) (k : BitVec 2) (s : BitVec 3)
  /-- Tests named fflags against their trap enables and raises an arithmetic trap on a match (R75). -/
  | tfence (g : BitVec 4) (m : BitVec 4)
  /-- Initialises a named barrier's pending bytes, arrivals and lapse bit (R125). -/
  | binit (g : BitVec 4) (b : BitVec 5) (n : BitVec 6)
  /-- Decrements a barrier's expected arrivals (R125). -/
  | barrive (g : BitVec 4) (b : BitVec 5)
  /-- Adds a register's amount to a barrier's pending bytes (R125). -/
  | bexpect (g : BitVec 4) (s : BitVec 5) (b : BitVec 5)
  /-- Freezes the gang until a write pointer reaches a register's value (R229). -/
  | holdWptr (g : BitVec 4) (s : BitVec 5) (k : BitVec 3)
  /-- Freezes the gang until a named barrier is at zero (R229). -/
  | holdBarrier (g : BitVec 4) (n : BitVec 5)
  /-- Freezes the gang until a slot ring's home reports room or a full slot (R229). -/
  | holdRing (g : BitVec 4) (c : BitVec 4) (e : BitVec 1)
  /-- Sends n scratchpad lines over a gang link to another cell (R230). -/
  | send (g : BitVec 4) (s : BitVec 5) (c : BitVec 4) (d : BitVec 2) (n : BitVec 4)
  /-- Accepts the lines of a SEND arriving from another cell into the scratchpad (R231). -/
  | recv (g : BitVec 4) (s : BitVec 5) (c : BitVec 4) (d : BitVec 2) (n : BitVec 4)
  /-- Acquires the next empty slot of a ring for filling (R136). -/
  | racq (g : BitVec 4) (d : BitVec 5) (c : BitVec 4)
  /-- Publishes a filling slot as full, releasing its bytes (R136). -/
  | rpub (g : BitVec 4) (s : BitVec 5) (c : BitVec 4)
  /-- Takes the next full slot of a ring for draining, acquiring its bytes (R136). -/
  | rtake (g : BitVec 4) (d : BitVec 5) (c : BitVec 4)
  /-- Returns a draining slot to empty (R136). -/
  | rfree (g : BitVec 4) (s : BitVec 5) (c : BitVec 4)
  /-- Reads a capability's address (R101). -/
  | cgeta (g : BitVec 4) (d : BitVec 5) (c : BitVec 4)
  /-- Reads a capability's base (R101). -/
  | cgetb (g : BitVec 4) (d : BitVec 5) (c : BitVec 4)
  /-- Reads a capability's length (R101). -/
  | cgetl (g : BitVec 4) (d : BitVec 5) (c : BitVec 4)
  /-- Reads a capability's permissions (R101). -/
  | cgetp (g : BitVec 4) (d : BitVec 5) (c : BitVec 4)
  /-- Reads a capability's tag (R101). -/
  | cgett (g : BitVec 4) (d : BitVec 5) (c : BitVec 4)
  /-- Reads a capability's object type (R101). -/
  | cgeto (g : BitVec 4) (d : BitVec 5) (c : BitVec 4)
  /-- Sets a capability's address, clearing the tag outside the representable region (R102). -/
  | cseta (g : BitVec 4) (d : BitVec 4) (c : BitVec 4) (s : BitVec 5)
  /-- Adds a register to a capability's address (R102). -/
  | cincaReg (g : BitVec 4) (d : BitVec 4) (c : BitVec 4) (s : BitVec 5)
  /-- Adds a signed 12-bit immediate to a capability's address (R102). -/
  | cincaImm (g : BitVec 4) (d : BitVec 4) (c : BitVec 4) (i : BitVec 12)
  /-- Sets exact bounds from the address and a length, faulting when not encodable (R102). -/
  | csetb (g : BitVec 4) (d : BitVec 4) (c : BitVec 4) (s : BitVec 5)
  /-- Sets bounds rounded inwards from the address and a length (R102). -/
  | csetbr (g : BitVec 4) (d : BitVec 4) (c : BitVec 4) (s : BitVec 5)
  /-- ANDs a capability's permissions with a register (R102). -/
  | candp (g : BitVec 4) (d : BitVec 4) (c : BitVec 4) (s : BitVec 5)
  /-- Locks a capability to an object type under an authority capability (R104). -/
  | clock (g : BitVec 4) (d : BitVec 4) (c : BitVec 4) (a : BitVec 4)
  /-- Unlocks a capability under an authority capability (R104). -/
  | cunlock (g : BitVec 4) (d : BitVec 4) (c : BitVec 4) (a : BitVec 4)
  /-- Tests whether one capability is a subset of another (R103). -/
  | ctsub (g : BitVec 4) (d : BitVec 5) (a : BitVec 4) (b : BitVec 4)
  /-- Copies a capability register with its tag (R103). -/
  | cmov (g : BitVec 4) (d : BitVec 4) (c : BitVec 4)
  /-- Loads a 16-byte capability granule with its tag (R105). -/
  | cldc (g : BitVec 4) (d : BitVec 4) (b : BitVec 4) (o : BitVec 13)
  /-- Stores a capability register and its tag to a 16-byte granule (R105). -/
  | cstc (g : BitVec 4) (s : BitVec 4) (b : BitVec 4) (o : BitVec 13)
  /-- Branches through a code capability and writes a sealed return capability (R106). -/
  | cjal (g : BitVec 4) (d : BitVec 4) (c : BitVec 4)
  /-- Branches through a code capability (R106). -/
  | cjr (g : BitVec 4) (c : BitVec 4)
  /- Seq map (R189). -/
  /-- Suspends the pour under a liveness record when a pre-emption request is pending (R46). -/
  | yield (g : BitVec 4) (l : BitVec 8)
  /-- Walks the name chain of a prompt and leases the deepest matches (R166). -/
  | kmatch (g : BitVec 4) (d : BitVec 5) (a : BitVec 4) (b : BitVec 4) (e : BitVec 4)
  /-- Opens an unsealed block under a parent in a tier (R168). -/
  | kopen (g : BitVec 4) (d : BitVec 5) (a : BitVec 4) (b : BitVec 4) (e : BitVec 4)
  /-- Seals a block under its name and inserts it into the index (R170). -/
  | kseal (g : BitVec 4) (d : BitVec 5) (a : BitVec 4) (b : BitVec 4) (e : BitVec 4) (f : BitVec 4)
  /-- Grants a timed lease on a local node (R172). -/
  | klease (g : BitVec 4) (d : BitVec 5) (a : BitVec 4)
  /-- Extends a timed lease that is still in force (R172). -/
  | krenew (g : BitVec 4) (d : BitVec 5) (a : BitVec 4)
  /-- Ends the pour's lifetime lease on a node (R173). -/
  | kdrop (g : BitVec 4) (d : BitVec 5) (a : BitVec 4)
  /-- Adds one session reference to a node (R174). -/
  | kpin (g : BitVec 4) (d : BitVec 5) (a : BitVec 4) (b : BitVec 4)
  /-- Removes one session reference from a node (R174). -/
  | kunpin (g : BitVec 4) (d : BitVec 5) (a : BitVec 4) (b : BitVec 4)
  /-- Replicates a remote node's path into local ingots (R182). -/
  | krepl (g : BitVec 4) (d : BitVec 5) (a : BitVec 4) (b : BitVec 4) (e : BitVec 4)
  /-- Reads a node's status word (R165). -/
  | kstat (g : BitVec 4) (d : BitVec 5) (a : BitVec 4) (e : BitVec 5)
  /-- Copies a class record into the scratchpad (R165). -/
  | kclass (g : BitVec 4) (d : BitVec 5) (a : BitVec 4)
  /-- Writes a node's name into the scratchpad (R165). -/
  | kname (g : BitVec 4) (d : BitVec 5) (a : BitVec 4)
  /-- Returns a node's depth (R165). -/
  | kdepth (g : BitVec 4) (d : BitVec 5) (a : BitVec 4)
  /-- Returns the handle of a node's ancestor at a given depth (R165). -/
  | kanc (g : BitVec 4) (d : BitVec 5) (a : BitVec 4) (e : BitVec 4)
  /-- Submits a launch record to the cupola from a pour (R237). -/
  | launch (g : BitVec 4) (d : BitVec 5) (a : BitVec 4) (e : BitVec 4)
  /-- Records a cancel of the level a handle names (R238). -/
  | gcancel (g : BitVec 4) (d : BitVec 5) (a : BitVec 4)
  /-- Reads the completion word of a launch, graph or session (R51). -/
  | cwread (g : BitVec 4) (d : BitVec 5) (a : BitVec 4)
  /-- Reads the session energy balance in millijoules (R236). -/
  | eread (g : BitVec 4) (d : BitVec 5) (a : BitVec 4)
  /- System opcodes of steward cells (R318 to R332). -/
  /-- Steward read of a system register (R318). -/
  | csrr (g : BitVec 4) (d : BitVec 5) (c : BitVec 12)
  /-- Steward write of a system register; covers every register without a row of its own (R318). -/
  | csrw (g : BitVec 4) (s : BitVec 5) (c : BitVec 12)
  /-- Enters the steward handler as a synchronous fault with a code (R322). -/
  | trap (g : BitVec 4) (c : BitVec 16)
  /-- Returns from the steward handler to ST_EPC and re-enables events (R322). -/
  | eret (g : BitVec 4)
  /-- Stops the steward stream until an enabled event is pending (R322). -/
  | wfe (g : BitVec 4)
  /-- Reads the hull list and opens a revocation epoch (R331). -/
  | sweepOpen (g : BitVec 4) (d : BitVec 5)
  /-- Returns the current revocation phase and epoch number (R331). -/
  | sweepStat (g : BitVec 4) (d : BitVec 5)
  /-- Starts at once the register sweep of every unswept running gang (R331). -/
  | sweepForce (g : BitVec 4) (d : BitVec 5)
  /-- Inserts an extent record into a slot of a gang's extent table (R329). -/
  | xins (g : BitVec 4) (s : BitVec 5) (c : BitVec 4)
  /-- Writes an HBM interleave mask of a class after draining its accesses (R332). -/
  | maskw (g : BitVec 4) (s : BitVec 5) (k : BitVec 3) (i : BitVec 4)
  /-- Sets the steward freeze of a gang (R327). -/
  | freeze (g : BitVec 4) (s : BitVec 5)
  /-- Clears a gang's steward freeze and fault hold in resume, skip, filled or abandon mode (R327). -/
  | thaw (g : BitVec 4) (s : BitVec 5) (m : BitVec 2)
  /-- Steward cancel of a launch, graph or session (R330). -/
  | cancel (g : BitVec 4) (d : BitVec 5) (c : BitVec 4)
  /- Ladle map (R190). -/
  /-- Linear copy between scratchpad and global memory on a channel (R296). -/
  | cpy (g : BitVec 4) (d : BitVec 4) (s : BitVec 4) (x : BitVec 5) (h : BitVec 3) (e : BitVec 3)
  /-- N-dimensional copy described by a scratchpad descriptor (R298). -/
  | cpyn (g : BitVec 4) (d : BitVec 4) (s : BitVec 4) (x : BitVec 5) (h : BitVec 3) (e : BitVec 3)
  /-- Gathers indexed table elements into a contiguous destination (R300). -/
  | gath (g : BitVec 4) (d : BitVec 4) (s : BitVec 4) (x : BitVec 5) (h : BitVec 3) (e : BitVec 3)
  /-- Scatters contiguous elements to indexed table elements in global memory (R300). -/
  | scat (g : BitVec 4) (d : BitVec 4) (s : BitVec 4) (x : BitVec 5) (h : BitVec 3) (e : BitVec 3)
  /-- Scatter-adds contiguous elements into indexed table elements at their homes (R300). -/
  | scadd (g : BitVec 4) (d : BitVec 4) (s : BitVec 4) (x : BitVec 5) (h : BitVec 3) (e : BitVec 3)
  /-- Copies bytes to the same scratchpad offset of selected gang cells (R301). -/
  | mcast (g : BitVec 4) (d : BitVec 4) (s : BitVec 4) (x : BitVec 5) (h : BitVec 3) (e : BitVec 3)
  /-- Reads bytes of a remote export into a local range (R302). -/
  | rread (g : BitVec 4) (d : BitVec 4) (s : BitVec 4) (x : BitVec 5) (h : BitVec 3) (e : BitVec 3)
  /-- Writes a local range into a remote export (R302). -/
  | rwrite (g : BitVec 4) (d : BitVec 4) (s : BitVec 4) (x : BitVec 5) (h : BitVec 3) (e : BitVec 3)
  /-- Copies node-space bytes through a node handle (R303). -/
  | kget (g : BitVec 4) (d : BitVec 4) (s : BitVec 4) (x : BitVec 5) (h : BitVec 3) (e : BitVec 3)
  /-- Copies into an unsealed block owned by the pour (R297). -/
  | kput (g : BitVec 4) (d : BitVec 4) (s : BitVec 4) (x : BitVec 5) (h : BitVec 3) (e : BitVec 3)
  /-- Loads scale vectors into the scale queue (R305). -/
  | sqld (g : BitVec 4) (s : BitVec 4) (x : BitVec 5) (h : BitVec 3)
  /-- Binds a pattern stream to a scratchpad descriptor (R128). -/
  | qbind (g : BitVec 4) (s : BitVec 5) (n : BitVec 4)
  /-- Appends an operator to a bound pattern stream's chain (R130). -/
  | qop (g : BitVec 4) (s : BitVec 5) (n : BitVec 4)
  /-- Checks the chain and starts a bound pattern stream (R127). -/
  | qstart (g : BitVec 4) (n : BitVec 4)
  /-- Stops a running pattern stream and discards its output (R127). -/
  | qstop (g : BitVec 4) (n : BitVec 4)
  /-- Reads a channel write pointer into an x register (R307). -/
  | wprd (g : BitVec 4) (d : BitVec 5) (k : BitVec 3)
  /- Vec map (R192). -/
  /-- Writes the vector shape register (R241). -/
  | vshapeWr (g : BitVec 4) (x : BitVec 5)
  /-- Reads the vector shape register (R241). -/
  | vshapeRd (g : BitVec 4) (x : BitVec 5)
  /-- Sets the active lane count (R241). -/
  | vshapeVl (g : BitVec 4) (x : BitVec 5)
  /-- FP32 lane addition (R246). -/
  | vadd (g : BitVec 4) (d : BitVec 6) (a : BitVec 6) (b : BitVec 6) (p : BitVec 3)
  /-- FP32 lane subtraction (R246). -/
  | vsub (g : BitVec 4) (d : BitVec 6) (a : BitVec 6) (b : BitVec 6) (p : BitVec 3)
  /-- FP32 lane multiplication (R246). -/
  | vmul (g : BitVec 4) (d : BitVec 6) (a : BitVec 6) (b : BitVec 6) (p : BitVec 3)
  /-- FP32 fused multiply-add with one rounding (R246). -/
  | vfma (g : BitVec 4) (d : BitVec 6) (a : BitVec 6) (b : BitVec 6) (p : BitVec 3)
  /-- FP32 fused multiply-subtract with one rounding (R246). -/
  | vfms (g : BitVec 4) (d : BitVec 6) (a : BitVec 6) (b : BitVec 6) (p : BitVec 3)
  /-- FP32 lane maximum under R69 (R246). -/
  | vmax (g : BitVec 4) (d : BitVec 6) (a : BitVec 6) (b : BitVec 6) (p : BitVec 3)
  /-- FP32 lane minimum under R69 (R246). -/
  | vmin (g : BitVec 4) (d : BitVec 6) (a : BitVec 6) (b : BitVec 6) (p : BitVec 3)
  /-- Clears the sign bit of each active lane (R247). -/
  | vabs (g : BitVec 4) (d : BitVec 6) (s : BitVec 6) (p : BitVec 3)
  /-- Inverts the sign bit of each active lane (R247). -/
  | vneg (g : BitVec 4) (d : BitVec 6) (s : BitVec 6) (p : BitVec 3)
  /-- Approximates the reciprocal of each active lane (R248). -/
  | vrcp (g : BitVec 4) (d : BitVec 6) (s : BitVec 6) (p : BitVec 3)
  /-- Approximates the reciprocal square root (R248). -/
  | vrsq (g : BitVec 4) (d : BitVec 6) (s : BitVec 6) (p : BitVec 3)
  /-- Approximates 2 to the power of each lane (R248). -/
  | vexp2 (g : BitVec 4) (d : BitVec 6) (s : BitVec 6) (p : BitVec 3)
  /-- Approximates the base-2 logarithm of each lane (R248). -/
  | vlog2 (g : BitVec 4) (d : BitVec 6) (s : BitVec 6) (p : BitVec 3)
  /-- Converts lanes to a target format under a rounding mode (R249). -/
  | vcvt (g : BitVec 4) (d : BitVec 6) (s : BitVec 6) (t : BitVec 4) (k : BitVec 2) (r : BitVec 3)
  /-- INT32 lane addition (R250). -/
  | viadd (g : BitVec 4) (d : BitVec 6) (a : BitVec 6) (b : BitVec 6) (p : BitVec 3)
  /-- INT32 lane subtraction (R250). -/
  | visub (g : BitVec 4) (d : BitVec 6) (a : BitVec 6) (b : BitVec 6) (p : BitVec 3)
  /-- INT32 lane multiplication (R250). -/
  | vimul (g : BitVec 4) (d : BitVec 6) (a : BitVec 6) (b : BitVec 6) (p : BitVec 3)
  /-- Signed INT32 lane minimum (R250). -/
  | vimin (g : BitVec 4) (d : BitVec 6) (a : BitVec 6) (b : BitVec 6) (p : BitVec 3)
  /-- Signed INT32 lane maximum (R250). -/
  | vimax (g : BitVec 4) (d : BitVec 6) (a : BitVec 6) (b : BitVec 6) (p : BitVec 3)
  /-- Lane bitwise AND (R250). -/
  | vand (g : BitVec 4) (d : BitVec 6) (a : BitVec 6) (b : BitVec 6) (p : BitVec 3)
  /-- Lane bitwise OR (R250). -/
  | vor (g : BitVec 4) (d : BitVec 6) (a : BitVec 6) (b : BitVec 6) (p : BitVec 3)
  /-- Lane bitwise XOR (R250). -/
  | vxor (g : BitVec 4) (d : BitVec 6) (a : BitVec 6) (b : BitVec 6) (p : BitVec 3)
  /-- Lane shift left (R250). -/
  | vshl (g : BitVec 4) (d : BitVec 6) (a : BitVec 6) (b : BitVec 6) (p : BitVec 3)
  /-- Lane logical shift right (R250). -/
  | vshr (g : BitVec 4) (d : BitVec 6) (a : BitVec 6) (b : BitVec 6) (p : BitVec 3)
  /-- Lane arithmetic shift right (R250). -/
  | vsra (g : BitVec 4) (d : BitVec 6) (a : BitVec 6) (b : BitVec 6) (p : BitVec 3)
  /-- FP32 lane comparison into a predicate (R251). -/
  | vcmp (g : BitVec 4) (p : BitVec 4) (a : BitVec 6) (b : BitVec 6) (c : BitVec 3)
  /-- INT32 lane comparison into a predicate (R251). -/
  | vicmp (g : BitVec 4) (p : BitVec 4) (a : BitVec 6) (b : BitVec 6) (c : BitVec 3)
  /-- Selects lanes from two registers by a predicate (R252). -/
  | vsel (g : BitVec 4) (d : BitVec 6) (a : BitVec 6) (b : BitVec 6) (p : BitVec 3)
  /-- FP32 sum reduction over a balanced tree (R253). -/
  | vrsum (g : BitVec 4) (d : BitVec 6) (s : BitVec 6) (p : BitVec 3) (r : BitVec 3)
  /-- FP32 max reduction (R253). -/
  | vrmax (g : BitVec 4) (d : BitVec 6) (s : BitVec 6) (p : BitVec 3) (r : BitVec 3)
  /-- FP32 min reduction (R253). -/
  | vrmin (g : BitVec 4) (d : BitVec 6) (s : BitVec 6) (p : BitVec 3) (r : BitVec 3)
  /-- INT32 sum reduction (R253). -/
  | vrisum (g : BitVec 4) (d : BitVec 6) (s : BitVec 6) (p : BitVec 3) (r : BitVec 3)
  /-- Signed INT32 max reduction (R253). -/
  | vrimax (g : BitVec 4) (d : BitVec 6) (s : BitVec 6) (p : BitVec 3) (r : BitVec 3)
  /-- Signed INT32 min reduction (R253). -/
  | vrimin (g : BitVec 4) (d : BitVec 6) (s : BitVec 6) (p : BitVec 3) (r : BitVec 3)
  /-- FP32 inclusive sum scan (R253). -/
  | vscsum (g : BitVec 4) (d : BitVec 6) (s : BitVec 6) (p : BitVec 3) (r : BitVec 3)
  /-- FP32 inclusive max scan (R253). -/
  | vscmax (g : BitVec 4) (d : BitVec 6) (s : BitVec 6) (p : BitVec 3) (r : BitVec 3)
  /-- FP32 inclusive min scan (R253). -/
  | vscmin (g : BitVec 4) (d : BitVec 6) (s : BitVec 6) (p : BitVec 3) (r : BitVec 3)
  /-- INT32 inclusive sum scan (R253). -/
  | vscisum (g : BitVec 4) (d : BitVec 6) (s : BitVec 6) (p : BitVec 3) (r : BitVec 3)
  /-- Signed INT32 inclusive max scan (R253). -/
  | vscimax (g : BitVec 4) (d : BitVec 6) (s : BitVec 6) (p : BitVec 3) (r : BitVec 3)
  /-- Signed INT32 inclusive min scan (R253). -/
  | vscimin (g : BitVec 4) (d : BitVec 6) (s : BitVec 6) (p : BitVec 3) (r : BitVec 3)
  /-- Permutes lanes by an index register (R254). -/
  | vperm (g : BitVec 4) (d : BitVec 6) (a : BitVec 6) (b : BitVec 6) (p : BitVec 3)
  /-- Slides lanes up or down by a constant (R255). -/
  | vslide (g : BitVec 4) (d : BitVec 6) (s : BitVec 6) (e : BitVec 1) (k : BitVec 6)
  /-- Broadcasts an x register into active lanes (R256). -/
  | vbcst (g : BitVec 4) (d : BitVec 6) (s : BitVec 5) (p : BitVec 3)
  /-- Moves one lane into an x register (R256). -/
  | vmovxToX (g : BitVec 4) (s : BitVec 6) (d : BitVec 5) (l : BitVec 6)
  /-- Moves an x register into one lane (R256). -/
  | vmovxToV (g : BitVec 4) (d : BitVec 6) (s : BitVec 5) (l : BitVec 6)
  /-- Strided scratchpad load widened to lane form (R258). -/
  | vld (g : BitVec 4) (v : BitVec 6) (c : BitVec 4) (x : BitVec 5) (p : BitVec 3) (s : BitVec 3)
  /-- Strided scratchpad store narrowed from lane form (R259). -/
  | vst (g : BitVec 4) (v : BitVec 6) (c : BitVec 4) (x : BitVec 5) (p : BitVec 3) (s : BitVec 3)
  /-- Indexed scratchpad gather holding every bank for eight cycles (R260). -/
  | vgath (g : BitVec 4) (v : BitVec 6) (c : BitVec 4) (x : BitVec 5) (p : BitVec 3) (s : BitVec 3)
  /-- Indexed scratchpad scatter holding every bank for eight cycles (R260). -/
  | vscat (g : BitVec 4) (v : BitVec 6) (c : BitVec 4) (x : BitVec 5) (p : BitVec 3) (s : BitVec 3)
  /-- Pops 256 bytes of a pattern stream into a vector register (R261). -/
  | vpop (g : BitVec 4) (d : BitVec 6) (n : BitVec 4)
  /-- Quantises lanes to lattice codewords with block checks (R262). -/
  | vlqnt (g : BitVec 4) (d : BitVec 6) (s : BitVec 6) (p : BitVec 3) (a : BitVec 4) (o : BitVec 1)
  /-- Decodes lattice codewords with their scales into FP32 lanes (R263). -/
  | vldec (g : BitVec 4) (d : BitVec 6) (s : BitVec 6) (a : BitVec 4) (r : BitVec 3)
  /-- Combines two predicates by a truth table (R264). -/
  | plog (g : BitVec 4) (d : BitVec 4) (a : BitVec 4) (b : BitVec 4) (t : BitVec 4)
  /-- Counts the set bits of two ANDed predicates (R265). -/
  | pcntCount (g : BitVec 4) (a : BitVec 4) (b : BitVec 4) (d : BitVec 5)
  /-- Finds the lowest set bit of two ANDed predicates (R265). -/
  | pcntFirst (g : BitVec 4) (a : BitVec 4) (b : BitVec 4) (d : BitVec 5)
  /-- Finds the highest set bit of two ANDed predicates (R265). -/
  | pcntLast (g : BitVec 4) (a : BitVec 4) (b : BitVec 4) (d : BitVec 5)
  /-- Sets the first n bits of a predicate (R266). -/
  | psetFirst (g : BitVec 4) (d : BitVec 4) (x : BitVec 5)
  /-- Copies an x register into a predicate (R266). -/
  | psetFromx (g : BitVec 4) (d : BitVec 4) (x : BitVec 5)
  /-- Copies a predicate into an x register (R266). -/
  | psetTox (g : BitVec 4) (a : BitVec 4) (x : BitVec 5)
  /- Mat map (R193). -/
  /-- Requests a matrix shape and writes back the grant (R270). -/
  | mshapeReq (g : BitVec 4) (x : BitVec 5)
  /-- Reads the matrix shape register (R270). -/
  | mshapeGet (g : BitVec 4) (x : BitVec 5)
  /-- Marks a range of operand slots claimed (R273). -/
  | mclaim (g : BitVec 4) (o : BitVec 4) (n : BitVec 4)
  /-- Marks a range of operand slots unclaimed and zeroes them (R273). -/
  | mrelease (g : BitVec 4) (o : BitVec 4) (n : BitVec 4)
  /-- Fills slot lines from the scratchpad (R274). -/
  | mfillScratch (g : BitVec 4) (o : BitVec 4) (c : BitVec 4) (p : BitVec 5)
  /-- Fills slot lines from pattern-stream pops (R274). -/
  | mfillStream (g : BitVec 4) (o : BitVec 4) (n : BitVec 4) (p : BitVec 5)
  /-- Multiplies two slots into an accumulator brick by brick (R278). -/
  | mma (g : BitVec 4) (a : BitVec 3) (b : BitVec 4) (c : BitVec 4) (m : BitVec 5) (z : BitVec 1)
  /-- Multiply-accumulate with a lattice A operand through the coset-decoding port (R277). -/
  | mmal (g : BitVec 4) (a : BitVec 3) (b : BitVec 4) (c : BitVec 4) (m : BitVec 5) (z : BitVec 1)
  /-- Sets an accumulator to +0 (R280). -/
  | mzero (g : BitVec 4) (a : BitVec 3)
  /-- Converts and writes accumulator rows to the scratchpad (R282). -/
  | mdrain (g : BitVec 4) (a : BitVec 3) (c : BitVec 4) (f : BitVec 4) (p : BitVec 5) (r : BitVec 3) (s : BitVec 1)
  /-- Sends accumulator rows as drain-adds to a target accumulator (R283). -/
  | mdrainp (g : BitVec 4) (a : BitVec 3) (t : BitVec 5) (p : BitVec 5)
  /-- Sets the drain rounding mode and flush flag from an immediate (R281). -/
  | mmodeSet (g : BitVec 4) (v : BitVec 4)
  /-- Sets the MMODE state from a register (R281). -/
  | mmodeSetx (g : BitVec 4) (x : BitVec 5)
  /-- Reads the MMODE state (R281). -/
  | mmodeGet (g : BitVec 4) (x : BitVec 5)
  /-- Moves scale-queue entries into the bound set (R276). -/
  | mscale (g : BitVec 4) (n : BitVec 7)
  /- Events: operations of the package without an instruction word. -/
  /-- The cupola clears a free gang, prepares and places the first ranked unheld pour or a resumption (R355). -/
  | pourPlacement (p : Nat)
  /-- The restore ends and the resumption opens a window (R49). -/
  | contextRestoreComplete (g : Nat)
  /-- All retirement conditions hold; the pour retires, releasing writes and leases (R39). -/
  | pourRetirement (g : Nat)
  /-- A global load, store acceptance or atomic returns and its freeze condition is satisfied (R41). -/
  | globalAccessReturn (id : Nat)
  /-- A posted global store performs at its home (R145). -/
  | globalStorePerform (id : Nat)
  /-- Copy bytes land at their destination and the write pointer and barrier advance (R122). -/
  | copyLanding (id : Nat) (r : Nat) (lo : Nat) (n : Nat)
  /-- A failure found while a copy moves holds the gang against the copy (R294). -/
  | copyFaultAfterIssue (id : Nat)
  /-- The pattern engine decodes a pop's bytes into the stream's buffer (R131). -/
  | patternDecode (g : Nat) (c : Nat) (n : Nat)
  /-- A Crucible instruction completes and its freeze lifts (R164). -/
  | crucibleCompletion (id : Nat)
  /-- The cupola answers LAUNCH, GCANCEL, CWREAD or EREAD and the freeze lifts (R236). -/
  | cupolaAnswer (id : Nat)
  /-- A ring home's report reaches a waiting ring HOLD (R137). -/
  | ringReport (id : Nat)
  /-- An atomic or ring operation is applied at the line's home (R385). -/
  | homeAtomic (id : Nat)
  /-- A scatter-add element is reduced at its home (R300). -/
  | scaddReduction (id : Nat) (j : Nat)
  /-- An arriving drain-add element is added into the target accumulator (R284). -/
  | drainAddLanding (id : Nat) (e : Nat)
  /-- A refusal of drain-add elements reaches the sender and faults it (R284). -/
  | drainAddRefusal (id : Nat)
  /-- The freeze watchdog reaches 2^k and a freeze-timeout fault replaces the freeze (R43). -/
  | freezeTimeout (g : Nat)
  /-- The alignment-wait count reaches 2^k and faults the late streams (R38). -/
  | alignmentTimeout (g : Nat)
  /-- The drain after a taken YIELD ends and the save engine starts (R48). -/
  | yieldDrainComplete (g : Nat)
  /-- The save engine finishes writing the context image (R333). -/
  | contextSaveComplete (g : Nat)
  /-- A waiting pour's wait reaches CU_PREEMPT and a victim gang receives a request (R350). -/
  | preemptionRequest (p : Nat)
  /-- A cancel's steps end and the level takes CANCELLED (R52). -/
  | cancelComplete (kind : Nat) (id : Nat)
  /-- A gang's register sweep starts at an alignment point or after 2^16 wall cycles (R114). -/
  | registerSweepStart (g : Nat)
  /-- After the landings and 64 cycles the sweep clears marked tags and lifts (R114). -/
  | registerSweepEnd (g : Nat)
  /-- Every gang swept, the epoch enters SETTLE (R372). -/
  | epochSettle
  /-- Tag-keeping copies landed, the epoch enters FETTLE (R372). -/
  | epochFettle
  /-- The fettler visits a cap-store page or image and clears marked tags (R375). -/
  | fettlerVisit
  /-- The fettler has visited every page and the epoch returns to IDLE (R372). -/
  | epochEnd
  /-- The tick count advances every 2^16 cycles (R172). -/
  | leaseTick
  /-- A node's timed lease reaches its expiry (R172). -/
  | timedLeaseExpiry (e : Nat)
  /-- A holder's transfer lease expires and LAPSE is sent (R397). -/
  | transferLeaseExpiry (e : Nat) (dev : Nat) (tx : Nat)
  /-- Every 4,096 ticks the device sends RENEW to each home (R396). -/
  | renewPeriod
  /-- A home hears nothing from a device for 16,384 ticks and removes its holders (R396). -/
  | holderTimeout (dev : Nat)
  /-- A demoted ingot's copy is complete and its index entry switches to the new slot (R178). -/
  | demotionSwitch (e : Nat)
  /-- A planning interval ends, energy is charged and the budget and power limit re-evaluated (R354). -/
  | planningInterval (charges : List (Nat × Nat)) (mw : Nat) (temp : Nat)
  /-- ST_CYCLE reaches ST_TIMECMP and the TIMER event is pending (R320). -/
  | stewardTimer (n : Nat)
  /-- Four wall cycles after a fault hold, the serving steward's ST_GFAULT bit is set (R323). -/
  | gfaultNotify (g : Nat)
  /-- A pending enabled event or synchronous fault enters the steward handler (R321). -/
  | handlerEntry (n : Nat)
  /-- The host writes a ring's submission doorbell and the cupola evaluates the ring (R343). -/
  | submissionDoorbell (r : Nat) (v : Word)
  /-- The host acknowledges completion entries, freeing completion-ring space (R344). -/
  | completionAckDoorbell (r : Nat) (v : Word)
  /-- The cupola consumes a LAUNCH entry and submits its record (R342). -/
  | ringLaunch (r : Nat)
  /-- The cupola consumes a GOPEN entry and opens a graph (R342). -/
  | gopen (r : Nat)
  /-- The cupola consumes a GCLOSE entry and fixes the graph's total (R342). -/
  | gclose (r : Nat)
  /-- The cupola consumes a CANCEL entry for a launch, graph or session (R342). -/
  | ringCancel (r : Nat)
  /-- The cupola consumes a NOP entry (R342). -/
  | ringNop (r : Nat)
  /-- A host write to a steward doorbell latches HOST (R413). -/
  | stewardDoorbell (n : Nat)
  /-- A host write to the migration register starts a migration towards the host (R413). -/
  | hostMigrationStart (vareg : Word) (dst : Word)
  /-- The host requests a life-cycle change over its SPDM session (R429). -/
  | lcHostRequest (t : Nat)
  /-- The oldest gathered fault reaches the age threshold and a batch forms (R366). -/
  | faultBatchAge
  /-- Queue room appears and a held batch is written, setting FBATCH (R366). -/
  | faultBatchWrite
  /-- A page migration ends and TR_MIGST takes its status (R368). -/
  | migrationComplete (k : Nat)
  /-- A tundish slice reassignment finishes and CU_SLICEST clears busy (R357). -/
  | sliceReassignComplete
  /-- An HBM data-rate switch ends its stall (R407). -/
  | hmRateSwitchEnd
  /-- A slice in retention finishes waking (R388). -/
  | sliceWake (i : Nat)
  /-- A probe's answer does not arrive in time and the target becomes dead (R388). -/
  | probeTimeout (l : Nat)
  /-- A bridge or link error, link down or die stop makes an agent dead and latches CONTAIN (R390). -/
  | agentDeath (k : Nat)
  /-- Home receives a request for a shared copy (R381). -/
  | rds (l : Nat) (a : Nat) (part : Nat)
  /-- Home receives a request for an exclusive copy (R381). -/
  | rdx (l : Nat) (a : Nat) (part : Nat)
  /-- Home receives an upgrade request without data (R381). -/
  | upg (l : Nat) (a : Nat) (part : Nat)
  /-- Home receives a write-back with data (R381). -/
  | wbd (l : Nat) (a : Nat)
  /-- Home receives a clean eviction (R381). -/
  | wbe (l : Nat) (a : Nat)
  /-- Agent receives an invalidation probe (R380). -/
  | inv (l : Nat) (a : Nat)
  /-- Agent receives a forward-shared probe (R380). -/
  | fwds (l : Nat) (o : Nat) (a : Nat)
  /-- Agent receives a forward-exclusive probe (R380). -/
  | fwdx (l : Nat) (o : Nat) (a : Nat)
  /-- Agent receives line data with a grant (R380). -/
  | coherenceData (l : Nat) (a : Nat)
  /-- Agent receives the grant of an upgrade (R380). -/
  | cmp (l : Nat) (a : Nat)
  /-- Home receives an invalidation acknowledgement (R382). -/
  | invack (l : Nat) (a : Nat)
  /-- Home receives a forward acknowledgement (R382). -/
  | fwdack (l : Nat) (o : Nat)
  /-- Agent receives the absorption of its write-back or eviction (R380). -/
  | wback (l : Nat) (a : Nat)
  /-- Host read of device memory served as RdS or RdX (R384). -/
  | memrd (l : Nat) (own : Bool) (part : Nat)
  /-- Host write of device memory served as WBD (R384). -/
  | memwr (l : Nat) (off : Nat) (data : List Byte)
  /-- Back-invalidate snoop for data sent to the host in place of FwdS (R384). -/
  | bisnpdata (l : Nat)
  /-- Back-invalidate snoop sent to the host in place of FwdX (R384). -/
  | bisnpinv (l : Nat)
  /-- Home receives the host's snoop response (R384). -/
  | birsp (l : Nat) (inv : Bool)
  /-- Host conflict handshake orders a MemRd against a snoop (R384). -/
  | biconflict (l : Nat)
  /-- A home device receives a name lookup (R397). -/
  | lookup (src : Nat) (tx : Nat) (name : Nat)
  /-- A requester receives a lookup hit or miss (R397). -/
  | lookupR (src : Nat) (tx : Nat) (st : Nat) (w : Nat) (depth : Nat)
  /-- A holder receives a read request and opens a transfer lease (R397). -/
  | read (src : Nat) (tx : Nat) (idx : Nat) (gen : Nat) (off : Nat) (len : Nat) (tag : Nat)
  /-- A requester receives ingot data flits (R395). -/
  | data (src : Nat) (tx : Nat) (off : Nat) (data : List Byte)
  /-- A home receives a holder registration (R396). -/
  | reg (src : Nat) (tx : Nat) (name : Nat) (w : Nat) (depth : Nat) (cls : Nat)
  /-- A holder receives the answer to its registration (R396). -/
  | regAck (src : Nat) (tx : Nat) (st : Nat)
  /-- A home removes a holder whose ingot was deleted (R396). -/
  | retire (src : Nat) (name : Nat) (w : Nat)
  /-- A home receives a device's periodic renewal (R396). -/
  | renew (src : Nat)
  /-- A requester receives notice that its transfer lease lapsed (R181). -/
  | lapse (src : Nat) (tx : Nat) (off : Nat)
  /-- A requester receives a Crucible negative reply (R395). -/
  | nack (src : Nat) (tx : Nat) (st : Nat) (code : Nat)
  /-- A holder receives a node status request (R397). -/
  | stat (src : Nat) (tx : Nat) (idx : Nat) (gen : Nat) (j : Nat)
  /-- A requester receives a node status reply (R395). -/
  | statR (src : Nat) (tx : Nat) (word : Nat) (name : Nat) (depth : Nat) (anc : Nat)
  /-- A remote home or holder does not answer within CO_TMO × 64 wall cycles (R397). -/
  | remoteAnswerTimeout (tx : Nat)
  /-- A device receives a Fliran remote read packet (R414). -/
  | fliranRead (src : Nat) (psn : Nat) (apsn : Nat) (exp : Nat) (off : Nat) (len : Nat) (tag : Nat)
  /-- A device receives remote read data (R414). -/
  | fliranRdata (src : Nat) (psn : Nat) (apsn : Nat) (off : Nat) (tag : Nat) (body : List Byte)
  /-- An exporter receives a remote write packet and applies or refuses it (R417). `tag` holds FP_TAG in [31:0], and above it
  what FP_LEN counts beyond the payload (log entry 70). -/
  | fliranWrite (src : Nat) (psn : Nat) (apsn : Nat) (exp : Nat) (off : Nat) (tag : Nat) (body : List Byte)
  /-- A sender receives an acknowledgement of packets (R415). -/
  | fliranAck (src : Nat) (apsn : Nat)
  /-- A sender receives a sequence, not-ready, access or contained nack (R415). -/
  | fliranNack (src : Nat) (code : Nat) (psn : Nat) (tag : Nat)
  /-- A device receives a packet carrying a Crucible message (R395). -/
  | fliranCrucible (port : Nat) (src : Nat) (psn : Nat) (apsn : Nat) (body : List Byte)
  /-- FL_RTO passes without acknowledgement and the sender resends (R415). -/
  | resendTimeout (peer : Nat)
  /-- An endpoint context is fetched and a held packet is accepted (R415). -/
  | contextFetchComplete (peer : Nat)
  /-- A held packet waits 3,760 cycles and is answered NACK NOTREADY (R415). -/
  | contextFetchTimeout (peer : Nat)
  /-- The not-ready wait ends and the sender resends (R415). -/
  | rnrWaitExpiry (peer : Nat)
  /-- A Fliran or CXL port comes up, narrows or goes down and an event record is written (R416). -/
  | portStateChange (cxl : Bool) (p : Nat) (st : Nat) (err : Bool)
  /-- The host locks a trusted device interface (R410). -/
  | lockInterface (i : Nat)
  /-- The host reads a TDI's interface report (R410). -/
  | getDeviceInterfaceReport (i : Nat)
  /-- The host moves a TDI to RUN (R410). -/
  | startInterface (i : Nat)
  /-- The host stops a TDI, which leaves RUN (R410). -/
  | stopInterface (i : Nat)
  /-- The last packet before the revocation point performs and the export is invalidated (R418). -/
  | exportRevocationComplete
  /-- Power-on starts the reset steps (R430). -/
  | powerOn
  /-- A conventional reset on port 0 starts the reset steps (R430). -/
  | pcieConventionalReset
  /-- No BU_READY within 2^30 wall cycles ends the start as failed with NOREADY (R430). -/
  | readyTimeout
  /-- The hottest junction reaches the trip temperature and the package resets (R434). -/
  | thermalTrip
  /-- Write moving a held or frozen stream's next fetch (R326). -/
  | gwPc (n : Nat) (v : Word)
  /-- Write of a held or frozen stream's fflags (R326). -/
  | gwFflags (n : Nat) (v : Word)
  /-- Write requesting reassignment of a tundish slice (R357). -/
  | cuSlicereq (n : Nat) (v : Word)
  /-- W1C write restarting a halted submission ring (R340). -/
  | cuRingrun (n : Nat) (v : Word)
  /-- Write starting a page-table walk for a virtual address (R364). -/
  | trProbe (n : Nat) (v : Word)
  /-- Write invalidating TLB entries and extents in a scope (R364). -/
  | trInval (n : Nat) (v : Word)
  /-- Write posting a residency fault to the gatherer (R364). -/
  | trFpost (n : Nat) (v : Word)
  /-- Write making the cupola retranslate every pour held for residency (R364). -/
  | trRetry (n : Nat) (v : Word)
  /-- Write starting a page migration from a descriptor (R368). -/
  | trMigrate (n : Nat) (v : Word)
  /-- Write declaring agents dead (R389). -/
  | coDeclare (n : Nat) (v : Word)
  /-- Write flushing and invalidating every copy of a frame range (R389). -/
  | coFlush (n : Nat) (v : Word)
  /-- Read removing the next halted session number (R389). -/
  | coHaltq (n : Nat)
  /-- Write starting a data-rate switch of HBM channels (R407). -/
  | hmRate (n : Nat) (v : Word)
  /-- Write retiring a frame (R406). -/
  | hmRetireWrite (n : Nat) (v : Word)
  /-- Read removing the oldest hardware-retired frame (R406). -/
  | hmRetireRead (n : Nat)
  /-- Write masking an HBM channel and retiring its frames (R408). -/
  | hmChmask (n : Nat) (v : Word)
  /-- Write clearing the HBM error counts (R406). -/
  | hmEcnt (n : Nat) (v : Word)
  /-- Write clearing all pseudo-channel access counters (R420). -/
  | hmPcclr (n : Nat) (v : Word)
  /-- Write fixing the revocation point of an export (R418). -/
  | xrRevoke (n : Nat) (v : Word)
  /-- Steward request for a life-cycle change (R429). -/
  | buLcreq (n : Nat) (v : Word)
  /-- Write ending reset step 7 and clearing the failed-start count (R433). -/
  | buReady (n : Nat) (v : Word)
  /-- Write of 0x0D1E starting a reset (R430). -/
  | buReset (n : Nat) (v : Word)
  /-- The supply is lost, stopping the device in whatever state it is in, including midway through a reset after a life-cycle fuse write (R428). -/
  | powerLoss
  /-- The host's trusted security manager installs an AES-XTS key pair and binds it to one TDI (R409). -/
  | keyPairInstall (key : Nat) (i : Nat)
  /-- A trusted device interface enters the TDISP ERROR state, leaving RUN and destroying its keys (R410). -/
  | tdiError (i : Nat)
  /-- A PFC priority-3 pause or resume frame arrives on a Fliran port, setting or clearing its paused state (R414). -/
  | pfcPause (p : Nat) (on : Bool)
  /-- A Fliran packet of an undefined FP_TYPE arrives and is discarded and counted, later reported by an event of code 6 (R414). -/
  | discardedPacket (port : Nat)
  /-- A tundish slice is placed in retention, keeping its contents and serving no access (R388). -/
  | sliceRetention (i : Nat)
  deriving DecidableEq, Repr

end Sys2Proof
end

