-- ==== Sys2Proof/WellFormed.lean ====
section
/-!
DEFINITION. Well-formed instructions: every selector, order, scope, format and rounding code holds a defined value
(check 3 of R184; the codes are those of R55, R64, R138, R143 and of each instruction's own rule).
-/
namespace Sys2Proof

/-- A scope code of R138: 0 to 5. -/
def scopeCode (s : BitVec 3) : Bool := decide (s.toNat < 6)

/-- A rounding code of R64: 0 to 4, or 7 for the dynamic mode. -/
def rmCode (r : BitVec 3) : Bool := decide (r.toNat < 5) || decide (r.toNat = 7)

/-- The fields of the instruction hold defined codes. -/
def Instr.wf : Instr → Bool
  | .nop _ => true
  | .hint _ _ _ => true
  | .idleImm _ n => decide (n.toNat ≠ 0)
  | .idleReg _ _ => true
  | .align _ _ => true
  | .rdv _ => true
  | .ffrd _ _ => true
  | .ffwr _ _ => true
  | .mbget _ _ _ => true
  | .mbput _ _ _ => true
  | .add _ _ _ _ => true
  | .sub _ _ _ _ => true
  | .and _ _ _ _ => true
  | .or _ _ _ _ => true
  | .xor _ _ _ _ => true
  | .sll _ _ _ _ => true
  | .srl _ _ _ _ => true
  | .sra _ _ _ _ => true
  | .slt _ _ _ _ => true
  | .sltu _ _ _ _ => true
  | .min _ _ _ _ => true
  | .max _ _ _ _ => true
  | .minu _ _ _ _ => true
  | .maxu _ _ _ _ => true
  | .mul _ _ _ _ => true
  | .mulh _ _ _ _ => true
  | .mulhu _ _ _ _ => true
  | .mulhsu _ _ _ _ => true
  | .addi _ _ _ _ => true
  | .andi _ _ _ _ => true
  | .ori _ _ _ _ => true
  | .xori _ _ _ _ => true
  | .slli _ _ _ _ => true
  | .srli _ _ _ _ => true
  | .srai _ _ _ _ => true
  | .slti _ _ _ _ => true
  | .sltiu _ _ _ _ => true
  | .lil _ _ _ => true
  | .lih _ _ _ => true
  | .beq _ _ _ _ => true
  | .bne _ _ _ _ => true
  | .blt _ _ _ _ => true
  | .bge _ _ _ _ => true
  | .bltu _ _ _ _ => true
  | .bgeu _ _ _ _ => true
  | .jal _ _ _ => true
  | .jr _ _ _ _ => true
  | .loop _ _ _ => true
  | .ldb _ _ _ o s _ => decide (o.toNat ≤ 1) && scopeCode s
  | .ldbu _ _ _ o s _ => decide (o.toNat ≤ 1) && scopeCode s
  | .ldh _ _ _ o s _ => decide (o.toNat ≤ 1) && scopeCode s
  | .ldhu _ _ _ o s _ => decide (o.toNat ≤ 1) && scopeCode s
  | .ldw _ _ _ o s _ => decide (o.toNat ≤ 1) && scopeCode s
  | .ldwu _ _ _ o s _ => decide (o.toNat ≤ 1) && scopeCode s
  | .ldd _ _ _ o s _ => decide (o.toNat ≤ 1) && scopeCode s
  | .stb _ _ _ o e _ => decide (o.toNat % 2 = 0 ∧ o.toNat ≤ 2) && scopeCode e
  | .sth _ _ _ o e _ => decide (o.toNat % 2 = 0 ∧ o.toNat ≤ 2) && scopeCode e
  | .stw _ _ _ o e _ => decide (o.toNat % 2 = 0 ∧ o.toNat ≤ 2) && scopeCode e
  | .std _ _ _ o e _ => decide (o.toNat % 2 = 0 ∧ o.toNat ≤ 2) && scopeCode e
  | .aadd _ _ _ _ _ s => scopeCode s
  | .amin _ _ _ _ _ s => scopeCode s
  | .amax _ _ _ _ _ s => scopeCode s
  | .aand _ _ _ _ _ s => scopeCode s
  | .aor _ _ _ _ _ s => scopeCode s
  | .axor _ _ _ _ _ s => scopeCode s
  | .aswp _ _ _ _ _ s => scopeCode s
  | .acas _ _ _ _ _ _ e => scopeCode e
  | .fence _ _ s => scopeCode s
  | .tfence _ _ => true
  | .binit _ _ _ => true
  | .barrive _ _ => true
  | .bexpect _ _ _ => true
  | .holdWptr _ _ _ => true
  | .holdBarrier _ _ => true
  | .holdRing _ _ _ => true
  | .send _ _ _ _ _ => true
  | .recv _ _ _ _ _ => true
  | .racq _ _ _ => true
  | .rpub _ _ _ => true
  | .rtake _ _ _ => true
  | .rfree _ _ _ => true
  | .cgeta _ _ _ => true
  | .cgetb _ _ _ => true
  | .cgetl _ _ _ => true
  | .cgetp _ _ _ => true
  | .cgett _ _ _ => true
  | .cgeto _ _ _ => true
  | .cseta _ _ _ _ => true
  | .cincaReg _ _ _ _ => true
  | .cincaImm _ _ _ _ => true
  | .csetb _ _ _ _ => true
  | .csetbr _ _ _ _ => true
  | .candp _ _ _ _ => true
  | .clock _ _ _ _ => true
  | .cunlock _ _ _ _ => true
  | .ctsub _ _ _ _ => true
  | .cmov _ _ _ => true
  | .cldc _ _ _ _ => true
  | .cstc _ _ _ _ => true
  | .cjal _ _ _ => true
  | .cjr _ _ => true
  | .yield _ _ => true
  | .kmatch _ _ _ _ _ => true
  | .kopen _ _ _ _ _ => true
  | .kseal _ _ _ _ _ _ => true
  | .klease _ _ _ => true
  | .krenew _ _ _ => true
  | .kdrop _ _ _ => true
  | .kpin _ _ _ _ => true
  | .kunpin _ _ _ _ => true
  | .krepl _ _ _ _ _ => true
  | .kstat _ _ _ _ => true
  | .kclass _ _ _ => true
  | .kname _ _ _ => true
  | .kdepth _ _ _ => true
  | .kanc _ _ _ _ => true
  | .launch _ _ _ _ => true
  | .gcancel _ _ _ => true
  | .cwread _ _ _ => true
  | .eread _ _ _ => true
  | .csrr _ _ _ => true
  | .csrw _ _ _ => true
  | .trap _ _ => true
  | .eret _ => true
  | .wfe _ => true
  | .sweepOpen _ _ => true
  | .sweepStat _ _ => true
  | .sweepForce _ _ => true
  | .xins _ _ _ => true
  | .maskw _ _ _ i => decide (i.toNat < 9)
  | .freeze _ _ => true
  | .thaw _ _ _ => true
  | .cancel _ _ _ => true
  | .cpy _ _ _ _ _ e => scopeCode e
  | .cpyn _ _ _ _ _ e => scopeCode e
  | .gath _ _ _ _ _ e => scopeCode e
  | .scat _ _ _ _ _ e => scopeCode e
  | .scadd _ _ _ _ _ e => scopeCode e
  | .mcast _ _ _ _ _ e => scopeCode e
  | .rread _ _ _ x _ e => scopeCode e && decide (x.toNat ≠ 31)
  | .rwrite _ _ _ x _ e => scopeCode e && decide (x.toNat ≠ 31)
  | .kget _ _ _ x _ e => scopeCode e && decide (x.toNat ≠ 31)
  | .kput _ _ _ _ _ e => scopeCode e
  | .sqld _ _ _ _ => true
  | .qbind _ _ _ => true
  | .qop _ _ _ => true
  | .qstart _ _ => true
  | .qstop _ _ => true
  | .wprd _ _ _ => true
  | .vshapeWr _ _ => true
  | .vshapeRd _ _ => true
  | .vshapeVl _ _ => true
  | .vadd _ _ _ _ _ => true
  | .vsub _ _ _ _ _ => true
  | .vmul _ _ _ _ _ => true
  | .vfma _ _ _ _ _ => true
  | .vfms _ _ _ _ _ => true
  | .vmax _ _ _ _ _ => true
  | .vmin _ _ _ _ _ => true
  | .vabs _ _ _ _ => true
  | .vneg _ _ _ _ => true
  | .vrcp _ _ _ _ => true
  | .vrsq _ _ _ _ => true
  | .vexp2 _ _ _ _ => true
  | .vlog2 _ _ _ _ => true
  | .vcvt _ _ _ t k r => decide (t.toNat < 8) && decide (k.toNat < 3) && rmCode r
  | .viadd _ _ _ _ _ => true
  | .visub _ _ _ _ _ => true
  | .vimul _ _ _ _ _ => true
  | .vimin _ _ _ _ _ => true
  | .vimax _ _ _ _ _ => true
  | .vand _ _ _ _ _ => true
  | .vor _ _ _ _ _ => true
  | .vxor _ _ _ _ _ => true
  | .vshl _ _ _ _ _ => true
  | .vshr _ _ _ _ _ => true
  | .vsra _ _ _ _ _ => true
  | .vcmp _ _ _ _ _ => true
  | .vicmp _ _ _ _ c => decide (c.toNat < 6)
  | .vsel _ _ _ _ _ => true
  | .vrsum _ _ _ _ r => rmCode r
  | .vrmax _ _ _ _ r => rmCode r
  | .vrmin _ _ _ _ r => rmCode r
  | .vrisum _ _ _ _ r => rmCode r
  | .vrimax _ _ _ _ r => rmCode r
  | .vrimin _ _ _ _ r => rmCode r
  | .vscsum _ _ _ _ r => rmCode r
  | .vscmax _ _ _ _ r => rmCode r
  | .vscmin _ _ _ _ r => rmCode r
  | .vscisum _ _ _ _ r => rmCode r
  | .vscimax _ _ _ _ r => rmCode r
  | .vscimin _ _ _ _ r => rmCode r
  | .vperm _ _ _ _ _ => true
  | .vslide _ _ _ _ _ => true
  | .vbcst _ _ _ _ => true
  | .vmovxToX _ _ _ _ => true
  | .vmovxToV _ _ _ _ => true
  | .vld _ _ _ _ _ _ => true
  | .vst _ _ _ _ _ _ => true
  | .vgath _ _ _ _ _ _ => true
  | .vscat _ _ _ _ _ _ => true
  | .vpop _ _ _ => true
  | .vlqnt _ _ _ _ _ _ => true
  | .vldec _ _ _ _ r => rmCode r
  | .plog _ _ _ _ _ => true
  | .pcntCount _ _ _ _ => true
  | .pcntFirst _ _ _ _ => true
  | .pcntLast _ _ _ _ => true
  | .psetFirst _ _ _ => true
  | .psetFromx _ _ _ => true
  | .psetTox _ _ _ => true
  | .mshapeReq _ _ => true
  | .mshapeGet _ _ => true
  | .mclaim _ o n => decide (o.toNat + n.toNat < 16)
  | .mrelease _ o n => decide (o.toNat + n.toNat < 16)
  | .mfillScratch _ _ _ _ => true
  | .mfillStream _ _ _ _ => true
  | .mma _ _ _ _ _ _ => true
  | .mmal _ _ _ _ _ _ => true
  | .mzero _ _ => true
  | .mdrain _ _ _ f _ r _ => decide (f.toNat < 6) && rmCode r
  | .mdrainp _ _ _ _ => true
  | .mmodeSet _ v => decide (v.toNat % 8 < 5)
  | .mmodeSetx _ _ => true
  | .mmodeGet _ _ => true
  | .mscale _ n => decide (1 ≤ n.toNat ∧ n.toNat ≤ 64)
  | .pourPlacement _ => true
  | .contextRestoreComplete _ => true
  | .pourRetirement _ => true
  | .globalAccessReturn _ => true
  | .globalStorePerform _ => true
  | .copyLanding _ _ _ _ => true
  | .copyFaultAfterIssue _ => true
  | .patternDecode _ _ _ => true
  | .crucibleCompletion _ => true
  | .cupolaAnswer _ => true
  | .ringReport _ => true
  | .homeAtomic _ => true
  | .scaddReduction _ _ => true
  | .drainAddLanding _ _ => true
  | .drainAddRefusal _ => true
  | .freezeTimeout _ => true
  | .alignmentTimeout _ => true
  | .yieldDrainComplete _ => true
  | .contextSaveComplete _ => true
  | .preemptionRequest _ => true
  | .cancelComplete _ _ => true
  | .registerSweepStart _ => true
  | .registerSweepEnd _ => true
  | .epochSettle => true
  | .epochFettle => true
  | .fettlerVisit => true
  | .epochEnd => true
  | .leaseTick => true
  | .timedLeaseExpiry _ => true
  | .transferLeaseExpiry _ _ _ => true
  | .renewPeriod => true
  | .holderTimeout _ => true
  | .demotionSwitch _ => true
  | .planningInterval _ _ _ => true
  | .stewardTimer _ => true
  | .gfaultNotify _ => true
  | .handlerEntry _ => true
  | .submissionDoorbell _ _ => true
  | .completionAckDoorbell _ _ => true
  | .ringLaunch _ => true
  | .gopen _ => true
  | .gclose _ => true
  | .ringCancel _ => true
  | .ringNop _ => true
  | .stewardDoorbell _ => true
  | .hostMigrationStart _ _ => true
  | .lcHostRequest _ => true
  | .faultBatchAge => true
  | .faultBatchWrite => true
  | .migrationComplete _ => true
  | .sliceReassignComplete => true
  | .hmRateSwitchEnd => true
  | .sliceWake _ => true
  | .probeTimeout _ => true
  | .agentDeath _ => true
  | .rds _ _ _ => true
  | .rdx _ _ _ => true
  | .upg _ _ _ => true
  | .wbd _ _ => true
  | .wbe _ _ => true
  | .inv _ _ => true
  | .fwds _ _ _ => true
  | .fwdx _ _ _ => true
  | .coherenceData _ _ => true
  | .cmp _ _ => true
  | .invack _ _ => true
  | .fwdack _ _ => true
  | .wback _ _ => true
  | .memrd _ _ _ => true
  | .memwr _ _ _ => true
  | .bisnpdata _ => true
  | .bisnpinv _ => true
  | .birsp _ _ => true
  | .biconflict _ => true
  | .lookup _ _ _ => true
  | .lookupR _ _ _ _ _ => true
  | .read _ _ _ _ _ _ _ => true
  | .data _ _ _ _ => true
  | .reg _ _ _ _ _ _ => true
  | .regAck _ _ _ => true
  | .retire _ _ _ => true
  | .renew _ => true
  | .lapse _ _ _ => true
  | .nack _ _ _ _ => true
  | .stat _ _ _ _ _ => true
  | .statR _ _ _ _ _ _ => true
  | .remoteAnswerTimeout _ => true
  | .fliranRead _ _ _ _ _ _ _ => true
  | .fliranRdata _ _ _ _ _ _ => true
  | .fliranWrite _ _ _ _ _ _ _ => true
  | .fliranAck _ _ => true
  | .fliranNack _ _ _ _ => true
  | .fliranCrucible _ _ _ _ _ => true
  | .resendTimeout _ => true
  | .contextFetchComplete _ => true
  | .contextFetchTimeout _ => true
  | .rnrWaitExpiry _ => true
  | .portStateChange _ _ _ _ => true
  | .lockInterface _ => true
  | .getDeviceInterfaceReport _ => true
  | .startInterface _ => true
  | .stopInterface _ => true
  | .exportRevocationComplete => true
  | .powerOn => true
  | .pcieConventionalReset => true
  | .readyTimeout => true
  | .thermalTrip => true
  | .gwPc _ _ => true
  | .gwFflags _ _ => true
  | .cuSlicereq _ _ => true
  | .cuRingrun _ _ => true
  | .trProbe _ _ => true
  | .trInval _ _ => true
  | .trFpost _ _ => true
  | .trRetry _ _ => true
  | .trMigrate _ _ => true
  | .coDeclare _ _ => true
  | .coFlush _ _ => true
  | .coHaltq _ => true
  | .hmRate _ _ => true
  | .hmRetireWrite _ _ => true
  | .hmRetireRead _ => true
  | .hmChmask _ _ => true
  | .hmEcnt _ _ => true
  | .hmPcclr _ _ => true
  | .xrRevoke _ _ => true
  | .buLcreq _ _ => true
  | .buReady _ _ => true
  | .buReset _ _ => true
  | .powerLoss => true
  | .keyPairInstall _ _ => true
  | .tdiError _ => true
  | .pfcPause _ _ => true
  | .discardedPacket _ => true
  | .sliceRetention _ => true

end Sys2Proof
end

