-- ==== Sys2Proof/Decode.lean ====
section
/-!
DEFINITION. Decoding of instruction words (spec/09_encoding_and_assembly.md R184 to R193), total on every word,
and the encoder written from the same tables.
-/
namespace Sys2Proof
open Sys2Proof.Machine

/-- Why a word is no instruction: the sub-causes of the illegal-instruction fault (R324, code 1). -/
inductive DecErr where
  | unassigned | reserved | notPermitted
  deriving DecidableEq, Repr

/-- Sub-cause code (R324). -/
def DecErr.code : DecErr → Nat
  | .unassigned => 0 | .reserved => 1 | .notPermitted => 2

/-- The map that decodes a word: the stream, and for seq and ladle whether the cell is a steward; for seq, the cell
index within the gang (R184, R185). -/
inductive IMap where
  | seq (steward : Bool) (cell : Nat)
  | ladle (steward : Bool)
  | vec
  | mat
  deriving DecidableEq, Repr

/-- The map belongs to a steward cell. -/
def IMap.steward : IMap → Bool
  | .seq s _ => s | .ladle s => s | .vec => false | .mat => false

/-- Field `hi..lo` as 1 bits. -/
def f1 (w hi lo : Nat) : BitVec 1 := BitVec.ofNat 1 (bits w hi lo)

/-- Field `hi..lo` as 2 bits. -/
def f2 (w hi lo : Nat) : BitVec 2 := BitVec.ofNat 2 (bits w hi lo)

/-- Field `hi..lo` as 3 bits. -/
def f3 (w hi lo : Nat) : BitVec 3 := BitVec.ofNat 3 (bits w hi lo)

/-- Field `hi..lo` as 4 bits. -/
def f4 (w hi lo : Nat) : BitVec 4 := BitVec.ofNat 4 (bits w hi lo)

/-- Field `hi..lo` as 5 bits. -/
def f5 (w hi lo : Nat) : BitVec 5 := BitVec.ofNat 5 (bits w hi lo)

/-- Field `hi..lo` as 6 bits. -/
def f6 (w hi lo : Nat) : BitVec 6 := BitVec.ofNat 6 (bits w hi lo)

/-- Field `hi..lo` as 7 bits. -/
def f7 (w hi lo : Nat) : BitVec 7 := BitVec.ofNat 7 (bits w hi lo)

/-- Field `hi..lo` as 8 bits. -/
def f8 (w hi lo : Nat) : BitVec 8 := BitVec.ofNat 8 (bits w hi lo)

/-- Field `hi..lo` as 11 bits. -/
def f11 (w hi lo : Nat) : BitVec 11 := BitVec.ofNat 11 (bits w hi lo)

/-- Field `hi..lo` as 12 bits. -/
def f12 (w hi lo : Nat) : BitVec 12 := BitVec.ofNat 12 (bits w hi lo)

/-- Field `hi..lo` as 13 bits. -/
def f13 (w hi lo : Nat) : BitVec 13 := BitVec.ofNat 13 (bits w hi lo)

/-- Field `hi..lo` as 16 bits. -/
def f16 (w hi lo : Nat) : BitVec 16 := BitVec.ofNat 16 (bits w hi lo)

/-- Field `hi..lo` as 20 bits. -/
def f20 (w hi lo : Nat) : BitVec 20 := BitVec.ofNat 20 (bits w hi lo)

/-- Field `hi..lo` as 21 bits. -/
def f21 (w hi lo : Nat) : BitVec 21 := BitVec.ofNat 21 (bits w hi lo)

/-- The instruction if its codes are defined, else the reserved-field error (check 3 of R184). -/
def legal (i : Instr) : Except DecErr Instr := if i.wf then .ok i else .error .reserved

/-- Opcodes of the shared subset (R188). -/
def shared (op : Nat) : Bool := (decide (1 ≤ op) && decide (op ≤ 0x1C)) || op == 0x32 || op == 0x39 || op == 0x3A

/-- Hints (R185): never a fault. -/
def decHint (w : Nat) : Except DecErr Instr := .ok (.hint (f4 w 31 28) (f2 w 22 21) (f21 w 20 0))

/-- The common scalar map (R187). -/
def decScalar (w : Nat) : Nat → Except DecErr Instr
  | 0x01 =>
    if bits w 20 0 = 0 then legal (.nop (f4 w 31 28))
    else .error .reserved
  | 0x02 =>
    if bits w 20 20 = 0 then legal (.idleImm (f4 w 31 28) (f20 w 19 0))
    else if bits w 20 5 = 32768 then legal (.idleReg (f4 w 31 28) (f5 w 4 0))
    else .error .reserved
  | 0x03 =>
    if bits w 20 8 = 0 then legal (.align (f4 w 31 28) (f8 w 7 0))
    else .error .reserved
  | 0x04 =>
    if bits w 20 0 = 0 then legal (.rdv (f4 w 31 28))
    else .error .reserved
  | 0x05 =>
    if bits w 15 0 = 0 then legal (.ffrd (f4 w 31 28) (f5 w 20 16))
    else .error .reserved
  | 0x06 =>
    if bits w 15 0 = 0 then legal (.ffwr (f4 w 31 28) (f5 w 20 16))
    else .error .reserved
  | 0x07 =>
    if bits w 11 0 = 0 then legal (.mbget (f4 w 31 28) (f5 w 20 16) (f4 w 15 12))
    else .error .reserved
  | 0x08 =>
    if bits w 11 0 = 0 then legal (.mbput (f4 w 31 28) (f5 w 20 16) (f4 w 15 12))
    else .error .reserved
  | 0x09 =>
    if bits w 5 0 = 0 then legal (.add (f4 w 31 28) (f5 w 20 16) (f5 w 15 11) (f5 w 10 6))
    else if bits w 5 0 = 1 then legal (.sub (f4 w 31 28) (f5 w 20 16) (f5 w 15 11) (f5 w 10 6))
    else if bits w 5 0 = 2 then legal (.and (f4 w 31 28) (f5 w 20 16) (f5 w 15 11) (f5 w 10 6))
    else if bits w 5 0 = 3 then legal (.or (f4 w 31 28) (f5 w 20 16) (f5 w 15 11) (f5 w 10 6))
    else if bits w 5 0 = 4 then legal (.xor (f4 w 31 28) (f5 w 20 16) (f5 w 15 11) (f5 w 10 6))
    else if bits w 5 0 = 5 then legal (.sll (f4 w 31 28) (f5 w 20 16) (f5 w 15 11) (f5 w 10 6))
    else if bits w 5 0 = 6 then legal (.srl (f4 w 31 28) (f5 w 20 16) (f5 w 15 11) (f5 w 10 6))
    else if bits w 5 0 = 7 then legal (.sra (f4 w 31 28) (f5 w 20 16) (f5 w 15 11) (f5 w 10 6))
    else if bits w 5 0 = 8 then legal (.slt (f4 w 31 28) (f5 w 20 16) (f5 w 15 11) (f5 w 10 6))
    else if bits w 5 0 = 9 then legal (.sltu (f4 w 31 28) (f5 w 20 16) (f5 w 15 11) (f5 w 10 6))
    else if bits w 5 0 = 10 then legal (.min (f4 w 31 28) (f5 w 20 16) (f5 w 15 11) (f5 w 10 6))
    else if bits w 5 0 = 11 then legal (.max (f4 w 31 28) (f5 w 20 16) (f5 w 15 11) (f5 w 10 6))
    else if bits w 5 0 = 12 then legal (.minu (f4 w 31 28) (f5 w 20 16) (f5 w 15 11) (f5 w 10 6))
    else if bits w 5 0 = 13 then legal (.maxu (f4 w 31 28) (f5 w 20 16) (f5 w 15 11) (f5 w 10 6))
    else .error .reserved
  | 0x0A =>
    if bits w 5 0 = 0 then legal (.mul (f4 w 31 28) (f5 w 20 16) (f5 w 15 11) (f5 w 10 6))
    else if bits w 5 0 = 1 then legal (.mulh (f4 w 31 28) (f5 w 20 16) (f5 w 15 11) (f5 w 10 6))
    else if bits w 5 0 = 2 then legal (.mulhu (f4 w 31 28) (f5 w 20 16) (f5 w 15 11) (f5 w 10 6))
    else if bits w 5 0 = 3 then legal (.mulhsu (f4 w 31 28) (f5 w 20 16) (f5 w 15 11) (f5 w 10 6))
    else .error .reserved
  | 0x0B =>
    legal (.addi (f4 w 31 28) (f5 w 20 16) (f5 w 15 11) (f11 w 10 0))
  | 0x0C =>
    legal (.andi (f4 w 31 28) (f5 w 20 16) (f5 w 15 11) (f11 w 10 0))
  | 0x0D =>
    legal (.ori (f4 w 31 28) (f5 w 20 16) (f5 w 15 11) (f11 w 10 0))
  | 0x0E =>
    legal (.xori (f4 w 31 28) (f5 w 20 16) (f5 w 15 11) (f11 w 10 0))
  | 0x0F =>
    if bits w 10 6 = 0 then legal (.slli (f4 w 31 28) (f5 w 20 16) (f5 w 15 11) (f6 w 5 0))
    else if bits w 10 6 = 8 then legal (.srli (f4 w 31 28) (f5 w 20 16) (f5 w 15 11) (f6 w 5 0))
    else if bits w 10 6 = 16 then legal (.srai (f4 w 31 28) (f5 w 20 16) (f5 w 15 11) (f6 w 5 0))
    else .error .reserved
  | 0x10 =>
    legal (.slti (f4 w 31 28) (f5 w 20 16) (f5 w 15 11) (f11 w 10 0))
  | 0x11 =>
    legal (.sltiu (f4 w 31 28) (f5 w 20 16) (f5 w 15 11) (f11 w 10 0))
  | 0x12 =>
    legal (.lil (f4 w 31 28) (f5 w 20 16) (f16 w 15 0))
  | 0x13 =>
    legal (.lih (f4 w 31 28) (f5 w 20 16) (f16 w 15 0))
  | 0x14 =>
    legal (.beq (f4 w 31 28) (f5 w 20 16) (f5 w 15 11) (f11 w 10 0))
  | 0x15 =>
    legal (.bne (f4 w 31 28) (f5 w 20 16) (f5 w 15 11) (f11 w 10 0))
  | 0x16 =>
    legal (.blt (f4 w 31 28) (f5 w 20 16) (f5 w 15 11) (f11 w 10 0))
  | 0x17 =>
    legal (.bge (f4 w 31 28) (f5 w 20 16) (f5 w 15 11) (f11 w 10 0))
  | 0x18 =>
    legal (.bltu (f4 w 31 28) (f5 w 20 16) (f5 w 15 11) (f11 w 10 0))
  | 0x19 =>
    legal (.bgeu (f4 w 31 28) (f5 w 20 16) (f5 w 15 11) (f11 w 10 0))
  | 0x1A =>
    legal (.jal (f4 w 31 28) (f5 w 20 16) (f16 w 15 0))
  | 0x1B =>
    legal (.jr (f4 w 31 28) (f5 w 20 16) (f5 w 15 11) (f11 w 10 0))
  | 0x1C =>
    legal (.loop (f4 w 31 28) (f5 w 20 16) (f16 w 15 0))
  | 0x1D =>
    if bits w 11 9 = 0 then legal (.ldb (f4 w 31 28) (f5 w 20 16) (f4 w 15 12) (f2 w 8 7) (f3 w 6 4) (f4 w 3 0))
    else if bits w 11 9 = 1 then legal (.ldbu (f4 w 31 28) (f5 w 20 16) (f4 w 15 12) (f2 w 8 7) (f3 w 6 4) (f4 w 3 0))
    else if bits w 11 9 = 2 then legal (.ldh (f4 w 31 28) (f5 w 20 16) (f4 w 15 12) (f2 w 8 7) (f3 w 6 4) (f4 w 3 0))
    else if bits w 11 9 = 3 then legal (.ldhu (f4 w 31 28) (f5 w 20 16) (f4 w 15 12) (f2 w 8 7) (f3 w 6 4) (f4 w 3 0))
    else if bits w 11 9 = 4 then legal (.ldw (f4 w 31 28) (f5 w 20 16) (f4 w 15 12) (f2 w 8 7) (f3 w 6 4) (f4 w 3 0))
    else if bits w 11 9 = 5 then legal (.ldwu (f4 w 31 28) (f5 w 20 16) (f4 w 15 12) (f2 w 8 7) (f3 w 6 4) (f4 w 3 0))
    else if bits w 11 9 = 6 then legal (.ldd (f4 w 31 28) (f5 w 20 16) (f4 w 15 12) (f2 w 8 7) (f3 w 6 4) (f4 w 3 0))
    else .error .reserved
  | 0x1E =>
    if bits w 11 10 = 0 then legal (.stb (f4 w 31 28) (f5 w 20 16) (f4 w 15 12) (f2 w 9 8) (f3 w 7 5) (f5 w 4 0))
    else if bits w 11 10 = 1 then legal (.sth (f4 w 31 28) (f5 w 20 16) (f4 w 15 12) (f2 w 9 8) (f3 w 7 5) (f5 w 4 0))
    else if bits w 11 10 = 2 then legal (.stw (f4 w 31 28) (f5 w 20 16) (f4 w 15 12) (f2 w 9 8) (f3 w 7 5) (f5 w 4 0))
    else if bits w 11 10 = 3 then legal (.std (f4 w 31 28) (f5 w 20 16) (f4 w 15 12) (f2 w 9 8) (f3 w 7 5) (f5 w 4 0))
    else .error .reserved
  | 0x1F =>
    if bits w 11 9 = 0 ∧ bits w 2 0 = 0 then legal (.aadd (f4 w 31 28) (f5 w 20 16) (f4 w 15 12) (f1 w 8 8) (f2 w 7 6) (f3 w 5 3))
    else if bits w 11 9 = 1 ∧ bits w 2 0 = 0 then legal (.amin (f4 w 31 28) (f5 w 20 16) (f4 w 15 12) (f1 w 8 8) (f2 w 7 6) (f3 w 5 3))
    else if bits w 11 9 = 2 ∧ bits w 2 0 = 0 then legal (.amax (f4 w 31 28) (f5 w 20 16) (f4 w 15 12) (f1 w 8 8) (f2 w 7 6) (f3 w 5 3))
    else if bits w 11 9 = 3 ∧ bits w 2 0 = 0 then legal (.aand (f4 w 31 28) (f5 w 20 16) (f4 w 15 12) (f1 w 8 8) (f2 w 7 6) (f3 w 5 3))
    else if bits w 11 9 = 4 ∧ bits w 2 0 = 0 then legal (.aor (f4 w 31 28) (f5 w 20 16) (f4 w 15 12) (f1 w 8 8) (f2 w 7 6) (f3 w 5 3))
    else if bits w 11 9 = 5 ∧ bits w 2 0 = 0 then legal (.axor (f4 w 31 28) (f5 w 20 16) (f4 w 15 12) (f1 w 8 8) (f2 w 7 6) (f3 w 5 3))
    else if bits w 11 9 = 6 ∧ bits w 2 0 = 0 then legal (.aswp (f4 w 31 28) (f5 w 20 16) (f4 w 15 12) (f1 w 8 8) (f2 w 7 6) (f3 w 5 3))
    else .error .reserved
  | 0x20 =>
    if bits w 0 0 = 0 then legal (.acas (f4 w 31 28) (f5 w 20 16) (f4 w 15 12) (f5 w 11 7) (f1 w 6 6) (f2 w 5 4) (f3 w 3 1))
    else .error .reserved
  | 0x21 =>
    if bits w 20 12 = 0 ∧ bits w 6 0 = 0 then legal (.fence (f4 w 31 28) (f2 w 11 10) (f3 w 9 7))
    else .error .reserved
  | 0x22 =>
    if bits w 20 12 = 0 ∧ bits w 7 0 = 0 then legal (.tfence (f4 w 31 28) (f4 w 11 8))
    else .error .reserved
  | 0x23 =>
    if bits w 20 12 = 0 ∧ bits w 0 0 = 0 then legal (.binit (f4 w 31 28) (f5 w 11 7) (f6 w 6 1))
    else .error .reserved
  | 0x24 =>
    if bits w 20 12 = 0 ∧ bits w 6 0 = 0 then legal (.barrive (f4 w 31 28) (f5 w 11 7))
    else .error .reserved
  | 0x25 =>
    if bits w 15 12 = 0 ∧ bits w 6 0 = 0 then legal (.bexpect (f4 w 31 28) (f5 w 20 16) (f5 w 11 7))
    else .error .reserved
  | 0x26 =>
    if bits w 15 10 = 0 ∧ bits w 6 0 = 0 then legal (.holdWptr (f4 w 31 28) (f5 w 20 16) (f3 w 9 7))
    else if bits w 20 10 = 1 ∧ bits w 4 0 = 0 then legal (.holdBarrier (f4 w 31 28) (f5 w 9 5))
    else if bits w 20 16 = 0 ∧ bits w 11 10 = 2 ∧ bits w 8 0 = 0 then legal (.holdRing (f4 w 31 28) (f4 w 15 12) (f1 w 9 9))
    else .error .reserved
  | 0x27 =>
    if bits w 5 0 = 0 then legal (.send (f4 w 31 28) (f5 w 20 16) (f4 w 15 12) (f2 w 11 10) (f4 w 9 6))
    else .error .reserved
  | 0x28 =>
    if bits w 5 0 = 0 then legal (.recv (f4 w 31 28) (f5 w 20 16) (f4 w 15 12) (f2 w 11 10) (f4 w 9 6))
    else .error .reserved
  | 0x29 =>
    if bits w 11 0 = 0 then legal (.racq (f4 w 31 28) (f5 w 20 16) (f4 w 15 12))
    else .error .reserved
  | 0x2A =>
    if bits w 11 0 = 0 then legal (.rpub (f4 w 31 28) (f5 w 20 16) (f4 w 15 12))
    else .error .reserved
  | 0x2B =>
    if bits w 11 0 = 0 then legal (.rtake (f4 w 31 28) (f5 w 20 16) (f4 w 15 12))
    else .error .reserved
  | 0x2C =>
    if bits w 11 0 = 0 then legal (.rfree (f4 w 31 28) (f5 w 20 16) (f4 w 15 12))
    else .error .reserved
  | 0x30 =>
    if bits w 11 0 = 0 then legal (.cgeta (f4 w 31 28) (f5 w 20 16) (f4 w 15 12))
    else if bits w 11 0 = 1 then legal (.cgetb (f4 w 31 28) (f5 w 20 16) (f4 w 15 12))
    else if bits w 11 0 = 2 then legal (.cgetl (f4 w 31 28) (f5 w 20 16) (f4 w 15 12))
    else if bits w 11 0 = 3 then legal (.cgetp (f4 w 31 28) (f5 w 20 16) (f4 w 15 12))
    else if bits w 11 0 = 4 then legal (.cgett (f4 w 31 28) (f5 w 20 16) (f4 w 15 12))
    else if bits w 11 0 = 5 then legal (.cgeto (f4 w 31 28) (f5 w 20 16) (f4 w 15 12))
    else .error .reserved
  | 0x31 =>
    if bits w 7 0 = 0 then legal (.cseta (f4 w 31 28) (f4 w 20 17) (f4 w 16 13) (f5 w 12 8))
    else .error .reserved
  | 0x32 =>
    if bits w 12 12 = 0 ∧ bits w 6 0 = 0 then legal (.cincaReg (f4 w 31 28) (f4 w 20 17) (f4 w 16 13) (f5 w 11 7))
    else if bits w 12 12 = 1 then legal (.cincaImm (f4 w 31 28) (f4 w 20 17) (f4 w 16 13) (f12 w 11 0))
    else .error .reserved
  | 0x33 =>
    if bits w 7 0 = 0 then legal (.csetb (f4 w 31 28) (f4 w 20 17) (f4 w 16 13) (f5 w 12 8))
    else .error .reserved
  | 0x34 =>
    if bits w 7 0 = 0 then legal (.csetbr (f4 w 31 28) (f4 w 20 17) (f4 w 16 13) (f5 w 12 8))
    else .error .reserved
  | 0x35 =>
    if bits w 7 0 = 0 then legal (.candp (f4 w 31 28) (f4 w 20 17) (f4 w 16 13) (f5 w 12 8))
    else .error .reserved
  | 0x36 =>
    if bits w 8 0 = 0 then legal (.clock (f4 w 31 28) (f4 w 20 17) (f4 w 16 13) (f4 w 12 9))
    else .error .reserved
  | 0x37 =>
    if bits w 8 0 = 0 then legal (.cunlock (f4 w 31 28) (f4 w 20 17) (f4 w 16 13) (f4 w 12 9))
    else .error .reserved
  | 0x38 =>
    if bits w 7 0 = 0 then legal (.ctsub (f4 w 31 28) (f5 w 20 16) (f4 w 15 12) (f4 w 11 8))
    else .error .reserved
  | 0x39 =>
    if bits w 12 0 = 0 then legal (.cmov (f4 w 31 28) (f4 w 20 17) (f4 w 16 13))
    else .error .reserved
  | 0x3A =>
    legal (.cldc (f4 w 31 28) (f4 w 20 17) (f4 w 16 13) (f13 w 12 0))
  | 0x3B =>
    legal (.cstc (f4 w 31 28) (f4 w 20 17) (f4 w 16 13) (f13 w 12 0))
  | 0x3C =>
    if bits w 12 0 = 0 then legal (.cjal (f4 w 31 28) (f4 w 20 17) (f4 w 16 13))
    else .error .reserved
  | 0x3D =>
    if bits w 20 17 = 0 ∧ bits w 12 0 = 0 then legal (.cjr (f4 w 31 28) (f4 w 16 13))
    else .error .reserved
  | _ => .error .unassigned

/-- The seq map's own opcodes 0x40 to 0x53 (R189). -/
def decSeq (w : Nat) : Nat → Except DecErr Instr
  | 0x40 =>
    if bits w 20 8 = 0 then legal (.yield (f4 w 31 28) (f8 w 7 0))
    else .error .reserved
  | 0x41 =>
    if bits w 3 0 = 0 then legal (.kmatch (f4 w 31 28) (f5 w 20 16) (f4 w 15 12) (f4 w 11 8) (f4 w 7 4))
    else .error .reserved
  | 0x42 =>
    if bits w 3 0 = 0 then legal (.kopen (f4 w 31 28) (f5 w 20 16) (f4 w 15 12) (f4 w 11 8) (f4 w 7 4))
    else .error .reserved
  | 0x43 =>
    legal (.kseal (f4 w 31 28) (f5 w 20 16) (f4 w 15 12) (f4 w 11 8) (f4 w 7 4) (f4 w 3 0))
  | 0x44 =>
    if bits w 11 0 = 0 then legal (.klease (f4 w 31 28) (f5 w 20 16) (f4 w 15 12))
    else .error .reserved
  | 0x45 =>
    if bits w 11 0 = 0 then legal (.krenew (f4 w 31 28) (f5 w 20 16) (f4 w 15 12))
    else .error .reserved
  | 0x46 =>
    if bits w 11 0 = 0 then legal (.kdrop (f4 w 31 28) (f5 w 20 16) (f4 w 15 12))
    else .error .reserved
  | 0x47 =>
    if bits w 7 0 = 0 then legal (.kpin (f4 w 31 28) (f5 w 20 16) (f4 w 15 12) (f4 w 11 8))
    else .error .reserved
  | 0x48 =>
    if bits w 7 0 = 0 then legal (.kunpin (f4 w 31 28) (f5 w 20 16) (f4 w 15 12) (f4 w 11 8))
    else .error .reserved
  | 0x49 =>
    if bits w 3 0 = 0 then legal (.krepl (f4 w 31 28) (f5 w 20 16) (f4 w 15 12) (f4 w 11 8) (f4 w 7 4))
    else .error .reserved
  | 0x4A =>
    if bits w 11 8 = 0 ∧ bits w 2 0 = 0 then legal (.kstat (f4 w 31 28) (f5 w 20 16) (f4 w 15 12) (f5 w 7 3))
    else .error .reserved
  | 0x4B =>
    if bits w 11 0 = 0 then legal (.kclass (f4 w 31 28) (f5 w 20 16) (f4 w 15 12))
    else .error .reserved
  | 0x4C =>
    if bits w 11 0 = 0 then legal (.kname (f4 w 31 28) (f5 w 20 16) (f4 w 15 12))
    else .error .reserved
  | 0x4D =>
    if bits w 11 0 = 0 then legal (.kdepth (f4 w 31 28) (f5 w 20 16) (f4 w 15 12))
    else .error .reserved
  | 0x4E =>
    if bits w 11 8 = 0 ∧ bits w 3 0 = 0 then legal (.kanc (f4 w 31 28) (f5 w 20 16) (f4 w 15 12) (f4 w 7 4))
    else .error .reserved
  | 0x50 =>
    if bits w 11 8 = 0 ∧ bits w 3 0 = 0 then legal (.launch (f4 w 31 28) (f5 w 20 16) (f4 w 15 12) (f4 w 7 4))
    else .error .reserved
  | 0x51 =>
    if bits w 11 0 = 0 then legal (.gcancel (f4 w 31 28) (f5 w 20 16) (f4 w 15 12))
    else .error .reserved
  | 0x52 =>
    if bits w 11 0 = 0 then legal (.cwread (f4 w 31 28) (f5 w 20 16) (f4 w 15 12))
    else .error .reserved
  | 0x53 =>
    if bits w 11 0 = 0 then legal (.eread (f4 w 31 28) (f5 w 20 16) (f4 w 15 12))
    else .error .reserved
  | _ => .error .unassigned

/-- The system opcodes 0x70 to 0x7A (R189). -/
def decSystem (w : Nat) : Nat → Except DecErr Instr
  | 0x70 =>
    if bits w 3 0 = 0 then legal (.csrr (f4 w 31 28) (f5 w 20 16) (f12 w 15 4))
    else .error .reserved
  | 0x71 =>
    if bits w 3 0 = 0 then legal (.csrw (f4 w 31 28) (f5 w 20 16) (f12 w 15 4))
    else .error .reserved
  | 0x72 =>
    if bits w 20 16 = 0 then legal (.trap (f4 w 31 28) (f16 w 15 0))
    else .error .reserved
  | 0x73 =>
    if bits w 20 0 = 0 then legal (.eret (f4 w 31 28))
    else .error .reserved
  | 0x74 =>
    if bits w 20 0 = 0 then legal (.wfe (f4 w 31 28))
    else .error .reserved
  | 0x75 =>
    if bits w 15 0 = 0 then legal (.sweepOpen (f4 w 31 28) (f5 w 20 16))
    else if bits w 15 0 = 16384 then legal (.sweepStat (f4 w 31 28) (f5 w 20 16))
    else if bits w 15 0 = 32768 then legal (.sweepForce (f4 w 31 28) (f5 w 20 16))
    else .error .reserved
  | 0x76 =>
    if bits w 11 0 = 0 then legal (.xins (f4 w 31 28) (f5 w 20 16) (f4 w 15 12))
    else .error .reserved
  | 0x77 =>
    if bits w 8 0 = 0 then legal (.maskw (f4 w 31 28) (f5 w 20 16) (f3 w 15 13) (f4 w 12 9))
    else .error .reserved
  | 0x78 =>
    if bits w 15 0 = 0 then legal (.freeze (f4 w 31 28) (f5 w 20 16))
    else .error .reserved
  | 0x79 =>
    if bits w 13 0 = 0 then legal (.thaw (f4 w 31 28) (f5 w 20 16) (f2 w 15 14))
    else .error .reserved
  | 0x7A =>
    if bits w 11 0 = 0 then legal (.cancel (f4 w 31 28) (f5 w 20 16) (f4 w 15 12))
    else .error .reserved
  | _ => .error .unassigned

/-- The ladle map's own opcodes (R190). -/
def decLadle (w : Nat) : Nat → Except DecErr Instr
  | 0x40 =>
    if bits w 1 0 = 0 then legal (.cpy (f4 w 31 28) (f4 w 20 17) (f4 w 16 13) (f5 w 12 8) (f3 w 7 5) (f3 w 4 2))
    else .error .reserved
  | 0x41 =>
    if bits w 1 0 = 0 then legal (.cpyn (f4 w 31 28) (f4 w 20 17) (f4 w 16 13) (f5 w 12 8) (f3 w 7 5) (f3 w 4 2))
    else .error .reserved
  | 0x42 =>
    if bits w 1 0 = 0 then legal (.gath (f4 w 31 28) (f4 w 20 17) (f4 w 16 13) (f5 w 12 8) (f3 w 7 5) (f3 w 4 2))
    else .error .reserved
  | 0x43 =>
    if bits w 1 0 = 0 then legal (.scat (f4 w 31 28) (f4 w 20 17) (f4 w 16 13) (f5 w 12 8) (f3 w 7 5) (f3 w 4 2))
    else .error .reserved
  | 0x44 =>
    if bits w 1 0 = 0 then legal (.scadd (f4 w 31 28) (f4 w 20 17) (f4 w 16 13) (f5 w 12 8) (f3 w 7 5) (f3 w 4 2))
    else .error .reserved
  | 0x45 =>
    if bits w 1 0 = 0 then legal (.mcast (f4 w 31 28) (f4 w 20 17) (f4 w 16 13) (f5 w 12 8) (f3 w 7 5) (f3 w 4 2))
    else .error .reserved
  | 0x46 =>
    if bits w 1 0 = 0 then legal (.rread (f4 w 31 28) (f4 w 20 17) (f4 w 16 13) (f5 w 12 8) (f3 w 7 5) (f3 w 4 2))
    else .error .reserved
  | 0x47 =>
    if bits w 1 0 = 0 then legal (.rwrite (f4 w 31 28) (f4 w 20 17) (f4 w 16 13) (f5 w 12 8) (f3 w 7 5) (f3 w 4 2))
    else .error .reserved
  | 0x48 =>
    if bits w 1 0 = 0 then legal (.kget (f4 w 31 28) (f4 w 20 17) (f4 w 16 13) (f5 w 12 8) (f3 w 7 5) (f3 w 4 2))
    else .error .reserved
  | 0x49 =>
    if bits w 1 0 = 0 then legal (.kput (f4 w 31 28) (f4 w 20 17) (f4 w 16 13) (f5 w 12 8) (f3 w 7 5) (f3 w 4 2))
    else .error .reserved
  | 0x4A =>
    if bits w 20 17 = 0 ∧ bits w 4 0 = 0 then legal (.sqld (f4 w 31 28) (f4 w 16 13) (f5 w 12 8) (f3 w 7 5))
    else .error .reserved
  | 0x4B =>
    if bits w 15 12 = 0 ∧ bits w 7 0 = 0 then legal (.qbind (f4 w 31 28) (f5 w 20 16) (f4 w 11 8))
    else .error .reserved
  | 0x4C =>
    if bits w 15 12 = 0 ∧ bits w 7 0 = 0 then legal (.qop (f4 w 31 28) (f5 w 20 16) (f4 w 11 8))
    else .error .reserved
  | 0x4D =>
    if bits w 20 12 = 0 ∧ bits w 7 0 = 0 then legal (.qstart (f4 w 31 28) (f4 w 11 8))
    else .error .reserved
  | 0x4E =>
    if bits w 20 12 = 0 ∧ bits w 7 0 = 0 then legal (.qstop (f4 w 31 28) (f4 w 11 8))
    else .error .reserved
  | 0x4F =>
    if bits w 15 12 = 0 ∧ bits w 8 0 = 0 then legal (.wprd (f4 w 31 28) (f5 w 20 16) (f3 w 11 9))
    else .error .reserved
  | _ => .error .unassigned

/-- The vec map's own opcodes (R192). -/
def decVec (w : Nat) : Nat → Except DecErr Instr
  | 0x40 =>
    if bits w 20 15 = 0 ∧ bits w 9 0 = 0 then legal (.vshapeWr (f4 w 31 28) (f5 w 14 10))
    else if bits w 20 15 = 0 ∧ bits w 9 0 = 256 then legal (.vshapeRd (f4 w 31 28) (f5 w 14 10))
    else if bits w 20 15 = 0 ∧ bits w 9 0 = 512 then legal (.vshapeVl (f4 w 31 28) (f5 w 14 10))
    else .error .reserved
  | 0x41 =>
    legal (.vadd (f4 w 31 28) (f6 w 20 15) (f6 w 14 9) (f6 w 8 3) (f3 w 2 0))
  | 0x42 =>
    legal (.vsub (f4 w 31 28) (f6 w 20 15) (f6 w 14 9) (f6 w 8 3) (f3 w 2 0))
  | 0x43 =>
    legal (.vmul (f4 w 31 28) (f6 w 20 15) (f6 w 14 9) (f6 w 8 3) (f3 w 2 0))
  | 0x44 =>
    legal (.vfma (f4 w 31 28) (f6 w 20 15) (f6 w 14 9) (f6 w 8 3) (f3 w 2 0))
  | 0x45 =>
    legal (.vfms (f4 w 31 28) (f6 w 20 15) (f6 w 14 9) (f6 w 8 3) (f3 w 2 0))
  | 0x46 =>
    legal (.vmax (f4 w 31 28) (f6 w 20 15) (f6 w 14 9) (f6 w 8 3) (f3 w 2 0))
  | 0x47 =>
    legal (.vmin (f4 w 31 28) (f6 w 20 15) (f6 w 14 9) (f6 w 8 3) (f3 w 2 0))
  | 0x48 =>
    if bits w 5 0 = 0 then legal (.vabs (f4 w 31 28) (f6 w 20 15) (f6 w 14 9) (f3 w 8 6))
    else .error .reserved
  | 0x49 =>
    if bits w 5 0 = 0 then legal (.vneg (f4 w 31 28) (f6 w 20 15) (f6 w 14 9) (f3 w 8 6))
    else .error .reserved
  | 0x4A =>
    if bits w 5 0 = 0 then legal (.vrcp (f4 w 31 28) (f6 w 20 15) (f6 w 14 9) (f3 w 8 6))
    else .error .reserved
  | 0x4B =>
    if bits w 5 0 = 0 then legal (.vrsq (f4 w 31 28) (f6 w 20 15) (f6 w 14 9) (f3 w 8 6))
    else .error .reserved
  | 0x4C =>
    if bits w 5 0 = 0 then legal (.vexp2 (f4 w 31 28) (f6 w 20 15) (f6 w 14 9) (f3 w 8 6))
    else .error .reserved
  | 0x4D =>
    if bits w 5 0 = 0 then legal (.vlog2 (f4 w 31 28) (f6 w 20 15) (f6 w 14 9) (f3 w 8 6))
    else .error .reserved
  | 0x4E =>
    legal (.vcvt (f4 w 31 28) (f6 w 20 15) (f6 w 14 9) (f4 w 8 5) (f2 w 4 3) (f3 w 2 0))
  | 0x50 =>
    legal (.viadd (f4 w 31 28) (f6 w 20 15) (f6 w 14 9) (f6 w 8 3) (f3 w 2 0))
  | 0x51 =>
    legal (.visub (f4 w 31 28) (f6 w 20 15) (f6 w 14 9) (f6 w 8 3) (f3 w 2 0))
  | 0x52 =>
    legal (.vimul (f4 w 31 28) (f6 w 20 15) (f6 w 14 9) (f6 w 8 3) (f3 w 2 0))
  | 0x53 =>
    legal (.vimin (f4 w 31 28) (f6 w 20 15) (f6 w 14 9) (f6 w 8 3) (f3 w 2 0))
  | 0x54 =>
    legal (.vimax (f4 w 31 28) (f6 w 20 15) (f6 w 14 9) (f6 w 8 3) (f3 w 2 0))
  | 0x55 =>
    legal (.vand (f4 w 31 28) (f6 w 20 15) (f6 w 14 9) (f6 w 8 3) (f3 w 2 0))
  | 0x56 =>
    legal (.vor (f4 w 31 28) (f6 w 20 15) (f6 w 14 9) (f6 w 8 3) (f3 w 2 0))
  | 0x57 =>
    legal (.vxor (f4 w 31 28) (f6 w 20 15) (f6 w 14 9) (f6 w 8 3) (f3 w 2 0))
  | 0x58 =>
    legal (.vshl (f4 w 31 28) (f6 w 20 15) (f6 w 14 9) (f6 w 8 3) (f3 w 2 0))
  | 0x59 =>
    legal (.vshr (f4 w 31 28) (f6 w 20 15) (f6 w 14 9) (f6 w 8 3) (f3 w 2 0))
  | 0x5A =>
    legal (.vsra (f4 w 31 28) (f6 w 20 15) (f6 w 14 9) (f6 w 8 3) (f3 w 2 0))
  | 0x5B =>
    if bits w 1 0 = 0 then legal (.vcmp (f4 w 31 28) (f4 w 20 17) (f6 w 16 11) (f6 w 10 5) (f3 w 4 2))
    else .error .reserved
  | 0x5C =>
    if bits w 1 0 = 0 then legal (.vicmp (f4 w 31 28) (f4 w 20 17) (f6 w 16 11) (f6 w 10 5) (f3 w 4 2))
    else .error .reserved
  | 0x5D =>
    legal (.vsel (f4 w 31 28) (f6 w 20 15) (f6 w 14 9) (f6 w 8 3) (f3 w 2 0))
  | 0x5E =>
    if bits w 5 3 = 0 then legal (.vrsum (f4 w 31 28) (f6 w 20 15) (f6 w 14 9) (f3 w 8 6) (f3 w 2 0))
    else if bits w 5 3 = 1 then legal (.vrmax (f4 w 31 28) (f6 w 20 15) (f6 w 14 9) (f3 w 8 6) (f3 w 2 0))
    else if bits w 5 3 = 2 then legal (.vrmin (f4 w 31 28) (f6 w 20 15) (f6 w 14 9) (f3 w 8 6) (f3 w 2 0))
    else if bits w 5 3 = 3 then legal (.vrisum (f4 w 31 28) (f6 w 20 15) (f6 w 14 9) (f3 w 8 6) (f3 w 2 0))
    else if bits w 5 3 = 4 then legal (.vrimax (f4 w 31 28) (f6 w 20 15) (f6 w 14 9) (f3 w 8 6) (f3 w 2 0))
    else if bits w 5 3 = 5 then legal (.vrimin (f4 w 31 28) (f6 w 20 15) (f6 w 14 9) (f3 w 8 6) (f3 w 2 0))
    else .error .reserved
  | 0x5F =>
    if bits w 5 3 = 0 then legal (.vscsum (f4 w 31 28) (f6 w 20 15) (f6 w 14 9) (f3 w 8 6) (f3 w 2 0))
    else if bits w 5 3 = 1 then legal (.vscmax (f4 w 31 28) (f6 w 20 15) (f6 w 14 9) (f3 w 8 6) (f3 w 2 0))
    else if bits w 5 3 = 2 then legal (.vscmin (f4 w 31 28) (f6 w 20 15) (f6 w 14 9) (f3 w 8 6) (f3 w 2 0))
    else if bits w 5 3 = 3 then legal (.vscisum (f4 w 31 28) (f6 w 20 15) (f6 w 14 9) (f3 w 8 6) (f3 w 2 0))
    else if bits w 5 3 = 4 then legal (.vscimax (f4 w 31 28) (f6 w 20 15) (f6 w 14 9) (f3 w 8 6) (f3 w 2 0))
    else if bits w 5 3 = 5 then legal (.vscimin (f4 w 31 28) (f6 w 20 15) (f6 w 14 9) (f3 w 8 6) (f3 w 2 0))
    else .error .reserved
  | 0x60 =>
    legal (.vperm (f4 w 31 28) (f6 w 20 15) (f6 w 14 9) (f6 w 8 3) (f3 w 2 0))
  | 0x61 =>
    if bits w 8 7 = 0 then legal (.vslide (f4 w 31 28) (f6 w 20 15) (f6 w 14 9) (f1 w 6 6) (f6 w 5 0))
    else .error .reserved
  | 0x62 =>
    if bits w 9 3 = 0 then legal (.vbcst (f4 w 31 28) (f6 w 20 15) (f5 w 14 10) (f3 w 2 0))
    else .error .reserved
  | 0x63 =>
    if bits w 9 6 = 0 then legal (.vmovxToX (f4 w 31 28) (f6 w 20 15) (f5 w 14 10) (f6 w 5 0))
    else if bits w 9 6 = 1 then legal (.vmovxToV (f4 w 31 28) (f6 w 20 15) (f5 w 14 10) (f6 w 5 0))
    else .error .reserved
  | 0x64 =>
    legal (.vld (f4 w 31 28) (f6 w 20 15) (f4 w 14 11) (f5 w 10 6) (f3 w 5 3) (f3 w 2 0))
  | 0x65 =>
    legal (.vst (f4 w 31 28) (f6 w 20 15) (f4 w 14 11) (f5 w 10 6) (f3 w 5 3) (f3 w 2 0))
  | 0x66 =>
    legal (.vgath (f4 w 31 28) (f6 w 20 15) (f4 w 14 11) (f5 w 10 6) (f3 w 5 3) (f3 w 2 0))
  | 0x67 =>
    legal (.vscat (f4 w 31 28) (f6 w 20 15) (f4 w 14 11) (f5 w 10 6) (f3 w 5 3) (f3 w 2 0))
  | 0x68 =>
    if bits w 14 4 = 0 then legal (.vpop (f4 w 31 28) (f6 w 20 15) (f4 w 3 0))
    else .error .reserved
  | 0x69 =>
    if bits w 1 1 = 0 then legal (.vlqnt (f4 w 31 28) (f6 w 20 15) (f6 w 14 9) (f3 w 8 6) (f4 w 5 2) (f1 w 0 0))
    else .error .reserved
  | 0x6A =>
    if bits w 1 0 = 0 then legal (.vldec (f4 w 31 28) (f6 w 20 15) (f6 w 14 9) (f4 w 8 5) (f3 w 4 2))
    else .error .reserved
  | 0x6B =>
    if bits w 8 4 = 0 then legal (.plog (f4 w 31 28) (f4 w 20 17) (f4 w 16 13) (f4 w 12 9) (f4 w 3 0))
    else .error .reserved
  | 0x6C =>
    if bits w 20 17 = 0 ∧ bits w 3 0 = 0 then legal (.pcntCount (f4 w 31 28) (f4 w 16 13) (f4 w 12 9) (f5 w 8 4))
    else if bits w 20 17 = 0 ∧ bits w 3 0 = 1 then legal (.pcntFirst (f4 w 31 28) (f4 w 16 13) (f4 w 12 9) (f5 w 8 4))
    else if bits w 20 17 = 0 ∧ bits w 3 0 = 2 then legal (.pcntLast (f4 w 31 28) (f4 w 16 13) (f4 w 12 9) (f5 w 8 4))
    else .error .reserved
  | 0x6D =>
    if bits w 16 7 = 0 ∧ bits w 1 0 = 0 then legal (.psetFirst (f4 w 31 28) (f4 w 20 17) (f5 w 6 2))
    else if bits w 16 7 = 1 ∧ bits w 1 0 = 0 then legal (.psetFromx (f4 w 31 28) (f4 w 20 17) (f5 w 6 2))
    else if bits w 20 17 = 0 ∧ bits w 12 7 = 2 ∧ bits w 1 0 = 0 then legal (.psetTox (f4 w 31 28) (f4 w 16 13) (f5 w 6 2))
    else .error .reserved
  | _ => .error .unassigned

/-- The mat map's own opcodes (R193). -/
def decMat (w : Nat) : Nat → Except DecErr Instr
  | 0x40 =>
    if bits w 15 0 = 0 then legal (.mshapeReq (f4 w 31 28) (f5 w 20 16))
    else if bits w 15 0 = 16384 then legal (.mshapeGet (f4 w 31 28) (f5 w 20 16))
    else .error .reserved
  | 0x41 =>
    if bits w 20 18 = 0 ∧ bits w 9 0 = 0 then legal (.mclaim (f4 w 31 28) (f4 w 17 14) (f4 w 13 10))
    else .error .reserved
  | 0x42 =>
    if bits w 20 18 = 0 ∧ bits w 9 0 = 0 then legal (.mrelease (f4 w 31 28) (f4 w 17 14) (f4 w 13 10))
    else .error .reserved
  | 0x43 =>
    if bits w 20 18 = 0 ∧ bits w 9 9 = 0 ∧ bits w 3 0 = 0 then legal (.mfillScratch (f4 w 31 28) (f4 w 17 14) (f4 w 13 10) (f5 w 8 4))
    else if bits w 20 18 = 0 ∧ bits w 9 9 = 1 ∧ bits w 3 0 = 0 then legal (.mfillStream (f4 w 31 28) (f4 w 17 14) (f4 w 13 10) (f5 w 8 4))
    else .error .reserved
  | 0x44 =>
    if bits w 4 1 = 0 then legal (.mma (f4 w 31 28) (f3 w 20 18) (f4 w 17 14) (f4 w 13 10) (f5 w 9 5) (f1 w 0 0))
    else .error .reserved
  | 0x45 =>
    if bits w 4 1 = 0 then legal (.mmal (f4 w 31 28) (f3 w 20 18) (f4 w 17 14) (f4 w 13 10) (f5 w 9 5) (f1 w 0 0))
    else .error .reserved
  | 0x46 =>
    if bits w 17 0 = 0 then legal (.mzero (f4 w 31 28) (f3 w 20 18))
    else .error .reserved
  | 0x47 =>
    if bits w 0 0 = 0 then legal (.mdrain (f4 w 31 28) (f3 w 20 18) (f4 w 17 14) (f4 w 13 10) (f5 w 9 5) (f3 w 4 2) (f1 w 1 1))
    else .error .reserved
  | 0x48 =>
    if bits w 17 10 = 0 then legal (.mdrainp (f4 w 31 28) (f3 w 20 18) (f5 w 9 5) (f5 w 4 0))
    else .error .reserved
  | 0x49 =>
    if bits w 20 4 = 0 then legal (.mmodeSet (f4 w 31 28) (f4 w 3 0))
    else if bits w 15 0 = 16384 then legal (.mmodeSetx (f4 w 31 28) (f5 w 20 16))
    else if bits w 15 0 = 32768 then legal (.mmodeGet (f4 w 31 28) (f5 w 20 16))
    else .error .reserved
  | 0x4A =>
    if bits w 20 7 = 0 then legal (.mscale (f4 w 31 28) (f7 w 6 0))
    else .error .reserved
  | _ => .error .unassigned

/-- Scalar opcodes that a steward cell may not fetch: ALIGN, RDV, HOLD, SEND, RECV (R185). -/
def gangScalar (op : Nat) : Bool := op == 0x03 || op == 0x04 || op == 0x26 || op == 0x27 || op == 0x28

/-- Ladle opcodes that a steward ladle may not fetch: MCAST, KPUT, SQLD, QBIND, QOP, QSTART, QSTOP (R185). -/
def gangLadle (op : Nat) : Bool := op == 0x45 || (decide (0x49 ≤ op) && decide (op ≤ 0x4E))

/-- Decoding of a word by a map (checks 2 and 3 of R184, fates of R185). -/
def decode (m : IMap) (w : Nat) : Except DecErr Instr :=
  let op := bits w 27 21
  if 0x7C ≤ op then decHint w
  else if op < 0x40 then
    match m with
    | .seq st _ => if st && gangScalar op then .error .notPermitted else decScalar w op
    | .ladle st => if st && gangScalar op then .error .notPermitted else decScalar w op
    | .vec => if shared op then decScalar w op else .error .unassigned
    | .mat => if shared op then decScalar w op else .error .unassigned
  else
    match m with
    | .seq st c =>
      if op < 0x70 then
        if op = 0x40 ∧ (st = true ∨ c ≠ 0) then .error .notPermitted else decSeq w op
      else if st then decSystem w op else .error .unassigned
    | .ladle st => if st && gangLadle op then .error .notPermitted else decLadle w op
    | .vec => decVec w op
    | .mat => decMat w op

/-- An operand field placed with its lowest bit at `k`. -/
def fld {n : Nat} (v : BitVec n) (k : Nat) : Nat := v.toNat * 2 ^ k

/-- The word of a gap, an opcode and the placed operand fields (R184). -/
def word (g : BitVec 4) (op : Nat) (fs : List Nat) : Option Nat := some (g.toNat * 2 ^ 28 + op * 2 ^ 21 + fs.sum)

/-- The encoder: the word of an instruction, `none` for a row of the table that has no word. -/
def encode : Instr → Option Nat
  | .nop g => word g 0x01 []
  | .hint g k i => word g (0x7C + k.toNat) [fld i 0]
  | .idleImm g n => word g 0x02 [fld n 0]
  | .idleReg g s => word g 0x02 [0x100000, fld s 0]
  | .align g t => word g 0x03 [fld t 0]
  | .rdv g => word g 0x04 []
  | .ffrd g d => word g 0x05 [fld d 16]
  | .ffwr g s => word g 0x06 [fld s 16]
  | .mbget g d n => word g 0x07 [fld d 16, fld n 12]
  | .mbput g s n => word g 0x08 [fld s 16, fld n 12]
  | .add g d a b => word g 0x09 [fld d 16, fld a 11, fld b 6]
  | .sub g d a b => word g 0x09 [0x1, fld d 16, fld a 11, fld b 6]
  | .and g d a b => word g 0x09 [0x2, fld d 16, fld a 11, fld b 6]
  | .or g d a b => word g 0x09 [0x3, fld d 16, fld a 11, fld b 6]
  | .xor g d a b => word g 0x09 [0x4, fld d 16, fld a 11, fld b 6]
  | .sll g d a b => word g 0x09 [0x5, fld d 16, fld a 11, fld b 6]
  | .srl g d a b => word g 0x09 [0x6, fld d 16, fld a 11, fld b 6]
  | .sra g d a b => word g 0x09 [0x7, fld d 16, fld a 11, fld b 6]
  | .slt g d a b => word g 0x09 [0x8, fld d 16, fld a 11, fld b 6]
  | .sltu g d a b => word g 0x09 [0x9, fld d 16, fld a 11, fld b 6]
  | .min g d a b => word g 0x09 [0xA, fld d 16, fld a 11, fld b 6]
  | .max g d a b => word g 0x09 [0xB, fld d 16, fld a 11, fld b 6]
  | .minu g d a b => word g 0x09 [0xC, fld d 16, fld a 11, fld b 6]
  | .maxu g d a b => word g 0x09 [0xD, fld d 16, fld a 11, fld b 6]
  | .mul g d a b => word g 0x0A [fld d 16, fld a 11, fld b 6]
  | .mulh g d a b => word g 0x0A [0x1, fld d 16, fld a 11, fld b 6]
  | .mulhu g d a b => word g 0x0A [0x2, fld d 16, fld a 11, fld b 6]
  | .mulhsu g d a b => word g 0x0A [0x3, fld d 16, fld a 11, fld b 6]
  | .addi g d a i => word g 0x0B [fld d 16, fld a 11, fld i 0]
  | .andi g d a i => word g 0x0C [fld d 16, fld a 11, fld i 0]
  | .ori g d a i => word g 0x0D [fld d 16, fld a 11, fld i 0]
  | .xori g d a i => word g 0x0E [fld d 16, fld a 11, fld i 0]
  | .slli g d a h => word g 0x0F [fld d 16, fld a 11, fld h 0]
  | .srli g d a h => word g 0x0F [0x200, fld d 16, fld a 11, fld h 0]
  | .srai g d a h => word g 0x0F [0x400, fld d 16, fld a 11, fld h 0]
  | .slti g d a i => word g 0x10 [fld d 16, fld a 11, fld i 0]
  | .sltiu g d a i => word g 0x11 [fld d 16, fld a 11, fld i 0]
  | .lil g d i => word g 0x12 [fld d 16, fld i 0]
  | .lih g d i => word g 0x13 [fld d 16, fld i 0]
  | .beq g a b o => word g 0x14 [fld a 16, fld b 11, fld o 0]
  | .bne g a b o => word g 0x15 [fld a 16, fld b 11, fld o 0]
  | .blt g a b o => word g 0x16 [fld a 16, fld b 11, fld o 0]
  | .bge g a b o => word g 0x17 [fld a 16, fld b 11, fld o 0]
  | .bltu g a b o => word g 0x18 [fld a 16, fld b 11, fld o 0]
  | .bgeu g a b o => word g 0x19 [fld a 16, fld b 11, fld o 0]
  | .jal g d o => word g 0x1A [fld d 16, fld o 0]
  | .jr g d a i => word g 0x1B [fld d 16, fld a 11, fld i 0]
  | .loop g x o => word g 0x1C [fld x 16, fld o 0]
  | .ldb g d c o s f => word g 0x1D [fld d 16, fld c 12, fld o 7, fld s 4, fld f 0]
  | .ldbu g d c o s f => word g 0x1D [0x200, fld d 16, fld c 12, fld o 7, fld s 4, fld f 0]
  | .ldh g d c o s f => word g 0x1D [0x400, fld d 16, fld c 12, fld o 7, fld s 4, fld f 0]
  | .ldhu g d c o s f => word g 0x1D [0x600, fld d 16, fld c 12, fld o 7, fld s 4, fld f 0]
  | .ldw g d c o s f => word g 0x1D [0x800, fld d 16, fld c 12, fld o 7, fld s 4, fld f 0]
  | .ldwu g d c o s f => word g 0x1D [0xA00, fld d 16, fld c 12, fld o 7, fld s 4, fld f 0]
  | .ldd g d c o s f => word g 0x1D [0xC00, fld d 16, fld c 12, fld o 7, fld s 4, fld f 0]
  | .stb g s c o e f => word g 0x1E [fld s 16, fld c 12, fld o 8, fld e 5, fld f 0]
  | .sth g s c o e f => word g 0x1E [0x400, fld s 16, fld c 12, fld o 8, fld e 5, fld f 0]
  | .stw g s c o e f => word g 0x1E [0x800, fld s 16, fld c 12, fld o 8, fld e 5, fld f 0]
  | .std g s c o e f => word g 0x1E [0xC00, fld s 16, fld c 12, fld o 8, fld e 5, fld f 0]
  | .aadd g d c w o s => word g 0x1F [fld d 16, fld c 12, fld w 8, fld o 6, fld s 3]
  | .amin g d c w o s => word g 0x1F [0x200, fld d 16, fld c 12, fld w 8, fld o 6, fld s 3]
  | .amax g d c w o s => word g 0x1F [0x400, fld d 16, fld c 12, fld w 8, fld o 6, fld s 3]
  | .aand g d c w o s => word g 0x1F [0x600, fld d 16, fld c 12, fld w 8, fld o 6, fld s 3]
  | .aor g d c w o s => word g 0x1F [0x800, fld d 16, fld c 12, fld w 8, fld o 6, fld s 3]
  | .axor g d c w o s => word g 0x1F [0xA00, fld d 16, fld c 12, fld w 8, fld o 6, fld s 3]
  | .aswp g d c w o s => word g 0x1F [0xC00, fld d 16, fld c 12, fld w 8, fld o 6, fld s 3]
  | .acas g d c s w o e => word g 0x20 [fld d 16, fld c 12, fld s 7, fld w 6, fld o 4, fld e 1]
  | .fence g k s => word g 0x21 [fld k 10, fld s 7]
  | .tfence g m => word g 0x22 [fld m 8]
  | .binit g b n => word g 0x23 [fld b 7, fld n 1]
  | .barrive g b => word g 0x24 [fld b 7]
  | .bexpect g s b => word g 0x25 [fld s 16, fld b 7]
  | .holdWptr g s k => word g 0x26 [fld s 16, fld k 7]
  | .holdBarrier g n => word g 0x26 [0x400, fld n 5]
  | .holdRing g c e => word g 0x26 [0x800, fld c 12, fld e 9]
  | .send g s c d n => word g 0x27 [fld s 16, fld c 12, fld d 10, fld n 6]
  | .recv g s c d n => word g 0x28 [fld s 16, fld c 12, fld d 10, fld n 6]
  | .racq g d c => word g 0x29 [fld d 16, fld c 12]
  | .rpub g s c => word g 0x2A [fld s 16, fld c 12]
  | .rtake g d c => word g 0x2B [fld d 16, fld c 12]
  | .rfree g s c => word g 0x2C [fld s 16, fld c 12]
  | .cgeta g d c => word g 0x30 [fld d 16, fld c 12]
  | .cgetb g d c => word g 0x30 [0x1, fld d 16, fld c 12]
  | .cgetl g d c => word g 0x30 [0x2, fld d 16, fld c 12]
  | .cgetp g d c => word g 0x30 [0x3, fld d 16, fld c 12]
  | .cgett g d c => word g 0x30 [0x4, fld d 16, fld c 12]
  | .cgeto g d c => word g 0x30 [0x5, fld d 16, fld c 12]
  | .cseta g d c s => word g 0x31 [fld d 17, fld c 13, fld s 8]
  | .cincaReg g d c s => word g 0x32 [fld d 17, fld c 13, fld s 7]
  | .cincaImm g d c i => word g 0x32 [0x1000, fld d 17, fld c 13, fld i 0]
  | .csetb g d c s => word g 0x33 [fld d 17, fld c 13, fld s 8]
  | .csetbr g d c s => word g 0x34 [fld d 17, fld c 13, fld s 8]
  | .candp g d c s => word g 0x35 [fld d 17, fld c 13, fld s 8]
  | .clock g d c a => word g 0x36 [fld d 17, fld c 13, fld a 9]
  | .cunlock g d c a => word g 0x37 [fld d 17, fld c 13, fld a 9]
  | .ctsub g d a b => word g 0x38 [fld d 16, fld a 12, fld b 8]
  | .cmov g d c => word g 0x39 [fld d 17, fld c 13]
  | .cldc g d b o => word g 0x3A [fld d 17, fld b 13, fld o 0]
  | .cstc g s b o => word g 0x3B [fld s 17, fld b 13, fld o 0]
  | .cjal g d c => word g 0x3C [fld d 17, fld c 13]
  | .cjr g c => word g 0x3D [fld c 13]
  | .yield g l => word g 0x40 [fld l 0]
  | .kmatch g d a b e => word g 0x41 [fld d 16, fld a 12, fld b 8, fld e 4]
  | .kopen g d a b e => word g 0x42 [fld d 16, fld a 12, fld b 8, fld e 4]
  | .kseal g d a b e f => word g 0x43 [fld d 16, fld a 12, fld b 8, fld e 4, fld f 0]
  | .klease g d a => word g 0x44 [fld d 16, fld a 12]
  | .krenew g d a => word g 0x45 [fld d 16, fld a 12]
  | .kdrop g d a => word g 0x46 [fld d 16, fld a 12]
  | .kpin g d a b => word g 0x47 [fld d 16, fld a 12, fld b 8]
  | .kunpin g d a b => word g 0x48 [fld d 16, fld a 12, fld b 8]
  | .krepl g d a b e => word g 0x49 [fld d 16, fld a 12, fld b 8, fld e 4]
  | .kstat g d a e => word g 0x4A [fld d 16, fld a 12, fld e 3]
  | .kclass g d a => word g 0x4B [fld d 16, fld a 12]
  | .kname g d a => word g 0x4C [fld d 16, fld a 12]
  | .kdepth g d a => word g 0x4D [fld d 16, fld a 12]
  | .kanc g d a e => word g 0x4E [fld d 16, fld a 12, fld e 4]
  | .launch g d a e => word g 0x50 [fld d 16, fld a 12, fld e 4]
  | .gcancel g d a => word g 0x51 [fld d 16, fld a 12]
  | .cwread g d a => word g 0x52 [fld d 16, fld a 12]
  | .eread g d a => word g 0x53 [fld d 16, fld a 12]
  | .csrr g d c => word g 0x70 [fld d 16, fld c 4]
  | .csrw g s c => word g 0x71 [fld s 16, fld c 4]
  | .trap g c => word g 0x72 [fld c 0]
  | .eret g => word g 0x73 []
  | .wfe g => word g 0x74 []
  | .sweepOpen g d => word g 0x75 [fld d 16]
  | .sweepStat g d => word g 0x75 [0x4000, fld d 16]
  | .sweepForce g d => word g 0x75 [0x8000, fld d 16]
  | .xins g s c => word g 0x76 [fld s 16, fld c 12]
  | .maskw g s k i => word g 0x77 [fld s 16, fld k 13, fld i 9]
  | .freeze g s => word g 0x78 [fld s 16]
  | .thaw g s m => word g 0x79 [fld s 16, fld m 14]
  | .cancel g d c => word g 0x7A [fld d 16, fld c 12]
  | .cpy g d s x h e => word g 0x40 [fld d 17, fld s 13, fld x 8, fld h 5, fld e 2]
  | .cpyn g d s x h e => word g 0x41 [fld d 17, fld s 13, fld x 8, fld h 5, fld e 2]
  | .gath g d s x h e => word g 0x42 [fld d 17, fld s 13, fld x 8, fld h 5, fld e 2]
  | .scat g d s x h e => word g 0x43 [fld d 17, fld s 13, fld x 8, fld h 5, fld e 2]
  | .scadd g d s x h e => word g 0x44 [fld d 17, fld s 13, fld x 8, fld h 5, fld e 2]
  | .mcast g d s x h e => word g 0x45 [fld d 17, fld s 13, fld x 8, fld h 5, fld e 2]
  | .rread g d s x h e => word g 0x46 [fld d 17, fld s 13, fld x 8, fld h 5, fld e 2]
  | .rwrite g d s x h e => word g 0x47 [fld d 17, fld s 13, fld x 8, fld h 5, fld e 2]
  | .kget g d s x h e => word g 0x48 [fld d 17, fld s 13, fld x 8, fld h 5, fld e 2]
  | .kput g d s x h e => word g 0x49 [fld d 17, fld s 13, fld x 8, fld h 5, fld e 2]
  | .sqld g s x h => word g 0x4A [fld s 13, fld x 8, fld h 5]
  | .qbind g s n => word g 0x4B [fld s 16, fld n 8]
  | .qop g s n => word g 0x4C [fld s 16, fld n 8]
  | .qstart g n => word g 0x4D [fld n 8]
  | .qstop g n => word g 0x4E [fld n 8]
  | .wprd g d k => word g 0x4F [fld d 16, fld k 9]
  | .vshapeWr g x => word g 0x40 [fld x 10]
  | .vshapeRd g x => word g 0x40 [0x100, fld x 10]
  | .vshapeVl g x => word g 0x40 [0x200, fld x 10]
  | .vadd g d a b p => word g 0x41 [fld d 15, fld a 9, fld b 3, fld p 0]
  | .vsub g d a b p => word g 0x42 [fld d 15, fld a 9, fld b 3, fld p 0]
  | .vmul g d a b p => word g 0x43 [fld d 15, fld a 9, fld b 3, fld p 0]
  | .vfma g d a b p => word g 0x44 [fld d 15, fld a 9, fld b 3, fld p 0]
  | .vfms g d a b p => word g 0x45 [fld d 15, fld a 9, fld b 3, fld p 0]
  | .vmax g d a b p => word g 0x46 [fld d 15, fld a 9, fld b 3, fld p 0]
  | .vmin g d a b p => word g 0x47 [fld d 15, fld a 9, fld b 3, fld p 0]
  | .vabs g d s p => word g 0x48 [fld d 15, fld s 9, fld p 6]
  | .vneg g d s p => word g 0x49 [fld d 15, fld s 9, fld p 6]
  | .vrcp g d s p => word g 0x4A [fld d 15, fld s 9, fld p 6]
  | .vrsq g d s p => word g 0x4B [fld d 15, fld s 9, fld p 6]
  | .vexp2 g d s p => word g 0x4C [fld d 15, fld s 9, fld p 6]
  | .vlog2 g d s p => word g 0x4D [fld d 15, fld s 9, fld p 6]
  | .vcvt g d s t k r => word g 0x4E [fld d 15, fld s 9, fld t 5, fld k 3, fld r 0]
  | .viadd g d a b p => word g 0x50 [fld d 15, fld a 9, fld b 3, fld p 0]
  | .visub g d a b p => word g 0x51 [fld d 15, fld a 9, fld b 3, fld p 0]
  | .vimul g d a b p => word g 0x52 [fld d 15, fld a 9, fld b 3, fld p 0]
  | .vimin g d a b p => word g 0x53 [fld d 15, fld a 9, fld b 3, fld p 0]
  | .vimax g d a b p => word g 0x54 [fld d 15, fld a 9, fld b 3, fld p 0]
  | .vand g d a b p => word g 0x55 [fld d 15, fld a 9, fld b 3, fld p 0]
  | .vor g d a b p => word g 0x56 [fld d 15, fld a 9, fld b 3, fld p 0]
  | .vxor g d a b p => word g 0x57 [fld d 15, fld a 9, fld b 3, fld p 0]
  | .vshl g d a b p => word g 0x58 [fld d 15, fld a 9, fld b 3, fld p 0]
  | .vshr g d a b p => word g 0x59 [fld d 15, fld a 9, fld b 3, fld p 0]
  | .vsra g d a b p => word g 0x5A [fld d 15, fld a 9, fld b 3, fld p 0]
  | .vcmp g p a b c => word g 0x5B [fld p 17, fld a 11, fld b 5, fld c 2]
  | .vicmp g p a b c => word g 0x5C [fld p 17, fld a 11, fld b 5, fld c 2]
  | .vsel g d a b p => word g 0x5D [fld d 15, fld a 9, fld b 3, fld p 0]
  | .vrsum g d s p r => word g 0x5E [fld d 15, fld s 9, fld p 6, fld r 0]
  | .vrmax g d s p r => word g 0x5E [0x8, fld d 15, fld s 9, fld p 6, fld r 0]
  | .vrmin g d s p r => word g 0x5E [0x10, fld d 15, fld s 9, fld p 6, fld r 0]
  | .vrisum g d s p r => word g 0x5E [0x18, fld d 15, fld s 9, fld p 6, fld r 0]
  | .vrimax g d s p r => word g 0x5E [0x20, fld d 15, fld s 9, fld p 6, fld r 0]
  | .vrimin g d s p r => word g 0x5E [0x28, fld d 15, fld s 9, fld p 6, fld r 0]
  | .vscsum g d s p r => word g 0x5F [fld d 15, fld s 9, fld p 6, fld r 0]
  | .vscmax g d s p r => word g 0x5F [0x8, fld d 15, fld s 9, fld p 6, fld r 0]
  | .vscmin g d s p r => word g 0x5F [0x10, fld d 15, fld s 9, fld p 6, fld r 0]
  | .vscisum g d s p r => word g 0x5F [0x18, fld d 15, fld s 9, fld p 6, fld r 0]
  | .vscimax g d s p r => word g 0x5F [0x20, fld d 15, fld s 9, fld p 6, fld r 0]
  | .vscimin g d s p r => word g 0x5F [0x28, fld d 15, fld s 9, fld p 6, fld r 0]
  | .vperm g d a b p => word g 0x60 [fld d 15, fld a 9, fld b 3, fld p 0]
  | .vslide g d s e k => word g 0x61 [fld d 15, fld s 9, fld e 6, fld k 0]
  | .vbcst g d s p => word g 0x62 [fld d 15, fld s 10, fld p 0]
  | .vmovxToX g s d l => word g 0x63 [fld s 15, fld d 10, fld l 0]
  | .vmovxToV g d s l => word g 0x63 [0x40, fld d 15, fld s 10, fld l 0]
  | .vld g v c x p s => word g 0x64 [fld v 15, fld c 11, fld x 6, fld p 3, fld s 0]
  | .vst g v c x p s => word g 0x65 [fld v 15, fld c 11, fld x 6, fld p 3, fld s 0]
  | .vgath g v c x p s => word g 0x66 [fld v 15, fld c 11, fld x 6, fld p 3, fld s 0]
  | .vscat g v c x p s => word g 0x67 [fld v 15, fld c 11, fld x 6, fld p 3, fld s 0]
  | .vpop g d n => word g 0x68 [fld d 15, fld n 0]
  | .vlqnt g d s p a o => word g 0x69 [fld d 15, fld s 9, fld p 6, fld a 2, fld o 0]
  | .vldec g d s a r => word g 0x6A [fld d 15, fld s 9, fld a 5, fld r 2]
  | .plog g d a b t => word g 0x6B [fld d 17, fld a 13, fld b 9, fld t 0]
  | .pcntCount g a b d => word g 0x6C [fld a 13, fld b 9, fld d 4]
  | .pcntFirst g a b d => word g 0x6C [0x1, fld a 13, fld b 9, fld d 4]
  | .pcntLast g a b d => word g 0x6C [0x2, fld a 13, fld b 9, fld d 4]
  | .psetFirst g d x => word g 0x6D [fld d 17, fld x 2]
  | .psetFromx g d x => word g 0x6D [0x80, fld d 17, fld x 2]
  | .psetTox g a x => word g 0x6D [0x100, fld a 13, fld x 2]
  | .mshapeReq g x => word g 0x40 [fld x 16]
  | .mshapeGet g x => word g 0x40 [0x4000, fld x 16]
  | .mclaim g o n => word g 0x41 [fld o 14, fld n 10]
  | .mrelease g o n => word g 0x42 [fld o 14, fld n 10]
  | .mfillScratch g o c p => word g 0x43 [fld o 14, fld c 10, fld p 4]
  | .mfillStream g o n p => word g 0x43 [0x200, fld o 14, fld n 10, fld p 4]
  | .mma g a b c m z => word g 0x44 [fld a 18, fld b 14, fld c 10, fld m 5, fld z 0]
  | .mmal g a b c m z => word g 0x45 [fld a 18, fld b 14, fld c 10, fld m 5, fld z 0]
  | .mzero g a => word g 0x46 [fld a 18]
  | .mdrain g a c f p r s => word g 0x47 [fld a 18, fld c 14, fld f 10, fld p 5, fld r 2, fld s 1]
  | .mdrainp g a t p => word g 0x48 [fld a 18, fld t 5, fld p 0]
  | .mmodeSet g v => word g 0x49 [fld v 0]
  | .mmodeSetx g x => word g 0x49 [0x4000, fld x 16]
  | .mmodeGet g x => word g 0x49 [0x8000, fld x 16]
  | .mscale g n => word g 0x4A [fld n 0]
  | .pourPlacement _ => none
  | .contextRestoreComplete _ => none
  | .pourRetirement _ => none
  | .globalAccessReturn _ => none
  | .globalStorePerform _ => none
  | .copyLanding _ _ _ _ => none
  | .copyFaultAfterIssue _ => none
  | .patternDecode _ _ _ => none
  | .crucibleCompletion _ => none
  | .cupolaAnswer _ => none
  | .ringReport _ => none
  | .homeAtomic _ => none
  | .scaddReduction _ _ => none
  | .drainAddLanding _ _ => none
  | .drainAddRefusal _ => none
  | .freezeTimeout _ => none
  | .alignmentTimeout _ => none
  | .yieldDrainComplete _ => none
  | .contextSaveComplete _ => none
  | .preemptionRequest _ => none
  | .cancelComplete _ _ => none
  | .registerSweepStart _ => none
  | .registerSweepEnd _ => none
  | .epochSettle => none
  | .epochFettle => none
  | .fettlerVisit => none
  | .epochEnd => none
  | .leaseTick => none
  | .timedLeaseExpiry _ => none
  | .transferLeaseExpiry _ _ _ => none
  | .renewPeriod => none
  | .holderTimeout _ => none
  | .demotionSwitch _ => none
  | .planningInterval _ _ _ => none
  | .stewardTimer _ => none
  | .gfaultNotify _ => none
  | .handlerEntry _ => none
  | .submissionDoorbell _ _ => none
  | .completionAckDoorbell _ _ => none
  | .ringLaunch _ => none
  | .gopen _ => none
  | .gclose _ => none
  | .ringCancel _ => none
  | .ringNop _ => none
  | .stewardDoorbell _ => none
  | .hostMigrationStart _ _ => none
  | .lcHostRequest _ => none
  | .faultBatchAge => none
  | .faultBatchWrite => none
  | .migrationComplete _ => none
  | .sliceReassignComplete => none
  | .hmRateSwitchEnd => none
  | .sliceWake _ => none
  | .probeTimeout _ => none
  | .agentDeath _ => none
  | .rds _ _ _ => none
  | .rdx _ _ _ => none
  | .upg _ _ _ => none
  | .wbd _ _ => none
  | .wbe _ _ => none
  | .inv _ _ => none
  | .fwds _ _ _ => none
  | .fwdx _ _ _ => none
  | .coherenceData _ _ => none
  | .cmp _ _ => none
  | .invack _ _ => none
  | .fwdack _ _ => none
  | .wback _ _ => none
  | .memrd _ _ _ => none
  | .memwr _ _ _ => none
  | .bisnpdata _ => none
  | .bisnpinv _ => none
  | .birsp _ _ => none
  | .biconflict _ => none
  | .lookup _ _ _ => none
  | .lookupR _ _ _ _ _ => none
  | .read _ _ _ _ _ _ _ => none
  | .data _ _ _ _ => none
  | .reg _ _ _ _ _ _ => none
  | .regAck _ _ _ => none
  | .retire _ _ _ => none
  | .renew _ => none
  | .lapse _ _ _ => none
  | .nack _ _ _ _ => none
  | .stat _ _ _ _ _ => none
  | .statR _ _ _ _ _ _ => none
  | .remoteAnswerTimeout _ => none
  | .fliranRead _ _ _ _ _ _ _ => none
  | .fliranRdata _ _ _ _ _ _ => none
  | .fliranWrite _ _ _ _ _ _ _ => none
  | .fliranAck _ _ => none
  | .fliranNack _ _ _ _ => none
  | .fliranCrucible _ _ _ _ _ => none
  | .resendTimeout _ => none
  | .contextFetchComplete _ => none
  | .contextFetchTimeout _ => none
  | .rnrWaitExpiry _ => none
  | .portStateChange _ _ _ _ => none
  | .lockInterface _ => none
  | .getDeviceInterfaceReport _ => none
  | .startInterface _ => none
  | .stopInterface _ => none
  | .exportRevocationComplete => none
  | .powerOn => none
  | .pcieConventionalReset => none
  | .readyTimeout => none
  | .thermalTrip => none
  | .gwPc _ _ => none
  | .gwFflags _ _ => none
  | .cuSlicereq _ _ => none
  | .cuRingrun _ _ => none
  | .trProbe _ _ => none
  | .trInval _ _ => none
  | .trFpost _ _ => none
  | .trRetry _ _ => none
  | .trMigrate _ _ => none
  | .coDeclare _ _ => none
  | .coFlush _ _ => none
  | .coHaltq _ => none
  | .hmRate _ _ => none
  | .hmRetireWrite _ _ => none
  | .hmRetireRead _ => none
  | .hmChmask _ _ => none
  | .hmEcnt _ _ => none
  | .hmPcclr _ _ => none
  | .xrRevoke _ _ => none
  | .buLcreq _ _ => none
  | .buReady _ _ => none
  | .buReset _ _ => none
  | .powerLoss => none
  | .keyPairInstall _ _ => none
  | .tdiError _ => none
  | .pfcPause _ _ => none
  | .discardedPacket _ => none
  | .sliceRetention _ => none

/-- A map that decodes the instruction's word: the steward's seq map for the system opcodes, a gang's map otherwise. -/
def homeMap : Instr → IMap
  | .nop _ => .seq false 0
  | .hint _ _ _ => .seq false 0
  | .idleImm _ _ => .seq false 0
  | .idleReg _ _ => .seq false 0
  | .align _ _ => .seq false 0
  | .rdv _ => .seq false 0
  | .ffrd _ _ => .seq false 0
  | .ffwr _ _ => .seq false 0
  | .mbget _ _ _ => .seq false 0
  | .mbput _ _ _ => .seq false 0
  | .add _ _ _ _ => .seq false 0
  | .sub _ _ _ _ => .seq false 0
  | .and _ _ _ _ => .seq false 0
  | .or _ _ _ _ => .seq false 0
  | .xor _ _ _ _ => .seq false 0
  | .sll _ _ _ _ => .seq false 0
  | .srl _ _ _ _ => .seq false 0
  | .sra _ _ _ _ => .seq false 0
  | .slt _ _ _ _ => .seq false 0
  | .sltu _ _ _ _ => .seq false 0
  | .min _ _ _ _ => .seq false 0
  | .max _ _ _ _ => .seq false 0
  | .minu _ _ _ _ => .seq false 0
  | .maxu _ _ _ _ => .seq false 0
  | .mul _ _ _ _ => .seq false 0
  | .mulh _ _ _ _ => .seq false 0
  | .mulhu _ _ _ _ => .seq false 0
  | .mulhsu _ _ _ _ => .seq false 0
  | .addi _ _ _ _ => .seq false 0
  | .andi _ _ _ _ => .seq false 0
  | .ori _ _ _ _ => .seq false 0
  | .xori _ _ _ _ => .seq false 0
  | .slli _ _ _ _ => .seq false 0
  | .srli _ _ _ _ => .seq false 0
  | .srai _ _ _ _ => .seq false 0
  | .slti _ _ _ _ => .seq false 0
  | .sltiu _ _ _ _ => .seq false 0
  | .lil _ _ _ => .seq false 0
  | .lih _ _ _ => .seq false 0
  | .beq _ _ _ _ => .seq false 0
  | .bne _ _ _ _ => .seq false 0
  | .blt _ _ _ _ => .seq false 0
  | .bge _ _ _ _ => .seq false 0
  | .bltu _ _ _ _ => .seq false 0
  | .bgeu _ _ _ _ => .seq false 0
  | .jal _ _ _ => .seq false 0
  | .jr _ _ _ _ => .seq false 0
  | .loop _ _ _ => .seq false 0
  | .ldb _ _ _ _ _ _ => .seq false 0
  | .ldbu _ _ _ _ _ _ => .seq false 0
  | .ldh _ _ _ _ _ _ => .seq false 0
  | .ldhu _ _ _ _ _ _ => .seq false 0
  | .ldw _ _ _ _ _ _ => .seq false 0
  | .ldwu _ _ _ _ _ _ => .seq false 0
  | .ldd _ _ _ _ _ _ => .seq false 0
  | .stb _ _ _ _ _ _ => .seq false 0
  | .sth _ _ _ _ _ _ => .seq false 0
  | .stw _ _ _ _ _ _ => .seq false 0
  | .std _ _ _ _ _ _ => .seq false 0
  | .aadd _ _ _ _ _ _ => .seq false 0
  | .amin _ _ _ _ _ _ => .seq false 0
  | .amax _ _ _ _ _ _ => .seq false 0
  | .aand _ _ _ _ _ _ => .seq false 0
  | .aor _ _ _ _ _ _ => .seq false 0
  | .axor _ _ _ _ _ _ => .seq false 0
  | .aswp _ _ _ _ _ _ => .seq false 0
  | .acas _ _ _ _ _ _ _ => .seq false 0
  | .fence _ _ _ => .seq false 0
  | .tfence _ _ => .seq false 0
  | .binit _ _ _ => .seq false 0
  | .barrive _ _ => .seq false 0
  | .bexpect _ _ _ => .seq false 0
  | .holdWptr _ _ _ => .seq false 0
  | .holdBarrier _ _ => .seq false 0
  | .holdRing _ _ _ => .seq false 0
  | .send _ _ _ _ _ => .seq false 0
  | .recv _ _ _ _ _ => .seq false 0
  | .racq _ _ _ => .seq false 0
  | .rpub _ _ _ => .seq false 0
  | .rtake _ _ _ => .seq false 0
  | .rfree _ _ _ => .seq false 0
  | .cgeta _ _ _ => .seq false 0
  | .cgetb _ _ _ => .seq false 0
  | .cgetl _ _ _ => .seq false 0
  | .cgetp _ _ _ => .seq false 0
  | .cgett _ _ _ => .seq false 0
  | .cgeto _ _ _ => .seq false 0
  | .cseta _ _ _ _ => .seq false 0
  | .cincaReg _ _ _ _ => .seq false 0
  | .cincaImm _ _ _ _ => .seq false 0
  | .csetb _ _ _ _ => .seq false 0
  | .csetbr _ _ _ _ => .seq false 0
  | .candp _ _ _ _ => .seq false 0
  | .clock _ _ _ _ => .seq false 0
  | .cunlock _ _ _ _ => .seq false 0
  | .ctsub _ _ _ _ => .seq false 0
  | .cmov _ _ _ => .seq false 0
  | .cldc _ _ _ _ => .seq false 0
  | .cstc _ _ _ _ => .seq false 0
  | .cjal _ _ _ => .seq false 0
  | .cjr _ _ => .seq false 0
  | .yield _ _ => .seq false 0
  | .kmatch _ _ _ _ _ => .seq false 0
  | .kopen _ _ _ _ _ => .seq false 0
  | .kseal _ _ _ _ _ _ => .seq false 0
  | .klease _ _ _ => .seq false 0
  | .krenew _ _ _ => .seq false 0
  | .kdrop _ _ _ => .seq false 0
  | .kpin _ _ _ _ => .seq false 0
  | .kunpin _ _ _ _ => .seq false 0
  | .krepl _ _ _ _ _ => .seq false 0
  | .kstat _ _ _ _ => .seq false 0
  | .kclass _ _ _ => .seq false 0
  | .kname _ _ _ => .seq false 0
  | .kdepth _ _ _ => .seq false 0
  | .kanc _ _ _ _ => .seq false 0
  | .launch _ _ _ _ => .seq false 0
  | .gcancel _ _ _ => .seq false 0
  | .cwread _ _ _ => .seq false 0
  | .eread _ _ _ => .seq false 0
  | .csrr _ _ _ => .seq true 0
  | .csrw _ _ _ => .seq true 0
  | .trap _ _ => .seq true 0
  | .eret _ => .seq true 0
  | .wfe _ => .seq true 0
  | .sweepOpen _ _ => .seq true 0
  | .sweepStat _ _ => .seq true 0
  | .sweepForce _ _ => .seq true 0
  | .xins _ _ _ => .seq true 0
  | .maskw _ _ _ _ => .seq true 0
  | .freeze _ _ => .seq true 0
  | .thaw _ _ _ => .seq true 0
  | .cancel _ _ _ => .seq true 0
  | .cpy _ _ _ _ _ _ => .ladle false
  | .cpyn _ _ _ _ _ _ => .ladle false
  | .gath _ _ _ _ _ _ => .ladle false
  | .scat _ _ _ _ _ _ => .ladle false
  | .scadd _ _ _ _ _ _ => .ladle false
  | .mcast _ _ _ _ _ _ => .ladle false
  | .rread _ _ _ _ _ _ => .ladle false
  | .rwrite _ _ _ _ _ _ => .ladle false
  | .kget _ _ _ _ _ _ => .ladle false
  | .kput _ _ _ _ _ _ => .ladle false
  | .sqld _ _ _ _ => .ladle false
  | .qbind _ _ _ => .ladle false
  | .qop _ _ _ => .ladle false
  | .qstart _ _ => .ladle false
  | .qstop _ _ => .ladle false
  | .wprd _ _ _ => .ladle false
  | .vshapeWr _ _ => .vec
  | .vshapeRd _ _ => .vec
  | .vshapeVl _ _ => .vec
  | .vadd _ _ _ _ _ => .vec
  | .vsub _ _ _ _ _ => .vec
  | .vmul _ _ _ _ _ => .vec
  | .vfma _ _ _ _ _ => .vec
  | .vfms _ _ _ _ _ => .vec
  | .vmax _ _ _ _ _ => .vec
  | .vmin _ _ _ _ _ => .vec
  | .vabs _ _ _ _ => .vec
  | .vneg _ _ _ _ => .vec
  | .vrcp _ _ _ _ => .vec
  | .vrsq _ _ _ _ => .vec
  | .vexp2 _ _ _ _ => .vec
  | .vlog2 _ _ _ _ => .vec
  | .vcvt _ _ _ _ _ _ => .vec
  | .viadd _ _ _ _ _ => .vec
  | .visub _ _ _ _ _ => .vec
  | .vimul _ _ _ _ _ => .vec
  | .vimin _ _ _ _ _ => .vec
  | .vimax _ _ _ _ _ => .vec
  | .vand _ _ _ _ _ => .vec
  | .vor _ _ _ _ _ => .vec
  | .vxor _ _ _ _ _ => .vec
  | .vshl _ _ _ _ _ => .vec
  | .vshr _ _ _ _ _ => .vec
  | .vsra _ _ _ _ _ => .vec
  | .vcmp _ _ _ _ _ => .vec
  | .vicmp _ _ _ _ _ => .vec
  | .vsel _ _ _ _ _ => .vec
  | .vrsum _ _ _ _ _ => .vec
  | .vrmax _ _ _ _ _ => .vec
  | .vrmin _ _ _ _ _ => .vec
  | .vrisum _ _ _ _ _ => .vec
  | .vrimax _ _ _ _ _ => .vec
  | .vrimin _ _ _ _ _ => .vec
  | .vscsum _ _ _ _ _ => .vec
  | .vscmax _ _ _ _ _ => .vec
  | .vscmin _ _ _ _ _ => .vec
  | .vscisum _ _ _ _ _ => .vec
  | .vscimax _ _ _ _ _ => .vec
  | .vscimin _ _ _ _ _ => .vec
  | .vperm _ _ _ _ _ => .vec
  | .vslide _ _ _ _ _ => .vec
  | .vbcst _ _ _ _ => .vec
  | .vmovxToX _ _ _ _ => .vec
  | .vmovxToV _ _ _ _ => .vec
  | .vld _ _ _ _ _ _ => .vec
  | .vst _ _ _ _ _ _ => .vec
  | .vgath _ _ _ _ _ _ => .vec
  | .vscat _ _ _ _ _ _ => .vec
  | .vpop _ _ _ => .vec
  | .vlqnt _ _ _ _ _ _ => .vec
  | .vldec _ _ _ _ _ => .vec
  | .plog _ _ _ _ _ => .vec
  | .pcntCount _ _ _ _ => .vec
  | .pcntFirst _ _ _ _ => .vec
  | .pcntLast _ _ _ _ => .vec
  | .psetFirst _ _ _ => .vec
  | .psetFromx _ _ _ => .vec
  | .psetTox _ _ _ => .vec
  | .mshapeReq _ _ => .mat
  | .mshapeGet _ _ => .mat
  | .mclaim _ _ _ => .mat
  | .mrelease _ _ _ => .mat
  | .mfillScratch _ _ _ _ => .mat
  | .mfillStream _ _ _ _ => .mat
  | .mma _ _ _ _ _ _ => .mat
  | .mmal _ _ _ _ _ _ => .mat
  | .mzero _ _ => .mat
  | .mdrain _ _ _ _ _ _ _ => .mat
  | .mdrainp _ _ _ _ => .mat
  | .mmodeSet _ _ => .mat
  | .mmodeSetx _ _ => .mat
  | .mmodeGet _ _ => .mat
  | .mscale _ _ => .mat
  | .pourPlacement _ => .seq true 0
  | .contextRestoreComplete _ => .seq true 0
  | .pourRetirement _ => .seq true 0
  | .globalAccessReturn _ => .seq true 0
  | .globalStorePerform _ => .seq true 0
  | .copyLanding _ _ _ _ => .seq true 0
  | .copyFaultAfterIssue _ => .seq true 0
  | .patternDecode _ _ _ => .seq true 0
  | .crucibleCompletion _ => .seq true 0
  | .cupolaAnswer _ => .seq true 0
  | .ringReport _ => .seq true 0
  | .homeAtomic _ => .seq true 0
  | .scaddReduction _ _ => .seq true 0
  | .drainAddLanding _ _ => .seq true 0
  | .drainAddRefusal _ => .seq true 0
  | .freezeTimeout _ => .seq true 0
  | .alignmentTimeout _ => .seq true 0
  | .yieldDrainComplete _ => .seq true 0
  | .contextSaveComplete _ => .seq true 0
  | .preemptionRequest _ => .seq true 0
  | .cancelComplete _ _ => .seq true 0
  | .registerSweepStart _ => .seq true 0
  | .registerSweepEnd _ => .seq true 0
  | .epochSettle => .seq true 0
  | .epochFettle => .seq true 0
  | .fettlerVisit => .seq true 0
  | .epochEnd => .seq true 0
  | .leaseTick => .seq true 0
  | .timedLeaseExpiry _ => .seq true 0
  | .transferLeaseExpiry _ _ _ => .seq true 0
  | .renewPeriod => .seq true 0
  | .holderTimeout _ => .seq true 0
  | .demotionSwitch _ => .seq true 0
  | .planningInterval _ _ _ => .seq true 0
  | .stewardTimer _ => .seq true 0
  | .gfaultNotify _ => .seq true 0
  | .handlerEntry _ => .seq true 0
  | .submissionDoorbell _ _ => .seq true 0
  | .completionAckDoorbell _ _ => .seq true 0
  | .ringLaunch _ => .seq true 0
  | .gopen _ => .seq true 0
  | .gclose _ => .seq true 0
  | .ringCancel _ => .seq true 0
  | .ringNop _ => .seq true 0
  | .stewardDoorbell _ => .seq true 0
  | .hostMigrationStart _ _ => .seq true 0
  | .lcHostRequest _ => .seq true 0
  | .faultBatchAge => .seq true 0
  | .faultBatchWrite => .seq true 0
  | .migrationComplete _ => .seq true 0
  | .sliceReassignComplete => .seq true 0
  | .hmRateSwitchEnd => .seq true 0
  | .sliceWake _ => .seq true 0
  | .probeTimeout _ => .seq true 0
  | .agentDeath _ => .seq true 0
  | .rds _ _ _ => .seq true 0
  | .rdx _ _ _ => .seq true 0
  | .upg _ _ _ => .seq true 0
  | .wbd _ _ => .seq true 0
  | .wbe _ _ => .seq true 0
  | .inv _ _ => .seq true 0
  | .fwds _ _ _ => .seq true 0
  | .fwdx _ _ _ => .seq true 0
  | .coherenceData _ _ => .seq true 0
  | .cmp _ _ => .seq true 0
  | .invack _ _ => .seq true 0
  | .fwdack _ _ => .seq true 0
  | .wback _ _ => .seq true 0
  | .memrd _ _ _ => .seq true 0
  | .memwr _ _ _ => .seq true 0
  | .bisnpdata _ => .seq true 0
  | .bisnpinv _ => .seq true 0
  | .birsp _ _ => .seq true 0
  | .biconflict _ => .seq true 0
  | .lookup _ _ _ => .seq true 0
  | .lookupR _ _ _ _ _ => .seq true 0
  | .read _ _ _ _ _ _ _ => .seq true 0
  | .data _ _ _ _ => .seq true 0
  | .reg _ _ _ _ _ _ => .seq true 0
  | .regAck _ _ _ => .seq true 0
  | .retire _ _ _ => .seq true 0
  | .renew _ => .seq true 0
  | .lapse _ _ _ => .seq true 0
  | .nack _ _ _ _ => .seq true 0
  | .stat _ _ _ _ _ => .seq true 0
  | .statR _ _ _ _ _ _ => .seq true 0
  | .remoteAnswerTimeout _ => .seq true 0
  | .fliranRead _ _ _ _ _ _ _ => .seq true 0
  | .fliranRdata _ _ _ _ _ _ => .seq true 0
  | .fliranWrite _ _ _ _ _ _ _ => .seq true 0
  | .fliranAck _ _ => .seq true 0
  | .fliranNack _ _ _ _ => .seq true 0
  | .fliranCrucible _ _ _ _ _ => .seq true 0
  | .resendTimeout _ => .seq true 0
  | .contextFetchComplete _ => .seq true 0
  | .contextFetchTimeout _ => .seq true 0
  | .rnrWaitExpiry _ => .seq true 0
  | .portStateChange _ _ _ _ => .seq true 0
  | .lockInterface _ => .seq true 0
  | .getDeviceInterfaceReport _ => .seq true 0
  | .startInterface _ => .seq true 0
  | .stopInterface _ => .seq true 0
  | .exportRevocationComplete => .seq true 0
  | .powerOn => .seq true 0
  | .pcieConventionalReset => .seq true 0
  | .readyTimeout => .seq true 0
  | .thermalTrip => .seq true 0
  | .gwPc _ _ => .seq true 0
  | .gwFflags _ _ => .seq true 0
  | .cuSlicereq _ _ => .seq true 0
  | .cuRingrun _ _ => .seq true 0
  | .trProbe _ _ => .seq true 0
  | .trInval _ _ => .seq true 0
  | .trFpost _ _ => .seq true 0
  | .trRetry _ _ => .seq true 0
  | .trMigrate _ _ => .seq true 0
  | .coDeclare _ _ => .seq true 0
  | .coFlush _ _ => .seq true 0
  | .coHaltq _ => .seq true 0
  | .hmRate _ _ => .seq true 0
  | .hmRetireWrite _ _ => .seq true 0
  | .hmRetireRead _ => .seq true 0
  | .hmChmask _ _ => .seq true 0
  | .hmEcnt _ _ => .seq true 0
  | .hmPcclr _ _ => .seq true 0
  | .xrRevoke _ _ => .seq true 0
  | .buLcreq _ _ => .seq true 0
  | .buReady _ _ => .seq true 0
  | .buReset _ _ => .seq true 0
  | .powerLoss => .seq true 0
  | .keyPairInstall _ _ => .seq true 0
  | .tdiError _ => .seq true 0
  | .pfcPause _ _ => .seq true 0
  | .discardedPacket _ => .seq true 0
  | .sliceRetention _ => .seq true 0

/-- The little-endian word of four bytes (R184). -/
def wordOf (b0 b1 b2 b3 : Byte) : Nat := ofLE [b0, b1, b2, b3]

/-- The first map of a list that accepts the word, with its instruction. -/
def firstMap (w : Nat) : List IMap → Option (IMap × Instr)
  | [] => none
  | m :: ms =>
    match decode m w with
    | .ok i => some (m, i)
    | .error _ => firstMap w ms

/-- The maps that are tried for a word of the opcode table, which names no map: a steward's seq stream first where the
word is scalar or a system opcode, else the mat, seq, ladle and vec streams of a gang. -/
def tableMaps (w : Nat) : List IMap :=
  if bits w 27 21 < 0x40 ∨ 0x70 ≤ bits w 27 21 then [.seq true 0, .seq false 0, .ladle false, .vec, .mat]
  else [.mat, .seq false 0, .ladle false, .vec]

/-- The instruction that the decoder reads from a word of the opcode table, laid out as the hardware stores it. -/
def decodeTableWord (nbits w : Nat) : Option Instr :=
  if nbits > 32 then none
  else
    match leBytes w 4 with
    | [b0, b1, b2, b3] => (firstMap (wordOf b0 b1 b2 b3) (tableMaps w)).map (·.2)
    | _ => none

end Sys2Proof
end

