-- ==== Sys2Proof/Machine/Caps.lean ====
section
/-!
DEFINITION. Capabilities as values (spec/05_capabilities.md): layout, bounds, encodings, the access check.
-/
namespace Sys2Proof.Machine

/-- A 128-bit capability and its tag (R91). -/
structure Cap where
  tag : Bool
  perms : BitVec 16
  otype : BitVec 12
  e : BitVec 6
  b : BitVec 15
  t : BitVec 15
  addr : Word
  deriving DecidableEq, Repr

/-- The null capability: all zeros, tag 0 (R94). -/
def Cap.null : Cap := ⟨false, 0, 0, 0, 0, 0, 0⟩

/-- The 128 bits of a capability (R91). -/
def Cap.toNat (c : Cap) : Nat :=
  c.addr.toNat + 2 ^ 64 * (c.t.toNat + 2 ^ 15 * (c.b.toNat + 2 ^ 15 * (c.e.toNat
    + 2 ^ 6 * (c.otype.toNat + 2 ^ 12 * c.perms.toNat))))

/-- The capability that 128 bits and a tag spell (R91). -/
def Cap.ofNat (v : Nat) (tag : Bool) : Cap :=
  { tag := tag, perms := BitVec.ofNat 16 (bits v 127 112), otype := BitVec.ofNat 12 (bits v 111 100),
    e := BitVec.ofNat 6 (bits v 99 94), b := BitVec.ofNat 15 (bits v 93 79),
    t := BitVec.ofNat 15 (bits v 78 64), addr := BitVec.ofNat 64 (bits v 63 0) }

/-- The permission bits of R92, by number. -/
inductive Perm where
  | ld | st | ex | lc | sc | gl | sl | lk | ul | at | cp | rx | sm | sy
  deriving DecidableEq, Repr

/-- Bit number of a permission (R92). -/
def Perm.bit : Perm → Nat
  | .ld => 0 | .st => 1 | .ex => 2 | .lc => 3 | .sc => 4 | .gl => 5 | .sl => 6 | .lk => 7
  | .ul => 8 | .at => 9 | .cp => 10 | .rx => 11 | .sm => 12 | .sy => 13

/-- The capability holds the permission. -/
def Cap.has (c : Cap) (p : Perm) : Bool := c.perms.toNat.testBit p.bit

/-- DecBounds (R95): base and top as unbounded integers. -/
def Cap.bounds (c : Cap) : Nat × Nat :=
  let e := c.e.toNat
  let b := c.b.toNat
  let t := c.t.toNat
  let a := c.addr.toNat
  let lm := (t + 2 ^ 15 - b) % 2 ^ 15
  let g := 2 ^ 15 - lm
  let rb := (b + 2 ^ 15 - g / 2) % 2 ^ 15
  let amid := (a / 2 ^ e) % 2 ^ 15
  let cb : Int := (if b < rb then 1 else 0) - (if amid < rb then 1 else 0)
  let base := wrap 64 ((((a / 2 ^ (e + 15) : Nat) : Int) + cb) * (2 ^ 15 * 2 ^ e : Nat) + (b * 2 ^ e : Nat))
  (base, base + lm * 2 ^ e)

/-- The base of the bounds (R95). -/
def Cap.base (c : Cap) : Nat := c.bounds.1

/-- The top of the bounds (R95). -/
def Cap.top (c : Cap) : Nat := c.bounds.2

/-- The representable region contains `a` (R96). -/
def Cap.inRegion (c : Cap) (a : Nat) : Bool :=
  let e := c.e.toNat
  let lm := (c.t.toNat + 2 ^ 15 - c.b.toNat) % 2 ^ 15
  let g := 2 ^ 15 - lm
  let rlo := wrap 64 ((c.base : Int) - ((g / 2) * 2 ^ e : Nat))
  decide (wrap 64 ((a : Int) - (rlo : Int)) < 2 ^ (e + 15))

/-- The smallest `k ≤ n`, counted from `e`, that satisfies `p`. -/
def leastFrom (p : Nat → Bool) : Nat → Nat → Option Nat
  | _, 0 => none
  | e, n + 1 => if p e then some e else leastFrom p (e + 1) n

/-- Ceil(b / 2^e) for the inward encoding. -/
def ceilPow (b e : Nat) : Nat := (b + 2 ^ e - 1) / 2 ^ e

/-- An encoding of bounds: exponent, base, top (R97). -/
structure Bounds where
  e : Nat
  lo : Nat
  hi : Nat
  deriving DecidableEq, Repr

/-- EncExact (R97); `none` is the REPRESENT fault. -/
def encExact (b t : Nat) : Option Bounds :=
  match leastFrom (fun e => decide (t - b ≤ (2 ^ 15 - 1) * 2 ^ e)) 0 64 with
  | none => none
  | some e => if e > 49 ∨ b % 2 ^ e ≠ 0 ∨ t % 2 ^ e ≠ 0 then none else some ⟨e, b, t⟩

/-- EncInward (R97); `none` is the REPRESENT fault. -/
def encInward (b t : Nat) : Option Bounds :=
  match leastFrom (fun e => decide (t / 2 ^ e ≤ ceilPow b e + (2 ^ 15 - 1))) 0 64 with
  | none => none
  | some e =>
    if e > 49 then none
    else
      let b' := ceilPow b e * 2 ^ e
      some ⟨e, b', max b' (t / 2 ^ e * 2 ^ e)⟩

/-- The capability with the bounds of an encoding and the address at its base (R97, R102). -/
def Cap.withBounds (c : Cap) (n : Bounds) : Cap :=
  { c with e := BitVec.ofNat 6 n.e, b := BitVec.ofNat 15 (n.lo / 2 ^ n.e), t := BitVec.ofNat 15 (n.hi / 2 ^ n.e),
           addr := BitVec.ofNat 64 n.lo }

/-- Sub-causes of a capability fault (R98). -/
inductive CapSub where
  | tag | locked | perm | bounds | local | align | represent | subset | otype | tagless
  deriving DecidableEq, Repr

/-- Sub-cause code (R98). -/
def CapSub.code : CapSub → Nat
  | .tag => 0 | .locked => 1 | .perm => 2 | .bounds => 3 | .local => 4 | .align => 5
  | .represent => 6 | .subset => 7 | .otype => 8 | .tagless => 9

/-- CapCheck (R98): `none` when the access passes, else the first sub-cause in the rule's order.
`al` is the alignment the access needs, 1 for all but capability accesses. -/
def capCheck (c : Cap) (a size al : Nat) (need : List Perm) : Option CapSub :=
  if c.tag = false then some .tag
  else if c.otype ≠ 0 then some .locked
  else if need.all (fun p => c.has p) = false then some .perm
  else if a % al ≠ 0 then some .align
  else if a < c.base ∨ a + size > c.top then some .bounds
  else none

/-- The address moved: the tag is lost outside the region (R102, CSETA and CINCA). -/
def Cap.moveTo (c : Cap) (a : Word) : Cap :=
  { c with addr := a, tag := c.tag && c.inRegion a.toNat }

/-- c[c2]'s bounds and permissions lie within c[c1]'s, both tagged (R103). -/
def Cap.subsetOf (c2 c1 : Cap) : Bool :=
  c1.tag && c2.tag && decide (c1.base ≤ c2.base) && decide (c2.top ≤ c1.top)
    && decide (c2.perms &&& ~~~ c1.perms = 0)

/-- First address of the scratch window (R111). -/
def scratchBase : Nat := 0xFF80_0000_0000_0000

/-- Bytes of a cell's scratchpad (R19). -/
def scratchSize : Nat := 0x30_0000

/-- Bytes of a steward's scratch (R317). -/
def stewardScratchSize : Nat := 0x1_0000

/-- The three classes of a 64-bit address (R117). -/
inductive Space where
  | scratch | global | other
  deriving DecidableEq, Repr

/-- Classification of `n` bytes from `a`, for a scratch window of `sz` bytes (R117, R317). -/
def spaceOf (sz a n : Nat) : Space :=
  if scratchBase ≤ a ∧ a + n ≤ scratchBase + sz then .scratch
  else if a + n ≤ 2 ^ 57 then .global
  else .other

/-- First address of the slot window (R436). -/
def slotBase : Nat := 0x01FF_C000_0000_0000

/-- The address lies in the slot window (R436). -/
def inSlotWindow (a : Nat) : Bool := decide (slotBase ≤ a) && decide (a < 2 ^ 57)

/-- The scratch capability c1 of a pour (R30, worked capability of chapter 5). -/
def Cap.scratchC1 : Cap :=
  { tag := true, perms := 0x001B, otype := 0, e := 7, b := 0, t := 0x6000, addr := BitVec.ofNat 64 scratchBase }

/-- The root capability of a steward (R432). -/
def Cap.root : Cap :=
  { tag := true, perms := 0x3FFF, otype := 0, e := 49, b := 0, t := 0x7FFF, addr := 0 }

/-- The type authority of a steward (R432). -/
def Cap.typeAuth : Cap :=
  { tag := true, perms := 0x2180, otype := 0, e := 0, b := 0, t := 4096, addr := 0 }

/-- Address field of a node handle (R162). -/
def nodeAddr (idx dev gen : Nat) : Nat := idx % 2 ^ 24 + 2 ^ 24 * (dev % 2 ^ 18) + 2 ^ 42 * (gen % 2 ^ 22)

/-- A node handle (R162). -/
def Cap.node (idx dev gen : Nat) : Cap :=
  { tag := true, perms := 0x0021, otype := 1, e := 0, b := 0, t := 0, addr := BitVec.ofNat 64 (nodeAddr idx dev gen) }

/-- NH_INDEX of a handle (R162). -/
def Cap.nhIndex (c : Cap) : Nat := bits c.addr.toNat 23 0

/-- NH_DEV of a handle (R162). -/
def Cap.nhDev (c : Cap) : Nat := bits c.addr.toNat 41 24

/-- NH_GEN of a handle (R162). -/
def Cap.nhGen (c : Cap) : Nat := bits c.addr.toNat 63 42

/-- A handle of object type 4 with the address of its table entry (R26, R339). -/
def Cap.handle (a : Nat) : Cap :=
  { tag := true, perms := 0x0021, otype := 4, e := 0, b := 0, t := 0, addr := BitVec.ofNat 64 a }

/-- CLOCK (R104): the locked capability, or the sub-cause of its fault. -/
def capLock (c a : Cap) : Except CapSub Cap :=
  if c.tag = false then .error .tag
  else if c.otype ≠ 0 then .error .locked
  else match capCheck a a.addr.toNat 1 1 [.lk] with
    | some e => .error e
    | none =>
      let k := a.addr.toNat
      if k = 0 ∨ (5 ≤ k ∧ k ≤ 255) ∨ k > 4095 then .error .otype
      else if k ≤ 4 ∧ a.has .sy = false then .error .otype
      else .ok { c with otype := BitVec.ofNat 12 k }

/-- CUNLOCK (R104): the unlocked capability, or the sub-cause of its fault. -/
def capUnlock (c a : Cap) : Except CapSub Cap :=
  if c.tag = false then .error .tag
  else match capCheck a a.addr.toNat 1 1 [.ul] with
    | some e => .error e
    | none =>
      if c.otype = 0 ∨ a.addr.toNat ≠ c.otype.toNat then .error .otype
      else if c.otype.toNat ≤ 255 ∧ a.has .sy = false then .error .otype
      else .ok { c with otype := 0 }

/-- CSETB and CSETBR (R102), by the encoding they use: tests in the rule's order. -/
def capSetBounds (enc : Nat → Nat → Option Bounds) (c : Cap) (len : Word) : Except CapSub Cap :=
  if c.tag = false then .error .tag
  else if c.otype ≠ 0 then .error .locked
  else if c.addr.toNat + len.toNat > 2 ^ 64 then .error .subset
  else match enc c.addr.toNat (c.addr.toNat + len.toNat) with
    | none => .error .represent
    | some n => if n.lo < c.base ∨ n.hi > c.top then .error .subset else .ok (c.withBounds n)

/-- CSETA and CINCA (R102). -/
def capSetAddr (c : Cap) (a : Word) : Except CapSub Cap :=
  if c.tag = true ∧ c.otype ≠ 0 then .error .locked else .ok (c.moveTo a)

/-- CANDP (R102). -/
def capAndPerms (c : Cap) (m : BitVec 16) : Except CapSub Cap :=
  if c.tag = true ∧ c.otype ≠ 0 then .error .locked else .ok { c with perms := c.perms &&& m }

end Sys2Proof.Machine
end

