-- ==== Sys2Proof/Machine/Num.lean ====
section
/-!
DEFINITION. Number formats, exact arithmetic and the one rounding function (spec/03_arithmetic.md).
-/
namespace Sys2Proof.Machine

/-- An exact number: ± m × 2^e, an infinity, or NaN (R65). -/
inductive Num where
  | nan
  | inf (neg : Bool)
  | fin (neg : Bool) (m : Nat) (e : Int)
  deriving DecidableEq, Repr

/-- Rounding modes (R64). -/
inductive RMode where
  | rne | rz | ru | rd | ro
  deriving DecidableEq, Repr

/-- Rounding mode of a code 0–4 (R64); other codes name no mode of their own. -/
def RMode.ofCode : Nat → Option RMode
  | 0 => some .rne | 1 => some .rz | 2 => some .ru | 3 => some .rd | 4 => some .ro | _ => none

/-- The six sticky flags NV, OF, UF, NX, LO, LI (R73). -/
abbrev FFlags := BitVec 6

def fNV : FFlags := 1
def fOF : FFlags := 2
def fUF : FFlags := 4
def fNX : FFlags := 8
def fLO : FFlags := 16
def fLI : FFlags := 32

/-- Data formats (R55). -/
inductive Fmt where
  | fp32 | bf16 | fp16 | int32 | int16 | int8 | int4 | mf | l8x16 | l8x32 | e8m0
  deriving DecidableEq, Repr

/-- Format of a 4-bit code; 11–15 are reserved (R55). -/
def Fmt.ofCode : Nat → Option Fmt
  | 0 => some .fp32 | 1 => some .bf16 | 2 => some .fp16 | 3 => some .int32 | 4 => some .int16 | 5 => some .int8
  | 6 => some .int4 | 7 => some .mf | 8 => some .l8x16 | 9 => some .l8x32 | 10 => some .e8m0 | _ => none

/-- Code of a format (R55). -/
def Fmt.code : Fmt → Nat
  | .fp32 => 0 | .bf16 => 1 | .fp16 => 2 | .int32 => 3 | .int16 => 4 | .int8 => 5
  | .int4 => 6 | .mf => 7 | .l8x16 => 8 | .l8x32 => 9 | .e8m0 => 10

def Fmt.isLattice : Fmt → Bool
  | .l8x16 | .l8x32 => true
  | _ => false

def Fmt.isInt : Fmt → Bool
  | .int32 | .int16 | .int8 | .int4 => true
  | _ => false

def Fmt.isFloat : Fmt → Bool
  | .fp32 | .bf16 | .fp16 | .mf => true
  | _ => false

/-- A floating format: exponent and mantissa bits, bias, IEEE-like or finite kind, sign (R56, R58). -/
structure FF where
  ew : Nat
  mw : Nat
  bias : Int
  ieee : Bool
  sgn : Bool
  deriving DecidableEq, Repr

def FF.f32 : FF := ⟨8, 23, 127, true, true⟩
def FF.bf16 : FF := ⟨8, 7, 127, true, true⟩
def FF.f16 : FF := ⟨5, 10, 15, true, true⟩

/-- The format of a minifloat descriptor (R58). -/
def FF.ofDesc (d : BitVec 16) : FF :=
  { ew := bits d.toNat 10 8, mw := bits d.toNat 13 11, bias := sx 8 d.toNat,
    ieee := !bitOf d.toNat 15, sgn := bitOf d.toNat 14 }

/-- Element width N of a format (R58). -/
def FF.width (f : FF) : Nat := (if f.sgn then 1 else 0) + f.ew + f.mw

/-- EMAX of R59. -/
def FF.emax (f : FF) : Int :=
  if f.ieee ∨ f.mw = 0 then (2 ^ f.ew : Nat) - 2 - f.bias else (2 ^ f.ew : Nat) - 1 - f.bias

/-- A descriptor is legal (R59). -/
def descLegal (d : BitVec 16) : Bool :=
  let f := FF.ofDesc d
  decide (f.ew ≠ 0) && decide (2 ≤ f.width) && decide (f.width ≤ 8) && (!f.ieee || decide (1 ≤ f.mw))
    && decide (f.emax ≤ 127) && decide (1 - f.bias - (f.mw : Int) ≥ -149)

/-- Bits of a minifloat container, 4 or 8 (R60). -/
def mfContainer (d : BitVec 16) : Nat := if (FF.ofDesc d).width ≤ 4 then 4 else 8

/-- The descriptor of E4M3 (R61). -/
def descE4M3 : BitVec 16 := 0xDC07

/-- Exponent of the least normal value (R65). -/
def FF.emin (f : FF) : Int := 1 - f.bias

/-- Mantissa and exponent of MAX, the largest finite value (R56, R59). -/
def FF.maxFin (f : FF) : Nat × Int :=
  let top := if f.ieee ∨ f.mw = 0 then 2 ^ f.ew - 2 else 2 ^ f.ew - 1
  let frac := if f.ieee ∨ f.mw = 0 then 2 ^ f.mw - 1 else 2 ^ f.mw - 2
  if top = 0 then (frac, 1 - f.bias - f.mw) else (2 ^ f.mw + frac, (top : Int) - f.bias - f.mw)

/-- The canonical NaN (R68). -/
def FF.canonNaN (f : FF) : Nat :=
  if f.ieee then (2 ^ f.ew - 1) * 2 ^ f.mw + 2 ^ (f.mw - 1)
  else 2 ^ (f.ew + f.mw) - 1

/-- DecMF (R60), and the layouts of R56: the exact value of an encoding. -/
def FF.dec (f : FF) (b : Nat) : Num :=
  let neg := f.sgn && b.testBit (f.width - 1)
  let e := (b / 2 ^ f.mw) % 2 ^ f.ew
  let m := b % 2 ^ f.mw
  if f.ieee ∧ e = 2 ^ f.ew - 1 then (if m = 0 then .inf neg else .nan)
  else if ¬ f.ieee ∧ e = 2 ^ f.ew - 1 ∧ m = 2 ^ f.mw - 1 then .nan
  else if e = 0 then .fin neg m (1 - f.bias - f.mw)
  else .fin neg (2 ^ f.mw + m) ((e : Int) - f.bias - f.mw)

/-- m × 2^e as a number of units 2^u, for e ≥ u. -/
def scaleTo (m : Nat) (e u : Int) : Nat := m * 2 ^ (e - u).toNat

/-- Encoding of a value the format represents (R56, R58). -/
def FF.enc (f : FF) : Num → Nat
  | .nan => f.canonNaN
  | .inf neg => (if neg then 2 ^ (f.ew + f.mw) else 0) + (2 ^ f.ew - 1) * 2 ^ f.mw
  | .fin neg m e =>
    let s := if neg ∧ f.sgn then 2 ^ (f.ew + f.mw) else 0
    if m = 0 then s
    else
      let l : Int := Nat.log2 m + e
      if l < f.emin then
        let u := f.emin - f.mw
        s + (if e ≥ u then scaleTo m e u else m / 2 ^ (u - e).toNat)
      else
        let u := l - f.mw
        let n := if e ≥ u then scaleTo m e u else m / 2 ^ (u - e).toNat
        s + (l + f.bias).toNat * 2 ^ f.mw + (n - 2 ^ f.mw)

/-- m × 2^e > m' × 2^e'. -/
def magGt (m : Nat) (e : Int) (m' : Nat) (e' : Int) : Bool :=
  let u := min e e'
  decide (scaleTo m e u > scaleTo m' e' u)

/-- Whether the magnitude n + f of R65 rounds up: `half` compares f with 1/2 (−1, 0, 1), `inexact` is f ≠ 0. -/
def roundUpQ (mode : RMode) (neg : Bool) (n : Nat) (half : Int) (inexact : Bool) : Bool :=
  inexact && match mode with
    | .rne => decide (half > 0) || (decide (half = 0) && decide (n % 2 = 1))
    | .rz => false
    | .ru => !neg
    | .rd => neg
    | .ro => decide (n % 2 = 0)

/-- n units of 2^u rounded from m × 2^e under a mode, and whether it is inexact (R65). -/
def roundUnits (mode : RMode) (neg : Bool) (m : Nat) (e u : Int) : Nat × Bool :=
  if e ≥ u then (scaleTo m e u, false)
  else
    let k := (u - e).toNat
    let n := m / 2 ^ k
    let r := m % 2 ^ k
    let half : Int := (2 * r : Nat) - (2 ^ k : Nat)
    (n + (if roundUpQ mode neg n half (decide (r ≠ 0)) then 1 else 0), decide (r ≠ 0))

/-- The value delivered for an overflowed result (R66). -/
def overflowTo (f : FF) (mode : RMode) (sat neg : Bool) : Num :=
  let big : Num := if f.ieee then .inf neg else .nan
  let max : Num := .fin neg f.maxFin.1 f.maxFin.2
  if sat then max
  else match mode with
    | .rne => big
    | .rz => max
    | .ru => if neg then max else big
    | .rd => if neg then big else max
    | .ro => max

/-- Round (R65) with the overflow rule of R66, and the flags it sets. -/
def roundTo (f : FF) (mode : RMode) (sat : Bool) : Num → Num × FFlags
  | .nan => (.nan, 0)
  | .inf neg =>
    if f.sgn = false ∧ neg then (.fin false 0 0, fNV)
    else if f.ieee then (.inf neg, 0)
    else if sat then (.fin neg f.maxFin.1 f.maxFin.2, fNV)
    else (.nan, fNV)
  | .fin neg m e =>
    if f.sgn = false ∧ neg then (.fin false 0 0, if m = 0 then 0 else fNV)
    else if m = 0 then (.fin neg 0 0, 0)
    else
      let l : Int := Nat.log2 m + e
      let u := max l f.emin - f.mw
      let (n, nx) := roundUnits mode neg m e u
      if magGt n u f.maxFin.1 f.maxFin.2 then (overflowTo f mode sat neg, fOF ||| fNX)
      else
        let uf := nx && magGt 1 f.emin n u
        (.fin neg n u, (if nx then fNX else 0) ||| (if uf then fUF else 0))

/-- Round and encode. -/
def roundEnc (f : FF) (mode : RMode) (sat : Bool) (x : Num) : Nat × FFlags :=
  let (y, fl) := roundTo f mode sat x
  (f.enc y, fl)

/-- An FP32 lane as a number (R56). -/
def laneNum (b : Lane) : Num := FF.f32.dec b.toNat

/-- RoundF32, encoded (R65); arithmetic uses the non-saturating column (R66). -/
def roundF32 (mode : RMode) (x : Num) : Lane × FFlags :=
  let (n, fl) := roundEnc FF.f32 mode false x
  (BitVec.ofNat 32 n, fl)

/-- Sign of a number; false for NaN. -/
def Num.neg : Num → Bool
  | .nan => false | .inf n => n | .fin n _ _ => n

def Num.isNan : Num → Bool
  | .nan => true
  | _ => false

def Num.isInf : Num → Bool
  | .inf _ => true
  | _ => false

def Num.isZero : Num → Bool
  | .fin _ 0 _ => true
  | _ => false

/-- The number with its sign inverted. -/
def Num.negate : Num → Num
  | .nan => .nan | .inf n => .inf (!n) | .fin n m e => .fin (!n) m e

/-- Exact product and whether it is 0 × ∞ (R68). -/
def Num.mul (a b : Num) : Num × Bool :=
  match a, b with
  | .nan, _ => (.nan, false)
  | _, .nan => (.nan, false)
  | .inf s, .inf t => (.inf (s != t), false)
  | .inf s, .fin t m _ => if m = 0 then (.nan, true) else (.inf (s != t), false)
  | .fin s m _, .inf t => if m = 0 then (.nan, true) else (.inf (s != t), false)
  | .fin s m e, .fin t n k => (.fin (s != t) (m * n) (e + k), false)

/-- Signed integer of a finite number in units of 2^u, u not above its exponent. -/
def Num.units (u : Int) : Num → Int
  | .fin neg m e => if neg then -(scaleTo m e u : Nat) else (scaleTo m e u : Nat)
  | _ => 0

/-- Exponent of a finite nonzero number, or `d`. -/
def Num.expo (d : Int) : Num → Int
  | .fin _ 0 _ => d
  | .fin _ _ e => e
  | _ => d

/-- The least exponent among nonzero finite terms, `d` when there is none. -/
def minExpo (d : Int) (l : List Num) : Int := l.foldl (fun u x => min u (x.expo u)) d

/-- Exact sum of terms, and whether it is an invalid ∞ − ∞ (R68). The sign of an exact zero is that of R65:
`rd` says that the mode is RD. -/
def sumExact (rd : Bool) (l : List Num) : Num × Bool :=
  if l.any Num.isNan then (.nan, false)
  else
    let pinf := l.any (fun x => x.isInf && !x.neg)
    let ninf := l.any (fun x => x.isInf && x.neg)
    if pinf ∧ ninf then (.nan, true)
    else if pinf then (.inf false, false)
    else if ninf then (.inf true, false)
    else
      let u := l.foldl (fun u x => min u (x.expo u)) (2000 : Int)
      let s := l.foldl (fun a x => if x.isZero then a else a + x.units u) (0 : Int)
      if s = 0 then
        let zneg := if l.all (fun x => x.isZero && x.neg) then true
          else if l.all (fun x => x.isZero && !x.neg) then false else rd
        (.fin zneg 0 0, false)
      else (.fin (decide (s < 0)) s.natAbs u, false)

/-- a + b under a mode, rounded once (R71). -/
def addF32 (mode : RMode) (a b : Lane) : Lane × FFlags :=
  let (s, nv) := sumExact (decide (mode = .rd)) [laneNum a, laneNum b]
  let (r, fl) := roundF32 mode s
  (r, fl ||| (if nv then fNV else 0))

/-- The lane with its sign bit inverted, NaN kept NaN. -/
def negLane (a : Lane) : Lane := a ^^^ 0x80000000

/-- a − b under a mode (R246). -/
def subF32 (mode : RMode) (a b : Lane) : Lane × FFlags := addF32 mode a (negLane b)

/-- a × b under a mode (R246). -/
def mulF32 (mode : RMode) (a b : Lane) : Lane × FFlags :=
  let (p, nv) := (laneNum a).mul (laneNum b)
  let (r, fl) := roundF32 mode p
  (r, fl ||| (if nv then fNV else 0))

/-- d ± a × b under a mode, rounded once; 0 × ∞ is invalid even beside a NaN addend (R68, R246). -/
def fmaF32 (mode : RMode) (minus : Bool) (d a b : Lane) : Lane × FFlags :=
  let (p, nv) := (laneNum a).mul (laneNum b)
  let q := if minus then p.negate else p
  let (s, nv2) := sumExact (decide (mode = .rd)) [laneNum d, q]
  let (r, fl) := roundF32 mode s
  (r, fl ||| (if nv || nv2 then fNV else 0))

/-- Three-way comparison of two numbers that are not NaN, −0 below +0 (R69). -/
def Num.lt (a b : Num) : Bool :=
  match a, b with
  | .inf s, .inf t => s && !t
  | .inf s, _ => s
  | _, .inf t => !t
  | x, y =>
    let u := min (x.expo 2000) (y.expo 2000)
    let i := if x.isZero then 0 else x.units u
    let j := if y.isZero then 0 else y.units u
    decide (i < j) || (decide (i = j) && decide (i = 0) && x.neg && !y.neg)

/-- Numeric equality, −0 equal to +0; false with a NaN (R251). -/
def Num.eq (a b : Num) : Bool :=
  !a.isNan && !b.isNan && ((a.isZero && b.isZero) || (!a.lt b && !b.lt a))

/-- The FP32 canonical NaN (R68). -/
def canonNaN32 : Lane := 0x7FC00000

/-- The greater of two lanes under R69. -/
def maxF32 (a b : Lane) : Lane :=
  let x := laneNum a
  let y := laneNum b
  if x.isNan && y.isNan then canonNaN32 else if x.isNan then b else if y.isNan then a else if x.lt y then b else a

/-- The lesser of two lanes under R69. -/
def minF32 (a b : Lane) : Lane :=
  let x := laneNum a
  let y := laneNum b
  if x.isNan && y.isNan then canonNaN32 else if x.isNan then b else if y.isNan then a else if y.lt x then b else a

/-- BrickSum (R70): the exact sum of the terms, rounded once under RNE. `zi` says that a product was 0 × ∞. -/
def brickSum (zi : Bool) (l : List Num) : Num × FFlags :=
  if zi then (.nan, fNV)
  else
    let (s, nv) := sumExact false l
    let (r, fl) := roundTo FF.f32 .rne false s
    (r, fl ||| (if nv then fNV else 0))

/-- The accumulator flush of R64. -/
def flushAcc (flush : Bool) (x : Num) (fl : FFlags) : Num × FFlags :=
  match x with
  | .fin neg m e =>
    if flush ∧ m ≠ 0 ∧ magGt 1 (-126) m e then (.fin neg 0 0, fl ||| fUF ||| fNX) else (x, fl)
  | _ => (x, fl)

/-- BrickSum of R70 with the flush of R64, encoded as an accumulator element. -/
def accSum (flush zi : Bool) (l : List Num) : Lane × FFlags :=
  let (s, fl) := brickSum zi l
  let (r, fl2) := flushAcc flush s fl
  (BitVec.ofNat 32 (FF.f32.enc r), fl2)

/-- Floating to INTn (R67): the two's complement low n bits, and the flags. -/
def toIntN (n : Nat) (mode : RMode) (x : Num) : Nat × FFlags :=
  let lo : Int := -(2 ^ (n - 1) : Nat)
  let hi : Int := (2 ^ (n - 1) : Nat) - 1
  match x with
  | .nan => (0, fNV)
  | .inf neg => (wrap n (if neg then lo else hi), fNV)
  | .fin neg m e =>
    let (k, nx) := roundUnits mode neg m e 0
    let v : Int := if neg then -(k : Int) else k
    if v < lo then (wrap n lo, fNV) else if v > hi then (wrap n hi, fNV)
    else (wrap n v, if nx then fNX else 0)

/-- INT32 as an exact number. -/
def intNum (v : Int) : Num := .fin (decide (v < 0)) v.natAbs 0

/-- Integer narrowing to n bits, saturating or wrapping (R67), in n bits. -/
def narrowInt (n : Nat) (sat : Bool) (v : Int) : Nat × FFlags :=
  let lo : Int := -(2 ^ (n - 1) : Nat)
  let hi : Int := (2 ^ (n - 1) : Nat) - 1
  if sat then
    if v < lo then (wrap n lo, fOF) else if v > hi then (wrap n hi, fOF) else (wrap n v, 0)
  else (wrap n v, 0)

/-- DecScale (R62): the value of a scale byte, `e4` choosing E4M3. -/
def decScale (e4 : Bool) (b : Nat) : Num :=
  if e4 then (FF.ofDesc descE4M3).dec b
  else if b % 256 = 255 then .nan else .fin false 1 ((b % 256 : Nat) - 127)

/-- Integer square root by bits, from bit `i − 1` down. -/
def isqrtBits (n : Nat) : Nat → Nat → Nat
  | 0, r => r
  | i + 1, r => isqrtBits n i (if (r + 2 ^ i) * (r + 2 ^ i) ≤ n then r + 2 ^ i else r)

/-- Floor of the square root. -/
def isqrt (n : Nat) : Nat := isqrtBits n (Nat.log2 n / 2 + 1) 0

/-- A magnitude q × 2^e known from below, with a sticky half unit when it is inexact. -/
def stickyNum (neg : Bool) (q : Nat) (e : Int) (inexact : Bool) : Num :=
  .fin neg (2 * q + (if inexact then 1 else 0)) (e - 1)

/-- 2^(frac × 2^−t) in units of 2^−256, truncated: one factor 2^(2^−j) per set bit, from the top bit down. -/
def exp2Frac (frac : Nat) : Nat → Nat → Nat → Nat
  | 0, _, acc => acc
  | n + 1, root, acc =>
    let r := isqrt (root * 2 ^ 256)
    exp2Frac frac n r (if frac.testBit n then acc * r / 2 ^ 256 else acc)

/-- Bits of log2 of x in [1, 2), x in units of 2^−256: `n` bits, most significant first. -/
def log2Bits : Nat → Nat → Nat → Nat
  | 0, _, acc => acc
  | n + 1, x, acc =>
    let y := x * x / 2 ^ 256
    if y ≥ 2 ^ 257 then log2Bits n (y / 2) (2 * acc + 1) else log2Bits n y (2 * acc)

/-- The approximation functions of R248. -/
inductive Approx where
  | rcp | rsq | exp2 | log2
  deriving DecidableEq, Repr

/-- Number of an approximation in `Config.approxUp`. -/
def Approx.idx : Approx → Nat
  | .rcp => 0 | .rsq => 1 | .exp2 => 2 | .log2 => 3

/-- 2^a for a finite a = ± m × 2^e between −152 and 128 that is not an integer. -/
def exp2Value (neg : Bool) (m : Nat) (e : Int) : Num :=
  let t := (-e).toNat
  let v : Int := if neg then -(m : Int) else m
  let k := v / ((2 ^ t : Nat) : Int)
  let frac := (v % ((2 ^ t : Nat) : Int)).toNat
  stickyNum false (exp2Frac frac t (2 * 2 ^ 256) (2 ^ 256)) (k - 256) true

/-- The exact value f of R248, to a precision that decides its two FP32 neighbours; `none` for a special case. -/
def approxExact (o : Approx) (a : Num) : Option Num :=
  match o, a with
  | .rcp, .fin neg m e =>
    if m = 0 then none
    else
      let k := Nat.log2 m + 64
      some (stickyNum neg (2 ^ k / m) (-e - (k : Int)) (decide (2 ^ k % m ≠ 0)))
  | .rsq, .fin neg m e =>
    if m = 0 ∨ neg then none
    else
      let (m, e) := if e % 2 = 0 then (m, e) else (2 * m, e - 1)
      let k := Nat.log2 m + 64
      let q := isqrt (2 ^ (2 * k) / m)
      some (stickyNum false q (-(e / 2) - (k : Int)) (decide (q * q * m ≠ 2 ^ (2 * k))))
  | .exp2, .fin neg m e =>
    if m = 0 then none
    else if e ≥ 0 ∨ m % 2 ^ (-e).toNat = 0 then
      let k := if e ≥ 0 then scaleTo m e 0 else m / 2 ^ (-e).toNat
      some (.fin false 1 (if neg then -(min k 400 : Nat) else (min k 400 : Nat)))
    else if magGt m e 400 0 then some (.fin false 1 (if neg then -400 else 400))
    else some (exp2Value neg m e)
  | .log2, .fin neg m e =>
    if m = 0 ∨ neg then none
    else
      let l := Nat.log2 m
      let k : Int := (l : Int) + e
      if m = 2 ^ l then some (intNum k)
      else
        let x := m * 2 ^ 256 / 2 ^ l
        let n : Int := k * (2 ^ 180 : Nat) + (log2Bits 180 x 0 : Nat)
        let v := 2 * n + 1
        some (.fin (decide (v < 0)) v.natAbs (-181))
  | _, _ => none

/-- The special cases of R248: result and flags. -/
def approxSpecial (o : Approx) (a : Num) : Lane × FFlags :=
  match o, a with
  | _, .nan => (canonNaN32, 0)
  | .rcp, .inf neg => (if neg then 0x80000000 else 0, 0)
  | .rcp, .fin neg _ _ => (if neg then 0xFF800000 else 0x7F800000, 0)
  | .rsq, .inf neg => if neg then (canonNaN32, fNV) else (0, 0)
  | .rsq, .fin neg m _ => if m = 0 then (if neg then 0xFF800000 else 0x7F800000, 0) else (canonNaN32, fNV)
  | .exp2, .inf neg => (if neg then 0 else 0x7F800000, 0)
  | .exp2, .fin _ _ _ => (0x3F800000, 0)
  | .log2, .inf neg => if neg then (canonNaN32, fNV) else (0x7F800000, 0)
  | .log2, .fin _ m _ => if m = 0 then (0xFF800000, 0) else (canonNaN32, fNV)

/-- |x − y| ≤ 2^−22 for finite numbers. -/
def within22 (x y : Num) : Bool :=
  let u := min (min (x.expo 0) (y.expo 0)) (-22)
  let i := if x.isZero then 0 else x.units u
  let j := if y.isZero then 0 else y.units u
  decide ((i - j).natAbs ≤ scaleTo 1 (-22) u)

/-- VRCP, VRSQ, VEXP2, VLOG2 of one lane (R248): one of the two neighbours of the exact value, chosen by
`Config.approxUp`; for VLOG2 on [0.5, 2) any value within 2^−22, proposed by `Config.log2Near`. -/
def approxLane (o : Approx) (a : Lane) : Lane × FFlags :=
  match approxExact o (laneNum a) with
  | none => approxSpecial o (laneNum a)
  | some f =>
    let (lo, fl) := roundF32 .rd f
    let (hi, _) := roundF32 .ru f
    if lo = hi then (lo, 0)
    else if fl &&& fOF ≠ 0 ∨ magGt (match f with | .fin _ m _ => m | _ => 0) (f.expo 0) FF.f32.maxFin.1 FF.f32.maxFin.2 then
      (if f.neg then 0xFF800000 else 0x7F800000, fOF ||| fNX)
    else
      let near := Config.log2Near a
      let r :=
        if o = .log2 ∧ 0x3F000000 ≤ a.toNat ∧ a.toNat < 0x40000000 ∧ (laneNum near).isNan = false
            ∧ (laneNum near).isInf = false ∧ within22 (laneNum near) f then near
        else if Config.approxUp o.idx a then hi else lo
      let tiny := match laneNum r with
        | .fin _ m e => magGt 1 (-126) m e
        | _ => false
      (r, fNX ||| (if tiny then fUF else 0))

end Sys2Proof.Machine
end

