-- ==== Sys2Proof/Machine/GangTypes.lean ====
section
/-!
DEFINITION. The state of a gang, its cells and its streams as plain data (spec/02, 06, 11, 12, 13, 16).
-/
namespace Sys2Proof.Machine

/-- The four streams of a cell, in the order of R36. -/
inductive Kind where
  | seq | vec | mat | ladle
  deriving DecidableEq, Repr

/-- Stream number of R199 and R325. -/
def Kind.idx : Kind → Nat
  | .seq => 0 | .vec => 1 | .mat => 2 | .ladle => 3

/-- Stream of a number. -/
def Kind.ofIdx : Nat → Kind
  | 0 => .seq | 1 => .vec | 2 => .mat | _ => .ladle

/-- An issuing stream: of cell `cell` of gang `unit`, or of steward `unit` (R10). -/
structure Agent where
  stew : Bool
  unit : Nat
  cell : Nat
  kind : Kind
  deriving DecidableEq, Repr

/-- Read-modify-write functions of the atomics (R223). -/
inductive Amo where
  | add | min | max | and | or | xor | swp
  deriving DecidableEq, Repr

/-- Ring operations (R136). -/
inductive RingF where
  | acq | pub | take | free
  deriving DecidableEq, Repr

/-- What an outstanding operation is, with the destination register of its result (0: none). -/
inductive OpK where
  | load (n : Nat) (signed : Bool) (d : Nat)
  | store
  | cldc (lc : Bool) (d : Nat)
  | cstc
  | atomic (f : Amo) (n d : Nat)
  | acas (n d : Nat)
  | fence
  | ring (f : RingF) (d : Nat)
  | ringHold (cons : Bool)
  | crucible
  | dispatch
  /-- The map bit of a capability read from the scratchpad, for c register `d` on gang cycle `due` (R373). -/
  | mapBit (d due : Nat)
  | migrate
  | flush (frame count : Nat)
  /-- TR_INVAL with its word (R364), and a MASKW of mask `idx` of a class (R332), both waiting. -/
  | inval (v : Nat)
  | maskw (cls idx : Nat)
  deriving DecidableEq, Repr

/-- What a stream waits for between instructions (R37, R39, R335). -/
inductive Wait where
  | none | align (tag : Nat) | rdv
  deriving DecidableEq, Repr

/-- A fault: cause, sub-cause and the three registers of its record (R324). -/
structure Flt where
  cause : Nat
  sub : Nat
  faddr : Nat
  finfo : Nat
  faux : Nat
  deriving DecidableEq, Repr

/-- One lane of a vector load or store: lane number, byte offset, high nibble. -/
structure LaneRef where
  lane : Nat
  off : Nat
  nib : Bool
  deriving DecidableEq, Repr

/-- One bit-masked byte of a scratchpad write: offset, mask, value. -/
structure WByte where
  off : Nat
  mask : Byte
  val : Byte
  deriving DecidableEq, Repr

/-- A tile operation as sampled on its issue cycle (R278). -/
structure Tile where
  acc : Nat
  msh : Word
  flush : Bool
  zr : Bool
  rows : Nat
  cols : Nat
  depth : Nat
  a : List Line256
  b : List Line256
  scales : List (BitVec 1024)
  deriving DecidableEq, Repr

/-- What an issued operation does on its perform or access cycle (R32, R33). -/
inductive Act where
  | x (r : Nat) (v : Word)
  | c (r : Nat) (v : Cap)
  | orFlags (f : FFlags)
  | fflags (v : Word)
  | mail (n : Nat) (v : Word)
  | v (r : Nat) (lanes : BitVec 64) (val : Line256)
  | p (r : Nat) (v : Word)
  | vsh (v : Word)
  | vl (n : Nat)
  | msh (v : Word)
  | mmode (v : BitVec 4)
  | claim (o n : Nat)
  | release (o n : Nat)
  | slotLine (o l : Nat) (v : Line256)
  | mma (t : Tile)
  | mzero (a : Nat)
  | scaleMove (n : Nat)
  | binit (b n : Nat)
  | barrive (b : Nat)
  | bexpect (b : Nat) (x : Word)
  /-- A pattern stream is bound to a descriptor with an empty chain (QBIND). -/
  | qset (q : Nat) (desc : List Byte) (cap : Cap)
  /-- State of a pattern stream: 1 BOUND (QSTOP), 2 RUNNING (QSTART). -/
  | qstate (q : Nat) (st : Nat)
  | qop (q : Nat) (w : Word)
  /-- Scratchpad read of `n` bytes into x register `r`, sign-extended or not. -/
  | ld (off n : Nat) (signed : Bool) (r : Nat)
  /-- Capability load of a granule into c register `r`; `lc` keeps the tag. -/
  | ldc (off : Nat) (lc : Bool) (r : Nat)
  /-- Scratchpad write; `tags` names the granules whose tag is set, `f` the flags set with it. -/
  | st (l : List WByte) (tags : List Nat) (f : FFlags)
  /-- The writes of VSCAT at the end of its window, which holds the banks by itself (R260). -/
  | scat (l : List WByte) (f : FFlags)
  /-- Vector load of lanes in element type `et` under descriptor `desc` (VLD, VGATH); `late` is the VGATH latency. -/
  | vld (r : Nat) (et : Nat) (desc : BitVec 16) (lanes : List LaneRef) (late : Bool)
  /-- One cycle of the window in which VGATH or VSCAT holds every bank (R260). -/
  | banks
  /-- MFILL line read (R274). -/
  | mfill (o l off : Nat)
  /-- SEND line read: line at `off`, to cell `dst` (R230); `first` gives the number of lines for line 0. -/
  | send (dst off : Nat) (first : Nat)
  /-- RECV of a line after line 0 (R231). -/
  | recv (src off : Nat)
  /-- Descriptor read of CPYN (R298) and of QBIND (R128). -/
  | cpyn (i : Instr) (id off : Nat)
  | qbind (i : Instr) (q off : Nat)
  /-- MFILL pop `j` of a pattern stream (R274). -/
  | pop (q o l : Nat)
  /-- VPOP that waits for its pop to be decoded (R261). -/
  | vpop (q r : Nat)
  /-- Steward operations that perform later: FREEZE, THAW (R327), CSRW (R318), ERET (R322), XINS (R329). -/
  | freeze (g : Nat)
  | thaw (g mode : Nat)
  | csr (n : Nat) (v : Word)
  | eret
  | extent (g slot : Nat) (r : BitVec 256)
  deriving DecidableEq, Repr

/-- An effect in flight: its cycle, the stream and the address of the instruction that issued it. -/
structure Eff where
  due : Nat
  ag : Agent
  pc : Word
  act : Act
  /-- Wall cycle of the issue (R38). -/
  iss : Nat
  deriving DecidableEq, Repr

/-- A freeze condition (R40, R41). -/
inductive Cond where
  /-- w_k ≥ v (HOLD kind 0). -/
  | wptr (cell k : Nat) (v : Word)
  /-- The barrier is at zero (HOLD kind 1). -/
  | barrier (cell b : Nat)
  /-- The outstanding operation has answered. -/
  | op (id : Nat)
  /-- The next pop of the stream is decoded (R131). -/
  | pop (cell q : Nat)
  /-- A copy-queue entry is free (R292); the copy then takes it. -/
  | queue (cell id : Nat)
  deriving DecidableEq, Repr

/-- A recorded condition: its stream, instruction and wall cycle. -/
structure CondE where
  cond : Cond
  ag : Agent
  pc : Word
  wall : Nat
  /-- Wall cycle of the issue of its instruction. -/
  iss : Nat
  deriving DecidableEq, Repr

/-- What a plain load of one half of a 16-byte granule leaves behind for a load of the other half (R151). -/
structure Snap where
  granule : Nat
  half : Nat
  other : List Byte
  hit : Bool
  deriving DecidableEq, Repr

/-- One instruction stream (R8, R30). -/
structure Stream where
  x : NMap Word
  c : NMap Cap
  /-- The code capability (R99), with the address at which it was loaded. -/
  pcc : Cap
  /-- Address of the next unissued instruction. -/
  pc : Word
  fflags : Word
  /-- First cycle of the count that the next gap is added to (R31). -/
  ready : Nat
  /-- The next instruction is the first of a window: its gap is ignored (R31). -/
  first : Bool
  /-- The last issued instruction is an IDLE (R195). -/
  idling : Bool
  wait : Wait
  /-- Steward only: the outstanding operation that stalls the stream (R316). -/
  stall : Option Nat
  /-- Steward only: stopped in WFE (R322). -/
  wfe : Bool
  /-- Steward only: the stream runs. -/
  run : Bool
  /-- The word fetched at the program counter and not yet issued (R202). -/
  word : Option Nat
  /-- Watermark of the last REL, AR or FULL fence at package or system scope: number of the next store then (R144, R145). -/
  relMark : Nat
  /-- The same for scopes 1 to 3, by scope (R138, R139). -/
  near : NMap Nat
  /-- A REL or AR fence whose hold at the next cycle-domain write is still due (R144). -/
  fencePend : Option Nat
  /-- The half granule of the last plain load: its granule, the half read, the other half as it was then, whether a
  capability store has performed on the granule since (R151). -/
  snap : Option Snap
  deriving DecidableEq, Repr

/-- A stream that holds no pour. -/
def Stream.zero : Stream :=
  { x := [], c := [], pcc := Cap.null, pc := 0, fflags := 0, ready := 0, first := true, idling := false, wait := .none,
    stall := none, wfe := false, run := false, word := none, relMark := 0, near := [], fencePend := none, snap := none }

/-- The fences of a stream that a taken YIELD keeps: its watermarks and the hold still due (R50, R144, R145). -/
structure Marks where
  relMark : Nat
  near : NMap Nat
  fencePend : Option Nat
  deriving DecidableEq, Repr

/-- No fence. -/
def Marks.zero : Marks := ⟨0, [], none⟩

/-- The fences of a stream. -/
def Stream.marks (t : Stream) : Marks := ⟨t.relMark, t.near, t.fencePend⟩

/-- A stream with the fences kept for it. -/
def Stream.withMarks (t : Stream) (m : Marks) : Stream :=
  { t with relMark := m.relMark, near := m.near, fencePend := m.fencePend }

/-- A copy channel (R121, R122): the write pointer, the number of the first channel byte of the first listed copy, the
copies in issue order. -/
structure Chan where
  w : Nat
  base : Nat
  copies : List Nat
  deriving DecidableEq, Repr

/-- An idle channel. -/
def Chan.zero : Chan := ⟨0, 0, []⟩

/-- An operator of a pattern stream (R130). -/
abbrev QOpW := Word

/-- A pattern stream (R127): state 0 UNBOUND, 1 BOUND, 2 RUNNING; descriptor bytes as read, capability, operators,
pops taken, pops decoded and not yet taken. -/
structure QStream where
  st : Nat
  desc : List Byte
  cap : Cap
  chain : List QOpW
  taken : Nat
  buf : List (Line256 × FFlags × Option Flt)
  lastPop : Option Nat
  /-- Scratchpad lines that have been read for the next pop, with their bytes (R19, R129). -/
  ahead : NMap (List Byte)
  deriving DecidableEq, Repr

/-- An unbound stream. -/
def QStream.unbound : QStream := ⟨0, [], Cap.null, [], 0, [], none, []⟩

/-- A scale-queue entry: the copy and byte that fill it while it is reserved, and its bytes (R63, R305). -/
structure ScaleE where
  copy : Nat
  idx : Nat
  landed : Bool
  data : BitVec 1024
  deriving DecidableEq, Repr

/-- A span of gang cycles, both ends included. -/
structure Busy where
  key : Nat
  lo : Nat
  hi : Nat
  deriving DecidableEq, Repr

/-- One cell (R19); a steward's cell uses streams seq and ladle, the scratch, its tags and the channels (R20, R317). -/
structure Cell where
  streams : NMap Stream
  spm : NMap Byte
  tags : NSet
  v : NMap Line256
  p : NMap Word
  vsh : Word
  msh : Word
  mmode : BitVec 4
  claims : NSet
  /-- Slot line `128 o + l`. -/
  slots : NMap Line256
  /-- Accumulator element `16384 a + 128 m + n`. -/
  accs : NMap Lane
  mail : NMap Word
  bars : NMap (BitVec 48)
  chans : NMap Chan
  scaleQ : List ScaleE
  bound : List (BitVec 1024)
  qs : NMap QStream
  /-- Outgoing link spans by target cell, fill, array and drain port spans (keys 0 to 2), slot holds, accumulators
  pending and being read, slot lines pending (R35, R286). -/
  links : List Busy
  ports : List Busy
  slotHold : List Busy
  accPend : List Busy
  accRead : List Busy
  linePend : List Busy
  /-- Banks in use on the current wall cycle (R19, R34): `b` by a scheduled access, `64 + b` by line 0 of a RECV about to
  issue or by the write of a landing, `128 + b` by the source read of a copy. -/
  banksNow : List Nat
  /-- Words that hold a double-bit error (R405): scratchpad line `l`, slot line `2^17 + l`, accumulator element `2^18 + k`. -/
  bad : NSet
  /-- The number of the next store at the last BARRIVE on a barrier since its BINIT (R126). -/
  arr : NMap Nat
  deriving DecidableEq, Repr

/-- Reset word of vsh (R240). -/
def vshReset : Word := 0x40

/-- Reset word of msh as R268 writes it out (log entry 21). -/
def mshReset : Word := 0x21FF

/-- A cell without contents: registers, scratchpad, slots and accumulators zero, streams without a pour (R30). -/
def Cell.zero : Cell :=
  { streams := [], spm := [], tags := [], v := [], p := [], vsh := vshReset, msh := mshReset, mmode := 0, claims := [],
    slots := [], accs := [], mail := [], bars := [], chans := [], scaleQ := [], bound := [], qs := [], links := [],
    ports := [], slotHold := [], accPend := [], accRead := [], linePend := [], banksNow := [], bad := [],
    arr := [] }

/-- A line on a gang link: source and target cell, data and tags, arrival cycle, lines of the SEND for its line 0,
the sending stream and instruction, whether a RECV accepted it (R45, R230). -/
structure LinkLine where
  src : Nat
  dst : Nat
  due : Nat
  first : Nat
  data : BitVec 512
  tags : BitVec 4
  ag : Agent
  pc : Word
  deriving DecidableEq, Repr

/-- The fault record of a gang (R324, R325). -/
structure FRec where
  flt : Flt
  cell : Nat
  stream : Nat
  copy : Option Nat
  fcycle : Nat
  pc : Word
  /-- Wall cycle of the hold. -/
  wall : Nat
  /-- The notification of R323 has been given. -/
  told : Bool
  /-- Wall cycle of the issue of the reported instruction, when it has issued and one of its effects faulted or its condition
timed out; 0 when what faulted has left its stream (R327). -/
  iss : Option Nat
  deriving DecidableEq, Repr

/-- An empty record. -/
def FRec.zero : FRec := ⟨⟨0, 0, 0, 0, 0⟩, 0, 0, none, 0, 0, 0, true, none⟩

/-- An extent record (R352): first virtual address, bytes, first physical address, flags, raw bytes. -/
abbrev ExtRec := BitVec 256

/-- The pour that a gang runs (R25, R355). -/
structure PourRef where
  launch : Nat
  index : Nat
  part : Nat
  session : Nat
  image : Cap
  deriving DecidableEq, Repr

/-- What streams have acquired: the stores numbered below `mark` of a cell, or of the whole pour, come before what its streams
do with numbers from `start` on (R50, R126, R148). -/
structure Acq where
  cell : Option Nat
  mark : Nat
  start : Nat
  deriving DecidableEq, Repr

/-- Stages of a taken YIELD (R48): the drain and the save of record `lidx`, begun on gang cycle `gc`; the restore of a
suspended pour. The save and the restore end on the wall cycle `stop` at the earliest. -/
inductive SaveStage where
  | none | drain (lidx gc : Nat) | save (lidx gc stop : Nat) | restore (stop : Nat)
  deriving DecidableEq, Repr

/-- What a restore has read of its image (R337): the wall cycle of its first bytes, the bytes to be read, those read with
their tags, by address. -/
structure InImage where
  start : Nat
  len : Nat
  bytes : NMap Byte
  tags : NSet
  deriving DecidableEq, Repr

/-- A restore that has read nothing. -/
def InImage.zero : InImage := ⟨0, 0, [], []⟩

/-- One gang (R16, R25). -/
structure Gang where
  pour : Option PourRef
  /-- Gang cycles since the pour opened, and the first of the current window (R31). -/
  gc : Nat
  base : Nat
  /-- The clock enable of the current wall cycle (R41). -/
  live : Bool
  /-- The current gang cycle has begun: its effects have performed and its checks have passed (R36). -/
  done : Bool
  pend : List Eff
  arrivals : List LinkLine
  conds : List CondE
  held : Bool
  frec : FRec
  pendMask : BitVec 16
  sfrozen : Bool
  sweeping : Bool
  saving : Bool
  /-- A hold, freeze, sweep or save was in force when the current wall cycle began: it does not count (R43). -/
  paused : Bool
  wdog : Nat
  /-- The gang cycle on which the first stream reached the pending alignment point (R38). -/
  awaitFrom : Option Nat
  /-- Alignment-wait count carried into the window by a restore (R335) or restarted by SKIP. -/
  awaitBase : Nat
  preempt : Bool
  stage : SaveStage
  extents : NMap ExtRec
  image : Nat
  swept : Bool
  sweepAt : Option Nat
  wdogK : Nat
  /-- The reported instruction issues as NOP (THAW SKIP, R327). -/
  skip : Option Agent
  cells : NMap Cell
  /-- The wall cycle from which a cancel or an abandonment freezes the gang (R52 step 2). -/
  cancelAt : Option Nat
  /-- The wall cycle on which the clearing of a placed pour's gang ends (R30). -/
  openAt : Option Nat
  /-- Acquired by the pour's resumption and by its satisfied barrier HOLDs, while stores of it have not performed. -/
  acqs : List Acq
  /-- A restored pour: what has been read of its image, and the fences of its streams, number `4 cell + stream` (R50, R337). -/
  inImg : InImage
  marks : NMap Marks
  deriving DecidableEq, Repr

/-- A gang without a pour. -/
def Gang.zero : Gang :=
  { pour := none, gc := 0, base := 0, live := false, done := false, pend := [], arrivals := [],
    conds := [], held := false, frec := FRec.zero, pendMask := 0, sfrozen := false, sweeping := false, saving := false,
    paused := false, wdog := 0, awaitFrom := none, awaitBase := 0, preempt := false, stage := .none, extents := [], image := 0,
    swept := true, sweepAt := none, wdogK := 20, skip := none, cells := [],
    cancelAt := none, openAt := none, acqs := [], inImg := InImage.zero, marks := [] }

/-- How a copy names its bytes (R296 to R305). -/
inductive CopyKind where
  | lin | kput | sqld (first : Nat) | mcast (mask : Nat)
  | nd (run c1 c2 c3 : Nat) (s1 s2 s3 d1 d2 d3 : Word)
  | gath (idx esz : Nat) | scat (idx esz : Nat) | scadd (idx esz red : Nat)
  | rread (roff : Word) | rwrite (roff : Word) | kget (off : Word)
  deriving DecidableEq, Repr

/-- A copy in flight (R121, R291, R294). -/
structure Copy where
  ag : Agent
  pc : Word
  ch : Nat
  kind : CopyKind
  src : Cap
  dst : Cap
  /-- Stride of SQLD; for a copy that another device takes part in, 1 once its requests have been sent. -/
  stride : Nat
  len : Nat
  /-- Its parameters are known: false until the descriptor of CPYN has been read. -/
  ready : Bool
  bar : Option Nat
  scope : Nat
  wall : Nat
  /-- Intervals performed, per receiver: receiver, first byte, end. -/
  got : List (Nat × Nat × Nat)
  /-- It waits for a queue entry (R292). -/
  queued : Bool
  /-- It was stopped by a fault after issue (R294). -/
  stopped : Bool
  /-- Tag-keeping (R108). -/
  keep : Bool
  /-- Flags of the elements reduced so far (R74, R300). -/
  fl : FFlags
  /-- The wall cycle before which it is not complete, once its path is known (R295). -/
  floor : Option Nat
  /-- Bytes that have arrived from another device, or that have been read at the source, and wait for their place, by channel
  offset (R34, R146, R302, R303). -/
  inbox : NMap Byte
  /-- Channel offsets of the granules among them that carry a tag (R108). -/
  inTags : NSet
  /-- The scratchpad line of index entries that has been read ahead (R293). -/
  idxAt : Option Nat
  /-- Bytes of a remote write whose packets have been sent (R302). -/
  sent : Nat
  /-- It was stopped and goes on: its rest is translated anew (R123, R364). -/
  again : Bool
  /-- The failure that another device has answered with, raised when what has arrived has landed (R294). -/
  fails : Option Flt
  deriving DecidableEq, Repr

end Sys2Proof.Machine
end

