-- ==== Sys2Proof/Machine/MemTypes.lean ====
section
/-!
DEFINITION. The state of HBM, of coherence and of translation as plain data (spec/18, 19, 20).
-/
namespace Sys2Proof.Machine

/-- Attributes of an extent (EX_ATTR of R352, R362). -/
structure Attr where
  writable : Bool
  /-- Ordering kind: 0 SO, 1 RC, 2 UO (R140). -/
  ok : Nat
  cls : Nat
  sealed : Bool
  lat : Bool
  lat4 : Bool
  zrl : Bool
  tagless : Bool
  cs : Bool
  key : Nat
  deriving DecidableEq, Repr

/-- A part of a global access within one page: virtual and physical address, bytes, attributes (R141). -/
structure Piece where
  va : Nat
  pa : Nat
  len : Nat
  attr : Attr
  deriving DecidableEq, Repr

/-- Bit errors of a stored line: byte place, of 0–63 in the line, 64–67 in its check bytes, 68–71 in its sideband word, and the
bits that differ (R401 to R403). -/
abbrev Flips := List (Nat × Byte)

/-- A line as memory stores it: the line whose address its code covers, its 64 bytes, the tags of its four granules, the key pair
that encrypts it (R400, R402, R409). -/
structure Stored where
  line : Nat
  data : List Byte
  tags : Nat
  key : Nat
  deriving DecidableEq, Repr

/-- HBM beside its bytes (R400 to R409, R420, R422, R133). A slot of HBM has the number of the line that the default masks place
there; under them every line stands in its own slot. -/
structure Hbm where
  /-- Mask `idx` of class `c` at `16 c + idx`, where it differs from the default mask (R400). -/
  masks : NMap Word
  /-- Slots whose line is poisoned (SB_POISON) and contained (SB_CONT) (R402). -/
  poison : NSet
  contained : NSet
  /-- Slot in which a line was last written whole, where it is not its own (R422). -/
  placed : NMap Nat
  /-- Lines in whose slot another line has been written since (R332, R422). -/
  lost : NSet
  /-- What a slot still holds of a line that was last written whole in another slot (R332). -/
  old : NMap Stored
  /-- Key pair under which a line is encrypted: its KEY, and 4,096 times the number of key pairs bound to it before (R409,
  R411). -/
  keyed : NMap Nat
  /-- Retired frames, and the hardware-retired frames not yet read (R406, R408). -/
  retired : NSet
  retireQ : List Nat
  /-- Masked channels, each with the masks in force when it was masked (R408). -/
  chMasked : NMap (NMap Word)
  /-- Data-rate point of each channel (0 high), the wall cycle on which the stall of a switch ends, the channels of the
  switch, the channel last named (R406, R407). -/
  rate : NMap Nat
  rateBusy : Option Nat
  rateSet : Option Nat
  rateLast : Nat
  corrected : Nat
  uncorrected : Nat
  /-- Access counts of the pseudo-channels (R420). -/
  pc : NMap Nat
  /-- Metadata entries of compressed blocks, by block number PA div 512 (R133). -/
  zmeta : NMap Nat
  /-- Bit errors not yet read, by slot (R403). -/
  flips : NMap Flips
  deriving DecidableEq, Repr

/-- HBM after the wipe (R430 step 4). -/
def Hbm.reset : Hbm :=
  { masks := [], poison := [], contained := [], placed := [], lost := [], old := [], keyed := [],
    retired := [], retireQ := [], chMasked := [], rate := [],
    rateBusy := none, rateSet := none, rateLast := 0, corrected := 0, uncorrected := 0, pc := [], zmeta := [], flips := [] }

/-- MOESI states and the transient states of a caching agent (R378, R380). -/
inductive Moesi where
  | m | o | e | s | i | isD | imD | smA | miA | eiA
  deriving DecidableEq, Repr

/-- Stable home states (R381). Agents: 0 and 1 the dies' L2, 2 the host. -/
inductive HomeSt where
  | hi | hs (sharers : List Nat) | he (o : Nat) | ho (o : Nat) (sharers : List Nat)
  deriving DecidableEq, Repr

/-- Requests of R379, and the place of a MemWr of the host among those that wait (R382, R384). -/
inductive CReq where
  | rds | rdx | upg | wbd | wbe | mwr
  deriving DecidableEq, Repr

/-- A transaction open at the home (R381, R382): requester and request, acks awaited, the owner whose FwdAck is
awaited, whether the owner is leaving, whether Cmp (no data) grants it, `recalled` for an atomic, a recall or a flush. -/
structure CTxn where
  req : CReq
  a : Nat
  acks : List Nat
  fwd : Option Nat
  leaving : Bool
  cmp : Bool
  recalled : Bool
  hit : List Nat
  /-- Partition of the access that caused it, which its probes carry; 256 for none (R387). -/
  part : Nat
  /-- Wall cycle on which the timeout of its probe to an agent ends, once it has been sent (R388). -/
  due : NMap Nat
  /-- The owner has answered out of its write-back buffer, with what it held, and its write-back has not arrived (R383). -/
  answer : Option Moesi
  deriving DecidableEq, Repr

/-- Messages in flight for one line (R379, R384). -/
inductive CMsg where
  | req (r : CReq) (a part : Nat)
  | inv (a : Nat)
  | fwds (o a : Nat)
  | fwdx (o a : Nat)
  /-- Data from the home, which it has read from memory, and from an owner. -/
  | data (a : Nat) (grant : Moesi)
  | dataFrom (o a : Nat) (grant : Moesi)
  | cmp (a : Nat)
  | invAck (a : Nat) (miss dirty wb : Bool)
  | fwdAck (o : Nat) (miss wb : Bool) (held : Moesi)
  | wbAck (a : Nat)
  /-- Back-invalidate snoop to the host: to be sent, or sent and awaiting BIRsp (R384). -/
  | bisnp (inv : Bool) (sent : Bool)
  deriving DecidableEq, Repr

/-- Coherence state of one line (R377 to R383); `part` is the partition that the directory entry records, `fill` that under which
an agent has filled its copy (R387). -/
structure Line where
  st : NMap Moesi
  home : HomeSt
  txn : Option CTxn
  /-- Requests that wait: kind, agent, partition (R382). -/
  queue : List (CReq × Nat × Nat)
  msgs : List CMsg
  part : Nat
  fill : NMap Nat
  deriving DecidableEq, Repr

/-- A line without a copy in any agent (R386). -/
def Line.fresh : Line := ⟨[], .hi, Option.none, [], [], 0, []⟩

/-- An access of the host that waits in the order of the port (R153): its number and the access. -/
inductive HostReq where
  | rd (line : Nat) (own : Bool) (part : Nat)
  | wr (line off : Nat) (data : List Byte)
  deriving DecidableEq, Repr

/-- An access that has arrived at a closed home (R154, R377): its line, its number, the wall cycle of its arrival and the place
of its requester in the order of R149. -/
structure Arrival where
  line : Nat
  id : Nat
  wall : Nat
  key : Nat
  deriving DecidableEq, Repr

/-- A release at a scope narrower than the package that has performed before the stores it releases (R139): its granule,
its agent and scope, and the stores that it releases and that have not performed. -/
structure Rel where
  granule : Nat
  ag : Agent
  scope : Nat
  ids : List Nat
  deriving DecidableEq, Repr

/-- Coherence beside the plain registers (R386 to R392). -/
structure Coh where
  lines : NMap Line
  /-- The messages in flight with their lines, in the order in which they were sent (R379). -/
  sent : List (Nat × CMsg)
  /-- Slices in retention, and slices waking with the wall cycle they are awake (R388). -/
  retention : NSet
  waking : NMap Nat
  dead : BitVec 7
  haltQ : List Nat
  /-- Accesses of the host that wait, in the order of the port, each with a number (R153). -/
  hostQ : List (Nat × HostReq)
  /-- Accesses that have arrived at a closed home, in order (R154, R377). -/
  waitQ : List Arrival
  /-- Releases that readers in their scope must wait for (R139). -/
  rels : List Rel
  /-- What memory holds below a copy in M or O, where a die has written the line (R378, R427). -/
  below : NMap Stored
  /-- Lines whose copy in an L2, or whose place in a slice of the SRAM tier, holds a double-bit error (R405). -/
  l2bad : NSet
  /-- The last requester served on a line on the current wall cycle, in the order of R149. -/
  turn : NMap Nat
  deriving DecidableEq, Repr

/-- No copies, nothing dead. -/
def Coh.reset : Coh := ⟨[], [], [], [], 0, [], [], [], [], [], [], []⟩

/-- A TLB entry (R363): partition, virtual page base, size code, leaf. -/
structure TlbE where
  die : Nat
  part : Nat
  va : Nat
  size : Nat
  leaf : Word
  deriving DecidableEq, Repr

/-- A gathered residency fault (R366). -/
structure GFault where
  part : Nat
  page : Nat
  write : Bool
  malformed : Bool
  at0 : Nat
  deriving DecidableEq, Repr

/-- A page migration in progress (R368, R369). -/
structure Migration where
  host : Bool
  stew : Nat
  src : Nat
  dst : Nat
  va : Nat
  size : Nat
  part : Nat
  pte : Nat
  /-- Wall cycle on which it was accepted (R369). -/
  at0 : Nat
  deriving DecidableEq, Repr

/-- A bit error that the script of the environment brings (R403, R405). -/
inductive UpsetAt where
  | spm (stew : Bool) (unit cell line : Nat)
  | slot (gang cell line : Nat)
  | acc (gang cell a : Nat)
  | l2 (line : Nat)
  | hbm (slot : Nat) (err : Flips)
  deriving DecidableEq, Repr

/-- A bit error: its wall cycle, its place, whether it is a double-bit error of a SEC-DED word. -/
structure Upset where
  wall : Nat
  place : UpsetAt
  double : Bool
  deriving DecidableEq, Repr

/-- What the fettler has to visit (R375): a page by its virtual address, the image of a suspended pour, a page that it could
not walk and has posted. -/
inductive Fettle where
  | page (va : Nat) | image (launch idx : Nat) | posted (va : Nat)
  deriving DecidableEq, Repr

/-- The open revocation epoch (R370 to R375): phase 0 IDLE, 1 SWEEP, 2 SETTLE, 3 FETTLE. -/
structure Epoch where
  num : Nat
  phase : Nat
  part : Nat
  rmbase : Nat
  hulls : List (Nat × Nat)
  opened : Nat
  /-- Tag-keeping copies into global memory issued before the sweeps (R374). -/
  settle : List Nat
  /-- Pages and images still to visit (R375). -/
  fettle : List Fettle
  deriving DecidableEq, Repr

/-- Translation, fault gathering, migration and revocation (R359 to R375). -/
structure Trans where
  tlb : List TlbE
  gath : List GFault
  /-- A batch that waits for queue room, and its number. -/
  held : Option (List GFault)
  batch : Nat
  wpos : Nat
  wphase : Bool
  dropped : Nat
  mig : List Migration
  /-- The registers of a host migration and its status (R413). -/
  hostMigVa : Word
  hostMigDst : Word
  hostMigSt : Nat
  epoch : Epoch
  deriving DecidableEq, Repr

/-- Translation at reset. -/
def Trans.reset : Trans :=
  { tlb := [], gath := [], held := none, batch := 0, wpos := 0, wphase := true, dropped := 0, mig := [],
    hostMigVa := 0, hostMigDst := 0, hostMigSt := 0, epoch := ⟨0, 0, 0, 0, [], 0, [], []⟩ }

end Sys2Proof.Machine
end

