-- ==== Sys2Proof/Machine/SysTypes.lean ====
section
/-!
DEFINITION. The state of the cupola, the Crucible, the links, the host interface and the start as plain data
(spec/08, 16, 17, 19, 20, 22).
-/
namespace Sys2Proof.Machine

/-! ### Crucible (R156 to R183, R435 to R437) -/

/-- A transfer lease open on a node: requesting device, transaction, channel tag, next and end offset, expiry tick, whether the
range of the READ goes on past depth × P, the wall cycle of its last flit. -/
structure XLease where
  dev : Nat
  tx : Nat
  tag : Nat
  next : Nat
  stop : Nat
  expiry : Nat
  past : Bool
  sentAt : Option Nat
  deriving DecidableEq, Repr

/-- An index entry (R163, R175). `st` is 0 FREE, 1 UNSEALED, 2 sealed. -/
structure Node where
  st : Nat
  gen : Nat
  name : Nat
  cls : Nat
  part : Nat
  parent : Option Nat
  depth : Nat
  tier : Nat
  /-- Slice 24 d + s of a block in the SRAM tier (R435). -/
  slice : Nat
  children : Nat
  pins : NMap Nat
  lastUse : Nat
  timed : Option Nat
  lifetime : List Nat
  leases : List XLease
  repl : Bool
  owner : Option Nat
  /-- Bytes P of the payload. -/
  size : Nat
  /-- Target tier of a demotion under way (R178). -/
  demote : Option Nat
  /-- The pour whose retirement frees the slot of a freed block (R171, R437). -/
  slotOf : Option Nat
  deriving DecidableEq, Repr

/-- A free entry. -/
def Node.free : Node :=
  { st := 0, gen := 0, name := 0, cls := 0, part := 0, parent := none, depth := 0, tier := 0, slice := 0, children := 0,
    pins := [], lastUse := 0, timed := none, lifetime := [], leases := [], repl := false, owner := none, size := 0,
    demote := none, slotOf := none }

/-- A directory record (R394): name, depth, class, holder words in registration order, its place in the record table. -/
structure DirRec where
  name : Nat
  depth : Nat
  cls : Nat
  holders : List Nat
  place : Nat
  deriving DecidableEq, Repr

/-- What a transaction towards a remote device serves (R395, R397). -/
inductive XKind where
  | lookup | read (copy : Option Nat) | stat | reg (node : Nat)
  deriving DecidableEq, Repr

/-- A transaction open towards a remote device: operation or copy served, first byte and length wanted, the wall cycle
it was sent. -/
structure Xact where
  kind : XKind
  dev : Nat
  op : Nat
  name : Nat
  off : Nat
  len : Nat
  sent : Nat
  deriving DecidableEq, Repr

/-- The Crucible (R156 to R183) and its directory (R393 to R397). -/
structure Crucible where
  nodes : NMap Node
  /-- Payload bytes by slot-window address (R436). -/
  pay : NMap Byte
  dir : List DirRec
  /-- Tick at which each device was last heard (R396), and devices dead to the directory. -/
  heard : NMap Nat
  gone : NSet
  xacts : NMap Xact
  renewed : Nat
  /-- The last operation carried out on the current wall cycle, in the order of R183. -/
  turn : Nat
  /-- Holder words registered on the current wall cycle (R398). -/
  regs : List Nat
  deriving DecidableEq, Repr

/-- Crucible after reset. -/
def Crucible.reset : Crucible := ⟨[], [], [], [], [], [], 0, 0, []⟩

/-! ### Cupola (R338 to R357) -/

/-- A level that a handle names (R25). -/
inductive Level where
  | launch (id : Nat) | graph (id : Nat) | session (i : Nat)
  deriving DecidableEq, Repr

/-- CW_STATUS (R51). -/
inductive CwSt where
  | pending | running | complete | cancelled | faulted
  deriving DecidableEq, Repr

/-- Code of CW_STATUS (R51). -/
def CwSt.code : CwSt → Nat
  | .pending => 0 | .running => 1 | .complete => 2 | .cancelled => 3 | .faulted => 4

/-- A suspended pour (R48): pour index, its context image, its die, the fences of its streams (R50). -/
structure Susp where
  idx : Nat
  image : Nat
  die : Nat
  marks : NMap Marks
  deriving DecidableEq, Repr

/-- A launch (R28, R347). -/
structure Launch where
  session : Nat
  part : Nat
  graph : Option Nat
  gslot : Nat
  n : Nat
  prio : Nat
  wdog : Nat
  energy : Nat
  image : Cap
  entries : List Nat
  /-- Liveness records that are valid, by index (R200). -/
  live : NMap (List Byte)
  grants : List Cap
  nodes : List Cap
  deps : List Nat
  /-- Wall cycle of eligibility (R347). -/
  te : Option Nat
  seq : Nat
  /-- Next pour index to dispatch. -/
  next : Nat
  retired : Nat
  status : CwSt
  susp : List Susp
  /-- Ring, sequence number and tag of the entry that submitted it (R344). -/
  ring : Option (Nat × Nat × Nat)
  /-- A cancel or a fault is under way (R52, R53): the status it ends in. -/
  ending : Option CwSt
  /-- Image areas and lease grants of dispatched pours, by pour index (R353). -/
  areas : NMap (Nat × Nat)
  deriving DecidableEq, Repr

/-- A graph (R25, R342). -/
structure Graph where
  session : Nat
  ring : Option Nat
  gid : Nat
  tag : Nat
  seqNo : Nat
  closed : Bool
  slots : NMap Nat
  count : Nat
  complete : Nat
  status : CwSt
  ending : Bool
  deriving DecidableEq, Repr

/-- Run-time state of a session (R51, R392). -/
structure Sess where
  graphs : Nat
  status : CwSt
  halted : Bool
  ending : Bool
  deriving DecidableEq, Repr

/-- Run-time state of a submission ring (R343, R344): the doorbell and the completion acknowledgement last written (index
in [15:0], phase in [16]), read index and phase, the next sequence number, completion write index and phase, completion
entries that wait for room. -/
structure Ring where
  door : Nat
  ack : Nat
  rd : Nat
  rphase : Bool
  seq : Nat
  cw : Nat
  cphase : Bool
  pend : List (Nat × Nat)
  deriving DecidableEq, Repr

/-- A ring that has consumed nothing: R = 0 and P = 1 (R343). -/
def Ring.zero : Ring := ⟨2 ^ 16, 2 ^ 16, 0, true, 0, 0, true, []⟩

/-- The dispatch controller (R338 to R357). -/
structure Cupola where
  launches : NMap Launch
  graphs : NMap Graph
  sessions : NMap Sess
  rings : NMap Ring
  nextSeq : Nat
  /-- Entries of the device-side queues in use, by die (R346). -/
  devQ : NMap Nat
  /-- Sum of the estimates placed in the interval, whether one has been placed, the pours refused for its rest by their
  numbers, and the limit of R434 (R354). -/
  sum : Nat
  placed : Bool
  refused : NSet
  limited : Bool
  interval : Nat
  /-- Standing pre-emption requests: partition to victim gang and waiting pour (R350). -/
  preempts : NMap (Nat × Nat)
  /-- Unheld waits of pours of effective class 0: pour to first wall cycle (R350). -/
  waits : NMap Nat
  /-- Role of slices 24 d + s: partition + 1 of a slice in the SRAM tier (R18, R357). -/
  slices : NMap Nat
  sliceReq : Option Nat
  sliceRefused : Bool
  /-- Pours held for residency until TR_RETRY (R348, R364). -/
  resident : NSet
  deriving DecidableEq, Repr

/-- Cupola after reset; every slice an L2 slice (log entry 7). -/
def Cupola.reset : Cupola :=
  { launches := [], graphs := [], sessions := [], rings := [], nextSeq := 0, devQ := [], sum := 0, placed := false,
    refused := [], limited := false, interval := 0, preempts := [], waits := [], slices := [], sliceReq := none,
    sliceRefused := false, resident := [] }

/-! ### Links and host (R409 to R418) -/

/-- A Fliran packet (R414). -/
structure Packet where
  ty : Nat
  code : Nat
  dst : Nat
  src : Nat
  psn : Nat
  apsn : Nat
  exp : Nat
  off : Nat
  len : Nat
  tag : Nat
  body : List Byte
  deriving DecidableEq, Repr

/-- Endpoint context towards one peer (R415). -/
structure Ctx where
  expected : Nat
  next : Nat
  unacked : List Packet
  /-- Wall cycle of the last progress, resends since then, receiver-not-ready nacks and the end of their wait. -/
  since : Nat
  resends : Nat
  rnr : Nat
  rnrUntil : Option Nat
  dead : Bool
  deriving DecidableEq, Repr

/-- A fresh context. -/
def Ctx.zero : Ctx := ⟨0, 0, [], 0, 0, 0, none, false⟩

/-- A packet held while its context is fetched (R415). -/
structure HeldPkt where
  pkt : Packet
  since : Nat
  /-- The port at which it arrived. -/
  port : Nat
  deriving DecidableEq, Repr

/-- An accepted packet that waits for the lines of its request, or behind one of its context that does: packets of one context
are applied in PSN order (R152, R415). -/
structure WaitPkt where
  pkt : Packet
  port : Nat
  /-- The physical parts that a READ or WRITE was let through to when it was accepted (R417, R418). -/
  pieces : Option (List Piece)
  deriving DecidableEq, Repr

/-- What the device has sent to the outside. -/
inductive OutMsg where
  | packet (p : Packet)
  | msi (vector : Nat)
  | snoop (line : Nat) (inv : Bool)
  | conflictAck (line : Nat)
  | memResp (line : Nat) (grant : Nat) (data : List Byte) (poison : Bool)
  /-- Interface report (R410): the partition's CXL.mem ranges, whose form the spec leaves open, and its ring doorbells. -/
  | report (tdi : Nat) (ranges : Word) (doorbells : List Nat)
  deriving DecidableEq, Repr

/-- State of a trusted device interface (R410): 0 CONFIG_UNLOCKED, 1 CONFIG_LOCKED, 2 RUN, 3 ERROR. -/
abbrev TdiSt := Nat

/-- An installed key pair (R409, R411). -/
structure KeyE where
  tdi : Nat
  destroyed : Bool
  /-- How many key pairs have been bound to the KEY before this one. -/
  gen : Nat
  deriving DecidableEq, Repr

/-- Ports, transport, host interface and keys. -/
structure Net where
  ctx : NMap Ctx
  cached : NSet
  heldPkts : List HeldPkt
  waitPkts : List WaitPkt
  /-- Fliran ports: 0 down, 1 two lanes, 2 four, 3 eight; paused and error (R415). -/
  fports : NMap Nat
  paused : NSet
  perr : NSet
  /-- CXL ports: negotiated width, 0 down (R412). -/
  cports : NMap Nat
  evw : Nat
  evphase : Bool
  discarded : NMap Nat
  tdi : NMap TdiSt
  keys : NMap KeyE
  /-- Export whose revocation is under way, and the wall cycle of its revocation point (R418). -/
  revoking : Option (Nat × Nat)
  /-- Packets that wait for a port that is up and not paused (R414). -/
  txWait : List Packet
  out : List OutMsg
  deriving DecidableEq, Repr

/-- Links after reset: FL_PORTST reads 0 (R415), the CXL ports are up with sixteen lanes (log entry 7). -/
def Net.reset : Net :=
  { ctx := [], cached := [], heldPkts := [], waitPkts := [], fports := [], paused := [], perr := [], cports := [], evw := 0,
    evphase := true, discarded := [], tdi := [], keys := [], revoking := none, txWait := [], out := [] }

/-! ### Start and power (R428 to R434) -/

/-- Start, fuses and power. -/
structure Boot where
  powered : Bool
  /-- Reset step under way: 1 to 7, 8 when BU_READY has ended step 7 (R430). -/
  step : Nat
  stepAt : Nat
  minimal : Bool
  refused : Bool
  clearf : Bool
  lcChange : Bool
  /-- The cause with which one of steps 1 to 6 of this start fails, 0 for none (R430). -/
  trouble : Nat
  /-- Fuses: life-cycle state, grade, device id, silicon revision, failed-start count, last cause (R428, R431, R433). -/
  lc : Nat
  grade : Bool
  dev : Nat
  rev : Nat
  fails : Nat
  cause : Nat
  pwr : Word
  deriving DecidableEq, Repr

/-- Step 7 running, in life-cycle state RUN (log entry 4). -/
def Boot.reset : Boot :=
  { powered := true, step := 7, stepAt := 0, minimal := false, refused := false, clearf := false, lcChange := false, trouble := 0,
    lc := 2, grade := false, dev := 0, rev := 0, fails := 0, cause := 0, pwr := 0 }

/-- All ports but port 0 stay down: the start is in minimal mode, or the device is RETIRED (R428, R431). -/
def Boot.portsShut (b : Boot) : Bool := b.minimal || b.lc == 3

end Sys2Proof.Machine
end

