-- ==== Sys2Proof/Machine/State.lean ====
section
/-!
DEFINITION. The state of the package: everything the spec gives the machine, as plain data.
-/
namespace Sys2Proof.Machine

/-- Reasons a step can stop without a next state. -/
inductive Fault where
  /-- The supply is lost (R428) and no power-on stands in the script of inputs: no clock runs. Raised by `step` only.
  Safe: nothing is claimed of a device without power. -/
  | noPower
  deriving DecidableEq, Repr

/-- Reasons an instruction has no meaning here. -/
inductive Refusal where
  /-- The instruction has no meaning in this model. Raised by `exec` only. Safe: no next state is claimed. -/
  | notModelled (mnemonic : String)
  deriving DecidableEq, Repr

/-- One steward cell (R20, R315 to R322). -/
structure Steward where
  cell : Cell
  pend : List Eff
  ie : Bool
  inh : Bool
  halt : Bool
  cause : Word
  epc : Word
  tvec : Word
  /-- The latched bits of ST_EVENT (R320). -/
  event : BitVec 8
  evmask : Word
  timecmp : Word
  gfault : Word
  gwSel : Word
  migst : Word
  deriving DecidableEq, Repr

/-- An outstanding operation: issued, and holding its stream until it answers (R40, R316). -/
structure Op where
  ag : Agent
  pc : Word
  k : OpK
  i : Instr
  /-- Issue cycle in the agent's own time base, and on the wall. -/
  t0 : Nat
  wall : Nat
  /-- Virtual address and physical pieces of a global access. -/
  addr : Nat
  pieces : List Piece
  /-- Operands as sampled. -/
  val : Word
  val2 : Word
  caps : List Cap
  /-- Every store of the stream to a page other than UO with a smaller number performs first (rule 4 of R145). -/
  relMark : Nat
  /-- The same for releases at scopes 1 to 3, by scope (R138, R139). -/
  near : NMap Nat
  /-- How far it has been carried out: 0 issued, 1 carried out at the home or the unit, 2 answered, 3 its fault has been
  raised. -/
  stage : Nat
  /-- Results found where it was carried out. -/
  res : List Word
  cres : List Cap
  flt : Option Flt
  deriving DecidableEq, Repr

/-- A posted global store (R145). -/
structure PStore where
  ag : Agent
  pc : Word
  pieces : List Piece
  data : List Byte
  /-- The tag written with a capability store; none for an integer store. -/
  cap : Bool
  tag : Bool
  /-- Every store of the stream to a page other than UO with a smaller number performs first (rule 4 of R145). -/
  relMark : Nat
  /-- The same for releases at scopes 1 to 3, by scope (R138, R139). -/
  near : NMap Nat
  /-- The operation of the store, when some part of it lies on an SO page: it returns when those parts have performed (R140). -/
  op : Option Nat
  /-- The suspended pour to which it belongs (R50): launch and index; `ag` then names the gang that it ran on. -/
  park : Option (Nat × Nat)
  deriving DecidableEq, Repr

/-- Drain-add elements in flight (R283, R284). -/
structure Drain where
  ag : Agent
  pc : Word
  launch : Nat
  t0 : Nat
  /-- Wall cycle of the issue (R38). -/
  wall : Nat
  target : Word
  rows : Nat
  cols : Nat
  vals : List Lane
  left : List Nat
  /-- An element has been refused at the target. -/
  refused : Bool
  deriving DecidableEq, Repr

/-- The state of the machine. -/
structure State where
  wall : Nat
  tick : Nat
  cur : Agent
  inputs : List (Nat × Instr)
  fresh : Nat
  nextId : Nat
  /-- Bit errors to come, and the single-bit errors that SEC-DED has corrected (R405). -/
  upsets : List Upset
  eccCount : Nat
  /-- What the built-in tests of the coming starts will find: the cause of each failure, 0 for none (R430). -/
  troubles : List Nat
  ops : NMap Op
  wq : NMap PStore
  copies : NMap Copy
  drains : NMap Drain
  gangs : NMap Gang
  stews : NMap Steward
  csr : NMap Word
  mem : NMap Byte
  tags : NSet
  hbm : Hbm
  cup : Cupola
  cru : Crucible
  tr : Trans
  coh : Coh
  net : Net
  boot : Boot
  deriving DecidableEq, Repr

/-- A steward before its first instruction, of zeros. -/
def Steward.zero : Steward :=
  { cell := Cell.zero, pend := [], ie := false, inh := false, halt := false, cause := 0, epc := 0, tvec := 0,
    event := 0, evmask := 0, timecmp := BitVec.allOnes 64, gfault := 0, gwSel := 0, migst := 0 }

/-- The code capability of a starting steward: the ROM, with EX and LD (R432; the place of the ROM is log entry 5). -/
def romCap : Cap :=
  { tag := true, perms := 0x0005, otype := 0, e := 6, b := 0, t := 0x4000, addr := BitVec.ofNat 64 Config.romBase }

/-- The seq stream of a starting steward (R432). -/
def startSeq : Stream :=
  { Stream.zero with c := [(1, Cap.root), (2, Cap.typeAuth)], pcc := romCap, pc := BitVec.ofNat 64 Config.romBase,
                     run := true }

/-- A starting steward (R432): IE = 0, INH = 0, every other register null, its scratch clear (R317). -/
def Steward.start : Steward := { Steward.zero with cell := { Cell.zero with streams := [(0, startSeq)] } }

/-- The machine right after reset, at step 7 of R430: the four stewards start, HBM is wiped, no gang holds a pour. -/
def State.reset : State :=
  { wall := 0, tick := 0, cur := ⟨true, 0, 0, .seq⟩, inputs := [], fresh := 0, nextId := 1, upsets := [], eccCount := 0, troubles := [],
    ops := [], wq := [], copies := [], drains := [], gangs := [],
    stews := [(0, Steward.start), (1, Steward.start), (2, Steward.start), (3, Steward.start)],
    csr := [], mem := [], tags := [], hbm := Hbm.reset, cup := Cupola.reset, cru := Crucible.reset, tr := Trans.reset,
    coh := Coh.reset, net := Net.reset, boot := Boot.reset }

end Sys2Proof.Machine
end

