-- ==== Sys2Proof/Machine/Ops.lean ====
section
/-!
DEFINITION. The named operations over streams, registers, effects in flight and faults: what every meaning is
built from. Taking a fault (R36, R321) is one operation, `State.raise`; the return from it is `Steward.eret`.
-/
namespace Sys2Proof.Machine

abbrev Res := Host.Outcome State Fault Refusal

/-! ### Units and streams -/

/-- The gang of a package number (R10). -/
def State.gang (s : State) (g : Nat) : Gang := NMap.get Gang.zero s.gangs g

/-- A gang replaced. -/
def State.setGang (s : State) (g : Nat) (v : Gang) : State := { s with gangs := NMap.put s.gangs g v }

/-- The steward of a number (R10). -/
def State.stew (s : State) (n : Nat) : Steward := NMap.get Steward.zero s.stews n

/-- A steward replaced. -/
def State.setStew (s : State) (n : Nat) (v : Steward) : State := { s with stews := NMap.put s.stews n v }

/-- The cell of an agent. -/
def State.cellOf (s : State) (a : Agent) : Cell :=
  if a.stew then (s.stew a.unit).cell else NMap.get Cell.zero (s.gang a.unit).cells a.cell

/-- An agent's cell replaced. -/
def State.setCellOf (s : State) (a : Agent) (c : Cell) : State :=
  if a.stew then s.setStew a.unit { s.stew a.unit with cell := c }
  else s.setGang a.unit { s.gang a.unit with cells := NMap.put (s.gang a.unit).cells a.cell c }

/-- A stream of a cell. -/
def Cell.stream (c : Cell) (k : Kind) : Stream := NMap.get Stream.zero c.streams k.idx

/-- A stream of a cell replaced. -/
def Cell.setStream (c : Cell) (k : Kind) (t : Stream) : Cell := { c with streams := NMap.put c.streams k.idx t }

/-- The stream of an agent. -/
def State.streamOf (s : State) (a : Agent) : Stream := (s.cellOf a).stream a.kind

/-- An agent's stream replaced. -/
def State.setStreamOf (s : State) (a : Agent) (t : Stream) : State :=
  s.setCellOf a ((s.cellOf a).setStream a.kind t)

/-- The cell of the issuing stream. -/
def State.cell (s : State) : Cell := s.cellOf s.cur

/-- The issuing cell replaced. -/
def State.setCell (s : State) (c : Cell) : State := s.setCellOf s.cur c

/-- The issuing stream. -/
def State.me (s : State) : Stream := s.streamOf s.cur

/-- The issuing stream replaced. -/
def State.setMe (s : State) (t : Stream) : State := s.setStreamOf s.cur t

/-- The time base of an agent: gang cycles since the pour opened, wall cycles for a steward (R31, R316). -/
def State.timeOf (s : State) (a : Agent) : Nat := if a.stew then s.wall else (s.gang a.unit).gc

/-- The issue cycle of the current instruction. -/
def State.now (s : State) : Nat := s.timeOf s.cur

/-- Bytes of the agent's scratch window (R117, R317). -/
def Agent.scratch (a : Agent) : Nat := if a.stew then stewardScratchSize else scratchSize

/-- Die of an agent (R10). -/
def Agent.die (a : Agent) : Nat := if a.stew then a.unit / 2 else a.unit / 32

/-- Package number of the agent's cell (R10); steward cells come after all cells (R149). -/
def Agent.order (a : Agent) : Nat :=
  if a.stew then 256 + a.unit else (a.unit / 32) * 128 + (a.unit % 32) * 4 + a.cell

/-- Place of a stream in R36's order within its gang, and of a requester in the orders of R149 and R183. -/
def Agent.rank (a : Agent) : Nat := 4 * a.cell + a.kind.idx
def Agent.key (a : Agent) : Nat := 4 * a.order + a.kind.idx

/-! ### Registers -/

/-- x[r]; x0 reads zero (R8). -/
def Stream.rx (t : Stream) (r : Nat) : Word := if r = 0 then 0 else NMap.get 0 t.x r

/-- c[r]; c0 is the null capability (R8). -/
def Stream.rc (t : Stream) (r : Nat) : Cap := if r = 0 then Cap.null else NMap.get Cap.null t.c r

/-- x[r] := v; a write to x0 is discarded (R8). -/
def Stream.wx (t : Stream) (r : Nat) (v : Word) : Stream :=
  if r = 0 then t else { t with x := NMap.set 0 t.x r v }

/-- c[r] := v; a write to c0 is discarded (R8). -/
def Stream.wc (t : Stream) (r : Nat) (v : Cap) : Stream :=
  if r = 0 then t else { t with c := NMap.set Cap.null t.c r v }

/-- p[r]; p0 is all-true (R8). -/
def Cell.rp (c : Cell) (r : Nat) : Word := if r = 0 then BitVec.allOnes 64 else NMap.get 0 c.p r

/-- p[r] := v; a write to p0 is discarded (R251). -/
def Cell.wp (c : Cell) (r : Nat) (v : Word) : Cell := if r = 0 then c else { c with p := NMap.set 0 c.p r v }

/-- v[r]. -/
def Cell.rv (c : Cell) (r : Nat) : Line256 := NMap.get 0 c.v r

/-- Lane i of a register image (R242). -/
def laneOf (v : Line256) (i : Nat) : Lane := v.extractLsb' (32 * i) 32

/-- x register of the issuing stream, by its field. -/
def State.rx (s : State) (r : BitVec 5) : Word := s.me.rx r.toNat

/-- c register of the issuing stream, by its field. -/
def State.rc (s : State) (r : BitVec 4) : Cap := s.me.rc r.toNat

/-! ### Effects in flight and issue -/

/-- An effect placed in flight on the unit of its stream (R32). -/
def State.pendEff (s : State) (e : Eff) : State :=
  let u := e.ag.unit
  if e.ag.stew then s.setStew u { s.stew u with pend := (s.stew u).pend ++ [e] }
  else s.setGang u { s.gang u with pend := (s.gang u).pend ++ [e] }

/-- An effect of an instruction issued now, to perform on a cycle of its unit (R32). -/
def State.pendAt (s : State) (a : Agent) (pc : Word) (due : Nat) (act : Act) : State :=
  s.pendEff ⟨due, a, pc, act, s.wall⟩

/-- An effect of the issuing instruction, `lat` cycles after its issue (R33). -/
def State.sched (s : State) (lat : Nat) (act : Act) : State := s.pendAt s.cur s.me.pc (s.now + lat) act

/-- x[d] := v on g + lat. -/
def State.schedX (s : State) (lat : Nat) (d : BitVec 5) (v : Word) : State := s.sched lat (.x d.toNat v)

/-- c[d] := v on g + lat. -/
def State.schedC (s : State) (lat : Nat) (d : BitVec 4) (v : Cap) : State := s.sched lat (.c d.toNat v)

/-- The stream has issued its instruction: the next fetch is at `pc`, `extra` cycles later than the gap alone gives
(R31, R211). -/
def Stream.issued (t : Stream) (now extra : Nat) (pc : Word) (idle : Bool) : Stream :=
  { t with pc := pc, ready := now + 1 + extra, first := false, idling := idle, word := none }

/-- The current instruction has issued; the stream goes on at the next word (R31). -/
def State.advance (s : State) : State := s.setMe (s.me.issued s.now 0 (s.me.pc + 4) false)

/-- The current instruction has issued and transfers control at a fixed cost (R211). -/
def State.branch (s : State) (cost : Nat) (target : Word) : State := s.setMe (s.me.issued s.now cost target false)

/-! ### Faults -/

/-- The other steward of the die (R321). -/
def peerOf (n : Nat) : Nat := if n % 2 = 0 then n + 1 else n - 1

/-- A latched event set in a steward (R320). -/
def State.latch (s : State) (n e : Nat) : State :=
  s.setStew n { s.stew n with event := (s.stew n).event ||| BitVec.ofNat 8 (2 ^ e) }

/-- The steward that serves a gang at reset (R323). -/
def homeSteward (g : Nat) : Nat := 2 * (g / 32) + (g % 32) / 16

/-- The steward that serves a gang now: the home steward, or its peer once it has halted; none when both have (R323). -/
def State.serving (s : State) (g : Nat) : Option Nat :=
  let n := homeSteward g
  if (s.stew n).halt = false then some n
  else if (s.stew (peerOf n)).halt = false then some (peerOf n) else none

/-- The steward stops on a double fault: HALT, PEER at the other steward of the die, which takes over its gangs
(R321, R323). -/
def State.haltSteward (s : State) (n : Nat) : State :=
  let t := s.stew n
  let p := s.stew (peerOf n)
  let s := s.setStew n { t with halt := true, gfault := 0 }
  (s.setStew (peerOf n) { p with gfault := p.gfault ||| t.gfault }).latch (peerOf n) 7

/-- Entry into the steward handler (R321): ST_EPC, ST_CAUSE, IE := 0, INH := 1, first handler instruction three wall
cycles later at ST_TVEC with bits [1:0] cleared. -/
def State.enterHandler (s : State) (n : Nat) (epc : Word) (cause : Nat) : State :=
  let t := s.stew n
  let q := t.cell.stream .seq
  let q := { q with pc := t.tvec &&& ~~~ 3, ready := s.wall + 3, first := true, idling := false, wfe := false,
                    stall := none, word := none }
  s.setStew n { t with epc := epc, cause := BitVec.ofNat 64 cause, ie := false, inh := true,
                       cell := t.cell.setStream .seq q }

/-- ST_CAUSE of a synchronous fault (R319). -/
def causeWord (f : Flt) : Nat := f.cause % 256 + (f.sub % 256) * 2 ^ 8 + (f.faddr % 2 ^ 48) * 2 ^ 16

/-- A synchronous fault of a steward's own code: handler entry, or a double fault inside the handler (R321). -/
def State.stewFault (s : State) (n : Nat) (epc : Word) (cause : Nat) : State :=
  if (s.stew n).inh then s.haltSteward n else s.enterHandler n epc cause

/-- The gang cycle in its window on which a fault is detected: the current one, during a freeze the last one (R325). -/
def Gang.faultCycle (q : Gang) : Nat := (if q.live then q.gc else q.gc - 1) - q.base

/-- A fault holds the gang on the current wall cycle (R36): the clock enable falls, the record is latched (R323). Of the
faults of one wall cycle the first in R36's order is reported; every other fault of the hold only marks its stream in the
pending mask. -/
def State.holdGang (s : State) (g : Nat) (a : Agent) (pc : Word) (copy : Option Nat) (f : Flt) : State :=
  let q := s.gang g
  let rec' (c : Nat) : FRec := ⟨f, a.cell, a.kind.idx, copy, c, pc.toNat, s.wall, false, none⟩
  let old := 4 * q.frec.cell + q.frec.stream
  let mark (n : Nat) : BitVec 16 := q.pendMask ||| BitVec.ofNat 16 (2 ^ n)
  if q.held = false then s.setGang g { q with held := true, live := false, frec := rec' q.faultCycle }
  else if q.frec.wall = s.wall ∧ a.rank < old then
    s.setGang g { q with frec := rec' q.frec.fcycle, pendMask := mark old }
  else s.setGang g { q with pendMask := mark a.rank }

/-- The numbers of the four stewards. -/
def stewards : List Nat := [0, 1, 2, 3]

/-- Containment is signalled to the host by MSI-X vector 17 (R413). -/
def State.signalContain (s : State) : State := { s with net := { s.net with out := s.net.out ++ [.msi 17] } }

/-- CONTAIN latched in every steward, and signalled to the host (R320, R390, R413). -/
def State.containAll (s : State) : State := (stewards.foldl (fun s n => s.latch n 5) s).signalContain

/-- The session is halted (R392): its running pours take a steward freeze, its number joins CO_HALTQ, CONTAIN is
latched. -/
def State.haltSession (s : State) (i : Nat) : State :=
  let old := NMap.get ⟨0, .running, false, false⟩ s.cup.sessions i
  let r := if old.status = .cancelled then ⟨0, .running, false, false⟩ else old
  if r.halted then s
  else
    let gangs := s.gangs.map (fun (g, q) => (g, match q.pour with
      | some p => if p.session = i then { q with sfrozen := true } else q
      | none => q))
    ({ s with gangs := gangs, cup := { s.cup with sessions := NMap.put s.cup.sessions i { r with halted := true } },
              coh := { s.coh with haltQ := s.coh.haltQ ++ [i] } }).containAll

/-- What else a fault brings: a contained error halts the session of the pour that receives it (R391, R392). -/
def State.afterFault (s : State) (g : Nat) (f : Flt) : State :=
  if f.cause = 19 ∧ f.sub = 1 then match (s.gang g).pour with
    | some p => s.haltSession p.session
    | none => s
  else s

/-- A fault of a given stream at a given instruction: hold of its gang, or entry into the steward's handler (a fault of
the steward's ladle enters the handler of its seq stream). -/
def State.raiseAt (s : State) (a : Agent) (pc : Word) (f : Flt) : State :=
  if a.stew then s.stewFault a.unit pc (causeWord f) else (s.holdGang a.unit a pc none f).afterFault a.unit f

/-- The one way in which a meaning faults: the instruction does not issue and the fault is taken (R36, R321). -/
def State.raise (s : State) (f : Flt) : State := s.raiseAt s.cur s.me.pc f

/-- A fault of something that has left the stream that it is reported of: a SKIP has nothing to undo (R327). -/
def State.raiseLate (s : State) (a : Agent) (pc : Word) (f : Flt) : State :=
  let t := s.raiseAt a pc f
  let q := t.gang a.unit
  if a.stew ∨ ¬ (q.frec.wall = s.wall ∧ 4 * q.frec.cell + q.frec.stream = a.rank ∧ q.frec.flt = f) then t
  else t.setGang a.unit { q with frec := { q.frec with iss := some 0 } }

/-- The word at an address of the issuing stream's code, as the record gives it: the encoding of the instruction. -/
def wordNat (i : Instr) : Nat := (encode i).getD 0

/-- Illegal-instruction fault with a sub-cause (R324, code 1). -/
def State.illegal (s : State) (i : Instr) (sub : Nat) : State :=
  s.raise ⟨1, sub, s.me.pc.toNat, wordNat i, 0⟩

/-- Illegal-shape fault with the offending value (R324, code 2). -/
def State.illShape (s : State) (i : Instr) (v : Nat) : State :=
  s.raise ⟨2, 0, s.me.pc.toNat, wordNat i, v⟩

/-- Capability fault of a scalar access (R324, code 3). -/
def capFlt (e : CapSub) (addr : Nat) : Flt := ⟨3, e.code, addr, 1, 0⟩

/-- Capability fault taken. -/
def State.capFault (s : State) (e : CapSub) (addr : Nat) : State := s.raise (capFlt e addr)

/-- Timing sub-causes (R324, code 4). -/
inductive TSub where
  | bank | write | unclaimed | missed | busy | unmatched | link | mismatch | yield
  deriving DecidableEq, Repr

/-- Sub-cause code of a timing fault (R324). -/
def TSub.code : TSub → Nat
  | .bank => 0 | .write => 1 | .unclaimed => 2 | .missed => 3 | .busy => 4 | .unmatched => 5 | .link => 6
  | .mismatch => 7 | .yield => 8

/-- A timing fault (R324): what collided, and the second cell involved. -/
def timeFlt (t : TSub) (what cell2 : Nat) : Flt := ⟨4, t.code, 0, what % 256 + (cell2 % 4) * 256, 0⟩

/-- Stream-state fault (R324, code 15). -/
def State.streamFault (s : State) (i : Instr) : State := s.raise ⟨15, 0, s.me.pc.toNat, wordNat i, 0⟩

/-- A fault of an operation reported after its issue: against its stream and instruction. -/
def State.raiseOp (s : State) (o : Op) (f : Flt) : State := s.raiseAt o.ag o.pc f

/-! ### Outstanding operations -/

/-- A freeze condition recorded for the issuing gang (R41). -/
def State.freezeOn (s : State) (c : Cond) : State :=
  let g := s.cur.unit
  s.setGang g { s.gang g with conds := (s.gang g).conds ++ [⟨c, s.cur, s.me.pc, s.wall, s.wall⟩] }

/-- The issuing stream waits for an operation: the gang freezes on it (R41), a steward's stream stalls (R316). -/
def State.await (s : State) (id : Nat) : State :=
  if s.cur.stew then s.setMe { s.me with stall := some id } else s.freezeOn (.op id)

/-- A fresh operation of the issuing stream. -/
def State.newOp (s : State) (k : OpK) (i : Instr) : Op :=
  { ag := s.cur, pc := s.me.pc, k := k, i := i, t0 := s.now, wall := s.wall, addr := 0, pieces := [], val := 0, val2 := 0,
    caps := [], relMark := 0, near := [], stage := 0, res := [], cres := [], flt := none }

/-- The operation is a load into an x register. -/
def OpK.isLoad : OpK → Bool
  | .load _ _ _ => true
  | _ => false

/-- The operation is outstanding under the next number and holds its stream; the stream has issued it. Any operation but a
load parts the loads before it from those after it (R151). -/
def State.startOp (s : State) (o : Op) : State :=
  let id := s.nextId
  let s := if o.k.isLoad then s else s.setMe { s.me with snap := none }
  ({ s with ops := NMap.put s.ops id o, nextId := id + 1 }.await id).advance

/-- An outstanding operation replaced. -/
def State.setOp (s : State) (id : Nat) (o : Op) : State := { s with ops := NMap.put s.ops id o }

/-- The operation has answered: it no longer holds its stream (R41), and a steward's next instruction issues no earlier
than the next wall cycle (R316). -/
def State.endOp (s : State) (id : Nat) (o : Op) : State :=
  let s := { s with ops := NMap.erase s.ops id }
  if o.ag.stew then
    let t := s.streamOf o.ag
    if t.stall = some id then s.setStreamOf o.ag { t with stall := none, ready := s.wall + 1 } else s
  else s

/-- Cycle on which a result of the operation performs: g + lat, the freeze lying between g and g + 1 (R33); for a
steward, lat wall cycles after the answer (R316). -/
def State.opDue (s : State) (o : Op) (lat : Nat) : Nat := if o.ag.stew then s.wall + lat else o.t0 + lat

/-- A result of an operation, performing on g + lat. -/
def State.opSched (s : State) (o : Op) (lat : Nat) (a : Act) : State := s.pendAt o.ag o.pc (s.opDue o lat) a

/-! ### Privilege -/

/-- Only a steward's seq stream issues system opcodes: elsewhere they count as unassigned (R185, R315). -/
def State.steward (s : State) (i : Instr) (f : State → State) : State :=
  if s.cur.stew then f s else s.illegal i 0

/-- Instructions that a steward cell may not fetch (R185). -/
def State.gangOnly (s : State) (i : Instr) (f : State → State) : State :=
  if s.cur.stew then s.illegal i 2 else f s

/-! ### Starting anew (R430, R431) -/

/-- Start, fuses and power replaced. -/
def State.setBoot (s : State) (b : Boot) : State := { s with boot := b }

/-- The fuses after a start that failed with a cause (R431). -/
def Boot.failed (b : Boot) (cause : Nat) : Boot :=
  { b with cause := cause, fails := if b.minimal then 3 else min 3 (b.fails + 1) }

/-- A reset begins at step 1: only the fuses survive; BU_START.CLEARF of minimal mode makes the start a full one with
F = 0; in minimal mode and in RETIRED all ports but port 0 stay down (R428, R430, R431). What has left the package, the script of the outside and the
counter of free values are the model's. -/
def State.restart (s : State) (b : Boot) : State :=
  let f := if b.minimal ∧ b.clearf then 0 else b.fails
  let min' := decide (f = 3)
  { State.reset with
    inputs := s.inputs, fresh := s.fresh, upsets := s.upsets, troubles := s.troubles.drop 1,
    net := { Net.reset with out := s.net.out, cports := if min' ∨ b.lc = 3 then [(1, 0), (2, 0), (3, 0)] else [] },
    stews := if min' then [(0, Steward.start), (1, Steward.start)] else State.reset.stews,
    boot := { Boot.reset with step := 1, minimal := min', lc := b.lc, grade := b.grade, dev := b.dev, rev := b.rev,
                              fails := f, cause := b.cause,
                              trouble := s.troubles.headD 0 } }

/-- Degrees at which the package stops and resets (R434). -/
def tripTemp : Nat := 110

/-- The thermal reset: no failed start, cause 10 (R434). -/
def State.thermalReset (s : State) : State := s.restart { s.boot with cause := 10 }

end Sys2Proof.Machine
end

