-- ==== Sys2Proof/Machine/Protect.lean ====
section
/-!
DEFINITION. The codes that protect a line of HBM, as functions of its bytes: the CRC of R402 and the Reed–Solomon code of R403;
the places of sideband words and check bytes (R400, R401).
-/
namespace Sys2Proof.Machine

/-! ### Places (R400, R401) -/

/-- Line index within the pseudo-channel (R400). -/
def lineIndex (pa : Nat) : Nat := (pa / 2 ^ 17) * 4 + bits pa 7 6

/-- The sideband line and the word of it that hold the sideband word of a line; the same numbers are the correction line and the
four bytes of its check bytes (R401). -/
def sidebandPlace (pa : Nat) : Nat × Nat := (lineIndex pa / 16, lineIndex pa % 16)

/-- The line that the default masks place where nine selector bits, s_i in bit i, and a line index place `pa`: its number names
the slot (R400). -/
def slotOf (sel pa : Nat) : Nat :=
  pa / 2 ^ 17 * 2 ^ 11 + (sel % 512 ^^^ (bits pa 25 20 + bits pa 28 26 * 64)) * 4 + bits pa 7 6

/-! ### CRC-24 (R402) -/

/-- One step of the division by the polynomial 0x86_4CFB. -/
def crcShift (c : Nat) : Nat := if bitOf c 23 then (c * 2 % 2 ^ 24) ^^^ 0x864CFB else c * 2 % 2 ^ 24

/-- One byte taken in. -/
def crcByte (c : Nat) (b : Byte) : Nat := (List.range 8).foldl (fun c _ => crcShift c) (c ^^^ (b.toNat * 2 ^ 16))

/-- CRC-24 of bytes, from the initial value 0xB7_04CE. -/
def crc24 (l : List Byte) : Nat := l.foldl crcByte 0xB704CE

/-- SB_CRC of a line: its 64 plaintext bytes, bits [31:24] of the sideband word, PA[51:6] as 6 bytes. -/
def lineCrc (data : List Byte) (top pa : Nat) : Nat :=
  crc24 (data ++ [BitVec.ofNat 8 top] ++ leBytes (pa % 2 ^ 52 / 64) 6)

/-! ### Reed–Solomon code over GF(2^8) (R403) -/

/-- Product by α = 0x02 modulo x^8 + x^4 + x^3 + x^2 + 1. -/
def gfTwice (a : Nat) : Nat := if bitOf a 7 then (a * 2 % 256) ^^^ 0x1D else a * 2 % 256

/-- Product in the field. -/
def gfMul (a b : Nat) : Nat :=
  ((List.range 8).foldl (fun (r : Nat × Nat) i => (if bitOf b i then r.1 ^^^ r.2 else r.1, gfTwice r.2)) (0, a % 256)).1

/-- α^n. -/
def gfPow (n : Nat) : Nat := (List.range (n % 255)).foldl (fun a _ => gfTwice a) 1

/-- a^254, the inverse of a nonzero element. -/
def gfInv (a : Nat) : Nat := (List.range 253).foldl (fun r _ => gfMul r a) a

/-- Quotient in the field. -/
def gfDiv (a b : Nat) : Nat := gfMul a (gfInv b)

/-- Symbols of a codeword: 64 bytes of the line, then the 4 check bytes. -/
def rsSymbols : Nat := 68

/-- The value of the word as a polynomial at α^j; byte i is the coefficient of degree 67 − i (log entry 89). -/
def syndrome (w : List Byte) (j : Nat) : Nat := w.foldl (fun a b => gfMul a (gfPow j) ^^^ b.toNat) 0

/-- The check bytes of a line: with them the word vanishes at the roots α^0 to α^3 of the generator. -/
def rsCheck (data : List Byte) : List Byte :=
  -- the generator x^4 + g3 x^3 + g2 x^2 + g1 x + g0 from its roots
  let mulRoot (p : List Nat) (r : Nat) : List Nat :=
    ((p ++ [0]).zip (0 :: p)).map (fun (e : Nat × Nat) => e.1 ^^^ gfMul e.2 r)
  let g := ([0, 1, 2, 3].foldl (fun p j => mulRoot p (gfPow j)) [1]).drop 1
  let rem := data.foldl (fun (r : List Nat) b =>
    let f := b.toNat ^^^ r.headD 0
    ((r.drop 1 ++ [0]).zip g).map (fun (e : Nat × Nat) => e.1 ^^^ gfMul f e.2)) [0, 0, 0, 0]
  rem.map (BitVec.ofNat 8)

/-- A byte of a word changed by the exclusive or with a value. -/
def xorAt (w : List Byte) (i : Nat) (v : Byte) : List Byte := w.set i (w.getD i 0 ^^^ v)

/-- The word corrected, when at most two of its bytes are wrong as the syndromes tell. -/
def rsCorrect (w : List Byte) : Option (List Byte) :=
  let s (j : Nat) : Nat := syndrome w j
  let place (x : Nat) : Option Nat := (List.range rsSymbols).find? (fun i => gfPow (rsSymbols - 1 - i) == x)
  if s 0 = 0 ∧ s 1 = 0 ∧ s 2 = 0 ∧ s 3 = 0 then some w
  else
    let det := gfMul (s 0) (s 2) ^^^ gfMul (s 1) (s 1)
    if det = 0 then
      if s 0 ≠ 0 ∧ gfMul (s 1) (s 2) = gfMul (s 0) (s 3) then
        (place (gfDiv (s 1) (s 0))).map (fun i => xorAt w i (BitVec.ofNat 8 (s 0)))
      else none
    else
      let sum := gfDiv (gfMul (s 0) (s 3) ^^^ gfMul (s 1) (s 2)) det
      let prod := gfDiv (gfMul (s 1) (s 3) ^^^ gfMul (s 2) (s 2)) det
      match (List.range rsSymbols).filter (fun i =>
          let x := gfPow (rsSymbols - 1 - i)
          gfMul x x ^^^ gfMul sum x ^^^ prod == 0) with
      | [i, j] =>
        let x := gfPow (rsSymbols - 1 - i)
        let b := gfDiv (s 1 ^^^ gfMul (s 0) x) sum
        some (xorAt (xorAt w j (BitVec.ofNat 8 b)) i (BitVec.ofNat 8 (s 0 ^^^ b)))
      | _ => none

/-! ### A word of 72 bytes: line, check bytes, sideband word -/

/-- The errors as a vector of bytes. -/
def flipBytes (f : Flips) : List Byte := f.foldl (fun w e => xorAt w e.1 e.2) (List.replicate 72 0)

/-- Two sets of errors in one line, those that cancel each other gone. -/
def mergeFlips (f g : Flips) : Flips :=
  let w := flipBytes (f ++ g)
  (List.range 72).filterMap (fun i => if w.getD i 0 = 0 then none else some (i, w.getD i 0))

/-- What a read of a stored line gives (R403): good, another content than was written (whose bytes differ as the first list
says, with these bits [31:24] of the sideband word), counted as corrected or not, poison by its bit, or no line. -/
inductive ReadEnd where
  | good | other (corrected : Bool) (diff : List Byte) (top : Nat) | poisoned | bad
  deriving DecidableEq, Repr

/-- A read of a line with errors. `data` and `top` are what was written; of an encrypted line any difference makes the plaintext
fail its CRC (R409). Under the compatibility grade nothing is corrected (R404). -/
def readFlipped (data : List Byte) (top pa : Nat) (crypt grade : Bool) (f : Flips) : ReadEnd :=
  let e := flipBytes f
  let word := ofLE (leBytes (lineCrc data top pa) 3 ++ [BitVec.ofNat 8 top]) ^^^ ofLE (e.drop 68)
  let passes (d : List Byte) : Bool :=
    if crypt then d.all (· == 0) && (e.drop 68).all (· == 0)
    else lineCrc ((data.zip d).map (fun b => b.1 ^^^ b.2)) (word / 2 ^ 24) pa == word % 2 ^ 24
  let d := e.take 64
  if bitOf word 28 then .poisoned
  else if passes d then (if e.all (· == 0) then .good else .other false d (word / 2 ^ 24))
  else if grade then .bad
  else match rsCorrect (e.take 68) with
    | none => .bad
    | some r => if passes (r.take 64) then .other true (r.take 64) (word / 2 ^ 24) else .bad

end Sys2Proof.Machine
end

