-- ==== Sys2Proof/Machine/Ecc.lean ====
section
/-!
DEFINITION. Bit errors and SEC-DED (R403, R405): which words of a cell hold a double-bit error, what reads and writes of them
do. The size of a protected word is log entry 40.
-/
namespace Sys2Proof.Machine

/-- Numbers of a cell's protected words: scratchpad lines of 64 bytes stand for themselves, then lines of operand slots and
accumulator elements. -/
def eccSlot (l : Nat) : Nat := 2 ^ 17 + l
def eccAcc (k : Nat) : Nat := 2 ^ 18 + k

/-- The memory error of an access (R324, code 20). -/
def memFlt (addr : Nat) : Flt := ⟨20, 0, addr, 0, 0⟩

/-- Words written whole hold no error. -/
def Cell.heal (c : Cell) (l : List Nat) : Cell := if c.bad = [] then c else { c with bad := l.foldl NSet.del c.bad }

/-- The memory error of an access to scratchpad lines. -/
def Cell.spmFault (c : Cell) (lines : List Nat) : Option Flt :=
  if c.bad = [] then none else (lines.find? (NSet.mem c.bad)).map (fun l => memFlt (scratchBase + 64 * l))

/-- The memory error of an access to slot lines or accumulator elements, which have no address. -/
def Cell.wordFault (c : Cell) (words : List Nat) : Option Flt :=
  if c.bad = [] then none else (words.find? (NSet.mem c.bad)).map (fun _ => memFlt 0)

/-- The scratchpad lines of `n` bytes from an offset, those of them that the bytes fill, and the others. -/
def spmLines (off n : Nat) : List Nat := if n = 0 then [] else span (off / 64) ((off + n - 1) / 64 + 1 - off / 64)
def fullLines (off n : Nat) : List Nat :=
  (spmLines off n).filter (fun l => decide (off ≤ 64 * l) && decide (64 * l + 64 ≤ off + n))
def partLines (off n : Nat) : List Nat :=
  (spmLines off n).filter (fun l => !(decide (off ≤ 64 * l) && decide (64 * l + 64 ≤ off + n)))

/-- The bank of a scratchpad line is free on this wall cycle: of scheduled accesses, landings and stream reads
(R19, R34, R129). -/
def Cell.lineFree (c : Cell) (l : Nat) : Bool := c.banksNow.all (fun b => b % 64 != l % 64)

/-- Lines that one wall cycle can reach: one of each bank (R19). -/
def onePerBank (l : List Nat) : Bool := (l.map (· % 64)).eraseDups.length == l.length

/-- Banks that a landing or a stream read has used on this wall cycle. -/
def Cell.useLines (c : Cell) (l : List Nat) : Cell :=
  if l = [] then c else { c with banksNow := c.banksNow ++ (l.map (fun i => 64 + i % 64)).eraseDups }

/-- The lines that masked bytes fill, and the others that they touch. -/
def WByte.touched (l : List WByte) : List Nat := (l.map (fun w => w.off / 64)).eraseDups
def WByte.fills (l : List WByte) (n : Nat) : Bool :=
  decide (64 ≤ (l.filter (fun w => w.off / 64 == n && w.mask == 0xFF)).length)

/-- A bit error strikes. SEC-DED corrects and counts a single-bit error; a double-bit error stays until it is met. A line in HBM
keeps its errors until it is read; under the compatibility grade its check bytes are plain storage (R404). -/
def State.strike (s : State) (u : Upset) : State :=
  let cell (a : Agent) (k : Nat) : State :=
    let c := s.cellOf a
    s.setCellOf a { c with bad := NSet.add c.bad k }
  match u.place with
  | .hbm l err =>
    let plain : Flips := if s.boot.grade then err.filter (fun e => decide (64 ≤ e.1) && decide (e.1 < 68)) else []
    let s := plain.foldl (fun s e =>
      let a := 0x8_0000_0000_0000 + 4 * l + (e.1 - 64)
      { s with mem := putBytes 0 s.mem a [NMap.get 0 s.mem a ^^^ e.2] }) s
    let f := mergeFlips (NMap.get [] s.hbm.flips l) (err.filter (fun e => !plain.contains e))
    { s with hbm := { s.hbm with flips := if f = [] then NMap.erase s.hbm.flips l else NMap.put s.hbm.flips l f } }
  | p =>
    if u.double = false then { s with eccCount := s.eccCount + 1 }
    else match p with
      | .spm st n c l => cell ⟨st, n, c, .seq⟩ l
      | .slot g c l => cell ⟨false, g, c, .seq⟩ (eccSlot l)
      | .acc g c k => cell ⟨false, g, c, .seq⟩ (eccAcc k)
      | .l2 l => { s with coh := { s.coh with l2bad := NSet.add s.coh.l2bad l } }
      | .hbm _ _ => s

/-- The bit errors of the current wall cycle strike. -/
def State.strikes (s : State) : State :=
  if s.upsets = [] then s
  else (s.upsets.filter (fun u => decide (u.wall ≤ s.wall))).foldl State.strike
    { s with upsets := s.upsets.filter (fun u => !decide (u.wall ≤ s.wall)) }

end Sys2Proof.Machine
end

