-- ==== Sys2Proof/Machine/Operands.lean ====
section
/-!
DEFINITION. The operand forms (R186, R100, R191, R193): immediates, offsets, effective addresses, branch targets, and
the classification and check of an access through a capability.
-/
namespace Sys2Proof.Machine

/-- A two's complement immediate (R186). -/
def imm {n : Nat} (v : BitVec n) : Word := v.signExtend 64

/-- Branch target: the instruction's address plus four times the offset (R186). -/
def State.target {n : Nat} (s : State) (o : BitVec n) : Word := s.me.pc + 4 * imm o

/-- Effective address c[cb].ADDR + offset × size, modulo 2^64 (R220). -/
def State.ea {n : Nat} (s : State) (c : BitVec 4) (o : BitVec n) (size : Nat) : Word :=
  (s.rc c).addr + imm o * BitVec.ofNat 64 size

/-- Address of a capability access: c[cb].ADDR + 16 × off13 (R105). -/
def State.eaCap (s : State) (c : BitVec 4) (o : BitVec 13) : Word := (s.rc c).addr + 16 * imm o

/-- Access size of a load or store from its code: 1, 2, 4 or 8 bytes. -/
def sizeOf2 (k : Nat) : Nat := 2 ^ k

/-- Sign- or zero-extension of the low `n` bytes of a value to 64 bits (R220). -/
def extendTo (n : Nat) (signed : Bool) (v : Nat) : Word :=
  if signed then BitVec.ofInt 64 (sx (8 * n) v) else BitVec.ofNat 64 (v % 2 ^ (8 * n))

/-- An access checked against its capability and the spaces of R117: `scr` when it lies in the scratch window, `glob`
when it is global. -/
inductive Place where
  | scr (off : Nat) | glob (va : Nat) | fault (f : Flt)
  deriving DecidableEq, Repr

/-- CapCheck of R98 followed by the classification of R117. -/
def place (window : Nat) (c : Cap) (a : Word) (size al : Nat) (need : List Perm) : Place :=
  match capCheck c a.toNat size al need with
  | some e => .fault (capFlt e a.toNat)
  | none =>
    match spaceOf window a.toNat size with
    | .scratch => .scr (a.toNat - scratchBase)
    | .global => .glob a.toNat
    | .other => .fault (capFlt .bounds a.toNat)

/-- The place of an access of the issuing stream. -/
def State.placeOf (s : State) (c : Cap) (a : Word) (size al : Nat) (need : List Perm) : Place :=
  place s.cur.scratch c a size al need

/-- Comparison of two signed words. -/
def sltW (a b : Word) : Bool := a.slt b

/-- 1 or 0. -/
def b2w (b : Bool) : Word := if b then 1 else 0

/-- Register-only integer functions of the op and mulop groups (R212, R213). -/
inductive Alu where
  | add | sub | and | or | xor | sll | srl | sra | slt | sltu | min | max | minu | maxu | mul | mulh | mulhu | mulhsu
  deriving DecidableEq, Repr

/-- The result of an integer function (R212, R213). -/
def Alu.eval (o : Alu) (a b : Word) : Word :=
  match o with
  | .add => a + b
  | .sub => a - b
  | .and => a &&& b
  | .or => a ||| b
  | .xor => a ^^^ b
  | .sll => a <<< (b.toNat % 64)
  | .srl => a >>> (b.toNat % 64)
  | .sra => a.sshiftRight (b.toNat % 64)
  | .slt => b2w (sltW a b)
  | .sltu => b2w (a.ult b)
  | .min => if sltW a b then a else b
  | .max => if sltW a b then b else a
  | .minu => if a.ult b then a else b
  | .maxu => if a.ult b then b else a
  | .mul => a * b
  | .mulh => BitVec.ofInt 64 (a.toInt * b.toInt / ((2 ^ 64 : Nat) : Int))
  | .mulhu => BitVec.ofNat 64 (a.toNat * b.toNat / 2 ^ 64)
  | .mulhsu => BitVec.ofInt 64 (a.toInt * (b.toNat : Int) / ((2 ^ 64 : Nat) : Int))

/-- Latency of a group: an ALU result performs on g + 1, a multiply on g + 3 (R33). -/
def Alu.lat : Alu → Nat
  | .mul | .mulh | .mulhu | .mulhsu => 3
  | _ => 1

/-- Conditions of the branches (R216). -/
inductive Br where
  | eq | ne | lt | ge | ltu | geu
  deriving DecidableEq, Repr

/-- Whether a branch is taken (R216). -/
def Br.holds (o : Br) (a b : Word) : Bool :=
  match o with
  | .eq => a == b
  | .ne => a != b
  | .lt => sltW a b
  | .ge => !sltW a b
  | .ltu => a.ult b
  | .geu => !a.ult b

/-- New value of an atomic over `n` bytes, from the old value and the operand, both below 2^(8n) (R223). -/
def Amo.eval (o : Amo) (n : Nat) (old a : Nat) : Nat :=
  match o with
  | .add => (old + a) % 2 ^ (8 * n)
  | .min => if sx (8 * n) old < sx (8 * n) a then old else a
  | .max => if sx (8 * n) old < sx (8 * n) a then a else old
  | .and => old &&& a
  | .or => old ||| a
  | .xor => old ^^^ a
  | .swp => a

/-- The bytes of a line image, lowest first. -/
def imgBytes : Nat → Nat → List Byte
  | _, 0 => []
  | v, n + 1 => BitVec.ofNat 8 (v % 256) :: imgBytes (v / 256) n

end Sys2Proof.Machine
end

