-- ==== Sys2Proof/Machine/Flags.lean ====
section
/-!
DEFINITION. The sticky arithmetic flags of a stream (R73 to R75).
-/
namespace Sys2Proof.Machine

/-- The bits of fflags that exist: flags 0 to 5 and trap enables 8 to 13 (R73). -/
def fflagsMask : Word := 0x3F3F

/-- A write of fflags: reserved bits are ignored (R73, R197). -/
def fflagsOf (v : Word) : Word := v &&& fflagsMask

/-- Flags set: ORed into the register (R74). -/
def Stream.orFlags (t : Stream) (f : FFlags) : Stream := { t with fflags := t.fflags ||| f.setWidth 64 }

/-- The flags whose trap enable is set (R75). -/
def trapped (fflags : Word) : Nat := bits fflags.toNat 5 0 &&& bits fflags.toNat 13 8

/-- The trap record of TFENCE over a mask of streams: bits [3:0] the streams matched, bits [8 + 6s + 5 : 8 + 6s] the
matched flags of stream s (R75, R324 code 18). -/
def trapInfo (c : Cell) (mask : Nat) : Nat :=
  let one (k : Kind) : Nat := if mask.testBit k.idx then trapped (c.stream k).fflags else 0
  let term (k : Kind) : Nat := if one k = 0 then 0 else 2 ^ k.idx + one k * 2 ^ (8 + 6 * k.idx)
  term .seq + term .vec + term .mat + term .ladle

/-- Flags set in a stream of an agent's cell. -/
def State.orFlagsOf (s : State) (a : Agent) (f : FFlags) : State :=
  if f = 0 then s else s.setStreamOf a ((s.streamOf a).orFlags f)

/-- Flags of the issuing instruction, set on g + lat (R74). -/
def State.schedFlags (s : State) (lat : Nat) (f : FFlags) : State := if f = 0 then s else s.sched lat (.orFlags f)

end Sys2Proof.Machine
end

