-- ==== Sys2Proof/Machine/Access.lean ====
section
/-!
DEFINITION. Physical memory, the HBM hash and its protection, page tables and extents, tags and the load barrier
(R107 to R113, R351, R352, R359 to R365, R373, R399 to R408, R422, R436).
-/
namespace Sys2Proof.Machine

/-! ### System registers by number -/

/-- Reset value of a plain system register (R319, R340, R364, R389, R406, R410, R415, R433); 0 where not listed. -/
def csrReset : Nat → Word
  | 0x203 => BitVec.ofNat 64 (2 ^ 20)
  | 0x204 => 2000000
  | 0x205 => BitVec.ofNat 64 (2 ^ 16)
  | 0x400 => 16384
  | 0x521 => 94000
  | 0x522 => 8
  | 0x523 => 0x10000024B8
  | 0x606 => 2000000
  | _ => 0

/-- A plain system register. -/
def State.csrGet (s : State) (n : Nat) : Word := (NMap.find s.csr n).getD (csrReset n)

/-- A plain system register written. -/
def State.csrPut (s : State) (n : Nat) (v : Word) : State := { s with csr := NMap.put s.csr n v }

/-! ### Physical addresses (R399) and the hash (R400) -/

/-- Backing of a physical address. -/
inductive Backing where
  | hbm | cxl (port : Option Nat) | host | checkWords | rom | slot | unbacked
  deriving DecidableEq, Repr

/-- The port whose window covers an address of the CXL window; the lowest serves (R412). -/
def State.cxlPort (s : State) (pa : Nat) : Option Nat :=
  let gib := (pa - 0x1000_0000_0000) / 2 ^ 30
  [1, 2, 3].find? (fun p =>
    let w := (s.csrGet (0x550 + p)).toNat
    decide (bits w 14 0 ≤ gib) && decide (gib < bits w 14 0 + bits w 30 16))

/-- Backing of a physical address (R399, R404); the boot ROM lies at a place of the model's own (log entry 5). -/
def State.backing (s : State) (pa : Nat) : Backing :=
  if inSlotWindow pa then .slot
  else if pa ≤ 0x6F_FFFF_FFFF then .hbm
  else if 0x1000_0000_0000 ≤ pa ∧ pa ≤ 0x1FFF_FFFF_FFFF then .cxl (s.cxlPort pa)
  else if 0x2000_0000_0000 ≤ pa ∧ pa ≤ 0x2FFF_FFFF_FFFF then .host
  else if Config.romBase ≤ pa ∧ pa < Config.romBase + Config.romSize then .rom
  else if 0x8_0000_0000_0000 ≤ pa ∧ pa ≤ 0x8_0006_FFFF_FFFF ∧ s.boot.grade then .checkWords
  else .unbacked

/-- The default masks (R400). -/
def defaultMask (i : Nat) : Nat :=
  if i < 6 then 2 ^ (8 + i) + 2 ^ (20 + i) else 2 ^ (14 + (i - 6)) + 2 ^ (26 + (i - 6))

/-- Mask `i` of interleave class `c`. -/
def Hbm.mask (h : Hbm) (c i : Nat) : Nat :=
  match NMap.find h.masks (16 * c + i) with
  | some m => m.toNat
  | none => defaultMask i

/-- Placement of a line under nine masks: 64 stack + 2 channel + pseudo-channel (R400, R420). -/
def placement (m : Nat → Nat) (pa : Nat) : Nat :=
  let s (i : Nat) : Nat := if parityN 52 (pa &&& m i) then 1 else 0
  64 * (s 6 + 2 * s 7 + 4 * s 8) + 2 * (s 1 + 2 * s 2 + 4 * s 3 + 8 * s 4 + 16 * s 5) + s 0

/-- Pseudo-channel number of a line under a class now. -/
def Hbm.pch (h : Hbm) (c pa : Nat) : Nat := placement (h.mask c) (pa / 64 * 64)

/-- The frame has a line on the channel under some class's masks (R408). -/
def frameOn (masks : NMap Word) (ch frame : Nat) : Bool :=
  (List.range 8).any (fun c => (List.range 64).any (fun l =>
    let m (i : Nat) : Nat := match NMap.find masks (16 * c + i) with
      | some w => w.toNat
      | none => defaultMask i
    placement m (frame * 4096 + l * 64) / 2 == ch))

/-- The channel of a line is masked and serves nothing (R408). -/
def Hbm.chDead (h : Hbm) (c pa : Nat) : Bool := h.chMasked != [] && (NMap.find h.chMasked (h.pch c pa / 2)).isSome

/-- The frame is retired: by a write, by hardware, or with a masked channel (R406, R408). -/
def Hbm.isRetired (h : Hbm) (frame : Nat) : Bool :=
  NSet.mem h.retired frame || h.chMasked.any (fun e => frameOn e.2 e.1 frame)

/-- A pseudo-channel performs one more data-line access (R420), saturating. -/
def State.countLine (s : State) (c pa : Nat) : State :=
  if s.backing pa = .hbm then
    let q := s.hbm.pch c pa
    let n := NMap.get 0 s.hbm.pc q
    { s with hbm := { s.hbm with pc := NMap.set 0 s.hbm.pc q (min (n + 1) (2 ^ 32 - 1)) } }
  else s

/-! ### Bytes and tags of physical memory -/

/-- The coherent value of a byte: memory, or the payload of a Crucible slot (R149, R436). -/
def State.readByte (s : State) (pa : Nat) : Byte :=
  if inSlotWindow pa then NMap.get 0 s.cru.pay pa else NMap.get 0 s.mem pa

/-- `n` bytes from a physical address. -/
def State.readBytes (s : State) (pa n : Nat) : List Byte := (span pa n).map s.readByte

/-- Little-endian value of `n` bytes from a physical address. -/
def State.readLE (s : State) (pa n : Nat) : Nat := leRead s.readByte pa n

/-- The tag of the granule of a physical address. -/
def State.tagAt (s : State) (pa : Nat) : Bool := NSet.mem s.tags (pa / 16)

/-- The capability of a granule with its tag. -/
def State.readCap (s : State) (pa : Nat) : Cap := Cap.ofNat (s.readLE (pa / 16 * 16) 16) (s.tagAt pa)

/-- The granules touched by `n` bytes from `a`. -/
def granules (a n : Nat) : List Nat := if n = 0 then [] else span (a / 16) ((a + n - 1) / 16 + 1 - a / 16)

/-- Tags of the touched granules cleared (R107). -/
def clearTags (t : NSet) (a n : Nat) : NSet := (granules a n).foldl NSet.del t

/-- Bytes written at a physical address, the touched granules' tags cleared (R107). The ROM is not written. -/
def State.writeBytes (s : State) (pa : Nat) (l : List Byte) : State :=
  if inSlotWindow pa then { s with cru := { s.cru with pay := putBytes 0 s.cru.pay pa l } }
  else if s.backing pa = .rom then s
  else { s with mem := putBytes 0 s.mem pa l, tags := clearTags s.tags pa l.length }

/-- `n` little-endian bytes of a number written at a physical address. -/
def State.writeLE (s : State) (pa n v : Nat) : State := s.writeBytes pa (leBytes v n)

/-- A capability with its tag written at a granule. -/
def State.writeCap (s : State) (pa : Nat) (c : Cap) : State :=
  let s := s.writeLE pa 16 c.toNat
  if c.tag then { s with tags := NSet.add s.tags (pa / 16) } else s

/-! ### Page tables (R359, R360) -/

/-- Where a walk ended (R364): leaf, its address, level, page size code, resident, malformed. -/
structure Walk where
  leaf : Nat
  pte : Nat
  level : Nat
  size : Nat
  resident : Bool
  malformed : Bool
  deriving DecidableEq, Repr

/-- Bytes of a page of a size code (R364). -/
def pageBytes : Nat → Nat
  | 0 => 2 ^ 12 | 1 => 2 ^ 16 | 2 => 2 ^ 21 | _ => 2 ^ 30

/-- A leaf's fields are malformed (R360). -/
def leafBad (e lvl : Nat) : Bool :=
  let sz := if lvl = 2 then 2 ^ 30 else if lvl = 1 then 2 ^ 21 else 2 ^ 12
  bits e 4 3 == 3 || decide (6 ≤ bits e 10 8) || decide (3 ≤ lvl) || decide ((bits e 51 12 * 4096) % sz ≠ 0)

/-- A pointer entry has a reserved bit set (R360). -/
def pointerBad (e : Nat) : Bool := decide (bits e 11 2 ≠ 0) || decide (bits e 63 52 ≠ 0)

/-- What an entry of a table at a level says, when it ends the walk there (R359, R360). -/
def walkEnd (e pte lvl : Nat) : Option Walk :=
  if bitOf e 0 = false then some ⟨e, pte, lvl, 0, false, false⟩
  else if lvl = 0 ∨ bitOf e 1 then
    some (if leafBad e lvl then ⟨e, pte, lvl, 0, false, true⟩
      else ⟨e, pte, lvl, if lvl = 2 then 3 else if lvl = 1 then 2 else if bitOf e 1 then 1 else 0, true, false⟩)
  else if pointerBad e then some ⟨e, pte, lvl, 0, false, true⟩
  else none

/-- Address of the entry of a table that a virtual address selects at a level (R359). -/
def pteAddr (va tab lvl : Nat) : Nat := tab + 8 * ((va / 2 ^ (12 + 9 * lvl)) % 512)

/-- An entry of a page table; one on a masked channel, which serves nothing, is not resident (R408; log entry 53). -/
def State.entry (s : State) (pte : Nat) : Nat := if s.hbm.chDead 0 pte then 0 else s.readLE pte 8

/-- The walk from a table of a level downwards (R359). -/
def State.walkFrom (s : State) (va : Nat) : Nat → Nat → Walk
  | 0, tab =>
    let pte := pteAddr va tab 0
    (walkEnd (s.entry pte) pte 0).getD ⟨0, pte, 0, 0, false, false⟩
  | l + 1, tab =>
    let pte := pteAddr va tab (l + 1)
    let e := s.entry pte
    match walkEnd e pte (l + 1) with
    | some w => w
    | none => s.walkFrom va l (bits e 51 12 * 4096)

/-- The word that names a partition's root in the root table (R359). -/
def State.rootWord (s : State) (part : Nat) : Nat :=
  s.readLE ((s.csrGet 0x300).toNat / 4096 * 4096 + 8 * (part % 256)) 8

/-- The walk of a partition's tables from its root (R359); a leaf over the slot window is never used (R360, R436). -/
def State.walkTables (s : State) (part va : Nat) : Walk :=
  let r := s.rootWord part
  if bitOf r 0 = false ∨ bits r 11 1 ≠ 0 ∨ bits r 63 52 ≠ 0 then ⟨r, 0, 4, 0, false, decide (bitOf r 0 = true)⟩
  else if inSlotWindow va then ⟨0, 0, 0, 0, false, false⟩
  else s.walkFrom va 4 (bits r 51 12 * 4096)

/-- Every entry that ends a walk under a table of a level: virtual address and walk, in order; pages of the slot window are
left out (R359, R360). -/
def State.leaves (s : State) : Nat → Nat → Nat → List (Nat × Walk)
  | 0, tab, va =>
    (List.range 512).filterMap (fun i =>
      if inSlotWindow (va + 4096 * i) then none
      else (walkEnd (s.readLE (tab + 8 * i) 8) (tab + 8 * i) 0).map (va + 4096 * i, ·))
  | l + 1, tab, va =>
    (List.range 512).flatMap (fun i =>
      let e := s.readLE (tab + 8 * i) 8
      let a := va + i * 2 ^ (12 + 9 * (l + 1))
      if inSlotWindow a then []
      else match walkEnd e (tab + 8 * i) (l + 1) with
        | some w => [(a, w)]
        | none => s.leaves l (bits e 51 12 * 4096) a)

/-- Every such entry of a partition. -/
def State.partLeaves (s : State) (part : Nat) : List (Nat × Walk) :=
  let r := s.rootWord part
  if bitOf r 0 = false ∨ bits r 11 1 ≠ 0 ∨ bits r 63 52 ≠ 0 then [] else s.leaves 4 (bits r 51 12 * 4096) 0

/-- A TLB entry of a die that maps the address (R363). -/
def State.tlbFind (s : State) (die part va : Nat) : Option TlbE :=
  s.tr.tlb.find? (fun e => e.die == die && e.part == part && e.va == va / pageBytes e.size * pageBytes e.size)

/-- The leaf by which a TLB entry translates an address: in a 64 KiB group, with the page's offset in the group (R361). -/
def TlbE.leafAt (e : TlbE) (va : Nat) : Nat :=
  let l := e.leaf.toNat
  if e.size = 1 then l - bits l 15 12 * 2 ^ 12 + bits va 15 12 * 2 ^ 12 else l

/-- Translation by the die's TLB, else by walk (R363). -/
def State.translate (s : State) (die part va : Nat) : Walk :=
  match s.tlbFind die part va with
  | some e => ⟨e.leafAt va, 0, 0, e.size, true, false⟩
  | none => s.walkTables part va

/-- The same, and a resident leaf is cached while the die's TLB has room (R363). -/
def State.walk (s : State) (die part va : Nat) : Walk × State :=
  match s.tlbFind die part va with
  | some _ => (s.translate die part va, s)
  | none =>
    let w := s.walkTables part va
    if w.resident ∧ (s.tr.tlb.filter (fun e => e.die == die)).length < 16384 then
      (w, { s with tr := { s.tr with tlb :=
        ⟨die, part, va / pageBytes w.size * pageBytes w.size, w.size, BitVec.ofNat 64 w.leaf⟩ :: s.tr.tlb } })
    else (w, s)

/-- The physical address that a leaf gives a virtual address. -/
def leafPa (leaf size va : Nat) : Nat :=
  let sz := if size = 1 then 4096 else pageBytes size
  bits leaf 51 12 * 4096 + va % sz

/-- EX_ATTR of a leaf (R362). -/
def leafAttr (leaf pa : Nat) : Attr :=
  let kind := bits leaf 10 8
  { writable := bitOf leaf 2, ok := bits leaf 4 3, cls := bits leaf 7 5, sealed := kind == 5,
    lat := kind == 2 || kind == 3, lat4 := kind == 3, zrl := kind == 4,
    tagless := decide (1 ≤ kind) || (decide (0x1000_0000_0000 ≤ pa) && decide (pa ≤ 0x1FFF_FFFF_FFFF)),
    cs := bitOf leaf 11, key := bits leaf 63 52 }

/-- The EX_ATTR word of attributes (R352). -/
def Attr.word (a : Attr) : Nat :=
  let b (v : Bool) (k : Nat) : Nat := if v then 2 ^ k else 0
  1 + b a.writable 1 + a.ok % 4 * 4 + a.cls % 8 * 16 + b a.sealed 7 + b a.lat 8 + b a.lat4 9 + b a.zrl 10
    + b a.tagless 11 + b a.cs 12 + a.key % 4096 * 2 ^ 13

/-- The attributes of an EX_ATTR word (R352). -/
def Attr.ofWord (w : Nat) : Attr :=
  { writable := bitOf w 1, ok := bits w 3 2, cls := bits w 6 4, sealed := bitOf w 7, lat := bitOf w 8,
    lat4 := bitOf w 9, zrl := bitOf w 10, tagless := bitOf w 11, cs := bitOf w 12, key := bits w 24 13 }

/-- The address lies in the CXL.mem window, whose frames hold no tags (R110, R360). -/
def inCxl (pa : Nat) : Bool := decide (0x1000_0000_0000 ≤ pa) && decide (pa ≤ 0x1FFF_FFFF_FFFF)

/-- Attributes of a page of an extent: a page backed by CXL memory is tagless whatever its record says (R110). -/
def Attr.ofExt (w pa : Nat) : Attr := { Attr.ofWord w with tagless := bitOf w 11 || inCxl pa }

/-- Bytes of a codeword of a lattice page (R88). -/
def Attr.codeword (a : Attr) : Nat := if a.lat4 then 4 else 2

/-- Plain attributes of an address that no page names (R432; KEY 0: log entry 7). -/
def Attr.phys (tagless : Bool) : Attr := ⟨true, 1, 0, false, false, false, false, tagless, true, 0⟩

/-! ### Extents (R352) -/

/-- Fields of an extent record. -/
def exVa (r : ExtRec) : Nat := bits r.toNat 63 0
def exPa (r : ExtRec) : Nat := bits r.toNat 127 64
def exLen (r : ExtRec) : Nat := bits r.toNat 191 128
def exAttr (r : ExtRec) : Nat := bits r.toNat 255 192

/-- An extent record of its fields. -/
def extOf (va pa len attr : Nat) : ExtRec :=
  BitVec.ofNat 256 (va % 2 ^ 64 + pa % 2 ^ 64 * 2 ^ 64 + len % 2 ^ 64 * 2 ^ 128 + attr % 2 ^ 64 * 2 ^ 192)

/-- The extent is valid and covers the bytes. -/
def exCovers (r : ExtRec) (va n : Nat) : Bool :=
  bitOf (exAttr r) 0 && decide (exVa r ≤ va) && decide (va + n ≤ exVa r + exLen r)

/-- The first valid extent, in slot order, that contains the bytes (R352). -/
def Gang.extent (g : Gang) (va n : Nat) : Option ExtRec := (g.extents.find? (fun e => exCovers e.2 va n)).map (·.2)

/-- Physical base and bytes of the page or group that a resident leaf maps. -/
def leafRange (leaf size : Nat) : Nat × Nat :=
  let n := pageBytes size
  (bits leaf 51 12 * 4096 / n * n, n)

/-- The leaves through which a write of an agent's piece has come: that of its virtual address; for a steward, which names
physical addresses, every resident leaf of a partition whose page holds the frame. -/
def State.leavesTo (s : State) (part : Nat) (p : Piece) : List Walk :=
  let hit (w : Walk) : Bool :=
    let r := leafRange w.leaf w.size
    w.resident && decide (r.1 ≤ p.pa) && decide (p.pa < r.1 + r.2)
  if part < 256 then [s.walkTables part p.va].filter hit
  else (List.range 256).flatMap (fun i => ((s.partLeaves i).map (·.2)).filter hit)

/-- The attributes under which page tables and extents map a physical address; plain where nothing maps it. -/
def State.physAttrs (s : State) (pa : Nat) : List Attr :=
  let l := (s.leavesTo 256 ⟨pa, pa, 1, Attr.phys false⟩).map (fun w => leafAttr w.leaf pa)
  let x := s.gangs.flatMap (fun g => g.2.extents.filterMap (fun e =>
    if bitOf (exAttr e.2) 0 ∧ exPa e.2 ≤ pa ∧ pa < exPa e.2 + exLen e.2 then some (Attr.ofExt (exAttr e.2) pa) else none))
  if l ++ x = [] then [Attr.phys false] else l ++ x

/-- The class under whose masks an access that names none reaches a physical address: that of the page (R400, R423); under the
default masks every class places a line alike. -/
def State.clsOf (s : State) (pa : Nat) : Nat := if s.hbm.masks = [] then 0 else ((s.physAttrs pa).headD (Attr.phys false)).cls

/-- Attributes of an access by physical address, of a steward, the host, a remote device or the hardware: plain, KEY 0, the class
of the page (log entry 7). -/
def State.physAttr (s : State) (pa : Nat) : Attr :=
  { Attr.phys (decide (s.backing pa ≠ .hbm)) with cls := s.clsOf pa }

/-- The bytes of a global access cut at 4 KiB boundaries (R141). -/
def cutPages (va n : Nat) : Nat → List (Nat × Nat)
  | 0 => []
  | k + 1 =>
    if n = 0 then []
    else
      let m := min n (4096 - va % 4096)
      (va, m) :: cutPages (va + m) (n - m) k

/-- GW_FINFO of an extent miss or translation fault (R324, code 5). -/
def accInfo (n : Nat) (write : Bool) : Nat := n % 2 ^ 32 + (if write then 2 ^ 32 else 0)

/-- The pour number launch × 2^24 + index. -/
def PourRef.id (p : PourRef) : Nat := p.launch * 2 ^ 24 + p.index

/-- Partition of an agent: that of its gang's pour; stewards belong to none. -/
def State.partOf (s : State) (a : Agent) : Nat :=
  if a.stew then 256 else match (s.gang a.unit).pour with
    | some p => p.part
    | none => 256

/-- Pour number of an agent. -/
def State.pourOf (s : State) (a : Agent) : Option Nat :=
  if a.stew then none else (s.gang a.unit).pour.map PourRef.id

/-- The holder of blocks, pins and leases that an agent stands for: its pour, or for a steward its number above every pour
number. -/
def State.holderOf (s : State) (a : Agent) : Nat := (s.pourOf a).getD (2 ^ 60 + a.unit)

/-- The index entry of a slot-window address. -/
def slotEntry (va : Nat) : Nat := (va - slotBase) / 2 ^ 22

/-- An index entry. -/
def State.node (s : State) (e : Nat) : Node := NMap.get Node.free s.cru.nodes e

/-- A slot-window access within one entry (R436): allowed pieces, or node fault ABSENT, or the sealed-write fault; a steward,
which belongs to no partition, reads what is sealed (log entry 66). -/
def State.slotPiece (s : State) (a : Agent) (va n : Nat) (write : Bool) : Except Flt Piece :=
  let e := slotEntry va
  let nd := s.node e
  let mine := nd.st = 1 ∧ nd.owner = some (s.holderOf a)
  if mine ∨ (nd.st = 2 ∧ (a.stew ∨ nd.part = s.partOf a)) then
    if nd.st = 2 ∧ write then .error ⟨7, 0, va, 0, 0⟩
    else .ok ⟨va, va, n, { Attr.phys true with sealed := decide (nd.st = 2) }⟩
  else .error ⟨11, 1, va, e, 0⟩

/-- A frame that is retired, or whose address is not backed (R365, R399). -/
def State.frameGone (s : State) (pa : Nat) : Bool :=
  match s.backing pa with
  | .unbacked => true
  | .rom => true
  | .hbm => s.hbm.isRetired (pa / 4096)
  | _ => false

/-- A page part translated by the gang's extent table (R352, R365). -/
def State.extPiece (s : State) (g va n total : Nat) (write : Bool) : Except Flt Piece :=
  match (s.gang g).extent va n with
  | none => .error ⟨5, 0, va, accInfo total write, 0⟩
  | some r =>
    let pa := exPa r + (va - exVa r)
    let at' := Attr.ofExt (exAttr r) pa
    if s.frameGone pa then
      .error ⟨6, 0, va, accInfo total write, 0⟩
    else if write ∧ at'.writable = false then .error ⟨6, 1, va, accInfo total write, 0⟩
    else .ok ⟨va, pa, n, at'⟩

/-- A part of a steward's access: the address is physical (R432). -/
def State.physPiece (s : State) (va n total : Nat) (write : Bool) : Except Flt Piece :=
  match s.backing va with
  | .unbacked => .error ⟨6, 0, va, accInfo total write, 0⟩
  | _ => .ok ⟨va, va, n, s.physAttr va⟩

/-- One page part of a global access (R352, R432, R436). -/
def State.partPiece (s : State) (a : Agent) (va n total : Nat) (write : Bool) : Except Flt Piece :=
  if inSlotWindow va then s.slotPiece a va n write
  else if a.stew then s.physPiece va n total write
  else s.extPiece a.unit va n total write

/-- The parts of a global access, page by page, or the first fault (R141, R222, R365, R436). -/
def State.piecesOf (s : State) (a : Agent) (va n : Nat) (write : Bool) : Except Flt (List Piece) :=
  (cutPages va n (n / 4096 + 2)).foldr (fun (v, m) acc =>
    match s.partPiece a v m n write, acc with
    | .error f, _ => .error f
    | .ok _, .error f => .error f
    | .ok p, .ok ps => .ok (p :: ps)) (.ok [])

/-! ### Errors of lines (R391, R399, R403, R404, R411, R422) -/

/-- The die that carries a CXL port (R17). -/
def portDie (p : Nat) : Nat := if p ≤ 1 then 0 else 1

/-- Die of the home of a line (R377): of its stack for HBM, of its port for CXL.mem, of its slice for a block in the SRAM tier
(R435); the die of a block in the HBM tier is log entry 67. -/
def State.homeDie (s : State) (c pa : Nat) : Nat :=
  match s.backing pa with
  | .hbm => s.hbm.pch c pa / 256
  | .cxl (some p) => portDie p
  | .slot => let n := s.node (slotEntry pa)
    if n.tier = 0 then n.slice / 24 else 0
  | _ => 0

/-- The coherence entry of line number `l`. -/
def State.line (s : State) (l : Nat) : Line := NMap.get Line.fresh s.coh.lines l

/-- The state of the copy in an agent (R378). -/
def Line.of (v : Line) (a : Nat) : Moesi := NMap.get .i v.st a

/-- The copy is readable. -/
def Moesi.valid : Moesi → Bool
  | .m | .o | .e | .s => true
  | _ => false

/-- Outcome of an access at its line: `corrected` goes on with what a read with errors gives, `poisonNow` finds an error that poisons the
line. -/
inductive LineErr where
  | fine | contained | memory | poisonNow | corrected
  deriving DecidableEq, Repr

/-- A key has been destroyed (R411). -/
def State.keyGone (s : State) (key : Nat) : Bool := key != 0 && ((NMap.find s.net.keys key).map (·.destroyed)).getD false

/-- The key pair that a KEY names now, as a number: 0 is plaintext (R409, R411). -/
def State.keyCode (s : State) (key : Nat) : Nat :=
  if key = 0 then 0 else key + 4096 * ((NMap.find s.net.keys key).map (·.gen)).getD 0

/-- The number under which an access that goes through no L2 asks for a line. -/
def noL2 : Nat := 3

/-- An access through the L2 of die `d` reads the line from memory (R381). -/
def State.fromMem (s : State) (d pa : Nat) : Bool :=
  let v := s.line (pa / 64)
  !(v.of d).valid && (match v.home with
    | .hi => true
    | .hs _ => true
    | _ => false)

/-- The slot of a line under a class: in HBM the one that the masks give it (R400). -/
def State.slot (s : State) (c pa : Nat) : Nat :=
  if s.backing pa = .hbm ∧ s.hbm.masks ≠ [] then slotOf (s.hbm.pch c pa) pa else pa / 64

/-- The tags of the four granules of a line as a number. -/
def lineTags (t : NSet) (l : Nat) : Nat :=
  (List.range 4).foldl (fun n k => if NSet.mem t (4 * l + k) then n + 2 ^ k else n) 0

/-- A line as memory holds it: below a copy in M or O what was there before (R427). -/
def State.stored (s : State) (l : Nat) : Stored :=
  (NMap.find s.coh.below l).getD ⟨l, s.readBytes (l * 64) 64, lineTags s.tags l, NMap.get 0 s.hbm.keyed l⟩

/-- A byte as memory holds it, whatever the caches hold (R427). -/
def State.memByte (s : State) (pa : Nat) : Byte := match NMap.find s.coh.below (pa / 64) with
  | some u => u.data.getD (pa % 64) 0
  | none => s.readByte pa

/-- Tags of a line set as a number says. -/
def putTags (t : NSet) (l n : Nat) : NSet :=
  (List.range 4).foldl (fun t k => if bitOf n k then NSet.add t (4 * l + k) else NSet.del t (4 * l + k)) t

/-- The content of a line replaced, in every copy: its bytes, its tags, its key. -/
def State.putLine (s : State) (l : Nat) (u : Stored) : State :=
  { s with mem := putBytes 0 s.mem (l * 64) u.data, tags := putTags s.tags l u.tags,
           hbm := { s.hbm with keyed := NMap.set 0 s.hbm.keyed l u.key } }

/-- What memory holds of a line replaced. -/
def State.storeMem (s : State) (l : Nat) (u : Stored) : State :=
  if (NMap.find s.coh.below l).isSome then { s with coh := { s.coh with below := NMap.put s.coh.below l u } } else s.putLine l u

/-- The copies in M and O are gone without a write-back: every agent reads what memory holds. -/
def State.revert (s : State) (l : Nat) : State := match NMap.find s.coh.below l with
  | some u => { s.putLine l u with coh := { s.coh with below := NMap.erase s.coh.below l } }
  | none => s

/-- Bits [31:24] of a line's sideband word (R402). -/
def State.sbTop (s : State) (c pa : Nat) : Nat :=
  let b (v : Bool) (k : Nat) : Nat := if v then 2 ^ k else 0
  (s.stored (pa / 64)).tags + b (NSet.mem s.hbm.poison (s.slot c pa)) 4 + b (NSet.mem s.hbm.contained (s.slot c pa)) 5

/-- The sideband word of a line (R402), and its check bytes where its bytes stand in plaintext (R403). -/
def State.sideband (s : State) (c pa : Nat) : Nat :=
  lineCrc (s.stored (pa / 64)).data (s.sbTop c pa) (pa / 64 * 64) + s.sbTop c pa * 2 ^ 24
def State.checkBytes (s : State) (pa : Nat) : List Byte := rsCheck (s.stored (pa / 64)).data

/-- The slot of a line holds another line, or an older content of it: masks have moved it since it was last written whole, or
another line has been written there (R332, R422). -/
def State.moved (s : State) (c pa : Nat) : Bool :=
  s.backing pa == .hbm &&
    (NSet.mem s.hbm.lost (pa / 64) || (NMap.find s.hbm.placed (pa / 64)).getD (pa / 64) != s.slot c pa)

/-- What a read of the stored line meets when its place and key are right (R403). -/
def State.readStored (s : State) (c pa : Nat) : ReadEnd :=
  match NMap.find s.hbm.flips (s.slot c pa) with
  | none => .good
  | some f =>
    let u := s.stored (pa / 64)
    readFlipped u.data (s.sbTop c pa) (pa / 64 * 64) (u.key != 0) s.boot.grade f

/-- What a read of a line of HBM from memory meets under a class: the CRC of a line that stands elsewhere fails, and no correction
helps (R403, R422). -/
def State.memErr (s : State) (c pa : Nat) : LineErr :=
  if s.moved c pa then .poisonNow
  else match s.readStored c pa with
    | .good => .fine
    | .other _ _ _ => .corrected
    | .poisoned => .memory
    | .bad => .poisonNow

/-- The double-bit error in a copy that an L2 holds (R405). -/
def State.l2Err (s : State) (l : Nat) : Bool :=
  NSet.mem s.coh.l2bad l && (((s.line l).of 0).valid || ((s.line l).of 1).valid)

/-- What an access to a line meets: `mem` says that it reads memory, `whole` that one store or copy writes all 64 bytes. A key
that has been destroyed gives a memory error (R411), so does a masked channel (R408; log entry 53); under another key pair than
its own the CRC of a line fails (R403, R409, R411), whether or not an L2 holds it (log entries 51 and 88). -/
def State.lineErrAt (s : State) (a : Attr) (pa : Nat) (write whole mem : Bool) : LineErr :=
  let gone := s.keyGone a.key
  let full := write && whole
  let sl := s.slot a.cls pa
  match s.backing pa with
  | .slot =>
    if s.coh.dead.toNat.testBit (s.homeDie a.cls pa) ∨ (s.boot.minimal ∧ s.homeDie a.cls pa = 1) then .contained
    else if NSet.mem s.coh.l2bad (pa / 64) ∧ full = false then .memory else .fine
  | .rom => .fine
  | .unbacked => .contained
  | .checkWords => .fine
  | .host => if s.coh.dead.toNat.testBit 6 then .contained
    else if gone ∨ (full = false ∧ NSet.mem s.hbm.poison sl) then .memory else .fine
  | .cxl none => .contained
  | .cxl (some p) =>
    if s.coh.dead.toNat.testBit (2 + p) ∨ s.coh.dead.toNat.testBit (portDie p) ∨ s.boot.portsShut then .contained
    else if NSet.mem s.hbm.contained sl ∧ full = false then .contained
    else if gone then .memory
    else if full then .fine
    else if NSet.mem s.hbm.poison sl then .memory
    else if s.l2Err (pa / 64) then .poisonNow else .fine
  | .hbm =>
    if s.coh.dead.toNat.testBit (s.homeDie a.cls pa) ∨ (s.boot.minimal ∧ s.homeDie a.cls pa = 1) then .contained
    else if NSet.mem s.hbm.contained sl ∧ full = false then .contained
    else if gone ∨ s.hbm.chDead a.cls pa then .memory
    else if full then .fine
    else if NSet.mem s.hbm.poison sl then .memory
    else if s.l2Err (pa / 64) then .poisonNow
    else if NMap.get 0 s.hbm.keyed (pa / 64) ≠ s.keyCode a.key then .poisonNow
    else if mem then s.memErr a.cls pa else .fine

/-- What an access to the line of `pa` through the L2 of die `d` meets. -/
def State.lineErr (s : State) (a : Attr) (pa : Nat) (write whole : Bool) (d : Nat := noL2) : LineErr :=
  s.lineErrAt a pa write whole (s.fromMem d pa)

/-- The lines touched by `n` bytes from `a`. -/
def linesOf (a n : Nat) : List Nat := if n = 0 then [] else span (a / 64) ((a + n - 1) / 64 + 1 - a / 64)

/-- The line holds no bit error any more: `sl` is its slot. -/
def State.cleanLine (s : State) (l sl : Nat) : State :=
  { s with hbm := { s.hbm with flips := NMap.erase s.hbm.flips sl }, coh := { s.coh with l2bad := NSet.del s.coh.l2bad l } }

/-- A line is poisoned on this access: counted, its frame, when HBM has it, queued and retired, CONTAIN latched in steward 0 of
the frame's die and signalled to the host (R403, R408, R413). -/
def State.poisonLine (s : State) (c pa : Nat) : State :=
  let f := pa / 4096
  let sl := s.slot c pa
  let s := s.cleanLine (pa / 64) sl
  let h := s.hbm
  let h := { h with poison := NSet.add h.poison sl, uncorrected := min (h.uncorrected + 1) 65535 }
  let h := if s.backing pa = .hbm then { h with retired := NSet.add h.retired f, retireQ := h.retireQ ++ [f] } else h
  (({ s with hbm := h }).latch (2 * s.homeDie c pa) 5).signalContain

/-- A line with errors has been read whose CRC holds, at once or once corrected: what was read is its content. A corrected line
is written back and counted (R403). -/
def State.correctLine (s : State) (c pa : Nat) : State :=
  let sl := s.slot c pa
  let u := s.stored (pa / 64)
  match s.readStored c pa with
  | .other fixed d top =>
    let keep := if fixed then [] else (NMap.get [] s.hbm.flips sl).filter (fun e => decide (64 ≤ e.1) && decide (e.1 < 68))
    let s := s.storeMem (pa / 64) { u with data := (u.data.zip d).map (fun e => e.1 ^^^ e.2), tags := top % 16 }
    { s with hbm := { s.hbm with flips := if keep = [] then NMap.erase s.hbm.flips sl else NMap.put s.hbm.flips sl keep,
                                 contained := if bitOf top 5 then NSet.add s.hbm.contained sl else s.hbm.contained,
                                 corrected := if fixed then min (s.hbm.corrected + 1) (2 ^ 32 - 1) else s.hbm.corrected } }
  | _ => s

/-- What a line's read has met is recorded. -/
def State.lineMet (s : State) (c pa : Nat) : LineErr → State
  | .corrected => s.correctLine c pa
  | .poisonNow => s.poisonLine c pa
  | _ => s

/-- The first line error of an access and the state with what it records; an access to the check words must be one
aligned 4-byte word (R404). -/
def State.checkLines (s : State) (ps : List Piece) (write : Bool) (d : Nat := noL2) : State × Option Flt :=
  ps.foldl (fun acc p =>
    (linesOf p.pa p.len).foldl (fun acc l =>
      match acc with
      | (s, some f) => (s, some f)
      | (s, none) =>
        let whole := decide (p.pa ≤ l * 64) && decide (l * 64 + 64 ≤ p.pa + p.len)
        let addr := p.va + (l * 64 - p.pa)
        if s.backing p.pa = .checkWords ∧ (p.pa % 4 ≠ 0 ∨ p.len ≠ 4 ∨ ps.length ≠ 1) then (s, some ⟨20, 0, addr, 0, 0⟩)
        else match s.lineErr p.attr (l * 64) write whole d with
          | .fine => (s, none)
          | .corrected => (s.correctLine p.attr.cls (l * 64), none)
          | .contained => (s, some ⟨19, 1, addr, s.boot.dev, 0⟩)
          | .memory => (s, some ⟨20, 0, addr, 0, 0⟩)
          | .poisonNow => (s.poisonLine p.attr.cls (l * 64), some ⟨20, 0, addr, 0, 0⟩)) acc) (s, none)

/-- A line is about to be written whole in its slot under a class: the slot it stood in keeps what it holds, the line that stood
in the new one is lost (R332, R422). -/
def State.seatLine (s : State) (c l : Nat) : State :=
  if s.backing (l * 64) ≠ .hbm then s
  else
    let h := s.hbm
    let sl := s.slot c (l * 64)
    let now := (NMap.find h.placed l).getD l
    let there := (if (NMap.find h.placed sl).isNone then [sl] else []) ++ (h.placed.filter (fun e => e.2 == sl)).map (·.1)
    { s with hbm := { h with
        old := NMap.erase (if now ≠ sl ∧ NSet.mem h.lost l = false then NMap.put h.old now (s.stored l) else h.old) sl,
        lost := NSet.del ((there.filter (· ≠ l)).foldl NSet.add h.lost) l,
        placed := if sl = l then NMap.erase h.placed l else NMap.put h.placed l sl } }

/-- The lines that a piece covers whole. -/
def Piece.wholes (p : Piece) : List Nat :=
  (linesOf p.pa p.len).filter (fun l => decide (p.pa ≤ l * 64) && decide (l * 64 + 64 ≤ p.pa + p.len))

/-- Record of whole-line writes: poison, containment, errors and key of the line (R391, R403, R409). -/
def State.wholeLines (s : State) (p : Piece) : State :=
  p.wholes.foldl (fun s l =>
    let sl := s.slot p.attr.cls (l * 64)
    let s := s.cleanLine l sl
    let h := s.hbm
    { s with hbm := { h with poison := NSet.del h.poison sl, contained := NSet.del h.contained sl,
                             keyed := NMap.set 0 h.keyed l (s.keyCode p.attr.key) } }) s

/-- The bytes of a piece written, with what the writing of whole lines does (R332, R403, R422). -/
def State.writePiece (s : State) (p : Piece) (l : List Byte) : State :=
  ((p.wholes.foldl (fun s l => s.seatLine p.attr.cls l) s).writeBytes p.pa l).wholeLines p

/-- Bytes written through the pieces of an access, lowest address first. -/
def State.writePieces (s : State) : List Piece → List Byte → State
  | [], _ => s
  | p :: ps, l => (s.writePiece p (l.take p.len)).writePieces ps (l.drop p.len)

/-- Bytes read through the pieces of an access. -/
def State.readPieces (s : State) (ps : List Piece) : List Byte := ps.flatMap (fun p => s.readBytes p.pa p.len)

/-! ### Revocation: marked granules and the load barrier (R113, R370, R373) -/

/-- The granule of a virtual address is marked in the open epoch (R370): a hull covers it, its map page is resident, and
its map bit is 1; the map is reached through the die's TLB (R363). -/
def State.marked (s : State) (die va : Nat) : Bool :=
  let e := s.tr.epoch
  e.phase != 0 && e.hulls.any (fun h => decide (h.1 ≤ va) && decide (va < h.2)) &&
    (let m := e.rmbase + va / 128
     let w := s.translate die e.part m
     w.resident && bitOf (s.readByte (leafPa w.leaf w.size m)).toNat ((va / 16) % 8))

/-- The test of R373 reads the map bit of this capability: the epoch is its partition's, and a hull covers its base. -/
def State.inHull (s : State) (part : Nat) (c : Cap) : Bool :=
  let e := s.tr.epoch
  c.tag && e.phase != 0 && e.part == part && e.hulls.any (fun h => decide (h.1 ≤ c.base) && decide (c.base < h.2))

/-- The load barrier on capability data of a partition: the tag is cleared when the base is marked (R113, R373). -/
def State.barrier (s : State) (die part : Nat) (c : Cap) : Cap :=
  if c.tag ∧ s.tr.epoch.phase ≠ 0 ∧ s.tr.epoch.part = part ∧ s.marked die c.base then { c with tag := false } else c

/-! ### Cap-store bit (R110, R362) -/

/-- Bit 11 of an 8-byte leaf set at its address. -/
def State.setLeafCs (s : State) (pte : Nat) : State := s.writeLE pte 8 (s.readLE pte 8 ||| 2 ^ 11)

/-- The leaf, or the 16 entries of its group, at which a walk ended take CS (R362). -/
def State.walkCs (s : State) (w : Walk) : State :=
  if w.size = 1 then (List.range 16).foldl (fun s i => s.setLeafCs (w.pte / 128 * 128 + 8 * i)) s else s.setLeafCs w.pte

/-- A tagged store has reached the page: CS is set in the leaf (all 16 entries of a 64 KiB group), in every extent and
TLB entry that maps a frame of the page, as one step with the store (R362). -/
def State.setCs (s : State) (part : Nat) (p : Piece) : State :=
  let l := s.leavesTo part p
  let ranges : List (Nat × Nat) := match l with
    | [] => [(p.pa / 4096 * 4096, 4096)]
    | l => l.map (fun (w : Walk) => leafRange w.leaf w.size)
  let s := l.foldl State.walkCs s
  let meets (a n : Nat) : Bool := ranges.any (fun r => decide (a < r.1 + r.2) && decide (r.1 < a + n))
  let cs (r : ExtRec) : ExtRec :=
    if bitOf (exAttr r) 0 ∧ meets (exPa r) (exLen r) then r ||| BitVec.ofNat 256 (2 ^ (192 + 12)) else r
  let gangs := s.gangs.map (fun (g, q) => (g, { q with extents := q.extents.map (fun (i, r) => (i, cs r)) }))
  let tlb := s.tr.tlb.map (fun (e : TlbE) =>
    let r := leafRange e.leaf.toNat e.size
    if meets r.1 r.2 then { e with leaf := e.leaf ||| 2048 } else e)
  { s with gangs := gangs, tr := { s.tr with tlb := tlb } }

end Sys2Proof.Machine
end

