-- ==== Sys2Proof/Machine/Coherence.lean ====
section
/-!
DEFINITION. Coherence of lines among the two die L2s and the host, containment, tundish slices
(spec/19_coherence_and_store_directory.md R377 to R392, spec/17 R357).
The bytes of memory in State are the coherent value; what is kept per line is who holds it, who asks for it, which messages are in
flight, and what memory holds below a copy in M or O. An access of a die performs as one whole transaction of R381 when nothing is
in flight on the line (`touch`); the message events carry the same transaction out message by message.
-/
namespace Sys2Proof.Machine

/-! ### Copies and messages of a line -/

/-- The copy may be written without a message (R378). -/
def Moesi.owned : Moesi → Bool
  | .m | .e => true
  | _ => false

/-- The copy differs from memory (R378). -/
def Moesi.dirty : Moesi → Bool
  | .m | .o => true
  | _ => false

/-- An agent's copy replaced. -/
def Line.put (v : Line) (a : Nat) (m : Moesi) : Line := { v with st := NMap.set .i v.st a m }

/-- The lines that the coherence rules cover: HBM and CXL.mem (R377). -/
def State.coherent (s : State) (pa : Nat) : Bool :=
  match s.backing pa with
  | .hbm => true
  | .cxl (some _) => true
  | _ => false

/-- Nothing is open, queued or in flight on the line. -/
def Line.quiet (v : Line) : Bool := v.txn.isNone && v.queue.isEmpty && v.msgs.isEmpty

/-- A request of an agent. -/
def CMsg.isReq (m : CMsg) : Bool := match m with
  | .req _ _ _ => true
  | _ => false

/-- A grant of the home or of an owner. -/
def CMsg.isGrant (m : CMsg) : Bool := match m with
  | .data _ _ => true
  | .dataFrom _ _ _ => true
  | .cmp _ => true
  | _ => false

/-- Nothing is open or queued on the line, and what is in flight are requests that have not reached the home. -/
def Line.settled (v : Line) : Bool := v.txn.isNone && v.queue.isEmpty && v.msgs.all CMsg.isReq

/-- A grant is on its way: the home takes no further request before it has arrived, so that no probe meets an agent that waits for
data (R380). -/
def Line.granting (v : Line) : Bool := v.msgs.any CMsg.isGrant

/-- A probe does not find the data of an agent's copy: the die filled it under another partition than the prober's (R387).
Stewards and hardware belong to no partition (log entry 88). -/
def Line.cross (v : Line) (a part : Nat) : Bool :=
  let f := NMap.get part v.fill a
  decide (a < 2) && ((v.of a).valid || v.of a == .smA) && f != part && f != 256 && part != 256

/-- No bit error waits in HBM, and no owner's copy was filled under another partition than the access's: accesses of the partition
read and write the bytes as they stand (R387, R403). -/
def State.undisturbed (s : State) (part : Nat) : Bool :=
  s.hbm.flips.isEmpty && s.coh.lines.all (fun e => !e.2.cross 0 part && !e.2.cross 1 part)

/-- The messages of a list that another has not, each as often as it has more of them. -/
def msgsBeyond (l r : List CMsg) : List CMsg := r.foldl List.erase l

/-- The messages in flight after the list of a line has changed (R379). -/
def trackSent (sent : List (Nat × CMsg)) (l : Nat) (old new : List CMsg) : List (Nat × CMsg) :=
  (msgsBeyond old new).foldl (fun t m => t.erase (l, m)) sent ++ (msgsBeyond new old).map (l, ·)

/-- What a new entry of a line does to memory: it is current when no agent holds M or O any more (R381), in the slot that the
masks give the line now (R422). -/
def State.backToMem (s : State) (l : Nat) (v : Line) : State :=
  let home : Bool := match v.home with
    | .hi => true
    | .hs _ => true
    | _ => false
  if v.txn = none ∧ home ∧ (NMap.find s.coh.below l).isSome then
    let s := s.seatLine (s.clsOf (l * 64)) l
    { s with coh := { s.coh with below := NMap.erase s.coh.below l } }
  else s

/-- A line whose copy in an L2 held a double-bit error has left the L2s: written data poison it, a clean copy takes the error with
it (R405). -/
def State.badGone (s : State) (l : Nat) (old v : Line) : State :=
  if NSet.mem s.coh.l2bad l ∧ s.coherent (l * 64) ∧ (v.of 0).valid = false ∧ (v.of 1).valid = false then
    if (old.of 0).dirty ∨ (old.of 1).dirty then s.poisonLine (s.clsOf (l * 64)) (l * 64)
    else { s with coh := { s.coh with l2bad := NSet.del s.coh.l2bad l } }
  else s

/-- A coherence entry replaced; a line without copies is not listed. -/
def State.setLine (s : State) (l : Nat) (v : Line) : State :=
  let idle := v.st = [] ∧ v.home = .hi ∧ v.txn = none ∧ v.queue = [] ∧ v.msgs = []
  let old := s.line l
  let s := { s with coh := { s.coh with
    lines := if idle then NMap.erase s.coh.lines l else NMap.put s.coh.lines l v,
    sent := trackSent s.coh.sent l old.msgs v.msgs } }
  (s.backToMem l v).badGone l old v

/-! ### Slices (R357, R377, R388) -/

/-- Slices of a die in the L2 role, ascending, under a map of roles (R357, R377). -/
def l2Slices (roles : NMap Nat) (die : Nat) : List Nat := (List.range 24).filter (fun i => NMap.get 0 roles (24 * die + i) == 0)

/-- The slice, 24 d + s, of a die that a line chooses under a map of roles (R377). -/
def dieSlice (roles : NMap Nat) (d pa : Nat) : Nat :=
  let l := l2Slices roles d
  24 * d + l.getD (bits pa 21 8 % max 1 l.length) 0

/-- The home slice of a line under a map of roles (R377), or the slice of a block in the SRAM tier (R435). -/
def State.sliceOf (s : State) (roles : NMap Nat) (c pa : Nat) : Nat :=
  if s.backing pa = .slot then (s.node (slotEntry pa)).slice else dieSlice roles (s.homeDie c pa) pa

/-- Slice roles after the reassignment under way (R357): [4:0] slice, [5] die, [6] target, [14:7] partition. -/
def State.rolesNext (s : State) : NMap Nat :=
  match s.cup.sliceReq with
  | none => s.cup.slices
  | some r => NMap.set 0 s.cup.slices (24 * bits r 5 5 + bits r 4 0) (if bitOf r 6 then bits r 14 7 + 1 else 0)

/-- A line waits at its old home while a reassignment that moves its home runs (R377). -/
def State.homeMoves (s : State) (c pa : Nat) : Bool :=
  s.cup.sliceReq.isSome && decide (s.sliceOf s.cup.slices c pa ≠ s.sliceOf s.rolesNext c pa)

/-- Wall cycles within which a slice wakes (R388), and the longest stall of a data-rate switch (R407). -/
def wakeCycles : Nat := 1880

/-- Something reaches a slice: one in retention starts to wake (R388). -/
def State.wake (s : State) (sl : Nat) : State :=
  if NSet.mem s.coh.retention sl ∧ (NMap.find s.coh.waking sl).isNone then
    { s with coh := { s.coh with waking := NMap.put s.coh.waking sl (s.wall + wakeCycles) } }
  else s

/-- An access reaches the slice of a line. -/
def State.reach (s : State) (c pa : Nat) : State := s.wake (s.sliceOf s.cup.slices c pa)

/-- The slice of a die in which its copy of a line stands (log entry 76). -/
def State.agentSlice (s : State) (a l : Nat) : Nat := dieSlice s.cup.slices a (l * 64)

/-- A die's slice for a line is in retention (R388). -/
def State.copyAsleep (s : State) (a l : Nat) : Bool := decide (a < 2) && NSet.mem s.coh.retention (s.agentSlice a l)

/-- The dies whose slices an access of die `a` to a line reaches: its own, and those that hold a copy. -/
def Line.dies (v : Line) (a : Nat) : List Nat := [0, 1].filter (fun b => b == a || (v.of b).valid)

/-- Every slice in which the access finds a copy is awake (R388). -/
def State.copiesAwake (s : State) (a l : Nat) : Bool :=
  s.coh.retention.isEmpty || ((s.line l).dies a).all (fun b => !s.copyAsleep b l)

/-- The slices that an access needs start to wake (R388). -/
def State.reachAll (s : State) (a c l : Nat) : State :=
  ((s.line l).dies a).foldl (fun s b => s.wake (s.agentSlice b l)) (s.reach c (l * 64))

/-- A migration of its page runs (R154, R368). -/
def State.moving (s : State) (pa : Nat) : Bool := s.tr.mig.any (fun m => decide (m.src ≤ pa) && decide (pa < m.src + m.size))

/-- The home takes no access: a migration of the page runs, or a reassignment that moves the home (R154, R377). -/
def State.homeShut (s : State) (c pa : Nat) : Bool := s.moving pa || s.homeMoves c pa

/-- The home can serve the line now: its slice is awake, no data-rate switch stalls its channel, no migration of its
page runs (R154, R388, R407). -/
def State.homeOpen (s : State) (c pa : Nat) : Bool :=
  !NSet.mem s.coh.retention (s.sliceOf s.cup.slices c pa)
    && !(s.backing pa == .hbm && s.hbm.rateBusy.isSome &&
      (match s.hbm.rateSet with
        | none => true
        | some ch => s.hbm.pch c pa / 2 == ch))
    && !s.homeShut c pa

/-- The class under which a message of a line reaches it, its home slice, and whether the home can serve it now. -/
def State.lineCls (s : State) (l : Nat) : Nat := s.clsOf (l * 64)
def State.homeSlice (s : State) (l : Nat) : Nat := s.sliceOf s.cup.slices (s.lineCls l) (l * 64)
def State.lineOpen (s : State) (l : Nat) : Bool := s.homeOpen (s.lineCls l) (l * 64)

/-- The address lies in a block of the SRAM tier whose slice is in retention (R388, R435). -/
def State.blockSleeps (s : State) (pa : Nat) : Bool :=
  s.backing pa == .slot && (s.node (slotEntry pa)).tier == 0 && NSet.mem s.coh.retention (s.node (slotEntry pa)).slice

/-- A physical address that holds no tags (R107, R110, R360, R399). -/
def State.tagless (s : State) (pa : Nat) : Bool := decide (s.backing pa ≠ .hbm)

/-- A capability that the cupola stores at a physical granule: its tag is kept where the frame holds tags, and sets the page's
cap-store bit (R110, R362). -/
def State.storeCap (s : State) (pa : Nat) (c : Cap) : State :=
  if c.tag ∧ s.tagless pa = false then (s.writeCap pa c).setCs 256 ⟨pa, pa, 16, Attr.phys false⟩
  else s.writeCap pa { c with tag := false }

/-! ### Sectors of the directory (R386) -/

/-- The sharers that the home knows of (R381). -/
def HomeSt.sharers : HomeSt → List Nat
  | .hs k => k
  | .ho _ k => k
  | _ => []

/-- The other lines of a line's sector that have copies: with it they make up one directory entry (R386). -/
def State.sectorLines (s : State) (l : Nat) : List Line :=
  (s.coh.lines.filter (fun e => e.1 / 4 == l / 4 && e.1 != l && decide (e.2.home ≠ .hi))).map (·.2)

/-- The agents but `a` that the sharer vector of the entry names for the other lines of the sector (R386; log entry 76). -/
def State.named (s : State) (l a : Nat) : List Nat :=
  [0, 1, 2].filter (fun b => b != a && (s.sectorLines l).any (fun v => v.home.sharers.contains b))

/-- The partition that the entry of a line records for an access: that of the access that allocated it (R386, R387); `sec` is
what the other lines of the sector have. -/
def Line.entryPart (v : Line) (sec : Option Nat) (part : Nat) : Nat := if v.home ≠ .hi then v.part else sec.getD part

/-- The partition that the entry records by the other lines of the sector. -/
def State.sectorPart (s : State) (l : Nat) : Option Nat := (s.sectorLines l).head?.map (·.part)

/-! ### Recalls (R381, R385) -/

/-- The owner that the home lists (R381). -/
def HomeSt.owner : HomeSt → Option Nat
  | .he o => some o
  | .ho o _ => some o
  | _ => none

/-- Every copy of a settled line recalled to its home (R381, R385), and whether data was written back; an agent whose request waits
keeps its transient state, without the copy that an upgrade had (R380). -/
def Line.recalled (v : Line) : Line × Bool :=
  let waits : NMap Moesi := v.st.filterMap (fun e => match e.2 with
    | .isD => some e
    | .imD => some e
    | .smA => some (e.1, .imD)
    | _ => none)
  ({ v with st := waits, home := .hi },
   match v.home with
    | .he o => v.of o == .m || v.of o == .miA
    | .ho _ _ => true
    | _ => false)

/-- One line recalled to its home for an access of a partition (R385): the data of a copy that another partition filled do not
come back (R387). -/
def State.recallLine (s : State) (part l : Nat) : State :=
  let v := s.line l
  let lost := match v.home.owner with
    | some o => v.cross o part
    | none => false
  let r := v.recalled
  let s := (if lost then s.revert l else s).setLine l r.1
  if r.2 ∧ lost = false then s.countLine (s.lineCls l) (l * 64) else s

/-- The home without the host among its holders. -/
def HomeSt.dropHost : HomeSt → HomeSt
  | .hi => .hi
  | .hs k => if k.filter (· ≠ 2) = [] then .hi else .hs (k.filter (· ≠ 2))
  | .he o => if o = 2 then .hi else .he o
  | .ho o k => if o = 2 then (if k = [] then HomeSt.hi else .hs k) else .ho o (k.filter (· ≠ 2))

/-- CO_XDROP counts probes that have been dropped (R387). -/
def State.countDrops (s : State) (k : Nat) : State :=
  if k = 0 then s else s.csrPut 0x404 (BitVec.ofNat 64 (min ((s.csrGet 0x404).toNat + k) (2 ^ 64 - 1)))

/-- The CO_SLEEP bit of an agent reads 1 for a line: its slice wakes, or the host's bit (R388, R389). -/
def State.asleep (s : State) (a l : Nat) : Bool :=
  if a = 2 then bitOf (s.csrGet 0x401).toNat 52 else (NMap.find s.coh.waking (s.agentSlice a l)).isSome

/-- End of the timeout of a probe that is sent now: CO_TMO, clamped, with the waking time when the target sleeps (R388). -/
def State.probeDue (s : State) (l a : Nat) : Nat :=
  s.wall + min (max (s.csrGet 0x400).toNat 1024) (2 ^ 20) + (if s.asleep a l then wakeCycles else 0)

/-- A line with a copy in the host starts a recall at its home: the dies' copies return, the host is snooped (R384, R385); where
the entry's partition is not that of the access, the snoop is dropped and the host holds nothing (R387). -/
def State.openRecall (s : State) (part l : Nat) : State :=
  let v := s.line l
  let fwd := v.home.owner == some 2
  if v.settled = false ∨ v.of 2 = .i then s
  else if v.part ≠ part ∧ part ≠ 256 then
    (s.countDrops 1).setLine l { v.put 2 .i with home := v.home.dropHost }
  else
    let lost := match v.home.owner with
      | some o => v.cross o part
      | none => false
    let s := if lost then s.revert l else if fwd = false ∧ v.recalled.2 then s.countLine (s.lineCls l) (l * 64) else s
    s.setLine l { v with
      st := NMap.put v.recalled.1.st 2 (v.of 2), msgs := v.msgs ++ [.bisnp true false],
      txn := some ⟨.rdx, 2, if fwd then [] else [2], if fwd then some 2 else none, false, false, true, [2], part,
                   [(2, s.probeDue l 2)], none⟩ }

/-- A line is recalled, from the host by snoop. -/
def State.recall (s : State) (part l : Nat) : State :=
  if (s.line l).settled = false then s
  else if (s.line l).of 2 = .i then s.recallLine part l else s.openRecall part l

/-! ### Capacity of the L2s and of the directory (R16, R386; log entry 41) -/

/-- Lines of a tundish slice; sets and ways of its directory cache, an entry for four lines (R386). -/
def sliceLines : Nat := 2 ^ 17
def dirSets : Nat := 2 ^ 10
def dirWays : Nat := 16

/-- The lines of other sectors that share a set of the directory cache of a line's home with it. -/
def State.setMates (s : State) (l : Nat) : List (Nat × Line) :=
  s.coh.lines.filter (fun e => e.1 / 4 != l / 4 && e.1 / 4 % dirSets == l / 4 % dirSets
    && (decide (e.2.home ≠ .hi) || e.2.txn.isSome) && s.homeSlice e.1 == s.homeSlice l)

/-- The sectors of a list of lines. -/
def sectors (l : List (Nat × Line)) : List Nat := (l.map (fun e => e.1 / 4)).eraseDups

/-- A line's sector has no entry, and every entry of its set is in use (R386). -/
def State.dirFull (s : State) (l : Nat) : Bool :=
  decide (dirWays ≤ s.coh.lines.length) && (s.line l).home == .hi && (s.sectorLines l).isEmpty
    && decide (dirWays ≤ (sectors (s.setMates l)).length)

/-- The first sector of a set all of whose lines are at rest and meet a condition: its entry may be used anew. -/
def State.dirVictim (s : State) (l : Nat) (p : Line → Bool) : Option Nat :=
  let m := s.setMates l
  (sectors m).find? (fun q => m.all (fun e => e.1 / 4 != q || (e.2.settled && p e.2)))

/-- A copy stands in the host. -/
def Line.inHost (v : Line) : Bool := decide (v.of 2 ≠ .i)

/-- There is an entry for a line, at once or by the recall of another sector from the dies. -/
def State.entryRoom (s : State) (l : Nat) : Bool := !s.dirFull l || (s.dirVictim l (fun v => !v.inHost)).isSome

/-- Room is made for the entry of a line: the lines of another sector are recalled, from the host by snoop (R385, R386). -/
def State.reclaim (s : State) (l : Nat) : State :=
  if s.dirFull l = false then s
  else match (s.dirVictim l (fun v => !v.inHost)).or (s.dirVictim l (fun _ => true)) with
    | none => s
    | some q => ((s.setMates l).filter (fun e => e.1 / 4 == q)).foldl (fun s e => s.recall 256 e.1) s

/-- A die's L2 gives up its copy of a quiet line, and whether data goes back to memory; a shared copy goes without a message
(R378, R381). -/
def Line.giveUp (v : Line) (a : Nat) : Line × Bool :=
  let st := NMap.erase v.st a
  match v.home with
  | .he o => if o = a then ({ v with st := st, home := .hi }, v.of a == .m) else ({ v with st := st }, false)
  | .ho o l =>
    if o = a then ({ v with st := st, home := if l = [] then .hi else .hs l }, true) else ({ v with st := st }, false)
  | _ => ({ v with st := st }, false)

/-- The lines but one that a die's L2 holds, and how many it has room for under a map of roles (R16, R357). -/
def State.l2Held (s : State) (a l : Nat) : List (Nat × Line) :=
  s.coh.lines.filter (fun e => (e.2.of a).valid && e.1 != l)
def l2Lines (roles : NMap Nat) (a : Nat) : Nat := sliceLines * (l2Slices roles a).length

/-- The die's L2 can take a line: it has it, has room, or can give up quiet lines. -/
def State.l2Room (s : State) (a l : Nat) : Bool :=
  decide (s.coh.lines.length < dirWays) || ((s.line l).of a).valid ||
    (let h := s.l2Held a l
     decide (h.length + 1 - l2Lines s.cup.slices a ≤ (h.filter (fun e => e.2.quiet)).length))

/-- The L2 of a die gives up the first `n` quiet lines but one. -/
def State.evictL2 (s : State) (a l n : Nat) : State :=
  (((s.l2Held a l).filter (fun e => e.2.quiet)).take n).foldl (fun s e =>
    let r := e.2.giveUp a
    let s := s.setLine e.1 r.1
    if r.2 then s.countLine (s.lineCls e.1) (e.1 * 64) else s) s

/-- Room for a line in the L2 of a die. -/
def State.makeL2Room (s : State) (a l : Nat) : State :=
  if s.coh.lines.length < dirWays ∨ ((s.line l).of a).valid then s
  else s.evictL2 a l ((s.l2Held a l).length + 1 - l2Lines s.cup.slices a)

/-! ### Whole transactions of the dies (R380, R381) -/

/-- The host stands in the way of an access of a die: by its copy, or because the entry names it for a write. -/
def Line.hostBlocks (v : Line) (a : Nat) (write : Bool) (named : List Nat) : Bool :=
  let asked : Bool := named.contains 2 && (match v.home with
    | .he _ => false
    | _ => true)
  if write then (decide (v.of 2 ≠ .i) || asked) && !(v.of a).owned
  else match v.of 2 with
    | .m | .e | .o => !(v.of a).valid
    | _ => false

/-- A die may perform its access now: the line is quiet, the host holds nothing in the way, the home is open, the slices of its
copies are awake, there is room; no migration blocks a page outside the coherent ranges, and the slice of its block is awake. -/
def State.lineReady (s : State) (a : Nat) (write : Bool) (c pa : Nat) : Bool :=
  if s.coherent pa = false then !s.moving pa && !s.blockSleeps pa
  else
    let v := s.line (pa / 64)
    v.quiet && !v.hostBlocks a write (s.named (pa / 64) a) && s.homeOpen c pa && s.copiesAwake a (pa / 64)
      && s.entryRoom (pa / 64) && s.l2Room a (pa / 64)

/-- Every line of the pieces may be accessed by the die. -/
def State.ready (s : State) (a : Nat) (write : Bool) (ps : List Piece) : Bool :=
  ps.all (fun p => (linesOf p.pa p.len).all (fun l => s.lineReady a write p.attr.cls (l * 64)))

/-- A read by die `a` from a quiet line: the copy it gets and whether memory is read (R381). Where the entry names other
sharers, the line counts as shared (R386). -/
def Line.readBy (v : Line) (a part : Nat) (named : List Nat) : Line × Bool :=
  if (v.of a).valid then (v, false)
  else match v.home with
    | .hi =>
      if named = [] then ({ v.put a .e with home := .he a, part := part }, true)
      else ({ v.put a .s with home := .hs [a], part := part }, true)
    | .hs l => ({ v.put a .s with home := .hs (a :: l.filter (· ≠ a)) }, true)
    | .he o =>
      if o = a then ((v.put a .e), true)
      else if v.of o = .m then ({ (v.put o .o).put a .s with home := .ho o [a] }, false)
      else ({ (v.put o .s).put a .s with home := .hs [o, a] }, false)
    | .ho o l => ({ v.put a .s with home := .ho o (a :: l.filter (· ≠ a)) }, false)

/-- A write by die `a` to a quiet line (R378, R381). -/
def Line.writeBy (v : Line) (a part : Nat) : Line × Bool :=
  if (v.of a).owned then (v.put a .m, false)
  else
    let fresh : Bool := match v.home with
      | .hi => true
      | .hs _ => decide (v.of a ≠ .s)
      | _ => false
    ({ v with st := [(a, .m)], home := .he a, part := part }, fresh)

/-- A probe for an access that needs the data of the line does not find those of another die's copy in M or O, which another
partition filled: the dies' copies are dropped, and memory has what it had below them (R387; log entry 88). -/
def State.crossDrop (s : State) (l a part : Nat) : State :=
  let v := s.line l
  match v.home.owner with
  | none => s
  | some o =>
    if (v.of a).valid ∨ o = a ∨ v.cross o part = false then s
    else
      let host := if v.home.sharers.contains 2 then HomeSt.hs [2] else HomeSt.hi
      (s.revert l).setLine l { v with st := v.st.filter (fun e => e.1 == 2), home := host }

/-- What memory holds below a line that is about to be written in an L2. -/
def State.keepBelow (s : State) (l : Nat) : State :=
  if (NMap.find s.coh.below l).isSome then s else { s with coh := { s.coh with below := NMap.put s.coh.below l (s.stored l) } }

/-- A read or write of one line by a die that lives, as one transaction; an access of HBM is counted when it reaches memory
(R391, R420). -/
def State.touchLine (s : State) (a part : Nat) (write : Bool) (c pa : Nat) : State :=
  let l := pa / 64
  if s.coherent pa = false ∨ s.coh.dead.toNat.testBit a then s
  else
    let s := (((s.reachAll a c l).reclaim l).makeL2Room a l).crossDrop l a part
    let v := s.line l
    let p := v.entryPart (s.sectorPart l) part
    let r := if write then v.writeBy a p else v.readBy a p (s.named l a)
    let s := s.setLine l (if (v.of a).valid then r.1 else { r.1 with fill := NMap.put r.1.fill a part })
    let s := if write then s.keepBelow l else s
    if r.2 then s.countLine c pa else s

/-- The lines of an access touched by a die. -/
def State.touch (s : State) (a part : Nat) (write : Bool) (ps : List Piece) : State :=
  ps.foldl (fun s p => (linesOf p.pa p.len).foldl (fun s l => s.touchLine a part write p.attr.cls (l * 64)) s) s

/-- A line is at its home: quiet and without copies. -/
def State.atHome (s : State) (l : Nat) : Bool := (s.line l).quiet && decide ((s.line l).home = .hi)

/-- The bytes that a reader, or a writer, among the hardware takes of physical memory, through the L2 of a die (R377, R420). -/
def State.look (s : State) (die pa n : Nat) (write : Bool := false) : State :=
  let p : Piece := ⟨pa, pa, n, s.physAttr pa⟩
  if s.ready die write [p] then s.touch die 256 write [p] else s

/-- A record that the hardware of a die writes in memory, through the die's L2 (R377, R420). -/
def State.hwWrite (s : State) (die pa n v : Nat) : State := (s.look die pa n true).writeLE pa n v

/-- Entries of page tables that a walk reads, from the root table on (R359). -/
def State.walkPath (s : State) (part va : Nat) : List Nat :=
  let root := (s.csrGet 0x300).toNat / 4096 * 4096 + 8 * (part % 256)
  let r := s.rootWord part
  let rec down : Nat → Nat → List Nat
    | 0, tab => [pteAddr va tab 0]
    | l + 1, tab =>
      let pte := pteAddr va tab (l + 1)
      let e := s.readLE pte 8
      pte :: (match walkEnd e pte (l + 1) with
        | some _ => []
        | none => down l (bits e 51 12 * 4096))
  root :: (if bitOf r 0 = false ∨ bits r 11 1 ≠ 0 ∨ bits r 63 52 ≠ 0 ∨ inSlotWindow va then [] else down 4 (bits r 51 12 * 4096))

/-- A walk's reads, through the L2 of the die (R377, R420). -/
def State.walkLook (s : State) (die part va : Nat) : State := (s.walkPath part va).foldl (fun s a => s.look die a 8) s

/-- A translation through the die's TLB; a walk reads memory through the die's L2 (R363, R420). -/
def State.walkAt (s : State) (die part va : Nat) : Walk × State :=
  let r := s.walk die part va
  (r.1, if (s.tlbFind die part va).isSome then r.2 else r.2.walkLook die part va)

/-! ### Message by message (R379 to R383) -/

/-- Probe to an agent: the host gets a back-invalidate snoop instead (R384). -/
def probe (inv : Bool) (m : CMsg) (o : Nat) : CMsg := if o = 2 then .bisnp inv false else m

/-- The home serves a request in a stable state (R381): next entry, and whether memory is accessed; `part` is the partition that
the entry records, `by'` that of the requester. The probe of an owner for a RdX is not sent before the acknowledgements are in. A
write-back from an agent that is no owner any more is only acknowledged. -/
def Line.serve (v : Line) (r : CReq) (a part by' : Nat) (due : Nat → Nat) : Line × Bool :=
  let open' (acks : List Nat) (fwd : Option Nat) (cmp : Bool) (ms : List CMsg) : Line :=
    { v with txn := some ⟨r, a, acks, fwd, false, cmp, false, acks ++ (if r = .rds then [] else fwd.toList), by',
                      ((if acks = [] then fwd.toList else acks).map (fun b => (b, due b))), none⟩, msgs := v.msgs ++ ms }
  let invs (l : List Nat) : List CMsg := l.map (fun o => probe true (.inv o) o)
  match r, v.home with
  | .rds, .hi => ({ v with home := .he a, part := part, msgs := v.msgs ++ [.data a .e] }, true)
  | .rdx, .hi => ({ v with home := .he a, part := part, msgs := v.msgs ++ [.data a .m] }, true)
  | .upg, .hi => ({ v with home := .he a, part := part, msgs := v.msgs ++ [.data a .m] }, true)
  | .rds, .hs l => ({ v with home := .hs (a :: l.filter (· ≠ a)), msgs := v.msgs ++ [.data a .s] }, true)
  | .upg, .hs l =>
    let others := l.filter (· ≠ a)
    let cmp := l.contains a
    if others = [] then
      ({ v with home := .he a, msgs := v.msgs ++ [if cmp then .cmp a else .data a .m] }, !cmp)
    else (open' others none cmp (invs others), false)
  | .rdx, .hs l =>
    let others := l.filter (· ≠ a)
    if others = [] then ({ v with home := .he a, msgs := v.msgs ++ [.data a .m] }, true)
    else (open' others none false (invs others), false)
  | .rds, .he o => (open' [] (some o) false [probe false (.fwds o a) o], false)
  | .rdx, .he o => (open' [] (some o) false [probe true (.fwdx o a) o], false)
  | .upg, .he o => (open' [] (some o) false [probe true (.fwdx o a) o], false)
  | .rds, .ho o _ => (open' [] (some o) false [probe false (.fwds o a) o], false)
  | .upg, .ho o l =>
    if a = o ∨ l.contains a then
      let others := (o :: l).filter (· ≠ a)
      if others = [] then ({ v with home := .he a, msgs := v.msgs ++ [.cmp a] }, false)
      else (open' others none true (invs others), false)
    else
      let others := l.filter (· ≠ a)
      (open' others (some o) false (invs others ++ [probe true (.fwdx o a) o]), false)
  | .rdx, .ho o l =>
    let others := l.filter (· ≠ a)
    (open' others (some o) false (invs others ++ [probe true (.fwdx o a) o]), false)
  | .wbd, .he o => ({ v with home := if o = a then .hi else .he o, msgs := v.msgs ++ [.wbAck a] }, o == a)
  | .wbe, .he o => ({ v with home := if o = a then .hi else .he o, msgs := v.msgs ++ [.wbAck a] }, false)
  | .wbd, .ho o l =>
    ({ v with home := if o ≠ a then .ho o l else if l = [] then .hi else .hs l, msgs := v.msgs ++ [.wbAck a] }, o == a)
  | _, _ => ({ v with msgs := v.msgs ++ [.wbAck a] }, false)

/-- A snoop of the host that has not been sent. -/
def CMsg.toHost (m : CMsg) : Bool := match m with
  | .bisnp _ false => true
  | _ => false

/-- What a home takes its decisions on a line from, beside the line: the other agents that the sharer vector names beside a
requester, the partition that the entry records by the other lines of the sector, when the timeout of a probe that is sent now
ends (R386 to R388). -/
structure HomeView where
  named : Nat → List Nat
  part : Option Nat
  due : Nat → Nat

/-- The state of a home whose entry names further sharers (R386). -/
def HomeSt.widen (x : List Nat) : HomeSt → HomeSt
  | .hi => if x = [] then .hi else .hs x
  | .hs k => .hs (k ++ x.filter (fun b => !k.contains b))
  | .he o => .he o
  | .ho o k => .ho o (k ++ x.filter (fun b => b != o && !k.contains b))

/-- The same without those that are no sharers of this line. -/
def HomeSt.narrow (x : List Nat) : HomeSt → HomeSt
  | .hs k => if k.filter (fun b => !x.contains b) = [] then .hi else .hs (k.filter (fun b => !x.contains b))
  | .ho o k => .ho o (k.filter (fun b => !x.contains b))
  | h => h

/-- A request served at an entry that names further sharers: they are probed as sharers are, and are none afterwards (R381,
R386). -/
def Line.serveAt (v : Line) (r : CReq) (a part by' : Nat) (x : List Nat) (due : Nat → Nat) : Line × Bool :=
  let w := ({ v with home := v.home.widen x, part := part }).serve r a part by' due
  ({ w.1 with home := if w.1.txn.isSome then v.home
                      else w.1.home.narrow (x.filter (fun b => !v.home.sharers.contains b)) }, w.2)

/-- What the home has done to a line: its new entry, the lines of memory accessed, the probes dropped. -/
structure Served where
  line : Line
  reads : Nat
  drops : Nat
  deriving DecidableEq, Repr

/-- A request served at a home without an open transaction (R381). A probe that would go to a host interface of another
partition than the requester's is dropped and taken as a miss ack (R387). -/
def Line.accept (v : Line) (r : CReq) (a part : Nat) (k : HomeView) : Served :=
  let p := v.entryPart k.part part
  let w := v.serveAt r a p part (k.named a) k.due
  if a ≠ 2 ∧ p ≠ part ∧ w.1.msgs.any CMsg.toHost then
    let u : Line := { v.put 2 .i with home := v.home.dropHost }
    let w := u.serveAt r a p part ((k.named a).filter (· ≠ 2)) k.due
    ⟨w.1, if w.2 then 1 else 0, 1⟩
  else ⟨w.1, if w.2 then 1 else 0, 0⟩

/-- Queued requests served one after another until one opens a transaction or is granted, or a MemWr of the host is at its turn
(R382, R384). -/
def Line.serveQueue (v : Line) (k : HomeView) : List (CReq × Nat × Nat) → Served
  | [] => ⟨{ v with queue := [] }, 0, 0⟩
  | (r, a, part) :: q =>
    if v.txn.isSome ∨ v.granting ∨ r = .mwr then ⟨{ v with queue := (r, a, part) :: q }, 0, 0⟩
    else
      let w := v.accept r a part k
      let z := Line.serveQueue w.line k q
      ⟨z.line, z.reads + w.reads, z.drops + w.drops⟩

/-- The transaction at the home ends (R381, R382): the next stable state, the grant, then the queue. `held` is what the
forwarding owner held (none: it had no copy), `wb` that its write-back was outstanding. -/
def Line.finish (v : Line) (t : CTxn) (held : Option Moesi) (wb : Bool) (k : HomeView) : Served :=
  let gone := wb || t.leaving
  let ack : List CMsg := match t.fwd with
    | some o => if gone then [.wbAck o] else []
    | none => []
  let sharers : List Nat := match v.home with
    | .ho _ l => l
    | _ => []
  let w : Line × Nat :=
    if t.recalled then ({ v with home := .hi }, 0)
    else match t.req with
      | .rds =>
        match t.fwd, held with
        | some o, some h =>
          if gone then ({ v with home := .hs (t.a :: sharers) }, 0)
          else match v.home, h with
            | .ho _ l, _ => ({ v with home := .ho o (t.a :: l) }, 0)
            | _, .m => ({ v with home := .ho o [t.a] }, 0)
            | _, _ => ({ v with home := .hs [o, t.a] }, 0)
        | _, _ => ({ v with home := .hs (t.a :: sharers), msgs := v.msgs ++ [.data t.a .s] }, 1)
      | _ =>
        if t.cmp then ({ v with home := .he t.a, msgs := v.msgs ++ [.cmp t.a] }, 0)
        else match t.fwd, held with
          | some _, some _ => ({ v with home := .he t.a }, 0)
          | _, _ => ({ v with home := .he t.a, msgs := v.msgs ++ [.data t.a .m] }, 1)
  let v := { w.1 with txn := none, msgs := w.1.msgs ++ ack }
  let z := v.serveQueue k v.queue
  { z with reads := z.reads + w.2 }

/-- Lines of memory accessed, counted one by one (R420). -/
def State.countN (s : State) (c pa : Nat) : Nat → State
  | 0 => s
  | n + 1 => (s.countLine c pa).countN c pa n

/-- The home of a line as it stands. -/
def State.homeView (s : State) (l : Nat) : HomeView := ⟨s.named l, s.sectorPart l, s.probeDue l⟩

/-- What the home did takes effect: the entry, the counts of CO_XDROP and of the lines of memory (R387, R420). -/
def State.served (s : State) (l : Nat) (r : Served) : State :=
  ((s.countDrops r.drops).setLine l r.line).countN (s.lineCls l) (l * 64) r.reads

/-- The home receives a request (R381, R382): served, absorbed or queued. The write-back of an owner that has answered already
ends the transaction (R383); that of a recalled owner is taken as the recall's data. -/
def State.homeRecv (s : State) (l : Nat) (r : CReq) (a part : Nat) : State :=
  let v := s.line l
  let back := r = .wbd ∨ r = .wbe
  match v.txn with
  | none =>
    if (v.granting ∨ v.queue ≠ []) ∧ ¬ back then s.setLine l { v with queue := v.queue ++ [(r, a, part)] }
    else s.served l (v.accept r a part (s.homeView l))
  | some t =>
    let s := if r = .wbd ∧ (t.fwd = some a ∨ t.recalled) then s.countLine (s.lineCls l) (l * 64) else s
    if back ∧ t.fwd = some a then
      match t.answer with
      | some h => s.served l (v.finish t (some h) true (s.homeView l))
      | none => s.setLine l { v with txn := some { t with leaving := true } }
    else if back ∧ t.recalled then s.setLine l { v with msgs := v.msgs ++ [.wbAck a] }
    else s.setLine l { v with queue := v.queue ++ [(if r = .upg ∧ t.hit.contains a then .rdx else r, a, part)] }

/-- The queue of a line goes on when a grant has arrived (R382). -/
def State.goOnQueue (s : State) (l : Nat) : State :=
  let v := s.line l
  if v.txn.isSome ∨ v.granting ∨ v.queue = [] then s else s.served l (v.serveQueue (s.homeView l) v.queue)

/-! ### Delivery (R379, R388) -/

/-- The channel of a message with its direction, and the parties beside the home: messages with the same three between the same
parties keep their order (R379). -/
def CMsg.lane : CMsg → Nat × Nat × Option Nat
  | .req _ a _ => (0, a, none)
  | .inv a => (1, a, none)
  | .fwds o _ => (1, o, none)
  | .fwdx o _ => (1, o, none)
  | .bisnp _ _ => (1, 2, none)
  | .data a _ => (2, a, none)
  | .cmp a => (2, a, none)
  | .wbAck a => (2, a, none)
  | .invAck a _ _ _ => (3, a, none)
  | .fwdAck o _ _ _ => (3, o, none)
  | .dataFrom o a _ => (4, a, some o)

/-- The die whose L2 a message reaches, none for one to the home or to the host. -/
def CMsg.toDie : CMsg → Option Nat
  | .inv a => some a
  | .fwds o _ => some o
  | .fwdx o _ => some o
  | .data a _ => some a
  | .dataFrom _ a _ => some a
  | .cmp a => some a
  | .wbAck a => some a
  | _ => none

/-- A FwdX that the home has not sent: acknowledgements of its transaction are still to come (R381). -/
def Line.withheld (v : Line) (m : CMsg) : Bool := match m with
  | .fwdx _ _ => v.txn.any (fun t => !t.acks.isEmpty)
  | _ => false

/-- A message of a line has nothing to wait for at its end: a request at the home waits while the home is closed or has no entry
for it, a probe or grant at a slice in retention, a grant for room in the L2 (R154, R377, R386, R388). -/
def State.canArrive (s : State) (l : Nat) (m : CMsg) : Bool :=
  match m with
  | .req _ _ _ => s.lineOpen l && s.entryRoom l
  | .bisnp _ sent => sent
  | _ =>
    !(s.line l).withheld m && (match m.toDie with
      | some a => !s.copyAsleep a l && (!m.isGrant || decide (1 < a) || s.l2Room a l)
      | none => true)

/-- No message that was sent earlier between the same parties on the same channel could arrive in its place (R379). -/
def State.inOrder (s : State) (l : Nat) (m : CMsg) : Bool :=
  (s.coh.sent.takeWhile (fun e => e.1 != l || e.2 != m)).all (fun e =>
    e.2.lane != m.lane || (m.lane.1 != 4 && s.homeSlice e.1 != s.homeSlice l) || !s.canArrive e.1 e.2)

/-- The message arrives now. -/
def State.arrives (s : State) (l : Nat) (m : CMsg) : Bool := s.canArrive l m && s.inOrder l m

/-- What a message that cannot arrive brings about: a slice in retention that it has reached wakes, a sector leaves the directory to
make room (R386, R388). -/
def State.awaits (s : State) (l : Nat) (m : CMsg) : State :=
  match m with
  | .req _ _ _ => if s.lineOpen l then s.reclaim l else s.reach (s.lineCls l) (l * 64)
  | _ => match m.toDie with
    | some a => if a < 2 ∧ (s.line l).withheld m = false then s.wake (s.agentSlice a l) else s
    | none => s

/-- A request of an agent that lives: first it is sent (the agent enters its transient state), then the home receives it. -/
def State.requestEvent (s : State) (r : CReq) (l a part : Nat) (canSend : Moesi → Bool) (transient : Moesi) : State :=
  let v := s.line l
  let inFlight := v.msgs.find? (fun m => match m with
    | .req r' a' _ => r' == r && a' == a
    | _ => false)
  if s.coherent (l * 64) = false ∨ 1 < a ∨ s.coh.dead.toNat.testBit a then s
  else match inFlight with
    | some (.req _ _ p) =>
      if s.arrives l (.req r a p) then
        let s := s.reclaim l
        (s.setLine l { s.line l with msgs := (s.line l).msgs.erase (.req r a p) }).homeRecv l r a p
      else s.awaits l (.req r a p)
    | _ =>
      if canSend (v.of a) then
        s.setLine l { v.put a transient with
          msgs := v.msgs ++ [.req r a part], fill := if r = .rds ∨ r = .rdx then NMap.put v.fill a part else v.fill }
      else s

/-- An access of a die that must wait: slices in retention start to wake, a sector leaves the directory; for a line whose host copy
stands in the way the die's L2 sends its request (R380, R384, R386, R388). -/
def State.askFor (s : State) (a part : Nat) (write : Bool) (ps : List Piece) : State :=
  ps.foldl (fun s p => (linesOf p.pa p.len).foldl (fun s l =>
    let v := s.line l
    if s.coherent (l * 64) = false then (if s.blockSleeps (l * 64) then s.reach p.attr.cls (l * 64) else s)
    else if s.entryRoom l = false then s.reclaim l
    else if v.quiet = false ∨ v.hostBlocks a write (s.named l a) = false then s.reachAll a p.attr.cls l
    else if write = false then s.requestEvent .rds l a part (· == .i) .isD
    else if (v.of a).valid then s.requestEvent .upg l a part (fun m => m == .s || m == .o) .smA
    else s.requestEvent .rdx l a part (· == .i) .imD) s) s

/-- The lines of an operation of the home that must wait are recalled from the host (R385). -/
def State.recallFor (s : State) (part : Nat) (ps : List Piece) : State :=
  ps.foldl (fun s p => (linesOf p.pa p.len).foldl (fun s l =>
    if s.coherent (l * 64) = false then (if s.blockSleeps (l * 64) then s.reach p.attr.cls (l * 64) else s)
    else if s.homeOpen p.attr.cls (l * 64) ∧ s.copiesAwake noL2 l then s.openRecall part l
    else s.reachAll noL2 p.attr.cls l) s) s

/-- An acknowledgement of a probe arrives at the home (R382); after the last the withheld FwdX is sent, and its timeout starts
(R381, R388). -/
def State.ackArrives (s : State) (l a : Nat) : State :=
  let v := s.line l
  match v.txn with
  | none => s
  | some t =>
    let t := { t with acks := t.acks.filter (· ≠ a) }
    match t.acks, t.fwd with
    | [], none => s.served l ({ v with txn := some t }.finish t none false (s.homeView l))
    | [], some o => s.setLine l { v with txn := some { t with due := NMap.put t.due o (s.probeDue l o) } }
    | _, _ => s.setLine l { v with txn := some t }

/-- The forwarding owner's answer arrives at the home (R382); out of a write-back buffer it waits there for the write-back
(R383). -/
def State.fwdArrives (s : State) (l : Nat) (held : Option Moesi) (wb : Bool) : State :=
  let v := s.line l
  match v.txn with
  | none => s
  | some t =>
    if t.acks ≠ [] then s
    else if wb ∧ t.leaving = false then s.setLine l { v with txn := some { t with answer := held } }
    else s.served l (v.finish t held wb (s.homeView l))

/-- A message taken from the line's list. -/
def Line.take (v : Line) (m : CMsg) : Line := { v with msgs := v.msgs.erase m }

/-! ### Containment (R388 to R392) -/

/-- The L2 or host that a CO_DEAD bit names as a caching agent. -/
def agentOfDead : Nat → Option Nat
  | 0 => some 0 | 1 => some 1 | 6 => some 2 | _ => none

/-- The CO_DEAD bit of a caching agent. -/
def deadBit (a : Nat) : Nat := if a = 2 then 6 else a

/-- The home without an agent among its holders. -/
def HomeSt.dropAgent (a : Nat) : HomeSt → HomeSt
  | .hi => .hi
  | .hs k => if k.filter (· ≠ a) = [] then .hi else .hs (k.filter (· ≠ a))
  | .he o => if o = a then .hi else .he o
  | .ho o k => if o = a then (if k = [] then HomeSt.hi else .hs (k.filter (· ≠ a))) else .ho o (k.filter (· ≠ a))

/-- The only current content of the line is with an agent: its M or O copy, the one that it upgrades or writes back, or data on
their way to it from another owner. -/
def Line.lostWith (v : Line) (a : Nat) : Bool :=
  (match v.of a with
    | .m => true
    | .o => true
    | .miA => true
    | .smA => v.home.owner == some a
    | _ => false)
  || v.msgs.any (fun m => match m with
    | .dataFrom _ b .m => b == a
    | _ => false)

/-- A line loses the copies of a dead agent (R391): an M or O copy leaves the line contained; a probe that awaits the
agent counts as a miss ack. -/
def State.dropAgent (s : State) (a l : Nat) : State :=
  let v := s.line l
  let waits := v.txn.any (fun t => t.acks.contains a)
  let fwd := v.txn.any (fun t => t.fwd == some a)
  let answered := match v.txn with
    | some t => if t.fwd = some a then t.answer.map (t, ·) else none
    | none => none
  let keep (m : CMsg) : Bool := match m with
    | .req _ b _ => b ≠ a
    | .inv b => b ≠ a
    | .fwds o _ => o ≠ a
    | .fwdx o _ => o ≠ a
    | .data b _ => b ≠ a
    | .dataFrom _ b _ => b ≠ a
    | .cmp b => b ≠ a
    | .wbAck b => b ≠ a
    | .bisnp _ _ => a ≠ 2
    | _ => true
  let lost := v.lostWith a
  let s := if lost then s.revert l else s
  let s := s.setLine l { v with st := NMap.erase v.st a, home := if v.txn.isSome then v.home else v.home.dropAgent a,
                                msgs := v.msgs.filter keep, queue := v.queue.filter (fun q => q.2.1 ≠ a) }
  let s := if lost then
      { s with hbm := { s.hbm with contained := NSet.add s.hbm.contained (s.slot (s.lineCls l) (l * 64)) } } else s
  let s := if fwd ∧ waits then
      let w := s.line l
      s.setLine l { w with txn := w.txn.map (fun t => { t with fwd := none }) } else s
  let s := if waits then s.ackArrives l a else s
  let s := match answered with
    | some (t, h) => s.served l ((s.line l).finish t (some h) true (s.homeView l))
    | none =>
      if fwd ∧ waits = false then
        match (s.line l).txn with
        | some t =>
          if t.acks = [] then s.fwdArrives l none false
          else s.setLine l { s.line l with txn := some { t with fwd := none } }
        | none => s
      else s
  s.goOnQueue l

/-- An agent dies (R390, R391): its bit is set, CONTAIN is latched in every steward, its copies are dropped. -/
def State.die (s : State) (k : Nat) : State :=
  if 7 ≤ k ∨ s.coh.dead.toNat.testBit k then s
  else
    let s := ({ s with coh := { s.coh with dead := s.coh.dead ||| BitVec.ofNat 7 (2 ^ k) } }).containAll
    match agentOfDead k with
    | some a => (NMap.keys s.coh.lines).foldl (fun s l => s.dropAgent a l) s
    | none => s

/-- A caching agent is dead. -/
def State.agentDead (s : State) (a : Nat) : Bool := s.coh.dead.toNat.testBit (deadBit a)

/-! ### Events of the caching agents and the home -/

def execRds (l a part : Nat) (s : State) : Res := .next (s.requestEvent .rds l a part (· == .i) .isD)
def execRdx (l a part : Nat) (s : State) : Res := .next (s.requestEvent .rdx l a part (· == .i) .imD)
def execUpg (l a part : Nat) (s : State) : Res := .next (s.requestEvent .upg l a part (fun m => m == .s || m == .o) .smA)
def execWbd (l a : Nat) (s : State) : Res :=
  .next (s.requestEvent .wbd l a 256 (fun m => m == .m || m == .o) .miA)
def execWbe (l a : Nat) (s : State) : Res := .next (s.requestEvent .wbe l a 256 (· == .e) .eiA)

/-- What an agent does on Inv (R380): next state and acknowledgement. `owner` says that the home lists it as owner, whose upgrade
then waits with the copy of an owner; `bare` that the transaction ends with Cmp, so that no data are returned (R381). -/
def invAnswer (m : Moesi) (a : Nat) (owner bare : Bool) : Moesi × CMsg :=
  match m with
  | .s => (.i, .invAck a false false false)
  | .e => (.i, .invAck a false false false)
  | .m => (.i, .invAck a false (!bare) false)
  | .o => (.i, .invAck a false (!bare) false)
  | .smA => (.imD, .invAck a false (owner && !bare) false)
  | .miA => (.miA, .invAck a false true true)
  | .eiA => (.eiA, .invAck a false false true)
  | x => (x, .invAck a true false false)

/-- The partition of the transaction that a probe of the line belongs to. -/
def Line.probePart (v : Line) : Nat := match v.txn with
  | some t => t.part
  | none => 256

/-- A probe finds a copy that another partition has filled: the die answers a miss, its copy is dropped, and the line has again
what memory holds (R387; log entry 88). -/
def State.crossMiss (s : State) (l a : Nat) (m ack : CMsg) : State :=
  let v := s.line l
  let lost := (v.of a).dirty || (v.of a == .smA && v.home.owner == some a)
  (if lost then s.revert l else s).setLine l
    { (v.take m).put a (if v.of a = .smA then .imD else .i) with msgs := (v.take m).msgs ++ [ack] }

def execInv (l a : Nat) (s : State) : Res :=
  let v := s.line l
  if v.msgs.contains (.inv a) = false then .next s
  else if s.arrives l (.inv a) = false then .next (s.awaits l (.inv a))
  else if v.cross a v.probePart then .next (s.crossMiss l a (.inv a) (.invAck a true false false))
  else
    let w := invAnswer (v.of a) a (v.home.owner == some a) (v.txn.any (·.cmp))
    .next (s.setLine l { (v.take (.inv a)).put a w.1 with msgs := (v.take (.inv a)).msgs ++ [w.2] })

/-- What an owner does on FwdS and FwdX (R380): next state, whether it sends the data, its acknowledgement. An owner in O whose
upgrade waits answers as in O (log entry 76). -/
def fwdAnswer (x : Bool) (m : Moesi) (o : Nat) (owner : Bool) : Moesi × Bool × CMsg :=
  match m with
  | .e => (if x then .i else .s, true, .fwdAck o false false .e)
  | .m => (if x then .i else .o, true, .fwdAck o false false .m)
  | .o => (if x then .i else .o, true, .fwdAck o false false .o)
  | .miA => (.miA, true, .fwdAck o false true .m)
  | .eiA => (.eiA, true, .fwdAck o false true .e)
  | .smA => if owner then (if x then .imD else .smA, true, .fwdAck o false false .o) else (.smA, false, .fwdAck o true false .i)
  | y => (y, false, .fwdAck o true false .i)

/-- A forward probe carried out at the owner. -/
def State.forward (s : State) (x : Bool) (l o a : Nat) : State :=
  let v := s.line l
  let m : CMsg := if x then .fwdx o a else .fwds o a
  if v.msgs.contains m = false then s
  else if s.arrives l m = false then s.awaits l m
  else if v.cross o v.probePart then s.crossMiss l o m (.fwdAck o true false .i)
  else
    let w := fwdAnswer x (v.of o) o (v.home.owner == some o)
    let v := (v.take m).put o w.1
    s.setLine l { v with msgs := v.msgs ++ (if w.2.1 then [.dataFrom o a (if x then .m else .s)] else []) ++ [w.2.2] }

def execFwds (l o a : Nat) (s : State) : Res := .next (s.forward false l o a)
def execFwdx (l o a : Nat) (s : State) : Res := .next (s.forward true l o a)

/-- The answer to a MemRd of the host with the bytes of the line, which the home has read from memory (`mem`) or an owner has sent;
a poisoned or contained line answers poison (R384, R391, R403). -/
def State.hostReply (s : State) (l grant : Nat) (mem : Bool) : State :=
  let r := s.lineErrAt (s.physAttr (l * 64)) (l * 64) false false mem
  let bad := decide (r ≠ .fine) && decide (r ≠ .corrected)
  let s := s.lineMet (s.lineCls l) (l * 64) r
  { s with net := { s.net with out := s.net.out ++
    [.memResp l grant (if bad then [] else s.readBytes (l * 64) 64) bad] } }

/-- A grant arrives at an agent: its copy, and the queue of the line goes on (R380, R382); at the host the data are the answer to
its MemRd, at a die the line that the home has read from memory goes through its check (R403). A dead agent receives nothing. -/
def State.granted (s : State) (l a : Nat) (m : CMsg) (g : Moesi) (mem : Bool) : State :=
  let v := s.line l
  if s.agentDead a then s.dropAgent a l
  else if s.arrives l m = false then s.awaits l m
  else
    let s := if a < 2 then s.makeL2Room a l else s
    let s := s.setLine l ((v.take m).put a g)
    let s := if a = 2 then (if m = .cmp a then s else s.hostReply l (if g = .m then 1 else 0) mem)
      else if mem ∧ s.backing (l * 64) = .hbm then s.lineMet (s.lineCls l) (l * 64) (s.memErr (s.lineCls l) (l * 64)) else s
    s.goOnQueue l

/-- Data arrive at the requester with the copy they grant (R380). -/
def execCoherenceData (l a : Nat) (s : State) : Res :=
  match (s.line l).msgs.find? (fun m => match m with
    | .data b _ => b == a
    | .dataFrom _ b _ => b == a
    | _ => false) with
  | some (.data b g) => .next (s.granted l a (.data b g) g true)
  | some (.dataFrom o b g) => .next (s.granted l a (.dataFrom o b g) g false)
  | _ => .next s

def execCmp (l a : Nat) (s : State) : Res :=
  if (s.line l).msgs.contains (.cmp a) then .next (s.granted l a (.cmp a) .m false) else .next s

def execInvack (l a : Nat) (s : State) : Res :=
  let v := s.line l
  match v.msgs.find? (fun m => match m with
    | .invAck b _ _ _ => b == a
    | _ => false) with
  | some (.invAck b miss dirty wb) =>
    if s.arrives l (.invAck b miss dirty wb) = false then .next s
    else
      let s := s.setLine l (v.take (.invAck b miss dirty wb))
      .next ((if dirty then s.countLine (s.lineCls l) (l * 64) else s).ackArrives l a)
  | _ => .next s

def execFwdack (l o : Nat) (s : State) : Res :=
  let v := s.line l
  match v.msgs.find? (fun m => match m with
    | .fwdAck b _ _ _ => b == o
    | _ => false) with
  | some (.fwdAck b miss wb held) =>
    if s.arrives l (.fwdAck b miss wb held) = false then .next s
    else .next ((s.setLine l (v.take (.fwdAck b miss wb held))).fwdArrives l (if miss then none else some held) wb)
  | _ => .next s

def execWback (l a : Nat) (s : State) : Res :=
  let v := s.line l
  if v.msgs.contains (.wbAck a) = false then .next s
  else if s.arrives l (.wbAck a) = false then .next (s.awaits l (.wbAck a))
  else .next (s.setLine l ((v.take (.wbAck a)).put a .i))

/-! ### Events of the host (R384) -/

/-- A back-invalidate snoop is sent to the host (R384). -/
def State.snoop (s : State) (l : Nat) (inv : Bool) : State :=
  let v := s.line l
  if v.msgs.contains (.bisnp inv false) then
    let v' := { v.take (.bisnp inv false) with msgs := (v.take (.bisnp inv false)).msgs ++ [.bisnp inv true] }
    { s.setLine l v' with net := { s.net with out := s.net.out ++ [.snoop l inv] } }
  else s

def execBisnpdata (l : Nat) (s : State) : Res := .next (s.snoop l false)
def execBisnpinv (l : Nat) (s : State) : Res := .next (s.snoop l true)

/-- The host's answer: the requester is served from memory; on BIRsp S the host keeps a shared copy (R384). -/
def State.snooped (s : State) (l : Nat) (inv : Bool) : State :=
  let v := s.line l
  match v.msgs.find? (fun m => match m with
    | .bisnp _ sent => sent
    | _ => false) with
  | some (.bisnp i sent) =>
    let gone := i || inv
    let s := s.setLine l ((v.take (.bisnp i sent)).put 2 (if gone then .i else .s))
    match v.txn with
    | none => s
    | some t =>
      if t.fwd = some 2 ∧ (t.recalled ∨ t.acks ≠ []) then
        (s.setLine l { s.line l with txn := some { t with fwd := none } }).ackArrives l 2
      else if t.fwd = some 2 then
        let keep := (if gone then [] else [2]) ++ (match (s.line l).home with
          | .ho _ k => k.filter (fun b => b ≠ 2 ∧ t.hit.contains b = false)
          | _ => [])
        let w := { s.line l with home := if keep = [] then .hi else .hs keep, txn := none }
        let z := w.serveAt t.req t.a w.part t.part ((s.named l t.a).filter (· ≠ 2)) (s.probeDue l)
        let q := z.1.serveQueue (s.homeView l) z.1.queue
        s.served l { q with reads := q.reads + if z.2 then 1 else 0 }
      else s.ackArrives l 2
  | _ => s

/-- The handshake orders the host's MemRd behind the snooping transaction, where it is queued (R384). -/
def execBiconflict (l : Nat) (s : State) : Res :=
  if (s.line l).msgs.any (fun m => match m with
    | .bisnp _ sent => sent
    | _ => false) then
    .next { s with net := { s.net with out := s.net.out ++ [.conflictAck l] } }
  else .next s

/-! ### Events of slices and of containment -/

/-- A slice enters retention (R388). -/
def execSliceRetention (i : Nat) (s : State) : Res :=
  if 48 ≤ i ∨ NSet.mem s.coh.retention i then .next s
  else .next { s with coh := { s.coh with retention := NSet.add s.coh.retention i } }

/-- A slice in retention is awake, at the latest 1,880 wall cycles after what woke it (R388). -/
def execSliceWake (i : Nat) (s : State) : Res :=
  if (NMap.find s.coh.waking i).isSome then
    .next { s with coh := { s.coh with retention := NSet.del s.coh.retention i, waking := NMap.erase s.coh.waking i } }
  else .next s

/-- The first agent whose answer to a probe has not arrived in time (R388). -/
def State.late (s : State) (t : CTxn) : Option Nat :=
  (t.acks ++ t.fwd.toList).find? (fun a => (NMap.find t.due a).any (fun d => decide (d ≤ s.wall)))

/-- A probe's answer has not arrived in time: the agent it awaits is dead (R388, R390). -/
def execProbeTimeout (l : Nat) (s : State) : Res :=
  match (s.line l).txn.bind s.late with
  | none => .next s
  | some a => .next (s.die (deadBit a))

def execAgentDeath (k : Nat) (s : State) : Res := .next (s.die k)

end Sys2Proof.Machine
end

