-- ==== Sys2Proof/Machine/Link.lean ====
section
/-!
DEFINITION. Messages out of the package, port events and the Fliran transport (spec/20 R412 to R416).
-/
namespace Sys2Proof.Machine

/-- A message leaves the package. -/
def State.emit (s : State) (m : OutMsg) : State := { s with net := { s.net with out := s.net.out ++ [m] } }

/-- The links replaced. -/
def State.setNet (s : State) (f : Net → Net) : State := { s with net := f s.net }

/-- Places of a queue of `n` records between the acknowledged index and the write index; one place stays free, since
the acknowledgement carries no phase (log entry 13). -/
def queueRoom (n w ack : Nat) : Nat := n - 1 - (w + n - ack % n) % n

/-- An event record of R416 is written when its queue has room; LINK is latched in steward 0 of the port's die. -/
def State.portEvent (s : State) (code port peer : Nat) : State :=
  let q := (s.csrGet 0x524).toNat
  let n := 2 ^ (bits q 3 0 + 4)
  let w := s.net.evw
  let rec0 := (if s.net.evphase then 1 else 0) + code * 2 ^ 8 + port % 16 * 2 ^ 16 + peer % 2 ^ 18 * 2 ^ 20
  let s := if queueRoom n w (s.csrGet 0x526).toNat = 0 then s
    else
      let s := (s.hwWrite 0 (q / 64 * 64 + 16 * w) 8 rec0).hwWrite 0 (q / 64 * 64 + 16 * w + 8) 8 0
      s.setNet (fun t => { t with evw := if w + 1 = n then 0 else w + 1,
                                  evphase := if w + 1 = n then !t.evphase else t.evphase })
  s.latch (2 * (if code = 5 then portDie port else port / 8)) 6

/-- The endpoint context towards a peer (R415). -/
def State.ctx (s : State) (d : Nat) : Ctx := NMap.get Ctx.zero s.net.ctx d

/-- A context replaced. -/
def State.setCtx (s : State) (d : Nat) (c : Ctx) : State := s.setNet (fun t => { t with ctx := NMap.put t.ctx d c })

/-- The sequence number after another. -/
def psnNext (n : Nat) : Nat := (n + 1) % 2 ^ 24

/-- `a` lies at or after `b` in the sequence space. -/
def psnGe (a b : Nat) : Bool := decide ((a + 2 ^ 24 - b) % 2 ^ 24 < 2 ^ 23)

/-- A set of contexts with one more, at most 4,096. -/
def cacheAdd (c : NSet) (d : Nat) : NSet :=
  if NSet.mem c d then c else NSet.add (if c.length < 4096 then c else c.drop 1) d

/-- A context leaves the cache: its 64 bytes are written to its place in the table at FL_EPTAB (R415). How they are laid out the
spec does not say: the bytes are free values (log entry 84). -/
def State.spillCtx (s : State) (d : Nat) : State :=
  let l := (List.range 8).flatMap (fun i => leBytes (Config.freeWord (s.fresh + i)).toNat 8)
  ({ s with fresh := s.fresh + 8 }).writeBytes ((s.csrGet 0x520).toNat / 2 ^ 16 * 2 ^ 16 + 64 * d) l

/-- The context joins the cache of 4,096; a full cache gives up its lowest-numbered entry (R415). -/
def State.cacheCtx (s : State) (d : Nat) : State :=
  let s := match s.net.cached with
    | e :: _ => if NSet.mem s.net.cached d = false ∧ 4096 ≤ s.net.cached.length then s.spillCtx e.1 else s
    | [] => s
  s.setNet (fun t => { t with cached := cacheAdd t.cached d })

/-- The bytes of a packet: the 40-byte header, then the payload (R414). -/
def Packet.wire (p : Packet) : List Byte :=
  leBytes p.ty 1 ++ leBytes p.code 1 ++ leBytes (p.dst % 2 ^ 18) 3 ++ leBytes (p.src % 2 ^ 18) 3 ++ leBytes (p.psn % 2 ^ 24) 4
    ++ leBytes (p.apsn % 2 ^ 24) 4 ++ leBytes p.exp 8 ++ leBytes p.off 8 ++ leBytes p.len 4 ++ leBytes p.tag 4 ++ p.body

/-- The packets that the ports have carried, as the bytes of their frames. -/
def State.frames (s : State) : List (List Byte) := s.net.out.filterMap (fun m => match m with
  | .packet p => some p.wire
  | _ => none)

/-- Some Fliran port is up and not paused by flow control: a packet can leave (R414, R425). -/
def State.linksOpen (s : State) : Bool := s.net.fports.any (fun e => e.2 != 0 && !NSet.mem s.net.paused e.1)

/-- A packet leaves the package, in order, or waits for a port (R414). -/
def State.emitPacket (s : State) (p : Packet) : State :=
  if s.linksOpen ∧ s.net.txWait = [] then s.emit (.packet p)
  else if s.net.txWait.contains p then s
  else s.setNet (fun t => { t with txWait := t.txWait ++ [p] })

/-- The packets that wait leave once a port can carry them. -/
def State.drainPorts (s : State) : State :=
  if s.linksOpen then s.setNet (fun t => { t with out := t.out ++ t.txWait.map .packet, txWait := [] }) else s

/-- Packets of one context that may be unacknowledged (R415). -/
def psnWindow : Nat := 1024

/-- FP_APSN: the last packet of a peer that has been received in order and applied (R152, R414). -/
def State.appliedPsn (s : State) (d : Nat) : Nat :=
  match s.net.waitPkts.find? (fun w => w.pkt.src == d) with
  | some w => (w.pkt.psn + 2 ^ 24 - 1) % 2 ^ 24
  | none => ((s.ctx d).expected + 2 ^ 24 - 1) % 2 ^ 24

/-- A sequenced packet towards a peer: kept until acknowledged, sent while the window has room (R415). -/
def State.sendPacket (s : State) (dst ty exp off len tag : Nat) (body : List Byte) : State :=
  let c := s.ctx dst
  if c.dead then s
  else
    let p : Packet := ⟨ty, 0, dst, s.boot.dev, c.next, s.appliedPsn dst, exp, off, len, tag, body⟩
    let since := if c.unacked = [] then s.wall else c.since
    let s := (s.cacheCtx dst).setCtx dst { c with next := psnNext c.next, unacked := c.unacked ++ [p], since := since }
    if c.unacked.length < psnWindow then s.emitPacket p else s

/-- An acknowledgement or nack, which takes no sequence number. -/
def State.sendCtl (s : State) (dst ty code psn tag : Nat) : State :=
  s.emitPacket ⟨ty, code, dst, s.boot.dev, psn, s.appliedPsn dst, 0, 0, 0, tag, []⟩

/-- Everything unacknowledged within the window is sent again (R415). -/
def State.resend (s : State) (dst : Nat) : State :=
  ((s.ctx dst).unacked.take psnWindow).foldl State.emitPacket s

/-- Packets up to a sequence number are acknowledged; packets that enter the window are sent. -/
def State.acked (s : State) (peer apsn : Nat) : State :=
  let c := s.ctx peer
  let left := c.unacked.filter (fun p => !psnGe apsn p.psn)
  if left.length = c.unacked.length then s
  else
    let n := c.unacked.length - left.length
    let s := s.setCtx peer { c with unacked := left, since := s.wall, resends := 0, rnr := 0 }
    ((left.drop (psnWindow - n)).take n).foldl State.emitPacket s

/-- A context is in the cache of 4,096 (R415). -/
def State.ctxCached (s : State) (d : Nat) : Bool := NSet.mem s.net.cached d

/-- The peer is dead on the transport (R415); one of which nothing is heard is asked, and its silence ends the request (R397). -/
def State.peerDead (s : State) (d : Nat) : Bool := (s.ctx d).dead

end Sys2Proof.Machine
end

