-- ==== Sys2Proof/Machine/Order.lean ====
section
/-!
DEFINITION. The order in which global accesses perform: what a stream has posted and what it has acquired, releases at
narrow scopes, the order of requesters and of arrival at a home (R138 to R154).
-/
namespace Sys2Proof.Machine

/-! ### Stores that come first (R140, R144, R145, R148) -/

/-- A suspended pour, by launch and index; none stands for the pour that runs, or for a steward. -/
abbrev Park := Option (Nat × Nat)

/-- Posted stores of a stream, oldest first. -/
def State.ownStores (s : State) (a : Agent) (k : Park := none) : List (Nat × PStore) :=
  s.wq.filter (fun e => decide (e.2.ag = a) && e.2.park == k)

/-- The store belongs to the pour that runs on a gang. -/
def PStore.ofGang (p : PStore) (g : Nat) : Bool := !p.ag.stew && p.ag.unit == g && p.park.isNone

/-- A store to UO pages only (R140). -/
def PStore.uo (p : PStore) : Bool := p.pieces.all (fun q => q.attr.ok == 2)

/-- A store that touches an SO page (R140). -/
def soPieces (l : List Piece) : Bool := l.any (fun q => q.attr.ok == 0)

/-- The pieces share a byte of physical memory. -/
def piecesMeet (l m : List Piece) : Bool :=
  l.any (fun p => m.any (fun q => decide (p.pa < q.pa + q.len) && decide (q.pa < p.pa + p.len)))

/-- Posted stores of other streams that come before the stream's access or release numbered `n`: those that it has acquired
by a barrier HOLD of its cell or by the resumption of its pour (R50, R126, R148). The streams of a suspended pour count as
having acquired each other's. -/
def State.mates (s : State) (a : Agent) (n : Nat) (k : Park := none) : List (Nat × PStore) :=
  if a.stew then []
  else if k.isSome then s.wq.filter (fun e => e.2.park == k && decide (e.2.ag ≠ a) && decide (e.1 < n))
  else
    let l := (s.gang a.unit).acqs.filter (fun q => q.cell.all (· == a.cell) && decide (q.start ≤ n))
    if l = [] then []
    else s.wq.filter (fun e => e.2.ofGang a.unit && decide (e.2.ag ≠ a)
      && l.any (fun q => decide (e.1 < q.mark) && q.cell.all (· == e.2.ag.cell)))

/-- Some store of the stream numbered below `mark` has not performed; UO stores count only when `all`. -/
def State.owes (s : State) (a : Agent) (mark : Nat) (all : Bool) (k : Park := none) : Bool :=
  (s.ownStores a k).any (fun e => decide (e.1 < mark) && (all || !e.2.uo))

/-- The stores that a release of the stream numbered `n` covers and that have not performed: its own and those that it has
acquired, but none to UO pages (R140, R145, R148). -/
def State.before (s : State) (a : Agent) (n : Nat) (k : Park := none) : List (Nat × PStore) :=
  ((s.ownStores a k).filter (fun e => decide (e.1 < n)) ++ s.mates a n k).filter (fun e => !e.2.uo)

/-- A release or fence of the stream numbered `n` has stores to wait for: those that it covers, or with `all` those to UO pages
too (R144, R148). -/
def State.covers (s : State) (a : Agent) (n : Nat) (all : Bool) : Bool :=
  if all then s.owes a n true || !(s.mates a n).isEmpty else !(s.before a n).isEmpty

/-- An earlier access must perform first (rules 1, 3 and 4 of R145, R148): `n` is the number of the access, `rel` its
watermark. -/
def State.held (s : State) (a : Agent) (n rel : Nat) (ps : List Piece) (k : Park := none) : Bool :=
  (s.ownStores a k ++ s.mates a n k).any (fun e => decide (e.1 < n) && piecesMeet e.2.pieces ps)
    || (soPieces ps && s.owes a n true k)
    || (!(ps.all (fun q => q.attr.ok == 2)) && !(s.before a (min n rel) k).isEmpty)

/-! ### Copies that have not performed (R121, R122, R364) -/

/-- The receivers of a copy: the cells of a multicast's mask, else one. -/
def Copy.receivers (c : Copy) : List Nat :=
  match c.kind with
  | .mcast m => (List.range 4).filter (fun i => m.testBit i)
  | _ => [c.ag.cell]

/-- End of the landed prefix at a receiver: the intervals are followed from 0. -/
def prefixFrom (l : List (Nat × Nat × Nat)) (r : Nat) : Nat → Nat → Nat
  | 0, v => v
  | k + 1, v =>
    match l.find? (fun e => e.1 == r && decide (e.2.1 ≤ v) && decide (v < e.2.2)) with
    | some e => prefixFrom l r k e.2.2
    | none => v

/-- End of the landed prefix of a copy, over all its receivers. -/
def Copy.landed (c : Copy) : Nat := (c.receivers.map (fun r => prefixFrom c.got r (c.got.length + 1) 0)).foldl min c.len

/-- Bytes of the copy that have performed. -/
def Copy.performed (c : Copy) : Nat :=
  match c.kind with
  | .mcast _ => c.landed
  | _ => c.got.foldl (fun n e => n + (e.2.2 - e.2.1)) 0

/-- Every byte has performed. -/
def Copy.complete (c : Copy) : Bool := c.ready && decide (c.len ≤ c.performed)

/-- First address and bytes of a run of strided rows, in one dimension after another. -/
def strideHull (lo n : Int) : List (Nat × Word) → Int × Int
  | [] => (lo, n)
  | (k, w) :: l =>
    let d := ((k - 1 : Nat) : Int) * w.toInt
    strideHull (lo + min 0 d) (n + d.natAbs) l

/-- The ranges of a copy that are translated at its issue: first address and bytes (R291, R294). -/
def Copy.ranges (c : Copy) : List (Nat × Nat) :=
  let src := (c.src.addr.toNat, c.len)
  let dst := (c.dst.addr.toNat, c.len)
  match c.kind with
  | .lin => [src, dst]
  | .kput => [src, dst]
  | .mcast _ => [src]
  | .sqld _ => [(src.1, c.len / 128 * c.stride + 128)]
  | .nd run c1 c2 c3 s1 s2 s3 d1 d2 d3 =>
    let h (a : Nat) (l : List (Nat × Word)) : Nat × Nat := let q := strideHull a run l
      (q.1.toNat, q.2.toNat)
    [h src.1 [(c1, s1), (c2, s2), (c3, s3)], h dst.1 [(c1, d1), (c2, d2), (c3, d3)]]
  | .gath _ _ => [dst]
  | .scat _ _ => [src]
  | .scadd _ _ _ => [src]
  | .rread _ => [dst]
  | .rwrite _ => [src]
  | .kget _ => [dst]

/-- An unfinished copy has been translated in a range of virtual addresses. -/
def Copy.translated (c : Copy) (lo n : Nat) : Bool :=
  !c.stopped && !c.complete && c.ranges.any (fun r =>
    spaceOf c.ag.scratch r.1 r.2 == .global && decide (r.1 < lo + n) && decide (lo < r.1 + r.2))

/-! ### Scopes (R138, R139) -/

/-- Agent `b` lies in the scope's set around `a` (R138); copies count as their ladle. -/
def Agent.within (b a : Agent) (c : Nat) : Bool :=
  match c with
  | 0 => decide (b = a)
  | 1 => b.stew == a.stew && b.unit == a.unit && b.cell == a.cell
  | 2 => b.stew == a.stew && b.unit == a.unit
  | 3 => b.die == a.die
  | _ => true

/-- A release at a scope, numbered `n`: later stores and atomics of the stream come after the stores numbered below `n`, at a
scope narrower than the package for the agents of the scope, at stream scope for nobody (R139, R144, R145). -/
def Stream.release (t : Stream) (c n : Nat) : Stream :=
  if c = 0 then t else if c < 4 then { t with near := NMap.put t.near c n } else { t with relMark := n }

/-- The stream as a store or atomic with an order and a scope sees it: its own release counts (R143, R145). -/
def State.releasing (s : State) (o : BitVec 2) (c : BitVec 3) : Stream :=
  if 2 ≤ o.toNat then s.me.release c.toNat s.nextId else s.me

/-- The aligned granules of 8 bytes that pieces touch. -/
def granules8 (ps : List Piece) : List Nat := ps.flatMap (fun p => span (p.pa / 8) ((p.pa + p.len + 7) / 8 - p.pa / 8))

/-- A store or atomic numbered `n` has performed under releases at narrow scopes: what they cover and has not performed is
recorded at its granules. -/
def State.leaveRels (s : State) (a : Agent) (n : Nat) (near : NMap Nat) (ps : List Piece) (k : Park := none) : State :=
  if near = [] ∨ ps.all (fun q => q.attr.ok == 2) then s
  else
    let new := near.flatMap (fun (e : Nat × Nat) =>
      let ids := (s.before a (min e.2 n) k).map (·.1)
      if ids = [] then [] else (granules8 ps).map (fun g => (⟨g, a, e.1, ids⟩ : Rel)))
    { s with coh := { s.coh with rels := s.coh.rels ++ new } }

/-- The store has not performed. -/
def State.posted (s : State) (i : Nat) : Bool := (NMap.find s.wq i).isSome

/-- A reader in the scope of a release on these bytes waits until what it covers has performed; so does a plain reader, whose
later fence may acquire (R139, R147). -/
def State.relWaits (s : State) (b : Agent) (ps : List Piece) : Bool :=
  let l := s.coh.rels.filter (fun r => decide (r.ag ≠ b) && b.within r.ag r.scope && r.ids.any s.posted)
  l ≠ [] && (granules8 ps).any (fun g => l.any (fun r => r.granule == g))

/-- Releases whose stores have performed are forgotten. -/
def State.dropRels (s : State) : State :=
  { s with coh := { s.coh with rels := s.coh.rels.filter (fun r => r.ids.any s.posted) } }

/-! ### Requesters of one wall cycle (R149) -/

/-- Places of the host and of remote devices after every cell (R149). -/
def hostKey : Nat := 2000
def remoteKey : Nat := 3000

/-- The lines of pieces. -/
def pieceLines (ps : List Piece) : List Nat := ps.flatMap (fun p => linesOf p.pa p.len)

/-- No requester that comes later in R149's order has been served on these lines on this wall cycle; an access that it
excludes reaches its home on the next one. -/
def State.inTurn (s : State) (key : Nat) (ps : List Piece) : Bool :=
  (pieceLines ps).all (fun l => decide (NMap.get 0 s.coh.turn l ≤ key))

/-- A requester has been served on these lines. -/
def State.takeTurn (s : State) (key : Nat) (ps : List Piece) : State :=
  { s with coh := { s.coh with turn := (pieceLines ps).foldl (fun t l => NMap.set 0 t l key) s.coh.turn } }

/-! ### Arrival at a closed home (R154, R377) -/

/-- An arrival takes its place: behind those of earlier wall cycles, and among those of its line and its cycle in the order of
R149. -/
def insertArrival (e : Arrival) : List Arrival → List Arrival
  | [] => [e]
  | x :: q => if x.line = e.line ∧ x.wall = e.wall ∧ e.key < x.key then e :: x :: q else x :: insertArrival e q

/-- An access that has found its home closed has arrived there: it stands in the order of arrival. A copy's accesses arrive
when they perform. -/
def State.arriveAt (s : State) (id key : Nat) (ps : List Piece) : State :=
  ps.foldl (fun s p => (linesOf p.pa p.len).foldl (fun s l =>
    if s.homeShut p.attr.cls (l * 64) ∧ s.coh.waitQ.any (fun e => e.line == l && e.id == id) = false then
      { s with coh := { s.coh with waitQ := insertArrival ⟨l, id, s.wall, key⟩ s.coh.waitQ } }
    else s) s) s

/-- No access that arrived earlier waits on these lines. -/
def State.firstAt (s : State) (id : Nat) (ps : List Piece) : Bool :=
  (pieceLines ps).all (fun l => match s.coh.waitQ.find? (fun e => e.line == l) with
    | some e => e.id == id
    | none => true)

/-- An access has been served. -/
def State.leave (s : State) (id : Nat) : State :=
  { s with coh := { s.coh with waitQ := s.coh.waitQ.filter (fun e => e.id != id) } }

/-- Accesses that have ended otherwise no longer wait. -/
def State.dropWaits (s : State) : State :=
  let live (i : Nat) : Bool := s.posted i || (NMap.find s.ops i).isSome || s.coh.hostQ.any (fun e => e.1 == i)
  { s with coh := { s.coh with waitQ := s.coh.waitQ.filter (fun e => live e.id) } }

/-- An access of a stream may be served on its lines now. -/
def State.mayServe (s : State) (id : Nat) (a : Agent) (ps : List Piece) : Bool := s.firstAt id ps && s.inTurn a.key ps

/-- It has been served. -/
def State.serve (s : State) (id : Nat) (a : Agent) (ps : List Piece) : State := (s.takeTurn a.key ps).leave id

/-- A read of global memory by a stream's engine or by the Crucible may be served now: stores that the stream has acquired have
performed, no access that arrived earlier waits, and no later requester has been served on this wall cycle (R126, R146, R149,
R154). -/
def State.readMay (s : State) (id : Nat) (a : Agent) (ps : List Piece) : Bool :=
  s.mayServe id a ps && !(s.mates a id).any (fun e => piecesMeet e.2.pieces ps)

/-! ### Two loads of one 16-byte granule (R151) -/

/-- A stream's memory of a half granule is marked: a capability store has performed on the granule. -/
def Stream.hitSnap (t : Stream) (g : Nat) : Stream :=
  match t.snap with
  | some p => if p.granule = g then { t with snap := some { p with hit := true } } else t
  | none => t

/-- The streams of a cell. -/
def Cell.hitSnap (c : Cell) (g : Nat) : Cell := { c with streams := c.streams.map (fun e => (e.1, e.2.hitSnap g)) }

/-- A capability store has performed on a granule. -/
def State.hitSnap (s : State) (g : Nat) : State :=
  { s with gangs := s.gangs.map (fun e => (e.1, { e.2 with cells := e.2.cells.map (fun c => (c.1, c.2.hitSnap g)) })),
           stews := s.stews.map (fun e => (e.1, { e.2 with cell := e.2.cell.hitSnap g })) }

/-- What a load of `n` bytes at a physical address leaves behind: when it reads within one half of a 16-byte granule, the other
half as it is now. -/
def State.snapOf (s : State) (pa n : Nat) : Option Snap :=
  if pa / 8 = (pa + n - 1) / 8 then
    some ⟨pa / 16, pa / 8 % 2, s.readBytes (pa / 16 * 16 + (1 - pa / 8 % 2) * 8) 8, false⟩
  else none

/-- The bytes of a load of the other half after a capability store between: as they were at the first load (R151). -/
def Stream.snapBytes (t : Stream) (pa : Nat) (l : List Byte) : List Byte :=
  match t.snap with
  | some p =>
    if p.hit ∧ p.granule = pa / 16 ∧ p.half ≠ pa / 8 % 2 ∧ pa / 8 = (pa + l.length - 1) / 8 then
      (p.other.drop (pa % 8)).take l.length
    else l
  | none => l

/-! ### Accesses of the host (R153, R384) -/

/-- The line of an access of the host, and its bytes. -/
def HostReq.line : HostReq → Nat
  | .rd l _ _ => l
  | .wr l _ _ => l
def State.hostPieces (s : State) : HostReq → List Piece
  | .rd l _ _ => [⟨l * 64, l * 64, 64, s.physAttr (l * 64)⟩]
  | .wr l off d => [⟨l * 64 + off, l * 64 + off, d.length, s.physAttr (l * 64)⟩]

/-- A MemRd of the host: RdS, or RdX when it asks for ownership, served in the order of the home's requests and
answered when the data arrive; a line that cannot be read answers poison at once. -/
def State.hostRead (s : State) (l : Nat) (own : Bool) (part : Nat) : State :=
  let r := s.lineErr (s.physAttr (l * 64)) (l * 64) false false
  if r ≠ .fine ∧ r ≠ .corrected then s.hostReply l (if own then 1 else 0) (s.fromMem noL2 (l * 64))
  else s.homeRecv l (if own then .rdx else .rds) 2 part

/-- The home lists the host as owner of the line. -/
def Line.hostOwns (v : Line) : Bool := v.home.owner == some 2

/-- The bytes of a MemWr are written; the tags of the line are cleared (R109, R384). A line that cannot be written keeps its
bytes. -/
def State.hostBytes (s : State) (l off : Nat) (data : List Byte) : State :=
  let ps := s.hostPieces (.wr l off data)
  let c := s.checkLines ps true
  if c.2.isSome then c.1 else c.1.writePieces ps data

/-- Events whose time the spec leaves open. -/
def Instr.completes : Instr → Bool
  | .globalAccessReturn _ | .globalStorePerform _ | .copyLanding _ _ _ _ | .copyFaultAfterIssue _ | .patternDecode _ _ _
  | .crucibleCompletion _ | .cupolaAnswer _ | .ringReport _ | .homeAtomic _ | .scaddReduction _ _ | .drainAddLanding _ _
  | .drainAddRefusal _ | .migrationComplete _ | .demotionSwitch _ | .rds _ _ _ | .rdx _ _ _ | .upg _ _ _ | .wbd _ _
  | .wbe _ _ | .inv _ _ | .fwds _ _ _ | .fwdx _ _ _ | .coherenceData _ _ | .cmp _ _ | .invack _ _ | .fwdack _ _
  | .wback _ _ | .bisnpdata _ | .bisnpinv _ | .birsp _ _ | .contextFetchComplete _ | .exportRevocationComplete => true
  | _ => false

/-- The script names when messages arrive (log entry 1). -/
def State.scripted (s : State) : Bool := s.inputs.any (fun e => Instr.completes e.2)

/-- A request of a die that can arrive at the home on this wall cycle comes before one of the host (R149, R382). -/
def State.dieFirst (s : State) (l : Nat) : Bool :=
  !s.scripted && (s.line l).msgs.any (fun m => m.isReq && s.arrives l m)

/-- The turn of a MemWr of the host has come at the home: it is the host's copy that it writes back, or nothing is open on the line
and nothing that arrived earlier waits (R382). -/
def Line.hostTurn (v : Line) (n : Nat) : Bool :=
  v.hostOwns || (v.txn.isNone && v.msgs.all CMsg.isReq && (v.queue.isEmpty || v.queue.head? == some (.mwr, 2, n)))

/-- A MemWr of the host, whole line or less: served as WBD of the host's copy, or, when the host owns none, performed
at the home after every copy is recalled (R153, R384). A MemWr that meets a snoop of its line is absorbed as the snoop's data. -/
def State.hostWrite (s : State) (n l off : Nat) (data : List Byte) : State :=
  let v := s.line l
  let s := s.hostBytes l off data
  if v.hostOwns then
    if v.txn.isSome then s
    else
      let t := s.homeRecv l .wbd 2 256
      t.setLine l { (t.line l).put 2 .i with msgs := (t.line l).msgs.erase (.wbAck 2) }
  else
    let s := (s.recallLine 256 l).countLine (s.lineCls l) (l * 64)
    (s.setLine l { s.line l with queue := (s.line l).queue.erase (.mwr, 2, n) }).goOnQueue l

/-- An access of the host is served at its home, or waits. -/
def State.hostServe (s : State) (n : Nat) (r : HostReq) : Option State :=
  let ps := s.hostPieces r
  let l := r.line
  if s.lineOpen l = false ∨ s.firstAt n ps = false ∨ s.inTurn hostKey ps = false ∨ s.dieFirst l then none
  else
    let t := (s.takeTurn hostKey ps).leave n
    match r with
    | .rd _ own part => if s.entryRoom l then some ((t.reclaim l).hostRead l own part) else none
    | .wr _ off d => if (s.line l).hostTurn n ∧ s.copiesAwake noL2 l then some (t.hostWrite n l off d) else none

/-- What an access of the host that must wait brings about: at a closed home it has arrived; a slice in retention wakes, a sector
leaves the directory; a MemWr takes its place among the requests that wait at an open home (R154, R382, R386, R388). -/
def State.hostWaits (s : State) (n : Nat) (r : HostReq) : State :=
  let l := r.line
  let s := (s.reachAll noL2 (s.lineCls l) l).arriveAt n hostKey (s.hostPieces r)
  if s.lineOpen l = false then s
  else match r with
    | .rd _ _ _ => s.reclaim l
    | .wr _ _ _ =>
      let v := s.line l
      if v.quiet ∨ v.hostOwns ∨ v.queue.contains (.mwr, 2, n) ∨ s.dieFirst l then s
      else s.setLine l { v with queue := v.queue ++ [(.mwr, 2, n)] }

/-- The first waiting access of the host is served when it can be. -/
def State.hostDrain (s : State) : State :=
  match s.coh.hostQ with
  | [] => s
  | (n, r) :: q =>
    match ({ s with coh := { s.coh with hostQ := q } }).hostServe n r with
    | some t => t
    | none => s.hostWaits n r

/-- An access of the host arrives behind those of the port that wait (R153). -/
def State.hostArrive (s : State) (r : HostReq) : State :=
  let s := { s with coh := { s.coh with hostQ := s.coh.hostQ ++ [(s.nextId, r)] }, nextId := s.nextId + 1 }
  s.hostDrain

def execMemrd (l : Nat) (own : Bool) (part : Nat) (s : State) : Res :=
  .next (if s.coherent (l * 64) = false then s else s.hostArrive (.rd l own part))

def execMemwr (l off : Nat) (data : List Byte) (s : State) : Res :=
  .next (if s.coherent (l * 64) = false ∨ 64 < off + data.length then s else s.hostArrive (.wr l off data))

/-- The MemWrs of a line that wait at the port when its snoop is answered are the snoop's data (R384, R398). -/
def State.absorb (s : State) (l : Nat) : State :=
  s.coh.hostQ.foldl (fun s e => match e.2 with
    | .rd _ _ _ => s
    | .wr k off d =>
      if k ≠ l then s
      else
        let s := (s.hostBytes l off d).leave e.1
        let s := { s with coh := { s.coh with hostQ := s.coh.hostQ.filter (fun q => q.1 != e.1) } }
        s.setLine l { s.line l with queue := (s.line l).queue.erase (.mwr, 2, e.1) }) s

/-- BIRsp of the host to a snoop that has been sent (R384). -/
def execBirsp (l : Nat) (inv : Bool) (s : State) : Res :=
  .next (if (s.line l).msgs.any (fun m => m == .bisnp true true || m == .bisnp false true) then (s.absorb l).snooped l inv else s)

end Sys2Proof.Machine
end

