-- ==== Sys2Proof/Machine/Scalar.lean ====
section
/-!
DEFINITION. The integer, move, branch and alignment instructions of the common scalar map
(R194 to R198, R212 to R218, R226).
-/
namespace Sys2Proof.Machine

abbrev G4 := BitVec 4
abbrev XR := BitVec 5

/-! ### Shared shapes -/

/-- x[d] := f x[a] x[b] on the group's cycle (R212, R213). -/
def State.aluRR (s : State) (o : Alu) (d a b : XR) : Res :=
  .next (s.schedX o.lat d (o.eval (s.rx a) (s.rx b))).advance

/-- x[d] := f x[a] v on g + 1 (R214). -/
def State.aluRI (s : State) (o : Alu) (d a : XR) (v : Word) : Res :=
  .next (s.schedX o.lat d (o.eval (s.rx a) v)).advance

/-- A conditional branch: cost 2 when taken, 0 when not (R211, R216). -/
def State.condBranch (s : State) (o : Br) (a b : XR) (off : BitVec 11) : Res :=
  if o.holds (s.rx a) (s.rx b) then .next (s.branch 2 (s.target off)) else .next s.advance

/-! ### Every map (R194 to R198, R37, R39) -/

def execNop (_ : G4) (s : State) : Res := .next s.advance

def execHint (_ : G4) (_ : BitVec 2) (_ : BitVec 21) (s : State) : Res := .next s.advance

/-- IDLE: the successor issues n gang cycles later (R195). -/
def State.idle (s : State) (n : Nat) : State := s.setMe (s.me.issued s.now n (s.me.pc + 4) true)

def execIdleImm (g : G4) (n : BitVec 20) (s : State) : Res :=
  if n = 0 then .next (s.illegal (.idleImm g n) 1) else .next (s.idle n.toNat)

def execIdleReg (_ : G4) (x : XR) (s : State) : Res := .next (s.idle ((s.rx x).toNat % 2 ^ 20))

/-- The stream stops at an alignment point (R37, R39); the window's first wait starts the count of R38. -/
def State.waitAt (s : State) (w : Wait) : State :=
  let s := s.setMe { s.me.issued s.now 0 (s.me.pc + 4) false with wait := w }
  let g := s.gang s.cur.unit
  s.setGang s.cur.unit { g with awaitFrom := some (g.awaitFrom.getD g.gc) }

/-- Every stream of the gang, in R36's order. -/
def gangAgents (g : Nat) : List Agent :=
  (List.range 4).flatMap (fun c => [.seq, .vec, .mat, .ladle].map (fun k => ⟨false, g, c, k⟩))

/-- Every stream of the gang waits at an alignment point. -/
def State.allWait (s : State) (g : Nat) : Bool :=
  (gangAgents g).all (fun a => decide ((s.streamOf a).wait ≠ .none))

/-- A wait that disagrees with one already at the point: another tag, or RDV beside ALIGN (R35). -/
def State.mismatched (s : State) (w : Wait) : Bool :=
  (gangAgents s.cur.unit).any (fun a =>
    decide (a ≠ s.cur) && decide ((s.streamOf a).wait ≠ .none) && decide ((s.streamOf a).wait ≠ w))

/-- The copy lands in a scratchpad. -/
def Copy.toScratch (c : Copy) : Bool := decide (spaceOf scratchSize c.dst.addr.toNat 1 = .scratch)

/-- The register sweep of a gang starts (R114), recording its tag-keeping copies into global memory (R374). -/
def State.startSweep (s : State) (g : Nat) : State :=
  let e := s.tr.epoch
  let l := s.copies.filter (fun k => !k.2.ag.stew && k.2.ag.unit == g && k.2.keep && !k.2.toScratch)
  { s with gangs := NMap.put s.gangs g { s.gang g with sweeping := true, sweepAt := none },
           tr := { s.tr with epoch := { e with settle := e.settle ++ l.map (·.1) } } }

/-- The gang is still to be swept in the open epoch (R114, R372). -/
def State.unswept (s : State) (g : Nat) : Bool :=
  let q := s.gang g
  s.tr.epoch.phase == 1 && (q.pour.map (·.part)) == some s.tr.epoch.part && !q.swept && !q.sweeping

/-- A new window opens on the next gang cycle: every waiting stream issues on its gang cycle 0 with its gap ignored
(R31, R37). -/
def State.openWindow (s : State) (g : Nat) : State :=
  let q := s.gang g
  let s := (gangAgents g).foldl (fun s a =>
    s.setStreamOf a { s.streamOf a with wait := .none, ready := q.gc + 1, first := true, idling := false }) s
  let q := s.gang g
  let s := s.setGang g { q with base := q.gc + 1, awaitFrom := none, awaitBase := 0 }
  if s.unswept g then s.startSweep g else s

def execAlign (g : G4) (t : BitVec 8) (s : State) : Res :=
  .next (s.gangOnly (.align g t) (fun s =>
    if s.mismatched (.align t.toNat) then s.raise (timeFlt .mismatch 0 0)
    else
      let s := s.waitAt (.align t.toNat)
      if s.allWait s.cur.unit then s.openWindow s.cur.unit else s))

def execRdv (g : G4) (s : State) : Res :=
  .next (s.gangOnly (.rdv g) (fun s =>
    if s.mismatched .rdv then s.raise (timeFlt .mismatch 0 0) else s.waitAt .rdv))

def execFfrd (_ : G4) (d : XR) (s : State) : Res := .next (s.schedX 1 d s.me.fflags).advance

def execFfwr (_ : G4) (x : XR) (s : State) : Res := .next (s.sched 1 (.fflags (fflagsOf (s.rx x)))).advance

def execMbget (_ : G4) (d : XR) (n : BitVec 4) (s : State) : Res :=
  .next (s.schedX 1 d (NMap.get 0 s.cell.mail n.toNat)).advance

/-! ### Integer arithmetic (R212 to R215) -/

def execAdd (_ : G4) (d a b : XR) (s : State) : Res := s.aluRR .add d a b
def execSub (_ : G4) (d a b : XR) (s : State) : Res := s.aluRR .sub d a b
def execAnd (_ : G4) (d a b : XR) (s : State) : Res := s.aluRR .and d a b
def execOr (_ : G4) (d a b : XR) (s : State) : Res := s.aluRR .or d a b
def execXor (_ : G4) (d a b : XR) (s : State) : Res := s.aluRR .xor d a b
def execSll (_ : G4) (d a b : XR) (s : State) : Res := s.aluRR .sll d a b
def execSrl (_ : G4) (d a b : XR) (s : State) : Res := s.aluRR .srl d a b
def execSra (_ : G4) (d a b : XR) (s : State) : Res := s.aluRR .sra d a b
def execSlt (_ : G4) (d a b : XR) (s : State) : Res := s.aluRR .slt d a b
def execSltu (_ : G4) (d a b : XR) (s : State) : Res := s.aluRR .sltu d a b
def execMin (_ : G4) (d a b : XR) (s : State) : Res := s.aluRR .min d a b
def execMax (_ : G4) (d a b : XR) (s : State) : Res := s.aluRR .max d a b
def execMinu (_ : G4) (d a b : XR) (s : State) : Res := s.aluRR .minu d a b
def execMaxu (_ : G4) (d a b : XR) (s : State) : Res := s.aluRR .maxu d a b
def execMul (_ : G4) (d a b : XR) (s : State) : Res := s.aluRR .mul d a b
def execMulh (_ : G4) (d a b : XR) (s : State) : Res := s.aluRR .mulh d a b
def execMulhu (_ : G4) (d a b : XR) (s : State) : Res := s.aluRR .mulhu d a b
def execMulhsu (_ : G4) (d a b : XR) (s : State) : Res := s.aluRR .mulhsu d a b
def execAddi (_ : G4) (d a : XR) (i : BitVec 11) (s : State) : Res := s.aluRI .add d a (imm i)
def execAndi (_ : G4) (d a : XR) (i : BitVec 11) (s : State) : Res := s.aluRI .and d a (imm i)
def execOri (_ : G4) (d a : XR) (i : BitVec 11) (s : State) : Res := s.aluRI .or d a (imm i)
def execXori (_ : G4) (d a : XR) (i : BitVec 11) (s : State) : Res := s.aluRI .xor d a (imm i)
def execSlti (_ : G4) (d a : XR) (i : BitVec 11) (s : State) : Res := s.aluRI .slt d a (imm i)
def execSltiu (_ : G4) (d a : XR) (i : BitVec 11) (s : State) : Res := s.aluRI .sltu d a (imm i)
def execSlli (_ : G4) (d a : XR) (h : BitVec 6) (s : State) : Res := s.aluRI .sll d a (h.setWidth 64)
def execSrli (_ : G4) (d a : XR) (h : BitVec 6) (s : State) : Res := s.aluRI .srl d a (h.setWidth 64)
def execSrai (_ : G4) (d a : XR) (h : BitVec 6) (s : State) : Res := s.aluRI .sra d a (h.setWidth 64)

def execLil (_ : G4) (d : XR) (i : BitVec 16) (s : State) : Res := .next (s.schedX 1 d (imm i)).advance

def execLih (_ : G4) (d : XR) (i : BitVec 16) (s : State) : Res :=
  .next (s.schedX 1 d ((s.rx d <<< 16) ||| i.setWidth 64)).advance

/-! ### Control transfers (R216 to R218) -/

def execBeq (_ : G4) (a b : XR) (o : BitVec 11) (s : State) : Res := s.condBranch .eq a b o
def execBne (_ : G4) (a b : XR) (o : BitVec 11) (s : State) : Res := s.condBranch .ne a b o
def execBlt (_ : G4) (a b : XR) (o : BitVec 11) (s : State) : Res := s.condBranch .lt a b o
def execBge (_ : G4) (a b : XR) (o : BitVec 11) (s : State) : Res := s.condBranch .ge a b o
def execBltu (_ : G4) (a b : XR) (o : BitVec 11) (s : State) : Res := s.condBranch .ltu a b o
def execBgeu (_ : G4) (a b : XR) (o : BitVec 11) (s : State) : Res := s.condBranch .geu a b o

def execJal (_ : G4) (d : XR) (o : BitVec 16) (s : State) : Res :=
  .next ((s.schedX 1 d (s.me.pc + 4)).branch 2 (s.target o))

def execJr (_ : G4) (d a : XR) (i : BitVec 11) (s : State) : Res :=
  .next ((s.schedX 1 d (s.me.pc + 4)).branch 2 ((s.rx a + 4 * imm i) &&& ~~~ 3))

def execLoop (_ : G4) (x : XR) (o : BitVec 16) (s : State) : Res :=
  let n := s.rx x
  if 1 < n.toNat then .next ((s.schedX 1 x (n - 1)).branch 0 (s.target o))
  else .next (s.schedX 1 x 0).advance

/-! ### TFENCE (R75, R226) -/

def execTfence (g : G4) (m : BitVec 4) (s : State) : Res :=
  let bad := match s.cur.kind with
    | .ladle => decide (m ≠ 8)
    | _ => decide (m = 0)
  if bad then .next (s.illegal (.tfence g m) 1)
  else
    let t := trapInfo s.cell m.toNat
    if t = 0 then .next s.advance else .next (s.raise ⟨18, 0, 0, t, 0⟩)

end Sys2Proof.Machine
end

