-- ==== Sys2Proof/Machine/LoadStore.lean ====
section
/-!
DEFINITION. Scalar and capability loads and stores, atomics, fences, mailboxes, slot rings, and the events that answer
them (R119, R135 to R154, R219 to R225, R233, R105).
-/
namespace Sys2Proof.Machine

/-! ### The write path (R145) -/

/-- The byte a stream sees: its own youngest posted store to it, else the coherent value (R145, R150). -/
def seenIn (d : Byte) (pa : Nat) : List (Nat × PStore) → Byte
  | [] => d
  | (_, p) :: q =>
    let hit := (p.pieces.foldl (fun (acc : Option Byte × Nat) r =>
      (if r.pa ≤ pa ∧ pa < r.pa + r.len then p.data[acc.2 + (pa - r.pa)]? else acc.1, acc.2 + r.len)) (none, 0)).1
    seenIn (hit.getD d) pa q

/-- The bytes a stream reads through the pieces of an access. -/
def State.seen (s : State) (a : Agent) (ps : List Piece) : List Byte :=
  let own := s.ownStores a
  ps.flatMap (fun p => (span p.pa p.len).map (fun pa => seenIn (s.readByte pa) pa own))

/-- The tag a stream sees at a granule. -/
def seenTag (d : Bool) (pa : Nat) : List (Nat × PStore) → Bool
  | [] => d
  | (_, p) :: q =>
    seenTag (if p.pieces.any (fun r => decide (r.pa < pa + 16) && decide (pa < r.pa + r.len)) then p.cap && p.tag else d)
      pa q

/-- The parts of a scalar store that are single-copy atomic: the whole when it lies in one aligned 8-byte granule, else
its part in each (R151). -/
def cutGranules (p : Piece) (d : List Byte) : Nat → List (Piece × List Byte)
  | 0 => []
  | k + 1 =>
    if p.len = 0 then []
    else
      let m := min p.len (8 - p.pa % 8)
      ({ p with len := m }, d.take m) ::
        cutGranules { p with va := p.va + m, pa := p.pa + m, len := p.len - m } (d.drop m) k

/-- The atomic parts of a store over its pieces. -/
def storeParts : List Piece → List Byte → List (Piece × List Byte)
  | [], _ => []
  | p :: ps, d => cutGranules p (d.take p.len) 4 ++ storeParts ps (d.drop p.len)

/-- A store enters the write path under the next number. -/
def State.post (s : State) (p : PStore) : State := { s with wq := NMap.put s.wq s.nextId p, nextId := s.nextId + 1 }

/-! ### Faults of operations in flight -/

/-- An operation fails: its fault is raised; a gang's operation stays, to be retried or skipped when the gang is thawed
(R36, R327), a steward's ends and its instruction is issued again by the handler's return (R321). -/
def State.failOp (s : State) (id : Nat) (o : Op) (f : Flt) : State :=
  if o.ag.stew then (s.endOp id o).raiseOp o f else (s.setOp id { o with stage := 3, flt := some f }).raiseOp o f

/-! ### Fences and mailboxes (R119, R144, R225) -/

/-- A write into the cycle domain after a REL or AR fence: the first one waits for the stores before the fence, acquired ones
among them (R148); a gang
freezes at the write's issue, a steward's stream stalls before it. -/
def State.fenceHold (s : State) (i : Instr) (k : State → State) : State :=
  match s.me.fencePend with
  | none => k s
  | some m =>
    let s := s.setMe { s.me with fencePend := none }
    if s.covers s.cur m false then
      let id := s.nextId
      let o := { s.newOp .fence i with val := BitVec.ofNat 64 m }
      let s := { s with ops := NMap.put s.ops id o, nextId := id + 1 }.await id
      if s.cur.stew then s else k s
    else k s

/-- FENCE (R144). ACQ holds nothing. FULL holds the gang until every earlier store of the stream, and every store that it has acquired (R148), has performed; REL and AR only
mark the stores and atomics that follow, and the next write into the cycle domain. A store performs for every other agent at
one instant (R150), so a hold at a scope from the cell on is a hold at any of them, and at stream scope there is nobody for
whom a store has still to perform. -/
def execFence (g : G4) (k : BitVec 2) (c : BitVec 3) (s : State) : Res :=
  let s := s.setMe { s.me with snap := none }
  let n := s.nextId
  if k.toNat = 0 ∨ c.toNat = 0 then .next s.advance
  else if k.toNat = 3 then
    let s := s.setMe { s.me.release c.toNat n with fencePend := none }
    if s.covers s.cur n true then
      .next (s.startOp { s.newOp .fence (.fence g k c) with val := BitVec.ofNat 64 n, val2 := 1 })
    else .next s.advance
  else .next (s.setMe { s.me.release c.toNat n with fencePend := some n }).advance

def execMbput (g : G4) (x : XR) (n : BitVec 4) (s : State) : Res :=
  let v := s.rx x
  .next (s.fenceHold (.mbput g x n) (fun s => (s.sched 3 (.mail n.toNat v)).advance))

/-! ### Loads (R220, R105) -/

/-- A load of `n` bytes to x[d]. -/
def State.load (s : State) (i : Instr) (n : Nat) (signed : Bool) (d : XR) (c : BitVec 4) (off : BitVec 4) : Res :=
  let a := s.ea c off n
  .next (match s.placeOf (s.rc c) a n 1 [.ld] with
  | .fault f => s.raise f
  | .scr o => (s.sched 2 (.ld o n signed d.toNat)).advance
  | .glob va => match s.piecesOf s.cur va n false with
    | .error f => s.raise f
    | .ok ps => s.startOp { s.newOp (.load n signed d.toNat) i with addr := va, pieces := ps })

def execLdb (g : G4) (d : XR) (c : BitVec 4) (o : BitVec 2) (e : BitVec 3) (f : BitVec 4) (s : State) : Res :=
  s.load (.ldb g d c o e f) 1 true d c f
def execLdbu (g : G4) (d : XR) (c : BitVec 4) (o : BitVec 2) (e : BitVec 3) (f : BitVec 4) (s : State) : Res :=
  s.load (.ldbu g d c o e f) 1 false d c f
def execLdh (g : G4) (d : XR) (c : BitVec 4) (o : BitVec 2) (e : BitVec 3) (f : BitVec 4) (s : State) : Res :=
  s.load (.ldh g d c o e f) 2 true d c f
def execLdhu (g : G4) (d : XR) (c : BitVec 4) (o : BitVec 2) (e : BitVec 3) (f : BitVec 4) (s : State) : Res :=
  s.load (.ldhu g d c o e f) 2 false d c f
def execLdw (g : G4) (d : XR) (c : BitVec 4) (o : BitVec 2) (e : BitVec 3) (f : BitVec 4) (s : State) : Res :=
  s.load (.ldw g d c o e f) 4 true d c f
def execLdwu (g : G4) (d : XR) (c : BitVec 4) (o : BitVec 2) (e : BitVec 3) (f : BitVec 4) (s : State) : Res :=
  s.load (.ldwu g d c o e f) 4 false d c f
def execLdd (g : G4) (d : XR) (c : BitVec 4) (o : BitVec 2) (e : BitVec 3) (f : BitVec 4) (s : State) : Res :=
  s.load (.ldd g d c o e f) 8 false d c f

/-- A capability load; the vec and mat maps reach the scratchpad only (R100, R105). -/
def execCldc (g : G4) (d b : BitVec 4) (o : BitVec 13) (s : State) : Res :=
  let c := s.rc b
  let a := s.eaCap b o
  .next (match s.placeOf c a 16 16 [.ld] with
  | .fault f => s.raise f
  | .scr off => (s.sched 2 (.ldc off (c.has .lc) d.toNat)).advance
  | .glob va =>
    if s.cur.kind = .vec ∨ s.cur.kind = .mat then s.capFault .bounds va
    else match s.piecesOf s.cur va 16 false with
      | .error f => s.raise f
      | .ok ps => s.startOp { s.newOp (.cldc (c.has .lc) d.toNat) (.cldc g d b o) with addr := va, pieces := ps })

/-! ### Stores (R221, R222, R88, R105) -/

/-- The bytes of a scratchpad write, each wholly masked in. -/
def wholeBytes (off : Nat) (l : List Byte) : List WByte := (List.range l.length).map (fun i => ⟨off + i, 0xFF, l.getD i 0⟩)

/-- The page attributes that a store or atomic meets (R222, R88): `sz` 0 stands for an atomic or a capability store,
which no lattice page takes. -/
def attrFault (ps : List Piece) (va sz : Nat) : Option Flt :=
  if ps.any (fun p => p.attr.sealed) then some ⟨7, 0, va, 0, 0⟩
  else (ps.find? (fun p => p.attr.lat && (decide (sz < p.attr.codeword) || decide (va % p.attr.codeword ≠ 0)))).map
    (fun p => ⟨8, 0, va, p.attr.codeword, 0⟩)

/-- The pieces of a global write, or the fault that refuses it (R222). -/
def State.storePieces (s : State) (va n sz : Nat) : Except Flt (List Piece) :=
  match s.piecesOf s.cur va n true with
  | .error f => .error f
  | .ok ps => match attrFault ps va sz with
    | some f => .error f
    | none => .ok ps

/-- A store of the low `n` bytes of x[r]. -/
def State.store (s : State) (i : Instr) (n : Nat) (r : XR) (c : BitVec 4) (o : BitVec 2) (e : BitVec 3) (off : BitVec 5) : Res :=
  let a := s.ea c off n
  let v := s.rx r
  .next (match s.placeOf (s.rc c) a n 1 [.st] with
  | .fault f => s.raise f
  | .scr off => s.fenceHold i (fun s => (s.sched 2 (.st (wholeBytes off (leBytes v.toNat n)) [] 0)).advance)
  | .glob va => match s.storePieces va n n with
    | .error f => s.raise f
    | .ok ps => s.startOp { s.newOp .store i with addr := va, pieces := ps, val := v, val2 := BitVec.ofNat 64 n,
                                                  relMark := (s.releasing o e).relMark, near := (s.releasing o e).near })

def execStb (g : G4) (x : XR) (c : BitVec 4) (o : BitVec 2) (e : BitVec 3) (f : BitVec 5) (s : State) : Res :=
  s.store (.stb g x c o e f) 1 x c o e f
def execSth (g : G4) (x : XR) (c : BitVec 4) (o : BitVec 2) (e : BitVec 3) (f : BitVec 5) (s : State) : Res :=
  s.store (.sth g x c o e f) 2 x c o e f
def execStw (g : G4) (x : XR) (c : BitVec 4) (o : BitVec 2) (e : BitVec 3) (f : BitVec 5) (s : State) : Res :=
  s.store (.stw g x c o e f) 4 x c o e f
def execStd (g : G4) (x : XR) (c : BitVec 4) (o : BitVec 2) (e : BitVec 3) (f : BitVec 5) (s : State) : Res :=
  s.store (.std g x c o e f) 8 x c o e f

/-- A capability store (R105, R110). -/
def execCstc (g : G4) (r b : BitVec 4) (o : BitVec 13) (s : State) : Res :=
  let c := s.rc b
  let v := s.rc r
  let a := s.eaCap b o
  .next (match s.placeOf c a 16 16 (if v.tag then [.st, .sc] else [.st]) with
  | .fault f => s.raise f
  | .scr off => s.fenceHold (.cstc g r b o) (fun s =>
      (s.sched 2 (.st (wholeBytes off (leBytes v.toNat 16)) (if v.tag then [off / 16] else []) 0)).advance)
  | .glob va =>
    if v.tag ∧ v.has .gl = false ∧ c.has .sl = false then s.capFault .local va
    else match s.storePieces va 16 0 with
      | .error f => s.raise f
      | .ok ps =>
        if v.tag ∧ ps.any (fun p => p.attr.tagless) then s.capFault .tagless va
        else s.startOp { s.newOp .cstc (.cstc g r b o) with addr := va, pieces := ps, caps := [v],
                                                            relMark := s.me.relMark, near := s.me.near })

/-- The pieces of an operation translated anew, or the fault that this meets (R36, R327). -/
def State.opPieces (s : State) (o : Op) : Except Flt (List Piece) :=
  let s := { s with cur := o.ag }
  match o.k with
  | .load n _ _ => s.piecesOf o.ag o.addr n false
  | .cldc _ _ => s.piecesOf o.ag o.addr 16 false
  | .store => s.storePieces o.addr o.val2.toNat o.val2.toNat
  | .cstc => match s.storePieces o.addr 16 0 with
    | .error f => .error f
    | .ok ps => if (o.caps.headD Cap.null).tag ∧ ps.any (fun p => p.attr.tagless) then .error (capFlt .tagless o.addr) else .ok ps
  | .atomic _ n _ => s.storePieces o.addr n 0
  | .acas n _ => s.storePieces o.addr n 0
  | .ring _ _ => s.storePieces o.addr 64 0
  | .ringHold _ => s.piecesOf o.ag o.addr 64 false
  | _ => if o.pieces = [] then .ok [] else s.piecesOf o.ag o.addr (o.pieces.foldl (fun n p => n + p.len) 0) false

/-! ### Atomics (R223, R224) -/

/-- An atomic over 4 or 8 bytes is sent to the home of its granule. -/
def State.atomic (s : State) (i : Instr) (k : Nat → OpK) (c : BitVec 4) (w : BitVec 1) (o : BitVec 2) (e : BitVec 3)
    (v v2 : Word) : Res :=
  let n := 4 * (1 + w.toNat)
  let cap := s.rc c
  let a := cap.addr - BitVec.ofNat 64 (cap.addr.toNat % n)
  .next (match s.placeOf cap a n 1 [.ld, .st, .at] with
  | .fault f => s.raise f
  | .scr _ => s.capFault .bounds a.toNat
  | .glob va => match s.storePieces va n 0 with
    | .error f => s.raise f
    | .ok ps => s.startOp { s.newOp (k n) i with addr := va, pieces := ps, val := v, val2 := v2,
                                                       relMark := (s.releasing o e).relMark, near := (s.releasing o e).near })

def execAadd (g : G4) (d : XR) (c : BitVec 4) (w : BitVec 1) (o : BitVec 2) (e : BitVec 3) (s : State) : Res :=
  s.atomic (.aadd g d c w o e) (fun n => .atomic .add n d.toNat) c w o e (s.rx d) 0
def execAmin (g : G4) (d : XR) (c : BitVec 4) (w : BitVec 1) (o : BitVec 2) (e : BitVec 3) (s : State) : Res :=
  s.atomic (.amin g d c w o e) (fun n => .atomic .min n d.toNat) c w o e (s.rx d) 0
def execAmax (g : G4) (d : XR) (c : BitVec 4) (w : BitVec 1) (o : BitVec 2) (e : BitVec 3) (s : State) : Res :=
  s.atomic (.amax g d c w o e) (fun n => .atomic .max n d.toNat) c w o e (s.rx d) 0
def execAand (g : G4) (d : XR) (c : BitVec 4) (w : BitVec 1) (o : BitVec 2) (e : BitVec 3) (s : State) : Res :=
  s.atomic (.aand g d c w o e) (fun n => .atomic .and n d.toNat) c w o e (s.rx d) 0
def execAor (g : G4) (d : XR) (c : BitVec 4) (w : BitVec 1) (o : BitVec 2) (e : BitVec 3) (s : State) : Res :=
  s.atomic (.aor g d c w o e) (fun n => .atomic .or n d.toNat) c w o e (s.rx d) 0
def execAxor (g : G4) (d : XR) (c : BitVec 4) (w : BitVec 1) (o : BitVec 2) (e : BitVec 3) (s : State) : Res :=
  s.atomic (.axor g d c w o e) (fun n => .atomic .xor n d.toNat) c w o e (s.rx d) 0
def execAswp (g : G4) (d : XR) (c : BitVec 4) (w : BitVec 1) (o : BitVec 2) (e : BitVec 3) (s : State) : Res :=
  s.atomic (.aswp g d c w o e) (fun n => .atomic .swp n d.toNat) c w o e (s.rx d) 0

def execAcas (g : G4) (d : XR) (c : BitVec 4) (x : XR) (w : BitVec 1) (o : BitVec 2) (e : BitVec 3) (s : State) : Res :=
  s.atomic (.acas g d c x w o e) (fun n => .acas n d.toNat) c w o e (s.rx d) (s.rx x)

/-! ### Slot rings (R135 to R137, R229, R233) -/

/-- Ring-state fault (R324, code 16). -/
def ringFlt (rec slot : Nat) : Flt := ⟨16, 0, rec, slot % 2 ^ 64, 0⟩

/-- A ring operation is sent to the home of its record. -/
def State.ringOp (s : State) (i : Instr) (f : RingF) (d : Nat) (c : BitVec 4) (v : Word) : Res :=
  let cap := s.rc c
  let a := cap.addr
  .next (match capCheck cap a.toNat 64 1 [.ld, .st, .at] with
  | some e => s.capFault e a.toNat
  | none =>
    if a.toNat % 64 ≠ 0 ∨ spaceOf s.cur.scratch a.toNat 64 = .scratch then s.raise (ringFlt a.toNat v.toNat)
    else match s.placeOf cap a 64 1 [.ld, .st, .at] with
      | .fault f => s.raise f
      | .scr _ => s.raise (ringFlt a.toNat v.toNat)
      | .glob va => match s.storePieces va 64 0 with
        | .error f => s.raise f
        | .ok ps => s.startOp { s.newOp (.ring f d) i with addr := va, pieces := ps, val := v, relMark := s.me.relMark,
                                                            near := s.me.near })

def execRacq (g : G4) (d : XR) (c : BitVec 4) (s : State) : Res := s.ringOp (.racq g d c) .acq d.toNat c 0
def execRpub (g : G4) (x : XR) (c : BitVec 4) (s : State) : Res := s.ringOp (.rpub g x c) .pub 0 c (s.rx x)
def execRtake (g : G4) (d : XR) (c : BitVec 4) (s : State) : Res := s.ringOp (.rtake g d c) .take d.toNat c 0
def execRfree (g : G4) (x : XR) (c : BitVec 4) (s : State) : Res := s.ringOp (.rfree g x c) .free 0 c (s.rx x)

/-- HOLD on a ring registers with the home (R137, R229). -/
def execHoldRing (g : G4) (c : BitVec 4) (e : BitVec 1) (s : State) : Res :=
  let cap := s.rc c
  let a := cap.addr
  .next (s.gangOnly (.holdRing g c e) (fun s => match capCheck cap a.toNat 64 1 [.ld] with
  | some e => s.capFault e a.toNat
  | none =>
    if a.toNat % 64 ≠ 0 ∨ spaceOf s.cur.scratch a.toNat 64 = .scratch then s.raise (ringFlt a.toNat 0)
    else match s.placeOf cap a 64 1 [.ld] with
      | .fault f => s.raise f
      | .scr _ => s.raise (ringFlt a.toNat 0)
      | .glob va => match s.piecesOf s.cur va 64 false with
        | .error f => s.raise f
        | .ok ps => s.startOp { s.newOp (.ringHold (e == 1)) (.holdRing g c e) with addr := va, pieces := ps }))

/-- A ring record as its home sees it (R135): N, heads, FREE, FULL, slot states, slot size and slots capability. -/
structure Ring64 where
  n : Nat
  size : Nat
  fill : Nat
  take : Nat
  free : Nat
  full : Nat
  states : List Nat
  slots : Cap
  deriving DecidableEq, Repr

/-- A ring record read at its physical address. -/
def State.ringAt (s : State) (pa : Nat) : Ring64 :=
  let n := s.readLE (pa + 0x10) 4
  { n := n, size := s.readLE (pa + 0x14) 4, fill := s.readLE (pa + 0x18) 4, take := s.readLE (pa + 0x1C) 4,
    free := s.readLE (pa + 0x20) 4, full := s.readLE (pa + 0x24) 4,
    states := (s.readBytes (pa + 0x40) (min n 4096)).map BitVec.toNat, slots := s.readCap pa }

/-- Number of consecutive slots in a state from a head, at most `k`. -/
def ringRun (r : Ring64) (st h : Nat) : Nat → Nat
  | 0 => 0
  | k + 1 => if r.states.getD (h % max 1 r.n) 0 = st then 1 + ringRun r st ((h + 1) % max 1 r.n) k else 0

/-- A slot's state replaced. -/
def Ring64.setSlot (r : Ring64) (i st : Nat) : Ring64 := { r with states := r.states.set i st }

/-- The changed fields of a record written back. -/
def State.putRing (s : State) (pa : Nat) (r : Ring64) : State :=
  let s := s.writeLE (pa + 0x18) 4 r.fill
  let s := s.writeLE (pa + 0x1C) 4 r.take
  let s := s.writeLE (pa + 0x20) 4 r.free
  let s := s.writeLE (pa + 0x24) 4 r.full
  s.writeBytes (pa + 0x40) (r.states.map (BitVec.ofNat 8))

/-- The effect and result of a ring operation (R136): `none` is the ring-state fault; the record changes when the third
part is true. -/
def ringStep (f : RingF) (r : Ring64) (v : Word) : Option (Ring64 × Word × Bool) :=
  if r.n < 1 ∨ 4096 < r.n then none
  else match f with
    | .acq =>
      if r.free = 0 then some (r, BitVec.allOnes 64, false)
      else
        let i := r.fill % r.n
        some ({ (r.setSlot i 1) with fill := (i + 1) % r.n, free := r.free - 1 }, BitVec.ofNat 64 i, true)
    | .take =>
      if r.full = 0 then some (r, BitVec.allOnes 64, false)
      else
        let i := r.take % r.n
        some ({ (r.setSlot i 3) with take := (i + 1) % r.n, full := r.full - 1 }, BitVec.ofNat 64 i, true)
    | .pub =>
      if r.n ≤ v.toNat ∨ r.states.getD v.toNat 0 ≠ 1 then none
      else
        let q := r.setSlot v.toNat 2
        some ({ q with full := ringRun q 2 q.take q.n }, 0, true)
    | .free =>
      if r.n ≤ v.toNat ∨ r.states.getD v.toNat 0 ≠ 3 then none
      else
        let q := r.setSlot v.toNat 0
        some ({ q with free := ringRun q 0 q.fill q.n }, 0, true)

/-- The condition of a ring HOLD (R229). -/
def ringReady (cons : Bool) (r : Ring64) : Bool := if cons then decide (0 < r.full) else decide (0 < r.free)

/-- Waiting HOLDs on a record whose condition a ring operation has made true get the home's report (R137). -/
def State.reportRings (s : State) (pa : Nat) : State :=
  let r := s.ringAt pa
  { s with ops := s.ops.map (fun (i, o) => (i, match o.k with
    | .ringHold cons =>
      if o.stage = 1 ∧ (o.pieces.map (·.pa)).head? = some pa ∧ ringReady cons r then { o with stage := 2 } else o
    | _ => o)) }

/-! ### The home (R385) -/

/-- Physical address of an operation's first byte. -/
def Op.pa (o : Op) : Nat := match o.pieces with
  | p :: _ => p.pa
  | [] => 0

/-- Interleave class of an operation's first byte. -/
def Op.cls (o : Op) : Nat := match o.pieces with
  | p :: _ => p.attr.cls
  | [] => 0

/-- The home can take the operation's lines from every holder: quiet, the host without a copy, the home open. -/
def State.homeReady (s : State) (ps : List Piece) : Bool :=
  ps.all (fun p => (linesOf p.pa p.len).all (fun l =>
    if s.coherent (l * 64) then
      (s.line l).quiet && !(s.line l).inHost && s.homeOpen p.attr.cls (l * 64) && s.copiesAwake noL2 l
    else !s.moving (l * 64) && !s.blockSleeps (l * 64)))

/-- The operation's lines are taken from every holder, for an access of a partition; the first operation on a line without copies
reads memory. -/
def State.takeLines (s : State) (part : Nat) (ps : List Piece) : State :=
  ps.foldl (fun s p => (linesOf p.pa p.len).foldl (fun s l =>
    if s.coherent (l * 64) then
      (if (s.line l).home = .hi then s.countLine p.attr.cls (l * 64) else s.recallLine part l) else s) s) s

/-- What a write into the slot window meets when it reaches its block: the ingot sealed since, or the block no longer open to
its holder (R170, R436). -/
def State.blockFault (s : State) (holder : Nat) (ps : List Piece) : Option Flt :=
  ps.findSome? (fun q =>
    if inSlotWindow q.pa then
      let nd := s.node (slotEntry q.pa)
      if nd.st = 2 then some ⟨7, 0, q.va, 0, 0⟩
      else if nd.st = 1 ∧ nd.owner = some holder then none
      else some ⟨11, 1, q.va, slotEntry q.pa, 0⟩
    else none)

/-- What a read in the slot window meets when it reaches its block: the entry no longer one that the stream may read (R436). -/
def State.slotFault (s : State) (a : Agent) (ps : List Piece) : Option Flt :=
  ps.findSome? (fun q =>
    if inSlotWindow q.pa then match s.slotPiece a q.pa q.len false with
      | .error f => some f
      | .ok _ => none
    else none)

/-- The operation writes to global memory. -/
def OpK.writes : OpK → Bool
  | .ringHold _ => false
  | _ => true

/-- The memory that an operation reaches at its home: its own bytes, and for a ring operation the slot states behind its record
(R135, R385). -/
def State.homePieces (s : State) (o : Op) : List Piece :=
  match o.k, o.pieces with
  | .ring _ _, [p] =>
    let n := (s.ringAt p.pa).n
    if n < 1 ∨ 4096 < n then [p] else [p, { p with va := p.va + 64, pa := p.pa + 64, len := n }]
  | _, ps => ps

/-- An atomic or ring operation is applied at its line's home (R223, R224, R136, R385). -/
def State.applyAtHome (s : State) (id : Nat) (o : Op) : State :=
  let ps := s.homePieces o
  let s := s.serve id o.ag ps
  let c := s.checkLines ps true
  match c.2 <|> (if o.k.writes then s.blockFault (s.holderOf o.ag) ps else s.slotFault o.ag ps) with
  | some f => c.1.setOp id { o with stage := if o.k.writes then 1 else 2, flt := some f }
  | none =>
    let s := c.1.takeLines (s.partOf o.ag) ps
    match o.k with
    | .atomic f n _ =>
      let old := s.readLE o.pa n
      let s := (s.writeLE o.pa n (f.eval n old (o.val.toNat % 2 ^ (8 * n)))).leaveRels o.ag id o.near o.pieces
      s.setOp id { o with stage := 1, res := [BitVec.ofNat 64 old] }
    | .acas n _ =>
      let old := s.readLE o.pa n
      let s := if old = o.val.toNat % 2 ^ (8 * n) then
          (s.writeLE o.pa n (o.val2.toNat % 2 ^ (8 * n))).leaveRels o.ag id o.near o.pieces
        else s
      s.setOp id { o with stage := 1, res := [BitVec.ofNat 64 old] }
    | .ring f _ =>
      (match ringStep f (s.ringAt o.pa) o.val with
      | none => s.setOp id { o with stage := 1, flt := some (ringFlt o.addr o.val.toNat) }
      | some (r, v, w) =>
        let s := if w then (s.putRing o.pa r).leaveRels o.ag id o.near o.pieces else s
        (s.setOp id { o with stage := 1, res := [v] }).reportRings o.pa)
    | .ringHold cons =>
      let r := s.ringAt o.pa
      if r.n < 1 ∨ 4096 < r.n then s.setOp id { o with stage := 2, flt := some (ringFlt o.addr 0) }
      else s.setOp id { o with stage := if ringReady cons r then 2 else 1 }
    | _ => s

/-- An earlier stream of the cell has issued a ring operation on the record on the same wall cycle, and it has not reached the
home: seq comes before ladle (R233, R239). -/
def State.cellFirst (s : State) (o : Op) : Bool :=
  match o.k with
  | .ring _ _ => s.ops.any (fun e => decide (e.2.ag.key < o.ag.key) && e.2.ag.stew == o.ag.stew && e.2.ag.unit == o.ag.unit
      && e.2.ag.cell == o.ag.cell && e.2.wall == o.wall && e.2.stage == 0 && piecesMeet e.2.pieces o.pieces
      && (match e.2.k with
        | .ring _ _ => true
        | _ => false))
  | _ => false

/-- What must perform before the operation is applied: earlier stores to its bytes, stores before its release or fence, stores
that a release on its bytes covers, for RPUB the stores to its slot, and the ring operation of an earlier stream of the cell
(R136, R143, R145, R147, R233). -/
def State.atomicWaits (s : State) (id : Nat) (o : Op) : Bool :=
  let rel := match o.k with
    | .acas n _ => if s.readLE o.pa n = o.val.toNat % 2 ^ (8 * n) then o.relMark else min o.relMark (s.streamOf o.ag).relMark
    | _ => o.relMark
  let ps := s.homePieces o
  s.held o.ag id rel ps || s.relWaits o.ag ps || s.cellFirst o ||
    (match o.k with
    | .ring .pub _ =>
      let r := s.ringAt o.pa
      let lo := r.slots.base + o.val.toNat * r.size
      (s.ownStores o.ag ++ s.mates o.ag id).any (fun e =>
        e.2.pieces.any (fun p => decide (p.va < lo + r.size) && decide (lo < p.va + p.len)))
    | _ => false)

def execHomeAtomic (id : Nat) (s : State) : Res :=
  match NMap.find s.ops id with
  | none => .next s
  | some o =>
    let home := match o.k with
      | .atomic _ _ _ => true
      | .acas _ _ => true
      | .ring _ _ => true
      | .ringHold _ => true
      | _ => false
    if home = false ∨ o.stage ≠ 0 ∨ s.atomicWaits id o then .next s
    else if s.homeReady (s.homePieces o) = false then
      .next ((s.arriveAt id o.ag.key (s.homePieces o)).recallFor (s.partOf o.ag) (s.homePieces o))
    else if s.mayServe id o.ag (s.homePieces o) = false then .next s
    else .next (s.applyAtHome id o)

def execRingReport (id : Nat) (s : State) : Res :=
  match NMap.find s.ops id with
  | none => .next s
  | some o => match o.k with
    | .ringHold _ =>
      if o.stage ≠ 2 then .next s
      else match o.flt with
        | some f => .next (s.failOp id o f)
        | none => .next (s.endOp id o)
    | _ => .next s

/-! ### Returns (R41, R145) -/

/-- The die of a stream as a caching agent. -/
def Agent.cache (a : Agent) : Nat := a.die

/-- The lines of an access are read or written by the stream's die. -/
def State.touchFor (s : State) (a : Agent) (write : Bool) (ps : List Piece) : State :=
  s.touch a.cache (s.partOf a) write ps

/-- What must perform before a load reads: on an SO page every earlier store of the stream, stores to its bytes that the stream
has acquired, stores that a release on its bytes covers (R140, R147, R148). -/
def State.loadWaits (s : State) (id : Nat) (o : Op) : Bool :=
  (soPieces o.pieces && s.owes o.ag id true) || (s.mates o.ag id).any (fun e => piecesMeet e.2.pieces o.pieces)
    || s.relWaits o.ag o.pieces

/-- A load returns its bytes. -/
def State.loadReturn (s : State) (id : Nat) (o : Op) (k : State → List Byte → State) : State :=
  if s.loadWaits id o then s
  else if s.ready o.ag.cache false o.pieces = false then
    (s.arriveAt id o.ag.key o.pieces).askFor o.ag.cache (s.partOf o.ag) false o.pieces
  else if s.mayServe id o.ag o.pieces = false then s
  else
    let c := (s.serve id o.ag o.pieces).checkLines o.pieces false o.ag.cache
    match s.slotFault o.ag o.pieces <|> c.2 with
    | some f => c.1.failOp id o f
    | none =>
      let s := c.1.touchFor o.ag false o.pieces
      (k s (s.seen o.ag o.pieces)).endOp id o

/-- The write path accepts a store (R221): its atomic parts are posted; the operation waits for those on SO pages (R140,
R141). -/
def State.storeAccept (s : State) (id : Nat) (o : Op) : State :=
  let c := s.checkLines o.pieces true o.ag.cache
  match c.2 with
  | some f => c.1.failOp id o f
  | none =>
    let so := soPieces o.pieces
    let post (s : State) (ps : List Piece) (d : List Byte) (cap tag : Bool) : State :=
      s.post ⟨o.ag, o.pc, ps, d, cap, tag, o.relMark, o.near, if so then some id else none, none⟩
    let s := match o.k with
      | .cstc =>
        let v := o.caps.headD Cap.null
        post c.1 o.pieces (leBytes v.toNat 16) true v.tag
      | _ => (storeParts o.pieces (leBytes o.val.toNat o.val2.toNat)).foldl (fun s (p, d) => post s [p] d false false) c.1
    if so then s.setOp id { o with stage := 1 } else s.endOp id o

/-- The range that CO_FLUSH names is at home. -/
def State.rangeHome (s : State) (frame count : Nat) : Bool :=
  (NMap.keys s.coh.lines).all (fun l => if frame * 64 ≤ l ∧ l < (frame + count) * 64 then s.atHome l else true)

/-- The copies of the lines in the range that CO_FLUSH names are recalled, from the host by snoop (R385, R389). -/
def State.flushRange (s : State) (frame count : Nat) : State :=
  ((NMap.keys s.coh.lines).filter (fun l => decide (frame * 64 ≤ l) && decide (l < (frame + count) * 64))).foldl (fun s l =>
    if (s.line l).quiet = false then s
    else if s.lineOpen l ∧ s.copiesAwake noL2 l then s.recall 256 l
    else s.reachAll noL2 (s.lineCls l) l) s

/-! ### TR_INVAL and MASKW (R364, R332) -/

/-- First address and bytes of the page that TR_INVAL of scope 0 names: the page of the table or of a TLB entry that
contains it, at least 4 KiB. -/
def State.invalRange (s : State) (part va : Nat) : Nat × Nat :=
  let w := s.walkTables part va
  let n := (s.tr.tlb.filter (fun e => e.part == part && e.va == va / pageBytes e.size * pageBytes e.size)).foldl
    (fun n e => max n (pageBytes e.size)) (if w.resident then pageBytes w.size else 4096)
  (va / n * n, n)

/-- The scope of TR_INVAL as a partition and a range: none for every partition (R364). -/
def State.invalScope (s : State) (v : Nat) : Option Nat × Nat × Nat :=
  let part := bits v 11 4
  match bits v 1 0 with
  | 0 => let r := s.invalRange part (bits v 56 12 * 4096)
    (some part, r.1, r.2)
  | 1 => (some part, 0, 2 ^ 57)
  | 2 => (none, 0, 2 ^ 57)
  | _ => (some 256, 0, 0)

/-- Partition and holder of a posted store: those of its stream's pour, or of the suspended pour (R50). -/
def State.storePart (s : State) (p : PStore) : Nat := match p.park with
  | some (l, _) => match NMap.find s.cup.launches l with
    | some q => q.part
    | none => 256
  | none => s.partOf p.ag
def State.storeHolder (s : State) (p : PStore) : Nat := match p.park with
  | some (l, i) => l * 2 ^ 24 + i
  | none => s.holderOf p.ag

/-- Some access translated through the scope has not performed (R364). -/
def State.invalWaits (s : State) (v : Nat) : Bool :=
  let (part, lo, n) := s.invalScope v
  let hit (a : Agent) (q : Nat) (l : List Piece) : Bool :=
    !a.stew && part.all (· == q) && l.any (fun p => decide (p.va < lo + n) && decide (lo < p.va + p.len))
  s.wq.any (fun e => hit e.2.ag (s.storePart e.2) e.2.pieces)
    || s.ops.any (fun e => decide (e.2.stage < 2) && hit e.2.ag (s.partOf e.2.ag) e.2.pieces)
    || s.copies.any (fun e => !e.2.ag.stew && part.all (· == s.partOf e.2.ag) && e.2.translated lo n)

/-- The TLB entries in scope are removed; the extents whose range meets it lose their valid bit (R364). -/
def State.invalidate (s : State) (v : Nat) : State :=
  let (part, lo, n) := s.invalScope v
  let tlb := s.tr.tlb.filter (fun e => !(part.all (· == e.part) && decide (e.va < lo + n) && decide (lo < e.va + pageBytes e.size)))
  let off (r : ExtRec) : ExtRec :=
    if exVa r < lo + n ∧ lo < exVa r + exLen r then r &&& ~~~ (BitVec.ofNat 256 (2 ^ 192)) else r
  let gangs := s.gangs.map (fun (g, q) => (g, match q.pour with
    | some p => if part.all (· == p.part) then { q with extents := q.extents.map (fun (i, r) => (i, off r)) } else q
    | none => q))
  { s with gangs := gangs, tr := { s.tr with tlb := tlb } }

/-- An access to HBM accepted under a class has not completed (R332). -/
def State.classBusy (s : State) (k : Nat) : Bool :=
  let hit (l : List Piece) : Bool := l.any (fun p => p.attr.cls == k && s.backing p.pa == .hbm)
  s.wq.any (fun e => hit e.2.pieces) || s.ops.any (fun e => decide (e.2.stage < 2) && hit e.2.pieces)

/-- A slot that an older content of its line has kept gives it back, when the masks place the line there again: its present
content stays in the slot where it stood (R332). -/
def State.reseat (s : State) (sl : Nat) (u : Stored) : State :=
  let c := s.clsOf (u.line * 64)
  let now := (NMap.find s.hbm.placed u.line).getD u.line
  if s.slot c (u.line * 64) ≠ sl ∨ (now = sl ∧ NSet.mem s.hbm.lost u.line = false) then s
  else
    let s := s.seatLine c u.line
    s.storeMem u.line u

/-- A mask written (R332, R400). -/
def State.setMask (s : State) (k i : Nat) (v : Word) : State :=
  let m := s.hbm.masks
  let m := if v.toNat = defaultMask i then NMap.erase m (16 * k + i) else NMap.put m (16 * k + i) v
  let s := { s with hbm := { s.hbm with masks := m } }
  s.hbm.old.foldl (fun s e => s.reseat e.1 e.2) s

/-- A return, an acceptance or a completion reaches the stream, never on the issue's own wall cycle (R41). -/
def execGlobalAccessReturn (id : Nat) (s : State) : Res :=
  match NMap.find s.ops id with
  | none => .next s
  | some o =>
    .next (if o.stage = 3 ∨ s.wall ≤ o.wall then s else match o.flt, o.k with
    | some f, .load _ _ _ => s.failOp id o f
    | some f, .cldc _ _ => s.failOp id o f
    | some f, .store => s.failOp id o f
    | some f, .cstc => s.failOp id o f
    | _, .load n signed d =>
      s.loadReturn id o (fun s l =>
        let t := s.streamOf o.ag
        let s := s.setStreamOf o.ag { t with snap := s.snapOf o.pa n }
        s.opSched o 5 (.x d (extendTo n signed (ofLE (t.snapBytes o.pa l)))))
    | _, .cldc lc d =>
      s.loadReturn id o (fun s l =>
        let tag := seenTag (s.tagAt o.pa) (o.pa / 16 * 16) (s.ownStores o.ag) && lc && o.pieces.all (fun p => !p.attr.tagless)
        let v := Cap.ofNat (ofLE l) tag
        s.opSched o 5 (.c d (if o.ag.stew then v else s.barrier o.ag.die (s.partOf o.ag) v)))
    | _, .store => if o.stage = 0 then s.storeAccept id o else s
    | _, .cstc => if o.stage = 0 then s.storeAccept id o else s
    | _, .fence => if s.covers o.ag o.val.toNat (o.val2 != 0) then s else s.endOp id o
    | _, .atomic _ n d =>
      if o.stage ≠ 1 then s
      else match o.flt, o.res with
        | some f, _ => s.failOp id o f
        | none, [v] => (s.opSched o 5 (.x d (extendTo n true v.toNat))).endOp id o
        | none, _ => s
    | _, .acas n d =>
      if o.stage ≠ 1 then s
      else match o.flt, o.res with
        | some f, _ => s.failOp id o f
        | none, [v] => (s.opSched o 5 (.x d (extendTo n true v.toNat))).endOp id o
        | none, _ => s
    | _, .ring f d =>
      if o.stage ≠ 1 then s
      else match o.flt, o.res with
        | some e, _ => s.failOp id o e
        | none, v :: _ =>
          if f = .acq ∨ f = .take then (s.opSched o 5 (.x d v)).endOp id o else s.endOp id o
        | none, [] => s
    | _, .flush frame count =>
      let s := s.flushRange frame count
      if s.rangeHome frame count then s.endOp id o else s
    | _, .inval v => if s.invalWaits v then s else (s.invalidate v).endOp id o
    | _, .mapBit d due =>
      (s.pendAt o.ag o.pc due (.c d (s.barrier o.ag.die (s.partOf o.ag) (o.caps.headD Cap.null)))).endOp id o
    | _, .maskw k i => if s.classBusy k then s else (s.setMask k i o.val).endOp id o
    | _, _ => s)

/-- A posted store performs at its home (R145, R150, R362); a write to an ingot sealed since, or to a block given up since, is
refused (R170, R436). -/
def State.storeEffect (s : State) (id : Nat) (p : PStore) : State :=
  let s := ((s.serve id p.ag p.pieces).touch p.ag.cache (s.storePart p) true p.pieces).writePieces p.pieces p.data
  let s := s.leaveRels p.ag id p.near p.pieces p.park
  match p.cap, p.pieces with
  | true, q :: _ =>
    let s := s.hitSnap (q.pa / 16)
    if p.tag ∧ s.tagless q.pa = false then
      ({ s with tags := NSet.add s.tags (q.pa / 16) }).setCs (s.storePart p) q
    else s
  | _, _ => s

/-- An operation that waits for its parts on SO pages ends with the last of them. -/
def State.storeDone (s : State) (p : PStore) : State :=
  match p.op with
  | none => s
  | some i =>
    if s.wq.any (fun e => e.2.op == some i && soPieces e.2.pieces) then s
    else match NMap.find s.ops i with
      | some o => s.endOp i o
      | none => s

/-- A posted store leaves the write path. A fault is raised in its pour; a store of a suspended pour waits with it for the
resumption, and goes with a pour that ends. -/
def State.perform (s : State) (id : Nat) (p : PStore) : State :=
  let c := s.checkLines p.pieces true p.ag.cache
  let gone := { c.1 with wq := NMap.erase c.1.wq id }
  match c.2 <|> s.blockFault (s.storeHolder p) p.pieces, p.park with
  | none, _ => (gone.storeEffect id p).storeDone p
  | some f, none => (gone.raiseLate p.ag p.pc f).storeDone p
  | some _, some (l, _) =>
    match NMap.find s.cup.launches l with
    | some q => if q.ending.isSome then gone else s
    | none => gone

def execGlobalStorePerform (id : Nat) (s : State) : Res :=
  match NMap.find s.wq id with
  | none => .next s
  | some p =>
    if s.held p.ag id p.relMark p.pieces p.park then .next s
    else if s.ready p.ag.cache true p.pieces = false then
      .next ((s.arriveAt id p.ag.key p.pieces).askFor p.ag.cache (s.storePart p) true p.pieces)
    else if s.mayServe id p.ag p.pieces = false then .next s
    else .next (s.perform id p)

end Sys2Proof.Machine
end

