-- ==== Sys2Proof/Machine/Sha.lean ====
section
/-!
DEFINITION. SHA-256 of FIPS 180-4, which R159 and R160 name.
-/
namespace Sys2Proof.Machine

abbrev W32 := BitVec 32

/-- The first 64 primes: no number below 19² is composite without a divisor among the primes below 19. -/
def shaPrimes : List Nat :=
  (List.range 312).filter (fun p => decide (1 < p) && [2, 3, 5, 7, 11, 13, 17].all (fun d => p == d || p % d != 0))

/-- The largest number with `b` more bits below `r` whose power `k` does not exceed `n`. -/
def rootDown (k n : Nat) : Nat → Nat → Nat
  | 0, r => r
  | b + 1, r => rootDown k n b (if (r + 2 ^ b) ^ k ≤ n then r + 2 ^ b else r)

/-- The first 32 bits of the fraction of the root `k` of a number. -/
def rootFraction (k p : Nat) : W32 := BitVec.ofNat 32 (rootDown k (p * 2 ^ (32 * k)) 40 0)

/-- The constants of the rounds: fractions of the cube roots of the primes. -/
def shaK : List W32 := shaPrimes.map (rootFraction 3)

/-- The initial hash value: fractions of the square roots of the first eight primes. -/
def shaInit : List W32 := (shaPrimes.take 8).map (rootFraction 2)

/-- The big-endian number of a list of bytes. -/
def ofBE (l : List Byte) : Nat := l.foldl (fun n b => 256 * n + b.toNat) 0

/-- The four big-endian bytes of a word. -/
def beBytes4 (w : W32) : List Byte := [w.extractLsb' 24 8, w.extractLsb' 16 8, w.extractLsb' 8 8, w.extractLsb' 0 8]

/-- The next word of the message schedule, from the sixteen before it, oldest first. -/
def shaNext (w : List W32) : W32 :=
  let s0 (x : W32) : W32 := x.rotateRight 7 ^^^ x.rotateRight 18 ^^^ x >>> 3
  let s1 (x : W32) : W32 := x.rotateRight 17 ^^^ x.rotateRight 19 ^^^ x >>> 10
  s1 (w.getD 14 0) + w.getD 9 0 + s0 (w.getD 1 0) + w.getD 0 0

/-- One round on the eight working words. -/
def shaRound (v : List W32) (k w : W32) : List W32 :=
  match v with
  | [a, b, c, d, e, f, g, h] =>
    let t1 := h + (e.rotateRight 6 ^^^ e.rotateRight 11 ^^^ e.rotateRight 25) + ((e &&& f) ^^^ (~~~ e &&& g)) + k + w
    let t2 := (a.rotateRight 2 ^^^ a.rotateRight 13 ^^^ a.rotateRight 22) + ((a &&& b) ^^^ (a &&& c) ^^^ (b &&& c))
    [t1 + t2, a, b, c, d + t1, e, f, g]
  | _ => v

/-- The rounds of one block, the schedule moving along. -/
def shaRounds : List W32 → List W32 → List W32 → List W32
  | [], _, v => v
  | k :: ks, w, v => shaRounds ks (w.drop 1 ++ [shaNext w]) (shaRound v k (w.getD 0 0))

/-- One 64-byte block applied to the hash value. -/
def shaBlock (h : List W32) (b : List Byte) : List W32 :=
  let w := (List.range 16).map (fun i => BitVec.ofNat 32 (ofBE ((b.drop (4 * i)).take 4)))
  List.zipWith (· + ·) h (shaRounds shaK w h)

/-- Padding of a message to whole blocks. -/
def shaPad (m : List Byte) : List Byte :=
  let z := (119 - m.length % 64) % 64
  m ++ [0x80] ++ List.replicate z 0 ++ (leBytes (8 * m.length) 8).reverse

/-- The blocks of a padded message, `n` of them. -/
def shaBlocks : Nat → List W32 → List Byte → List W32
  | 0, h, _ => h
  | n + 1, h, m => shaBlocks n (shaBlock h (m.take 64)) (m.drop 64)

/-- The 32-byte digest. -/
def sha256 (m : List Byte) : List Byte :=
  let p := shaPad m
  (shaBlocks (p.length / 64) shaInit p).flatMap beBytes4

/-- NameOf(p, k, t) of R159, as the 128-bit value of the name. -/
def nameOf (p k : Nat) (toks : List Nat) : Nat :=
  ofLE ((sha256 (leBytes p 16 ++ leBytes k 4 ++ toks.flatMap (fun t => leBytes t 4))).take 16)

/-- The message of a root name (R160). -/
def rootMessage (k salt : Nat) : List Byte := [0x51, 0x5A, 0x52, 0x4F, 0x4F, 0x54] ++ leBytes k 4 ++ leBytes salt 8

end Sys2Proof.Machine
end

