-- ==== Sys2Proof/Machine/Crucible.lean ====
section
/-!
DEFINITION. The Crucible: classes, names, handles, blocks, leases, references, pressure and demotion, the home
directory as this device keeps it, and the Crucible instructions (R156 to R183, R234, R235, R393 to R397, R435 to R437).
-/
namespace Sys2Proof.Machine

/-! ### Partition records (R338) and class records (R156) -/

/-- Address of a partition record. -/
def State.ptAddr (s : State) (p : Nat) : Nat := (s.csrGet 0x200).toNat / 64 * 64 + 64 * p

/-- PT_VALID. -/
def State.ptValid (s : State) (p : Nat) : Bool := decide (p < 256) && bitOf (s.readLE (s.ptAddr p) 8) 0

/-- PT_GANGS: the gang belongs to the valid partition. -/
def State.ptGang (s : State) (p g : Nat) : Bool := s.ptValid p && bitOf (s.readLE (s.ptAddr p + 8) 8) g

/-- PT_SLICES: slices 24 d + s of the partition's SRAM tier. -/
def State.ptSlices (s : State) (p : Nat) : List Nat :=
  let w := s.readLE (s.ptAddr p + 0x10) 8
  (List.range 48).filter (fun i => bitOf w i)

/-- Quota of a partition in a tier (R176). -/
def State.ptQuota (s : State) (p tier : Nat) : Nat := s.readLE (s.ptAddr p + 0x20 + 4 * tier) 4

/-- PT_CLASSVA. -/
def State.ptClassVa (s : State) (p : Nat) : Nat := s.readLE (s.ptAddr p + 0x30) 8

/-- Address of a class record (R156). -/
def State.crAddr (s : State) (k : Nat) : Nat := (s.csrGet 0x209).toNat / 4096 * 4096 + 64 * k

/-- CR_CTL. -/
def State.crCtl (s : State) (k : Nat) : Nat := s.readLE (s.crAddr k + 0x18) 8

/-- CR_VALID. -/
def State.crValid (s : State) (k : Nat) : Bool := bitOf (s.crCtl k) 0

/-- Payload bytes P of a class. -/
def State.crSize (s : State) (k : Nat) : Nat := 2 ^ bits (s.crCtl k) 5 1

/-- The class may occupy a tier. -/
def State.crTier (s : State) (k tier : Nat) : Bool := decide (tier < 3) && bitOf (s.crCtl k) (6 + tier)

/-- Owning partition of a class. -/
def State.crPart (s : State) (k : Nat) : Nat := bits (s.crCtl k) 23 16

/-- Root name, quota and transfer lease of a class. -/
def State.crRoot (s : State) (k : Nat) : Nat := s.readLE (s.crAddr k) 16
def State.crQuota (s : State) (k : Nat) : Nat := s.readLE (s.crAddr k + 0x28) 4
def State.crLease (s : State) (k : Nat) : Nat := s.readLE (s.crAddr k + 0x2C) 2

/-- The class of a class capability of an agent (R157); a steward, which has no partition, names the record by its
physical address. -/
def State.classOf (s : State) (a : Agent) (c : Cap) (need : Perm) : Except Flt Nat :=
  let va := c.addr.toNat
  match capCheck c va 64 1 [need] with
  | some e => .error (capFlt e va)
  | none =>
    let base := if a.stew then s.crAddr 0 else s.ptClassVa (s.partOf a)
    if va < base ∨ (va - base) % 64 ≠ 0 ∨ 2 ^ 18 ≤ va - base then .error (capFlt .bounds va)
    else
      let k := (va - base) / 64
      if s.crValid k = false ∨ (a.stew = false ∧ s.crPart k ≠ s.partOf a) then .error (capFlt .perm va) else .ok k

/-! ### Index entries (R162, R163, R172 to R175) -/

/-- An index entry replaced. -/
def State.setNode (s : State) (e : Nat) (n : Node) : State :=
  { s with cru := { s.cru with nodes := NMap.put s.cru.nodes e n } }

/-- A timed lease is in force at a tick count (R172). -/
def inForce (x n : Nat) : Bool := decide (1 ≤ (x + 2 ^ 32 - n) % 2 ^ 32) && decide ((x + 2 ^ 32 - n) % 2 ^ 32 ≤ 2 ^ 31 - 1)

/-- The node's timed lease is in force. -/
def Node.timedIn (n : Node) (tick : Nat) : Bool := match n.timed with
  | some x => inForce x tick
  | none => false

/-- The node is leased (R173). -/
def Node.leased (n : Node) (tick : Nat) : Bool := n.timedIn tick || !n.lifetime.isEmpty || !n.leases.isEmpty

/-- NS_REFS (R174). -/
def Node.refs (n : Node) : Nat := n.children + n.pins.foldl (fun m e => m + e.2) 0

/-- Block state code (R175). -/
def Node.code (n : Node) (tick : Nat) : Nat :=
  if n.st < 2 then n.st else if 0 < n.refs then 3 else if n.leased tick then 2 else 4

/-- The entry of a handle's node, when the handle is local and not stale (R163). -/
def State.nodeOf (s : State) (c : Cap) : Option Nat :=
  let n := s.node c.nhIndex
  if c.nhDev = s.boot.dev ∧ n.st = 2 ∧ n.gen = c.nhGen then some c.nhIndex else none

/-- The handle of an entry. -/
def State.handleOf (s : State) (e : Nat) : Cap := Cap.node e s.boot.dev (s.node e).gen

/-- LocalLookup of R166: the sealed entry of a name. -/
def State.lookup (s : State) (name : Nat) : Option Nat :=
  (s.cru.nodes.find? (fun e => e.2.st == 2 && e.2.name == name)).map (·.1)

/-- The ancestor of an entry at a depth. -/
def State.ancestor (s : State) (e depth : Nat) : Nat → Option Nat
  | 0 => none
  | k + 1 =>
    let n := s.node e
    if n.depth = depth then some e
    else match n.parent with
      | none => none
      | some p => s.ancestor p depth k

/-- Ancestor at depth j of a node. -/
def State.anc (s : State) (e j : Nat) : Option Nat := s.ancestor e j ((s.node e).depth + 1)

/-- The last-use tick is set (R176). -/
def State.useNode (s : State) (e : Nat) : State := s.setNode e { s.node e with lastUse := s.tick }

/-- A timed lease of `t` ticks is granted (R172); a demotion under way is cancelled (R178). -/
def State.grantTimed (s : State) (e t : Nat) : State :=
  let n := s.node e
  let x := (s.tick + t + 1) % 2 ^ 32
  let y := match n.timed with
    | some o => if inForce o s.tick ∧ 2 ^ 31 ≤ (x + 2 ^ 32 - o) % 2 ^ 32 then o else x
    | none => x
  s.setNode e { n with timed := some y, lastUse := s.tick, demote := none }

/-- A lifetime lease is granted to a pour, at most one per node (R173). -/
def State.grantLife (s : State) (e pour : Nat) : State :=
  let n := s.node e
  s.setNode e { n with lifetime := if n.lifetime.contains pour then n.lifetime else n.lifetime ++ [pour],
                       lastUse := s.tick, demote := none }

/-- Number of a holder of pins: the session, or a number of its own for a steward. -/
def State.pinnerOf (s : State) (a : Agent) : Nat :=
  if a.stew then 4096 + a.unit else match (s.gang a.unit).pour with
    | some p => p.session
    | none => 4096

/-- The parent of a freed or deleted child loses one reference. -/
def State.dropChild (s : State) (p : Option Nat) : State :=
  match p with
  | none => s
  | some e => s.setNode e { s.node e with children := (s.node e).children - 1 }

/-- An entry returns to FREE: generation + 1, the parent's reference given back (R175); `slot` names the pour whose
retirement frees the slot (R171). -/
def State.freeNode (s : State) (e : Nat) (slot : Option Nat) : State :=
  let n := s.node e
  let z : Node := { Node.free with gen := (n.gen + 1) % 2 ^ 22, slotOf := slot, cls := if slot.isSome then n.cls else 0,
                                   part := if slot.isSome then n.part else 0, tier := if slot.isSome then n.tier else 0,
                                   slice := if slot.isSome then n.slice else 0, size := if slot.isSome then n.size else 0 }
  (s.setNode e z).dropChild n.parent

/-! ### The directory (R393 to R396) -/

/-- The home device of a name (R393). -/
def State.homeOf (s : State) (name : Nat) : Option Nat :=
  let w := s.readLE ((s.csrGet 0x540).toNat + 4 * (name % 4096)) 4
  if bitOf w 31 then some (w % 2 ^ 18) else none

/-- A Crucible message towards a device (R395). -/
def State.sendMsg (s : State) (dst ty st tx name : Nat) (body : List Byte) : State :=
  s.sendPacket dst 6 0 0 (32 + body.length) 0
    (leBytes ty 1 ++ leBytes st 1 ++ leBytes body.length 2 ++ leBytes s.boot.dev 4 ++ leBytes tx 8 ++ leBytes name 16 ++ body)

/-- The holder word of an entry (R394). -/
def holderWord (dev idx gen : Nat) : Nat := dev % 2 ^ 18 + idx % 2 ^ 24 * 2 ^ 18 + gen % 2 ^ 22 * 2 ^ 42

/-- The holder word of an own entry. -/
def State.ownWord (s : State) (e : Nat) : Nat := holderWord s.boot.dev e (s.node e).gen

/-- The handle that a holder word makes (R397). -/
def wordHandle (w : Nat) : Cap := Cap.node (bits w 41 18) (bits w 17 0) (bits w 63 42)

/-- The 64 bytes of a record (R394): holder slot i holds the holder of rank i. -/
def DirRec.bytes (r : DirRec) : List Byte :=
  leBytes r.name 16 ++ leBytes r.depth 2 ++ leBytes r.cls 2 ++ leBytes 0 4 ++
    (List.range 4).flatMap (fun i => leBytes (r.holders.getD i 0) 8) ++
    leBytes ((List.range r.holders.length).foldl (fun n i => n + i * 4 ^ i) 0) 8

/-- The directory replaced: the records that change are written at their places of the table at CD_RECTAB, zeros for those
that go (R394; log entry 77). -/
def State.setDir (s : State) (dir : List DirRec) : State :=
  let base := (s.csrGet 0x541).toNat
  let t := (s.cru.dir.filter (fun r => dir.all (fun q => q.place != r.place))).foldl (fun (s : State) r =>
    s.writeBytes (base + 64 * r.place) (List.replicate 64 0)) s
  let t := (dir.filter (fun r => !s.cru.dir.contains r)).foldl (fun (s : State) r =>
    s.writeBytes (base + 64 * r.place) r.bytes) t
  { t with cru := { t.cru with dir := dir } }

/-- The first free place of the record table. -/
def State.dirPlace (s : State) : Nat :=
  ((List.range (s.cru.dir.length + 1)).find? (fun k => s.cru.dir.all (fun r => r.place != k))).getD s.cru.dir.length

/-- A holder takes the next registration rank; of those of one wall cycle the lower device id takes the lower (R396, R398). -/
def State.rank (s : State) (l : List Nat) (w : Nat) : List Nat :=
  let later (h : Nat) : Bool := s.cru.regs.contains h && decide (w % 2 ^ 18 < h % 2 ^ 18)
  l.filter (fun h => !later h) ++ w :: l.filter later

/-- A registration at this home (R394, R396): the status answered. -/
def State.dirAdd (s : State) (name w depth cls : Nat) : State × Nat :=
  let fresh : State := { s with cru := { s.cru with regs := w :: s.cru.regs } }
  match s.cru.dir.find? (fun r => r.name == name) with
  | none => (fresh.setDir (s.cru.dir ++ [⟨name, depth, cls, [w], s.dirPlace⟩]), 0)
  | some r =>
    if r.holders.contains w then (s, 0)
    else if 4 ≤ r.holders.length then (s, 4)
    else (fresh.setDir (s.cru.dir.map (fun q => if q.name = name then { q with holders := s.rank q.holders w } else q)), 0)

/-- Holders that satisfy `p` are removed; a record without holders is deleted (R396). -/
def State.dirDrop (s : State) (p : Nat → Nat → Bool) : State :=
  let dir := s.cru.dir.map (fun r => { r with holders := r.holders.filter (fun w => !p r.name w) })
  s.setDir (dir.filter (fun r => !r.holders.isEmpty))

/-- HomeLookup at this home (R397): the oldest holder other than the requester, with the depth. -/
def State.dirFind (s : State) (name asker : Nat) : Option (Nat × Nat) :=
  match s.cru.dir.find? (fun r => r.name == name) with
  | none => none
  | some r => (r.holders.find? (fun w => decide (w % 2 ^ 18 ≠ asker))).map (fun w => (w, r.depth))

/-- A transaction opened towards a device. -/
def State.openXact (s : State) (k : XKind) (dev op name off len : Nat) : State × Nat :=
  let tx := s.nextId
  ({ s with nextId := tx + 1, cru := { s.cru with xacts := NMap.put s.cru.xacts tx ⟨k, dev, op, name, off, len, s.wall⟩ } },
   tx)

/-- A transaction closed. -/
def State.closeXact (s : State) (tx : Nat) : State :=
  { s with cru := { s.cru with xacts := NMap.erase s.cru.xacts tx } }

/-- The ingot of an entry is registered with the home of its name (R396). -/
def State.register (s : State) (e : Nat) : State :=
  let n := s.node e
  match s.homeOf n.name with
  | none => s
  | some d =>
    let w := s.ownWord e
    if d = s.boot.dev then (s.dirAdd n.name w n.depth n.cls).1
    else
      let r := s.openXact (.reg e) d 0 n.name 0 0
      r.1.sendMsg d 5 0 r.2 n.name (leBytes w 8 ++ leBytes n.depth 2 ++ leBytes n.cls 2)

/-- A sealed entry is deleted: RETIRE to the home of its name, FREE, the parent's reference given back (R177, R396). -/
def State.deleteNode (s : State) (e : Nat) : State :=
  let n := s.node e
  let w := s.ownWord e
  let s := match s.homeOf n.name with
    | none => s
    | some d =>
      if d = s.boot.dev then s.dirDrop (fun m h => m == n.name && h == w) else s.sendMsg d 7 0 0 n.name (leBytes w 8)
  s.freeNode e none

/-! ### Slots, quotas and pressure (R176, R177, R435, R437) -/

/-- The entry holds a slot: open, sealed, being fetched, or freed and not yet allocatable (R437). -/
def Node.counts (n : Node) : Bool := n.st != 0 || n.slotOf.isSome

/-- Slots of a partition in use in a tier; a demotion under way counts in its target too. -/
def State.tierUse (s : State) (part tier : Nat) : Nat :=
  (s.cru.nodes.filter (fun e => e.2.counts && e.2.part == part && (e.2.tier == tier || e.2.demote == some tier))).length

/-- Blocks of a class that exist (R437). -/
def State.classUse (s : State) (k : Nat) : Nat := (s.cru.nodes.filter (fun e => e.2.counts && e.2.cls == k)).length

/-- Bytes of an SRAM slice (chapter 1). -/
def sliceBytes : Nat := 2 ^ 23

/-- Bytes of a slice that blocks occupy. -/
def State.sliceUse (s : State) (i : Nat) : Nat :=
  s.cru.nodes.foldl (fun m e => if e.2.counts ∧ e.2.tier = 0 ∧ e.2.slice = i then m + e.2.size else m) 0

/-- The slice that takes a block of the partition: one on the die of the issuing cell, else one on the other (R435); a slice
that is in the L2 role takes none (R18). -/
def State.sliceFor (s : State) (part die size : Nat) : Option Nat :=
  let l := (s.ptSlices part).filter (fun i =>
    NMap.get 0 s.cup.slices i == part + 1 && decide (s.sliceUse i + size ≤ sliceBytes))
  match l.find? (fun i => i / 24 == die) with
  | some i => some i
  | none => l.head?

/-- The tier has no slot free for a block of the partition. -/
def State.tierFull (s : State) (part tier size : Nat) : Bool :=
  decide (s.ptQuota part tier ≤ s.tierUse part tier) || (tier == 0 && (s.sliceFor part 0 size).isNone)

/-- `a` is taken before `b` under pressure (R176): older last use, then greater depth, then lower name. -/
def takenBefore (tick : Nat) (a b : Node) : Bool :=
  let age (n : Node) : Nat := (tick + 2 ^ 32 - n.lastUse) % 2 ^ 32
  if age a ≠ age b then decide (age b < age a)
  else if a.depth ≠ b.depth then decide (b.depth < a.depth)
  else decide (a.name < b.name)

/-- A KGET through a handle of this device that has not landed in full holds the handle's node, and with it the ingots of
its path, against deletion (R179, R303). -/
def State.readHeld (s : State) (e : Nat) : Bool :=
  s.copies.any (fun q => match q.2.kind with
    | .kget _ => !q.2.stopped && decide (q.2.got.foldl (fun n r => n + (r.2.2 - r.2.1)) 0 < q.2.len) && s.nodeOf q.2.src == some e
    | _ => false)

/-- The next lower tier that a class allows (R177). -/
def State.lowerTier (s : State) (k tier : Nat) : Option Nat := [1, 2].find? (fun t => decide (tier < t) && s.crTier k t)

/-- The next candidate of a partition in a tier (R176), over `k` tiers at most. A block that a read holds against deletion is
one while it can be demoted: its next lower tier has a slot free, or a candidate of its own (R179, R183). -/
def State.candidateIn (s : State) (part : Nat) : Nat → Nat → Option Nat
  | 0, _ => none
  | k + 1, tier =>
    let moves (n : Node) : Bool := match s.lowerTier n.cls tier with
      | none => false
      | some t => !s.tierFull part t n.size || (s.candidateIn part k t).isSome
    (s.cru.nodes.foldl (fun best e =>
      if e.2.part = part ∧ e.2.tier = tier ∧ e.2.code s.tick = 4 ∧ e.2.demote = none ∧ (!s.readHeld e.1 || moves e.2) then
        match best with
        | none => some e
        | some b => if takenBefore s.tick e.2 b.2 then some e else some b
      else best) none).map (·.1)

/-- The next candidate of a partition in a tier (R176). -/
def State.candidate (s : State) (part tier : Nat) : Option Nat := s.candidateIn part 3 tier

/-- Candidates are demoted or deleted until a slot of the tier is free (R176, R177); false when none remains. -/
def State.makeRoom : Nat → State → Nat → Nat → Nat → State × Bool
  | 0, s, part, tier, size => (s, !s.tierFull part tier size)
  | n + 1, s, part, tier, size =>
    if s.tierFull part tier size = false then (s, true)
    else match s.candidate part tier with
      | none => (s, false)
      | some e =>
        match s.lowerTier (s.node e).cls tier with
        | none => State.makeRoom n (s.deleteNode e) part tier size
        | some t =>
          if s.tierFull part t (s.node e).size ∧ (s.candidate part t).isNone then
            State.makeRoom n (s.deleteNode e) part tier size
          else
            let r := State.makeRoom n s part t (s.node e).size
            if r.2 then State.makeRoom n (r.1.setNode e { r.1.node e with tier := t }) part tier size
            else if r.1.readHeld e then (r.1, false)
            else State.makeRoom n (r.1.deleteNode e) part tier size

/-- Room made in a tier. -/
def State.room (s : State) (part tier size : Nat) : State × Bool :=
  State.makeRoom (2 * s.cru.nodes.length + 2) s part tier size

/-- An entry that is FREE and whose slot is allocatable. -/
def State.entryFree (s : State) (e : Nat) : Bool := !(s.node e).counts

/-- The entry that a new block takes: free choice of the implementation (log entry 10). -/
def State.newEntry (s : State) : Nat :=
  let e := Config.freshEntry s.nextId % 2 ^ 24
  if s.entryFree e then e
  else ((List.range (s.cru.nodes.length + 1)).find? (fun i => s.entryFree i)).getD 0

/-- A block takes a slot and an entry: UNSEALED, owned by `owner` (R168, R435). -/
def State.takeBlock (s : State) (k part tier die : Nat) (parent : Option Nat) (owner : Option Nat) (repl : Bool) :
    State × Nat :=
  let e := s.newEntry
  let size := s.crSize k
  let depth := match parent with
    | none => 1
    | some p => (s.node p).depth + 1
  let n : Node := { Node.free with st := 1, gen := (s.node e).gen, cls := k, part := part, parent := parent, depth := depth,
                                   tier := tier, slice := if tier = 0 then (s.sliceFor part die size).getD 0 else 0,
                                   owner := owner, repl := repl, size := size, lastUse := s.tick }
  ({ s.setNode e n with nextId := s.nextId + 1 }, e)

/-- Address of an entry in the slot window (R436). -/
def slotAddr (e : Nat) : Nat := slotBase + e * 2 ^ 22

/-- The block capability that KOPEN returns (R168). -/
def blockCap (e size : Nat) : Cap :=
  let c : Cap := { Cap.null with tag := true, perms := 0x0403 }
  match encExact (slotAddr e) (slotAddr e + size) with
  | some b => c.withBounds b
  | none => Cap.null

/-! ### Ends of pours and sessions -/

/-- A pour ends: its lifetime leases end, its UNSEALED blocks and fetches are freed, slots it kept become allocatable
(R171, R173, R175). -/
def State.pourLeaves (s : State) (pour : Nat) : State :=
  s.cru.nodes.foldl (fun s e =>
    let n := s.node e.1
    let s := if n.slotOf = some pour then s.setNode e.1 { Node.free with gen := n.gen } else s
    if n.st = 1 ∧ (n.owner = some pour ∨ (n.repl ∧ n.lifetime.contains pour)) then s.freeNode e.1 none
    else if n.lifetime.contains pour then s.setNode e.1 { n with lifetime := n.lifetime.filter (· ≠ pour) }
    else s) s

/-- Every pin of a session is removed (R174). -/
def State.unpin (s : State) (session : Nat) : State :=
  { s with cru := { s.cru with nodes := s.cru.nodes.map (fun (e, n) => (e, { n with pins := NMap.erase n.pins session })) } }

/-! ### Node status and resolution (R165, R179) -/

/-- The node status word of a local node. -/
def State.nodeWord (s : State) (e holder : Nat) : Nat :=
  let n := s.node e
  let b (v : Bool) (k : Nat) : Nat := if v then 2 ^ k else 0
  n.code s.tick + n.tier * 8 + b n.repl 5 + n.depth * 2 ^ 6 + n.refs % 2 ^ 32 * 2 ^ 22 + b (n.timedIn s.tick) 54
    + b (n.lifetime.contains holder) 55

/-- Sub-cause of a node fault of a failing handle (R179): ABSENT when the node was deleted, else STALE. -/
def State.nodeSub (s : State) (idx gen : Nat) : Nat := if (s.node idx).gen = (gen + 1) % 2 ^ 22 then 1 else 0

/-- Node fault (R324, code 11). -/
def nodeFlt (sub addr idx : Nat) : Flt := ⟨11, sub, addr, idx, 0⟩

/-- Where byte `off` of a local node's node space lies (R120, R179): the ingot's entry and the slot-window address. -/
def State.nodeByte (s : State) (c : Cap) (off : Nat) : Except Flt (Nat × Nat) :=
  match s.nodeOf c with
  | none => .error (nodeFlt (s.nodeSub c.nhIndex c.nhGen) off c.nhIndex)
  | some e =>
    let p := (s.node e).size
    if p = 0 ∨ (s.node e).depth * p ≤ off then .error (capFlt .bounds off)
    else match s.anc e (off / p + 1) with
      | none => .error (nodeFlt 0 off c.nhIndex)
      | some a => .ok (a, slotAddr a + off % p)

/-! ### The instructions: checks at issue (R157, R165, R234, R235) -/

/-- A node handle operand; `loc` asks for a local or a remote one. -/
def State.handleFault (s : State) (c : Cap) (loc : Option Bool) : Option Flt :=
  if c.tag = false then some (capFlt .tag c.addr.toNat)
  else if c.otype ≠ 1 then some (capFlt .otype c.addr.toNat)
  else match loc with
    | none => none
    | some l => if decide (c.nhDev = s.boot.dev) = l then none else some (capFlt .otype c.addr.toNat)

/-- The Crucible operation is sent to the index (R164). -/
def State.kop (s : State) (i : Instr) (x : XR) (cls : Nat) (caps : List Cap) : State :=
  s.startOp { s.newOp .crucible i with val := s.rx x, val2 := BitVec.ofNat 64 cls, caps := caps }

/-- A class operand, then the rest. -/
def State.withClass (s : State) (c : BitVec 4) (need : Perm) (k : Nat → State) : State :=
  match s.classOf s.cur (s.rc c) need with
  | .error f => s.raise f
  | .ok cls => k cls

/-- A handle operand, then the rest. -/
def State.withHandle (s : State) (c : Cap) (loc : Option Bool) (k : State) : State :=
  match s.handleFault c loc with
  | some f => s.raise f
  | none => k

/-- A buffer of token ids, `n` bytes: the pieces of a global one, none of a scratchpad one. -/
def State.withBuf (s : State) (c : Cap) (n : Nat) (k : List Piece → State) : State :=
  match s.placeOf c c.addr n 1 [.ld] with
  | .fault f => s.raise f
  | .scr _ => k []
  | .glob va => match s.piecesOf s.cur va n false with
    | .error f => s.raise f
    | .ok ps => k ps

def execKmatch (g : G4) (d : XR) (a b e : BitVec 4) (s : State) : Res :=
  .next (s.withClass a .ld (fun k =>
    let buf := s.rc b
    let cnt := bits (s.rx d).toNat 31 0
    s.withBuf buf (4 * cnt) (fun ps =>
      s.startOp { s.newOp .crucible (.kmatch g d a b e) with val := s.rx d, val2 := BitVec.ofNat 64 k, caps := [buf],
                                                             addr := buf.addr.toNat, pieces := ps })))

def execKopen (g : G4) (d : XR) (a b e : BitVec 4) (s : State) : Res :=
  .next (s.withClass a .sm (fun k =>
    let p := s.rc b
    if p = Cap.null then s.kop (.kopen g d a b e) d k [p]
    else s.withHandle p (some true) (s.kop (.kopen g d a b e) d k [p])))

/-- The block that a block capability names: UNSEALED and owned by the issuing pour, ADDR at its base (R170). -/
def State.blockOf (s : State) (a : Agent) (c : Cap) : Option Nat :=
  let va := c.addr.toNat
  if inSlotWindow va = false then none
  else
    let e := slotEntry va
    let n := s.node e
    if va = slotAddr e ∧ n.st = 1 ∧ n.owner = some (s.holderOf a) then some e else none

def execKseal (g : G4) (d : XR) (a b e f : BitVec 4) (s : State) : Res :=
  .next (s.withClass a .sm (fun k =>
    let c := s.rc b
    let buf := s.rc f
    let va := c.addr.toNat
    if c.tag = false then s.capFault .tag va
    else if c.otype ≠ 0 then s.capFault .locked va
    else match s.blockOf s.cur c with
      | none => s.capFault .bounds va
      | some n =>
        if (s.node n).cls ≠ k then s.capFault .otype va
        else s.withBuf buf 128 (fun ps =>
          s.startOp { s.newOp .crucible (.kseal g d a b e f) with val2 := BitVec.ofNat 64 k, caps := [buf, c],
                                                                  addr := buf.addr.toNat, pieces := ps,
                                                                  relMark := s.nextId })))

/-- An operation on one local handle. -/
def State.kLocal (s : State) (i : Instr) (d : XR) (a : BitVec 4) : State :=
  s.withHandle (s.rc a) (some true) (s.kop i d 0 [s.rc a])

def execKlease (g : G4) (d : XR) (a : BitVec 4) (s : State) : Res := .next (s.kLocal (.klease g d a) d a)
def execKrenew (g : G4) (d : XR) (a : BitVec 4) (s : State) : Res := .next (s.kLocal (.krenew g d a) d a)
def execKdrop (g : G4) (d : XR) (a : BitVec 4) (s : State) : Res := .next (s.kLocal (.kdrop g d a) d a)

/-- KPIN and KUNPIN: the node must belong to the class (R165). -/
def State.kPin (s : State) (i : Instr) (d : XR) (a b : BitVec 4) : State :=
  s.withClass a .sm (fun k =>
    let h := s.rc b
    s.withHandle h (some true) (match s.nodeOf h with
      | some e => if (s.node e).cls = k then s.kop i d k [h] else s.capFault .otype h.addr.toNat
      | none => s.kop i d k [h]))

def execKpin (g : G4) (d : XR) (a b : BitVec 4) (s : State) : Res := .next (s.kPin (.kpin g d a b) d a b)
def execKunpin (g : G4) (d : XR) (a b : BitVec 4) (s : State) : Res := .next (s.kPin (.kunpin g d a b) d a b)

def execKrepl (g : G4) (d : XR) (a b e : BitVec 4) (s : State) : Res :=
  .next (s.withClass a .sm (fun k =>
    s.withHandle (s.rc b) (some false) (s.kop (.krepl g d a b e) d k [s.rc b])))

def execKstat (g : G4) (d : XR) (a : BitVec 4) (e : XR) (s : State) : Res :=
  .next (s.withHandle (s.rc a) none (s.kop (.kstat g d a e) d 0 [s.rc a]))

/-- A scratchpad offset, a multiple of `n` that leaves `n` bytes (R235). -/
def State.offBad (s : State) (v : Word) (n : Nat) : Bool :=
  decide (v.toNat % n ≠ 0) || decide (s.cur.scratch < v.toNat + n)

def execKclass (g : G4) (d : XR) (a : BitVec 4) (s : State) : Res :=
  .next (s.withClass a .ld (fun k =>
    if s.offBad (s.rx d) 64 then s.capFault .bounds (s.rx d).toNat else s.kop (.kclass g d a) d k []))

def execKname (g : G4) (d : XR) (a : BitVec 4) (s : State) : Res :=
  .next (s.withHandle (s.rc a) none (if s.offBad (s.rx d) 16 then s.capFault .bounds (s.rx d).toNat
    else s.kop (.kname g d a) d 0 [s.rc a]))

def execKdepth (g : G4) (d : XR) (a : BitVec 4) (s : State) : Res :=
  .next (s.withHandle (s.rc a) none (s.kop (.kdepth g d a) d 0 [s.rc a]))

def execKanc (g : G4) (d : XR) (a e : BitVec 4) (s : State) : Res :=
  .next (s.withHandle (s.rc a) none (s.kop (.kanc g d a e) d 0 [s.rc a]))

/-! ### Results (R164) -/

/-- A result word: status and value; a value the spec does not state is a free value (log entry 3). -/
def State.resultWord (s : State) (st : Nat) (v : Option Nat) : State × Word :=
  match v with
  | some n => (s, BitVec.ofNat 64 (st + n % 2 ^ 56 * 256))
  | none => ({ s with fresh := s.fresh + 1 }, BitVec.ofNat 64 (st + (Config.freeWord s.fresh).toNat % 2 ^ 56 * 256))

/-- The operation completes: its result word and what else it writes perform on g + 5 (R164, R235). -/
def State.kdone (s : State) (id : Nat) (o : Op) (d : XR) (st : Nat) (v : Option Nat) (acts : List Act) : State :=
  let r := s.resultWord st v
  let s := acts.foldl (fun s a => s.opSched o 5 a) (r.1.opSched o 5 (.x d.toNat r.2))
  s.endOp id o

/-- The token ids of an operation's buffer, once its lines may be read; `none` while they may not. All of a global buffer is read,
the ids beyond those of the walk too (log entry 85). -/
def State.tokens (s : State) (id : Nat) (o : Op) (n : Nat) : Option (State × Except Flt (List Nat)) :=
  let words (l : List Byte) : List Nat := (List.range (n / 4)).map (fun i => ofLE ((l.drop (4 * i)).take 4))
  if o.pieces = [] then
    let c := s.cellOf o.ag
    some (s, match c.spmFault (spmLines (o.addr - scratchBase) n) with
      | some f => .error f
      | none => .ok (words ((span (o.addr - scratchBase) n).map (fun a => NMap.get 0 c.spm a))))
  else if s.ready o.ag.cache false o.pieces = false ∨ s.readMay id o.ag o.pieces = false then none
  else
    let c := (s.serve id o.ag o.pieces).checkLines o.pieces false o.ag.cache
    match s.slotFault o.ag o.pieces <|> c.2 with
    | some f => some (c.1, .error f)
    | none =>
      let s := c.1.touchFor o.ag false o.pieces
      some (s, .ok (words ((s.seen o.ag o.pieces).take n)))

/-- The lines of an operation's buffer are asked for where they may not be read yet. -/
def State.askTokens (s : State) (id : Nat) (o : Op) : State :=
  if s.ready o.ag.cache false o.pieces then s
  else (s.arriveAt id o.ag.key o.pieces).askFor o.ag.cache (s.partOf o.ag) false o.pieces

/-- How a walk of KMATCH ends: depth, parent name, deepest handle, and whether a home lookup is wanted. -/
structure MatchEnd where
  d : Nat
  parent : Nat
  h : Cap
  ask : Option Nat

/-- The local steps of KMATCH from depth `d` (R166, R167). -/
def State.matchLocal (s : State) (k holder lease : Nat) (toks : List Nat) : Nat → Nat → Nat → Cap → State × MatchEnd
  | 0, d, parent, h => (s, ⟨d, parent, h, none⟩)
  | n + 1, d, parent, h =>
    let nm := nameOf parent k ((toks.drop (32 * d)).take 32)
    match s.lookup nm with
    | none => (s, ⟨d, parent, h, some nm⟩)
    | some e =>
      let s := if 0 < lease then s.grantTimed e lease else s.grantLife e holder
      s.matchLocal k holder lease toks n (d + 1) nm (s.handleOf e)

/-- Progress of an operation that asks other devices, as words: KMATCH and KREPL. -/
structure Prog where
  phase : Nat
  j : Nat
  depth : Nat
  word : Nat
  name : Nat
  entry : Nat
  stop : Nat

/-- Progress as the operation holds it. -/
def Prog.words (p : Prog) : List Word :=
  [p.phase, p.j, p.depth, p.word, p.name % 2 ^ 64, p.name / 2 ^ 64, p.entry, p.stop].map (BitVec.ofNat 64)

/-- Progress read back. -/
def Op.prog (o : Op) : Prog :=
  let w (i : Nat) : Nat := (o.res.getD i 0).toNat
  ⟨w 0, w 1, w 2, w 3, w 4 + w 5 * 2 ^ 64, w 6, w 7⟩

/-- Progress replaced, with the deepest handle so far. -/
def Op.withProg (o : Op) (p : Prog) (h : Cap) : Op := { o with res := p.words, cres := if o.cres.head? = some h then o.cres else [h] }

/-- Progress replaced, with one more handle on the path of KREPL, deepest first. -/
def Op.deeper (o : Op) (p : Prog) (h : Cap) : Op := { o with res := p.words, cres := h :: o.cres }

/-- The deepest handle so far. -/
def Op.best (o : Op) : Cap := o.cres.headD Cap.null

/-- A remote device is asked about a node; a dead one is not (R397). -/
def State.askStat (s : State) (op : Nat) (c : Cap) (j : Nat) : State :=
  let r := s.openXact .stat c.nhDev op 0 j 0
  r.1.sendMsg c.nhDev 11 0 r.2 0 (leBytes c.nhIndex 4 ++ leBytes c.nhGen 4 ++ leBytes j 2)

/-- A read of node space is asked of the holder (R395, R397). -/
def State.askRead (s : State) (copy : Option Nat) (op : Nat) (c : Cap) (off len tag : Nat) : State :=
  let r := s.openXact (.read copy) c.nhDev op 0 off len
  r.1.sendMsg c.nhDev 3 0 r.2 0
    (leBytes c.nhIndex 4 ++ leBytes c.nhGen 4 ++ leBytes off 8 ++ leBytes len 8 ++ leBytes tag 4)

/-- KMATCH at the index (R166); phase 0 walks, phase 1 waits for a home's answer, phase 2 ends with status `stop`. -/
def State.kmatchStep (s : State) (id : Nat) (o : Op) (d : XR) (cd : BitVec 4) : State :=
  let w := o.val.toNat
  let chunks := min (bits w 31 0 / 32) 4096
  let k := o.val2.toNat
  let p := o.prog
  let finish (s : State) (st dep : Nat) (h : Cap) : State := s.kdone id o d st (some dep) [.c cd.toNat h]
  if p.phase = 1 then s
  else if p.phase = 2 then finish s p.stop p.depth o.best
  else match s.tokens id o (128 * chunks) with
    | none => s.askTokens id o
    | some (s, .error f) => s.failOp id o f
    | some (s, .ok toks) =>
      let start := if p.depth = 0 then s.crRoot k else p.name
      let remote := p.j = 1
      let r := if remote then (s, ⟨p.depth, start, o.best,
          if p.depth < chunks then some (nameOf start k ((toks.drop (32 * p.depth)).take 32)) else none⟩)
        else s.matchLocal k (s.holderOf o.ag) (bits w 47 32) toks (chunks - p.depth) p.depth start o.best
      let s := r.1
      match (if bitOf w 48 then r.2.ask else none) with
      | none => finish s 0 r.2.d r.2.h
      | some nm =>
        match s.homeOf nm with
        | none => finish s 0 r.2.d r.2.h
        | some dev =>
          if dev = s.boot.dev then
            match s.dirFind nm dev with
            | none => finish s 0 r.2.d r.2.h
            | some (hw, _) => s.setOp id (o.withProg ⟨0, 1, r.2.d + 1, 0, nm, 0, 0⟩ (wordHandle hw))
          else if s.peerDead dev then finish s 8 r.2.d r.2.h
          else
            let q := s.openXact .lookup dev id nm 0 0
            (q.1.sendMsg dev 1 0 q.2 nm []).setOp id (o.withProg ⟨1, 1, r.2.d, 0, r.2.parent, 0, 0⟩ r.2.h)

/-- KOPEN at the index (R168). -/
def State.kopenStep (s : State) (id : Nat) (o : Op) (d : XR) (cd : BitVec 4) : State :=
  let k := o.val2.toNat
  let tier := o.val.toNat % 4
  let h := o.caps.headD Cap.null
  let part := s.crPart k
  let size := s.crSize k
  let parent := if h = Cap.null then none else s.nodeOf h
  let n := match parent with
    | some p => s.node p
    | none => Node.free
  if h ≠ Cap.null ∧ parent = none then s.kdone id o d 3 none []
  else if s.crTier k tier = false ∨ (s.crQuota k ≠ 0 ∧ s.crQuota k ≤ s.classUse k) ∨ n.depth = 65535 then
    s.kdone id o d 6 none []
  else if parent ≠ none ∧ 2 ^ 32 - 1 ≤ n.refs then s.kdone id o d 2 none []
  else
    let s1 := match parent with
      | some p => s.setNode p { n with children := n.children + 1 }
      | none => s
    let r := s1.room part tier size
    if r.2 then
      let q := r.1.takeBlock k part tier o.ag.die parent (some (s.holderOf o.ag)) false
      q.1.kdone id o d 0 none [.c cd.toNat (blockCap q.2 size)]
    else (r.1.dropChild parent).kdone id o d 2 none []

/-- KSEAL at the index (R170, R171). -/
def State.ksealStep (s : State) (id : Nat) (o : Op) (d : XR) (cb cd : BitVec 4) : State :=
  let c := o.caps.getD 1 Cap.null
  let held := s.held o.ag id o.relMark o.pieces || s.owes o.ag id true
  if held then s
  else match s.blockOf o.ag c with
    | none => s.failOp id o (capFlt .bounds c.addr.toNat)
    | some e =>
      match s.tokens id o 128 with
      | none => s.askTokens id o
      | some (s, .error f) => s.failOp id o f
      | some (s, .ok toks) =>
        let n := s.node e
        let p := match n.parent with
          | some q => (s.node q).name
          | none => s.crRoot n.cls
        let nm := nameOf p n.cls toks
        let pour := s.holderOf o.ag
        let block (v : Cap) : List Act := if cb = cd then [] else [.c cb.toNat v]
        match s.lookup nm with
        | some x =>
          let s := (s.grantLife x pour).freeNode e (some pour)
          s.kdone id o d 1 (some (s.node x).depth) (block { c with tag := false } ++ [.c cd.toNat (s.handleOf x)])
        | none =>
          let s := ((s.setNode e { n with st := 2, name := nm, owner := none }).grantLife e pour).register e
          s.kdone id o d 0 (some n.depth)
            (block { c with perms := c.perms &&& ~~~ 2 } ++ [.c cd.toNat (s.handleOf e)])

/-- What a node accessor asks for and writes, from the node's status word, name, depth and ancestor (R165). -/
def State.kAnswer (s : State) (id : Nat) (o : Op) (word name depth : Nat) (anc : Option Cap) : State :=
  match o.i with
  | .kstat _ d _ e => s.kdone id o d 0 none [.x e.toNat (BitVec.ofNat 64 word)]
  | .kname _ d _ => s.kdone id o d 0 (some depth) [.st (wholeBytes o.val.toNat (leBytes name 16)) [] 0]
  | .kdepth _ d _ => s.kdone id o d 0 (some depth) []
  | .kanc _ d _ e =>
    (match anc with
    | none => s.failOp id o (capFlt .bounds o.val.toNat)
    | some h => s.kdone id o d 0 (some o.val.toNat) [.c e.toNat h])
  | _ => s

/-- The node accessors at the index; a remote node is asked of its holder (R165, R397). Phase 2 carries the answer. -/
def State.kNode (s : State) (id : Nat) (o : Op) (d : XR) (j : Nat) : State :=
  let h := o.caps.headD Cap.null
  let p := o.prog
  if h.nhDev = s.boot.dev then
    match s.nodeOf h with
    | none => s.kdone id o d 3 none []
    | some e =>
      let n := s.node e
      let anc := if 1 ≤ j ∧ j ≤ n.depth then (s.anc e j).map s.handleOf else none
      s.kAnswer id o (s.nodeWord e (s.holderOf o.ag)) n.name n.depth anc
  else if p.phase = 1 then s
  else if p.phase = 2 then
    if p.stop ≠ 0 then s.kdone id o d p.stop none []
    else s.kAnswer id o p.word p.name p.depth (if o.best = Cap.null then none else some o.best)
  else if s.peerDead h.nhDev then s.kdone id o d 8 none []
  else (s.askStat id h (if j < 2 ^ 16 then j else 0)).setOp id (o.withProg ⟨1, j, 0, 0, 0, 0, 0⟩ Cap.null)

/-- KREPL (R182). Phases: 0 start; 1 the node's depth is asked; 2 next ancestor; 3 its word is asked; 4 word known;
5 its name is asked; 6 name known; 7 it is fetched; 8 fetched; 9 ends with status `stop`. A tier of 3 is refused before anything
is asked (R235). The handle and the value are those of the deepest node of the path that is present at the end; which ancestors
count as replicas is log entry 68. Where another operation has sealed the name during the fetch, the fetched bytes are discarded
(log entry 85). -/
def State.kreplStep (s : State) (id : Nat) (o : Op) (d : XR) (cd : BitVec 4) : State :=
  let k := o.val2.toNat
  let tier := o.val.toNat % 4
  let h := o.caps.headD Cap.null
  let p := o.prog
  let part := s.crPart k
  let size := s.crSize k
  let last := if o.best = Cap.null then none else s.nodeOf o.best
  let finish (s : State) (st : Nat) : State :=
    let best := (o.cres.find? (fun c => (s.nodeOf c).isSome)).getD Cap.null
    let depth := match s.nodeOf best with
      | some e => (s.node e).depth
      | none => 0
    s.kdone id o d st (some depth) [.c cd.toNat best]
  let ask (s : State) (c : Cap) (j ph : Nat) : State :=
    if s.peerDead h.nhDev then finish s 8 else (s.askStat id c j).setOp id (o.withProg { p with phase := ph } o.best)
  match p.phase with
  | 0 => if tier = 3 then s.kdone id o d 6 none [] else ask s h 0 1
  | 2 => if p.depth < p.j then finish s (if s.crTier k tier then 0 else 6) else ask s h p.j 3
  | 4 => ask s (wordHandle p.word) 0 5
  | 6 =>
    (match s.lookup p.name with
    | some e => s.setOp id (o.deeper { p with phase := 2, j := p.j + 1 } (s.handleOf e))
    | none =>
      if 1 < p.j ∧ last = none then s.setOp id (o.withProg { p with phase := 2, j := 1 } Cap.null)
      else if s.crTier k tier = false ∨ (s.crQuota k ≠ 0 ∧ s.crQuota k ≤ s.classUse k) then finish s 6
      else if last.any (fun q => decide (2 ^ 32 - 1 ≤ (s.node q).refs)) then finish s 2
      else
        let s1 := match last with
          | some q => s.setNode q { s.node q with children := (s.node q).children + 1 }
          | none => s
        let r := s1.room part tier size
        if r.2 = false then finish (r.1.dropChild last) 2
        else if s.peerDead h.nhDev then finish (r.1.dropChild last) 8
        else
          let q := r.1.takeBlock k part tier o.ag.die last none true
          let s := q.1.setNode q.2 { q.1.node q.2 with lifetime := [s.holderOf o.ag] }
          (s.askRead none id (wordHandle p.word) ((p.j - 1) * size) size 0).setOp id
            (o.withProg { p with phase := 7, entry := q.2 } o.best))
  | 8 => match s.lookup p.name with
    | some e => (s.freeNode p.entry none).setOp id (o.deeper { p with phase := 2, j := p.j + 1 } (s.handleOf e))
    | none =>
    let s := (s.setNode p.entry { s.node p.entry with st := 2, name := p.name, lastUse := s.tick }).register p.entry
    s.setOp id (o.deeper { p with phase := 2, j := p.j + 1 } (s.handleOf p.entry))
  | 9 => finish s p.stop
  | _ => s

/-- A Crucible operation is carried out at the index as far as it can be now. -/
def State.crucibleStep (s : State) (id : Nat) (o : Op) : State :=
  match o.i with
    | .kmatch _ d _ _ e => s.kmatchStep id o d e
    | .kopen _ d _ _ e => s.kopenStep id o d e
    | .kseal _ d _ b e _ => s.ksealStep id o d b e
    | .klease _ d _ =>
      (match s.nodeOf (o.caps.headD Cap.null) with
      | none => s.kdone id o d 3 none []
      | some e =>
        let s := s.grantTimed e (max 1 (bits o.val.toNat 15 0))
        s.kdone id o d 0 (some ((s.node e).timed.getD 0)) [])
    | .krenew _ d _ =>
      (match s.nodeOf (o.caps.headD Cap.null) with
      | none => s.kdone id o d 3 none []
      | some e =>
        if (s.node e).timedIn s.tick = false then s.kdone id o d 4 none []
        else
          let s := s.grantTimed e (max 1 (bits o.val.toNat 15 0))
          s.kdone id o d 0 (some ((s.node e).timed.getD 0)) [])
    | .kdrop _ d _ =>
      (match s.nodeOf (o.caps.headD Cap.null) with
      | none => s.kdone id o d 3 none []
      | some e =>
        let n := s.node e
        let p := s.holderOf o.ag
        if n.lifetime.contains p then
          (s.setNode e { n with lifetime := n.lifetime.filter (· ≠ p) }).kdone id o d 0 (some 0) []
        else s.kdone id o d 5 none [])
    | .kpin _ d _ _ =>
      (match s.nodeOf (o.caps.headD Cap.null) with
      | none => s.kdone id o d 3 none []
      | some e =>
        let n := s.node e
        let i := s.pinnerOf o.ag
        if 2 ^ 32 - 1 ≤ n.refs then s.kdone id o d 2 none []
        else (s.setNode e { n with pins := NMap.put n.pins i (NMap.get 0 n.pins i + 1) }).kdone id o d 0
          (some (n.refs + 1)) [])
    | .kunpin _ d _ _ =>
      (match s.nodeOf (o.caps.headD Cap.null) with
      | none => s.kdone id o d 3 none []
      | some e =>
        let n := s.node e
        let i := s.pinnerOf o.ag
        if NMap.get 0 n.pins i = 0 then s.kdone id o d 5 none []
        else (s.setNode e { n with pins := NMap.set 0 n.pins i (NMap.get 0 n.pins i - 1) }).kdone id o d 0
          (some (n.refs - 1)) [])
    | .krepl _ d _ _ e => s.kreplStep id o d e
    | .kclass _ d _ =>
      s.kdone id o d 0 (some 0)
        [.st (wholeBytes o.val.toNat (s.readBytes (s.crAddr o.val2.toNat) 64)) [] 0]
    | .kstat _ d _ _ => s.kNode id o d 0
    | .kname _ d _ => s.kNode id o d 0
    | .kdepth _ d _ => s.kNode id o d 0
    | .kanc _ d _ _ => s.kNode id o d o.val.toNat
    | _ => s

/-- A Crucible operation reaches the index; of those that reach it on one wall cycle, one of a lower cell number than the last
waits for the next cycle (R171, R183). -/
def execCrucibleCompletion (id : Nat) (s : State) : Res :=
  match NMap.find s.ops id with
  | none => .next s
  | some o =>
    .next (if o.k ≠ .crucible ∨ o.stage = 3 ∨ o.ag.key < s.cru.turn then s
      else match o.flt with
      | some f => s.failOp id o f
      | none => ({ s with cru := { s.cru with turn := o.ag.key } }).crucibleStep id o)

/-! ### Ticks, leases and demotion (R172, R178, R396, R397) -/

/-- The tick count advances (R172): every 2^16 wall cycles. -/
def execLeaseTick (s : State) : Res := .next { s with tick := (s.tick + 1) % 2 ^ 32 }

/-- A timed lease whose expiry the tick count has reached is no longer kept. -/
def execTimedLeaseExpiry (e : Nat) (s : State) : Res :=
  let n := s.node e
  if n.timed.isSome ∧ n.timedIn s.tick = false then .next (s.setNode e { n with timed := none }) else .next s

/-- The lease's ingot bytes sent so far go on from `next` (R397). -/
def XLease.left (l : XLease) : Nat := l.stop - l.next

/-- The transfer leases of one READ: one on each ingot of its range. -/
def XLease.sameRead (dev tx : Nat) (l : XLease) : Bool := l.dev == dev && l.tx == tx

/-- A transfer lease expires before its last flit: LAPSE with the first unsent offset of the read, whose leases close
(R397). -/
def execTransferLeaseExpiry (e dev tx : Nat) (s : State) : Res :=
  let n := s.node e
  match n.leases.find? (XLease.sameRead dev tx) with
  | none => .next s
  | some l =>
    if inForce l.expiry s.tick then .next s
    else
      let all := s.cru.nodes.flatMap (fun q => q.2.leases.filter (XLease.sameRead dev tx))
      let first := all.foldl (fun m q => min m q.next) l.next
      let shut (q : Node) : Node := { q with leases := q.leases.filter (fun l => !l.sameRead dev tx) }
      let s := { s with cru := { s.cru with nodes := s.cru.nodes.map (fun (i, q) => (i, shut q)) } }
      .next (if l.left = 0 then s else s.sendMsg dev 9 0 tx n.name (leBytes first 8))

/-- A demotion's copy is complete: the entry switches to its new slot, unless a lease was granted meanwhile (R178). -/
def execDemotionSwitch (e : Nat) (s : State) : Res :=
  let n := s.node e
  match n.demote with
  | none => .next s
  | some t => .next (s.setNode e { n with tier := t, slice := 0, demote := none })

/-- RENEW goes to every home device of the map (R396). -/
def execRenewPeriod (s : State) : Res :=
  let base := (s.csrGet 0x540).toNat
  let homes := ((List.range 4096).filterMap (fun i =>
    let w := s.readLE (base + 4 * i) 4
    if bitOf w 31 ∧ w % 2 ^ 18 ≠ s.boot.dev then some (w % 2 ^ 18) else none)).eraseDups
  .next (homes.foldl (fun s d => s.sendMsg d 8 0 0 0 []) { s with cru := { s.cru with renewed := s.tick } })

/-- The devices, this one apart, that hold an ingot of a record of this home (R394, R396). -/
def State.holderDevs (s : State) : List Nat :=
  ((s.cru.dir.flatMap (fun r => r.holders.map (· % 2 ^ 18))).eraseDups).filter (· ≠ s.boot.dev)

/-- Nothing has been heard of a holder for 16,384 ticks: its holders are removed and it is dead to the directory (R396). -/
def execHolderTimeout (dev : Nat) (s : State) : Res :=
  let t := NMap.get 0 s.cru.heard dev
  if s.holderDevs.contains dev = false then .next s
  else if (s.tick + 2 ^ 32 - t) % 2 ^ 32 < 16384 then .next s
  else
    let s := s.dirDrop (fun _ w => w % 2 ^ 18 == dev)
    .next { s with cru := { s.cru with gone := NSet.add s.cru.gone dev } }

end Sys2Proof.Machine
end

