-- ==== Sys2Proof/Machine/Lattice.lean ====
section
/-!
DEFINITION. The Lattice-8 formats: decoding and the quantiser (spec/04_lattice_format.md R76 to R86).
-/
namespace Sys2Proof.Machine

/-- A lattice format: `wide` is L8X32, else L8X16. -/
abbrev LFmt := Bool

/-- Bytes of a codeword. -/
def cwBytes (wide : LFmt) : Nat := if wide then 4 else 2

/-- Parity of the stored low bits that gives bit 0 of n_7 (R77, R78). -/
def lowParity (wide : LFmt) (cw : Nat) : Nat :=
  if parityN 32 (cw &&& (if wide then 0x01111111 else 0x1555)) then 1 else 0

/-- The integers n_0 to n_7 of a codeword (R79). -/
def cwCoords (wide : LFmt) (cw : Nat) : List Int :=
  if wide then
    (List.range 7).map (fun j => sx 4 (bits cw (4 * j + 3) (4 * j))) ++ [sx 4 (bits cw 30 28 * 2 + lowParity wide cw)]
  else
    (List.range 7).map (fun j => sx 2 (bits cw (2 * j + 1) (2 * j))) ++ [sx 2 (bits cw 14 14 * 2 + lowParity wide cw)]

/-- The coset of a codeword (R77, R78). -/
def cwCoset (wide : LFmt) (cw : Nat) : Nat := if wide then bits cw 31 31 else bits cw 15 15

/-- DecE8 (R79): eight exact values; a NaN scale makes all NaN. -/
def decE8 (wide : LFmt) (cw : Nat) (s : Num) : List Num :=
  (cwCoords wide cw).map (fun n =>
    let v := 2 * n + (cwCoset wide cw : Int)
    ((Num.fin (decide (v < 0)) v.natAbs (-1)).mul s).1)

/-- EncE8 (R83). -/
def encE8 (wide : LFmt) (n : List Int) (c : Nat) : Nat :=
  let k := if wide then 4 else 2
  let low := (List.range 7).foldl (fun a j => a + wrap k (n.getD j 0) * 2 ^ (k * j)) 0
  low + (wrap k (n.getD 7 0) / 2) * 2 ^ (7 * k) + c * 2 ^ (8 * k - 1)

/-- The box of a format (R83). -/
def boxLo (wide : LFmt) : Int := if wide then -8 else -2
def boxHi (wide : LFmt) : Int := if wide then 7 else 1

/-- Nearest integer of a / d, ties to even. -/
def rneDiv (a : Int) (d : Nat) : Int :=
  let q := a / (d : Int)
  let r := 2 * (a % (d : Int))
  if r < d then q else if r > d then q + 1 else if q % 2 = 0 then q else q + 1

/-- A box, or none when it is unbounded. -/
abbrev Box := Option (Int × Int)

/-- An integer brought into a box. -/
def Box.clamp (b : Box) (n : Int) : Int :=
  match b with
  | none => n
  | some (lo, hi) => if n < lo then lo else if hi < n then hi else n

/-- The integer lies in the box. -/
def Box.holds (b : Box) (n : Int) : Bool :=
  match b with
  | none => true
  | some (lo, hi) => decide (lo ≤ n) && decide (n ≤ hi)

/-- The step of least cost in the candidate order of R82: position, step and gain, in units of 1/d. -/
def bestStep (b : Box) (d : Nat) : List (Nat × Int × Int) → Option (Nat × Int × Int) → Option (Nat × Int × Int)
  | [], best => best
  | (j, n, r) :: l, best =>
    let try1 (step : Int) (best : Option (Nat × Int × Int)) : Option (Nat × Int × Int) :=
      if b.holds (n + step) then
        match best with
        | none => some (j, step, step * r)
        | some (_, _, g) => if step * r > g then some (j, step, step * r) else best
      else best
    bestStep b d l (try1 (-1) (try1 1 best))

/-- NearestCoset (R82) of y_j = a_j / d under a lane mask and a box. -/
def nearestCoset (b : Box) (d : Nat) (a : List Int) (m : List Bool) : List Int :=
  let n := (List.range 8).map (fun j => if m.getD j false then b.clamp (rneDiv (a.getD j 0) d) else 0)
  if n.foldl (· + ·) 0 % 2 = 0 then n
  else
    let cand := (List.range 8).filterMap (fun j =>
      if m.getD j false then some (j, n.getD j 0, a.getD j 0 - n.getD j 0 * (d : Int)) else none)
    match bestStep b d cand none with
    | none => n
    | some (j, step, _) => n.set j (n.getD j 0 + step)

/-- Squared distance of a / d from n + shift / 2, in units of 1 / (2 d)². -/
def dist2 (d : Nat) (a n : List Int) (shift : Int) : Int :=
  (List.range 8).foldl (fun acc j =>
    let e := 2 * a.getD j 0 - (2 * n.getD j 0 + shift) * (d : Int)
    acc + e * e) 0

/-- Pick (R83): coset and integers, the nearer of the two cosets for a full group, ties to the integer coset. `d` is even. -/
def pick (b : Box) (d : Nat) (a : List Int) (m : List Bool) : Nat × List Int :=
  let n0 := nearestCoset b d a m
  if m.all id = false then (0, n0)
  else
    let n1 := nearestCoset b d (a.map (· - ((d / 2 : Nat) : Int))) m
    if dist2 d a n1 1 < dist2 d a n0 0 then (1, n1) else (0, n0)

/-- The exact quotients x_j / s as numerators over one even denominator; an infinite quotient counts as ±2^20 (R83). -/
def quotients (x : List Num) (s : Num) : List Int × Nat :=
  match s with
  | .fin sneg sm se =>
    let u := minExpo 200 x
    let d := 2 * (if u ≥ se then sm else scaleTo sm se u)
    let num (v : Num) : Int :=
      let k : Int := match v with
        | .inf neg => if neg then -((2 ^ 20 * d : Nat) : Int) else ((2 ^ 20 * d : Nat) : Int)
        | _ => if v.isZero then 0 else 2 * (if u ≥ se then v.units u * ((2 ^ (u - se).toNat : Nat) : Int) else v.units u)
      if sneg then -k else k
    (x.map num, d)
  | _ => ([], 2)

/-- QuantE8 (R83) after the block checks: the codeword and whether the point left the box. -/
def quantE8 (wide : LFmt) (x : List Num) (s : Num) (m : List Bool) : Nat × Bool :=
  let q := quotients x s
  let p := pick none q.2 q.1 m
  if p.2.any (fun n => decide (n < boxLo wide) || decide (boxHi wide < n)) then
    let p := pick (some (boxLo wide, boxHi wide)) q.2 q.1 m
    (encE8 wide p.2 p.1, true)
  else (encE8 wide p.2 p.1, false)

/-- An element of a block as the quantiser takes it: its value, its scale, whether its lane is valid. -/
structure QLane where
  x : Num
  s : Num
  live : Bool

/-- The product of exact numbers. -/
def prodNum (l : List Num) : Num := l.foldl (fun a b => (a.mul b).1) (.fin false 1 0)

/-- One group of 8 quantised (R83, R86). Each lane is divided by its own scale: value and divisor are both multiplied by the
other scales of the group, so that one divisor serves all lanes; with one scale in the group nothing changes. -/
def quantGroup (wide : LFmt) (g : List QLane) : Nat × Bool :=
  let ss := ((g.filter (·.live)).map (·.s)).eraseDups
  if ss = [] then (0, false)
  else quantE8 wide (g.map (fun v => if v.live then (v.x.mul (prodNum (ss.erase v.s))).1 else .fin false 0 0)) (prodNum ss)
    (g.map (·.live))

/-- What the block checks of R84 find. -/
inductive BlockCheck where
  | nanScale | nanElem | zeroScale | fine
  deriving DecidableEq, Repr

/-- The first row of the table of R84 that applies to a block with these scales. -/
def blockCheck (ss : List Num) (b : List QLane) : BlockCheck :=
  if ss.any Num.isNan then .nanScale
  else if b.any (fun v => v.live && v.x.isNan) then .nanElem
  else if ss.any Num.isZero then .zeroScale else .fine

/-- The codewords and flags of a block with these scales (R84); `satf` is the overflow mode. -/
def quantLanes (wide : LFmt) (satf : Bool) (ss : List Num) (b : List QLane) : List Nat × FFlags :=
  let groups := (List.range (b.length / 8)).map (fun g => (b.drop (8 * g)).take 8)
  let zeros := groups.map (fun _ => 0)
  match blockCheck ss b with
  | .nanScale => (zeros, fLI)
  | .nanElem => (zeros, fLI)
  | .zeroScale => (zeros, if satf ∧ b.any (fun v => v.live && !v.x.isZero) then fLO else 0)
  | .fine =>
    let r := groups.map (quantGroup wide)
    (r.map (·.1), if satf ∧ r.any (·.2) then fLO else 0)

/-- A scale block quantised (R84): its codewords, the scale byte delivered, the flags. Elements come with their lane
mask; `e4` says that the scale is E4M3, `satf` is the overflow mode. -/
def quantBlock (wide : LFmt) (satf e4 : Bool) (scale : Nat) (x : List (Num × Bool)) : List Nat × Nat × FFlags :=
  let s := decScale e4 scale
  let b := x.map (fun v => (⟨v.1, s, v.2⟩ : QLane))
  let r := quantLanes wide satf [s] b
  (r.1, if blockCheck [s] b = .nanElem then (if e4 then 0x7F else 0xFF) else scale, r.2)

end Sys2Proof.Machine
end

