-- ==== Sys2Proof/Machine/Vector.lean ====
section
/-!
DEFINITION. The vector engine: shape register, lane arithmetic, conversions, reductions, moves, lattice quantise and
decode, predicates (spec/11_vector_instructions.md R240 to R256, R262 to R266).
-/
namespace Sys2Proof.Machine

abbrev VR := BitVec 6
abbrev PR := BitVec 3

/-! ### The shape register (R240, R241) -/

def vshVl (w : Word) : Nat := bits w.toNat 6 0
def vshEt (w : Word) : Nat := bits w.toNat 10 7
def vshRm (w : Word) : Nat := bits w.toNat 13 11
def vshSat (w : Word) : Bool := bitOf w.toNat 14
def vshSf (w : Word) : Bool := bitOf w.toNat 15
def vshBlk (w : Word) : Nat := if bitOf w.toNat 16 then 32 else 16
def vshDesc (w : Word) : BitVec 16 := BitVec.ofNat 16 (bits w.toNat 47 32)

/-- A value is legal for vsh (R240). -/
def vshLegal (w : Word) : Bool :=
  decide (vshVl w ≤ 64) && decide (vshEt w ≤ 10) && decide (vshRm w ≤ 4)
    && (if vshEt w = 7 ∨ vshDesc w ≠ 0 then descLegal (vshDesc w) else true)
    && decide (bits w.toNat 31 17 = 0) && decide (bits w.toNat 63 48 = 0)

/-- vsh with another VL. -/
def vshWithVl (w : Word) (n : Nat) : Word := BitVec.ofNat 64 (w.toNat / 128 * 128 + n)

def execVshapeWr (g : G4) (x : XR) (s : State) : Res :=
  let v := s.rx x
  .next (if vshLegal v then (s.sched 1 (.vsh v)).advance else s.illShape (.vshapeWr g x) v.toNat)

def execVshapeRd (_ : G4) (x : XR) (s : State) : Res := .next (s.schedX 2 x s.cell.vsh).advance

def execVshapeVl (_ : G4) (x : XR) (s : State) : Res := .next (s.sched 1 (.vl (min (s.rx x).toNat 64))).advance

/-- The mode of a code; 7 takes the dynamic mode (R64). -/
def modeOf (dyn code : Nat) : RMode := ((RMode.ofCode (if code = 7 then dyn else code)).getD .rne)

/-! ### Lanes (R242) -/

/-- The lanes active under VL and a predicate: bit i of the word. -/
def State.active (s : State) (pg : PR) : Word :=
  let vl := vshVl s.cell.vsh
  s.cell.rp pg.toNat &&& BitVec.ofNat 64 (2 ^ vl - 1)

/-- The lanes below VL. -/
def State.below (s : State) : Word := BitVec.ofNat 64 (2 ^ vshVl s.cell.vsh - 1)

/-- The 64 lanes of a register image. -/
def lanesOf (v : Line256) : List Lane := (List.range 64).map (laneOf v)

/-- The register image of 64 lanes, lane 0 lowest. -/
def packLanes : List Lane → Nat
  | [] => 0
  | a :: l => a.toNat + 2 ^ 32 * packLanes l

/-- The register image of lanes. -/
def ofLanes (l : List Lane) : Line256 := BitVec.ofNat 2048 (packLanes l)

/-- The issuing cell's register as lanes. -/
def State.lanes (s : State) (r : VR) : List Lane := lanesOf (s.cell.rv r.toNat)

/-- Lane results and flags computed on the active lanes only (R72, R74): inactive lanes hold 0 and set nothing. -/
def mapActive (act : Word) (f : Nat → Lane × FFlags) : List Lane × FFlags :=
  let r := (List.range 64).map (fun i => if act.toNat.testBit i then f i else (0, 0))
  (r.map (·.1), r.foldl (fun a x => a ||| x.2) 0)

/-- The active lanes of v[d] and the flags written on g + lat. -/
def State.vwrite (s : State) (lat : Nat) (d : VR) (act : Word) (r : List Lane × FFlags) : Res :=
  .next ((s.sched lat (.v d.toNat act (ofLanes r.1))).schedFlags lat r.2).advance

/-- A binary lane operation (R246, R250). -/
def State.vbin (s : State) (lat : Nat) (d a b : VR) (p : PR) (f : Lane → Lane → Lane × FFlags) : Res :=
  let x := s.lanes a
  let y := s.lanes b
  let act := s.active p
  s.vwrite lat d act (mapActive act (fun i => f (x.getD i 0) (y.getD i 0)))

/-- A ternary lane operation with the old destination (R246). -/
def State.vter (s : State) (d a b : VR) (p : PR) (f : Lane → Lane → Lane → Lane × FFlags) : Res :=
  let x := s.lanes a
  let y := s.lanes b
  let z := s.lanes d
  let act := s.active p
  s.vwrite 4 d act (mapActive act (fun i => f (z.getD i 0) (x.getD i 0) (y.getD i 0)))

/-- A unary lane operation (R247, R248). -/
def State.vun (s : State) (lat : Nat) (d a : VR) (p : PR) (f : Lane → Lane × FFlags) : Res :=
  let x := s.lanes a
  let act := s.active p
  s.vwrite lat d act (mapActive act (fun i => f (x.getD i 0)))

/-- The dynamic rounding mode of vec. -/
def State.vrm (s : State) : RMode := modeOf (vshRm s.cell.vsh) 7

/-! ### Floating arithmetic (R246 to R248) -/

def execVadd (_ : G4) (d a b : VR) (p : PR) (s : State) : Res := s.vbin 4 d a b p (addF32 s.vrm)
def execVsub (_ : G4) (d a b : VR) (p : PR) (s : State) : Res := s.vbin 4 d a b p (subF32 s.vrm)
def execVmul (_ : G4) (d a b : VR) (p : PR) (s : State) : Res := s.vbin 4 d a b p (mulF32 s.vrm)
def execVfma (_ : G4) (d a b : VR) (p : PR) (s : State) : Res := s.vter d a b p (fmaF32 s.vrm false)
def execVfms (_ : G4) (d a b : VR) (p : PR) (s : State) : Res := s.vter d a b p (fmaF32 s.vrm true)
def execVmax (_ : G4) (d a b : VR) (p : PR) (s : State) : Res := s.vbin 4 d a b p (fun x y => (maxF32 x y, 0))
def execVmin (_ : G4) (d a b : VR) (p : PR) (s : State) : Res := s.vbin 4 d a b p (fun x y => (minF32 x y, 0))

/-- A lane with NaN made canonical (R68). -/
def canonLane (a : Lane) : Lane := if (laneNum a).isNan then canonNaN32 else a

/-- VABS (R247). -/
def absLane (a : Lane) : Lane := if (laneNum a).isNan then canonNaN32 else a &&& 0x7FFFFFFF

/-- VNEG (R247). -/
def notLane (a : Lane) : Lane := if (laneNum a).isNan then canonNaN32 else negLane a

def execVabs (_ : G4) (d a : VR) (p : PR) (s : State) : Res := s.vun 4 d a p (fun x => (absLane x, 0))
def execVneg (_ : G4) (d a : VR) (p : PR) (s : State) : Res := s.vun 4 d a p (fun x => (notLane x, 0))
def execVrcp (_ : G4) (d a : VR) (p : PR) (s : State) : Res := s.vun 8 d a p (approxLane .rcp)
def execVrsq (_ : G4) (d a : VR) (p : PR) (s : State) : Res := s.vun 8 d a p (approxLane .rsq)
def execVexp2 (_ : G4) (d a : VR) (p : PR) (s : State) : Res := s.vun 8 d a p (approxLane .exp2)
def execVlog2 (_ : G4) (d a : VR) (p : PR) (s : State) : Res := s.vun 8 d a p (approxLane .log2)

/-! ### Conversion (R249) -/

/-- The floating format of a code, minifloats by their descriptor. -/
def ffOf (desc : BitVec 16) : Nat → Option FF
  | 0 => some FF.f32 | 1 => some FF.bf16 | 2 => some FF.f16 | 7 => some (FF.ofDesc desc) | _ => none

/-- Bits of an integer format (R55). -/
def intBits : Nat → Nat
  | 3 => 32 | 4 => 16 | 5 => 8 | 6 => 4 | _ => 32

/-- An n-bit two's complement value as an INT32 lane. -/
def intLane (n v : Nat) : Lane := BitVec.ofInt 32 (sx n v)

/-- A number rounded to a format and delivered in lane form (R243, R249). -/
def cvtNum (desc : BitVec 16) (tgt : Nat) (mode : RMode) (sat : Bool) (x : Num) : Lane × FFlags :=
  match ffOf desc tgt with
  | some f =>
    let r := roundTo f mode sat x
    (BitVec.ofNat 32 (FF.f32.enc r.1), r.2)
  | none =>
    let n := intBits tgt
    let r := toIntN n mode x
    (intLane n r.1, r.2)

/-- An integer lane converted (R249). -/
def cvtInt (desc : BitVec 16) (tgt : Nat) (mode : RMode) (sat : Bool) (a : Lane) : Lane × FFlags :=
  match ffOf desc tgt with
  | some _ => cvtNum desc tgt mode sat (intNum a.toInt)
  | none =>
    let n := intBits tgt
    if n = 32 then (a, 0)
    else
      let r := narrowInt n sat a.toInt
      (intLane n r.1, r.2)

/-- VCVT of one lane by its source kind: 0 F-lane, 1 I-lane, 2 scale byte. -/
def cvtLane (vsh : Word) (tgt sk : Nat) (mode : RMode) (a : Lane) : Lane × FFlags :=
  let sat := vshSat vsh
  match sk with
  | 1 => cvtInt (vshDesc vsh) tgt mode sat a
  | 2 => cvtNum (vshDesc vsh) tgt mode sat (decScale (vshSf vsh) (a.toNat % 256))
  | _ => cvtNum (vshDesc vsh) tgt mode sat (laneNum a)

def execVcvt (g : G4) (d a : VR) (t : BitVec 4) (k : BitVec 2) (r : BitVec 3) (s : State) : Res :=
  let vsh := s.cell.vsh
  if t = 7 ∧ descLegal (vshDesc vsh) = false then .next (s.illShape (.vcvt g d a t k r) (vshDesc vsh).toNat)
  else
    let x := s.lanes a
    let mode := modeOf (vshRm vsh) r.toNat
    s.vwrite 4 d s.below (mapActive s.below (fun i => cvtLane vsh t.toNat k.toNat mode (x.getD i 0)))

/-! ### Integer and logic (R250) -/

def execViadd (_ : G4) (d a b : VR) (p : PR) (s : State) : Res := s.vbin 2 d a b p (fun x y => (x + y, 0))
def execVisub (_ : G4) (d a b : VR) (p : PR) (s : State) : Res := s.vbin 2 d a b p (fun x y => (x - y, 0))
def execVimul (_ : G4) (d a b : VR) (p : PR) (s : State) : Res := s.vbin 2 d a b p (fun x y => (x * y, 0))
def execVimin (_ : G4) (d a b : VR) (p : PR) (s : State) : Res :=
  s.vbin 2 d a b p (fun x y => (if x.slt y then x else y, 0))
def execVimax (_ : G4) (d a b : VR) (p : PR) (s : State) : Res :=
  s.vbin 2 d a b p (fun x y => (if x.slt y then y else x, 0))
def execVand (_ : G4) (d a b : VR) (p : PR) (s : State) : Res := s.vbin 2 d a b p (fun x y => (x &&& y, 0))
def execVor (_ : G4) (d a b : VR) (p : PR) (s : State) : Res := s.vbin 2 d a b p (fun x y => (x ||| y, 0))
def execVxor (_ : G4) (d a b : VR) (p : PR) (s : State) : Res := s.vbin 2 d a b p (fun x y => (x ^^^ y, 0))
def execVshl (_ : G4) (d a b : VR) (p : PR) (s : State) : Res :=
  s.vbin 2 d a b p (fun x y => (x <<< (y.toNat % 32), 0))
def execVshr (_ : G4) (d a b : VR) (p : PR) (s : State) : Res :=
  s.vbin 2 d a b p (fun x y => (x >>> (y.toNat % 32), 0))
def execVsra (_ : G4) (d a b : VR) (p : PR) (s : State) : Res :=
  s.vbin 2 d a b p (fun x y => (x.sshiftRight (y.toNat % 32), 0))

/-! ### Compares and selection (R251, R252) -/

/-- Condition of VCMP (R251). -/
def fcond (c : Nat) (a b : Lane) : Bool :=
  let x := laneNum a
  let y := laneNum b
  let nan := x.isNan || y.isNan
  let eq := Num.eq x y
  let lt := !nan && !eq && x.lt y
  match c with
  | 0 => eq | 1 => !eq | 2 => lt | 3 => lt || eq | 4 => !nan && !lt && !eq | 5 => !nan && !lt | 6 => nan | _ => !nan

/-- Condition of VICMP (R251). -/
def icond (c : Nat) (a b : Lane) : Bool :=
  match c with
  | 0 => a == b | 1 => a != b | 2 => a.slt b | 3 => a.slt b || a == b | 4 => a.ult b | _ => a.ult b || a == b

/-- A 64-bit mask from a test on lane numbers. -/
def maskOf (f : Nat → Bool) : Word := BitVec.ofNat 64 ((List.range 64).foldl (fun a i => if f i then a + 2 ^ i else a) 0)

/-- A compare writes all 64 bits of p[d] on g + 2, zero from VL on (R251). -/
def State.vcompare (s : State) (d : BitVec 4) (a b : VR) (f : Lane → Lane → Bool) : Res :=
  let x := s.lanes a
  let y := s.lanes b
  let vl := vshVl s.cell.vsh
  .next (s.sched 2 (.p d.toNat (maskOf (fun i => decide (i < vl) && f (x.getD i 0) (y.getD i 0))))).advance

def execVcmp (_ : G4) (d : BitVec 4) (a b : VR) (c : BitVec 3) (s : State) : Res := s.vcompare d a b (fcond c.toNat)
def execVicmp (_ : G4) (d : BitVec 4) (a b : VR) (c : BitVec 3) (s : State) : Res := s.vcompare d a b (icond c.toNat)

def execVsel (_ : G4) (d a b : VR) (p : PR) (s : State) : Res :=
  let x := s.lanes a
  let y := s.lanes b
  let q := s.cell.rp p.toNat
  s.vwrite 2 d s.below
    (mapActive s.below (fun i => (if q.toNat.testBit i then x.getD i 0 else y.getD i 0, 0)))

/-! ### Reductions and scans (R253, R71, R72) -/

/-- The six combining functions. -/
inductive RedOp where
  | sum | max | min | isum | imax | imin
  deriving DecidableEq, Repr

/-- One step of a reduction or scan. -/
def RedOp.comb (o : RedOp) (m : RMode) (x y : Lane) : Lane × FFlags :=
  match o with
  | .sum => addF32 m x y
  | .max => (maxF32 x y, 0)
  | .min => (minF32 x y, 0)
  | .isum => (x + y, 0)
  | .imax => (if x.slt y then y else x, 0)
  | .imin => (if x.slt y then x else y, 0)

/-- The identity of an operation (R253). -/
def RedOp.unit : RedOp → Lane
  | .sum => 0 | .max => 0xFF800000 | .min => 0x7F800000 | .isum => 0 | .imax => 0x80000000 | .imin => 0x7FFFFFFF

/-- An inactive lane is left out of its pair, rather than entering as the identity (R72). -/
def RedOp.excludes : RedOp → Bool
  | .max | .min => true
  | _ => false

/-- One pair of a level: a lane left out takes the other operand of its pair; a pair with nothing active is left out of
the next level (R72, log entry 11). -/
def RedOp.pair (o : RedOp) (m : RMode) (x y : Option Lane) : Option Lane × FFlags :=
  match x.or y, y.or x with
  | some a, some b => ((o.comb m a b).map some id)
  | _, _ => (none, 0)

/-- One level of the tree over the positions given. -/
def RedOp.level (o : RedOp) (m : RMode) : List (Option Lane) → List (Option Lane) × FFlags
  | x :: y :: l =>
    let p := o.pair m x y
    let r := o.level m l
    (p.1 :: r.1, p.2 ||| r.2)
  | _ => ([], 0)

/-- The balanced tree of `n` levels (R71); with every position left out it yields the identity (R72). -/
def RedOp.tree (o : RedOp) (m : RMode) : Nat → List (Option Lane) → FFlags → Lane × FFlags
  | 0, l, f => ((l.headD none).getD o.unit, f)
  | n + 1, l, f =>
    let r := o.level m l
    o.tree m n r.1 (f ||| r.2)

/-- A reduction: the result in all 64 lanes on g + 8 (R253). -/
def State.vreduce (s : State) (o : RedOp) (d a : VR) (p : PR) (rm : BitVec 3) : Res :=
  let x := s.lanes a
  let act := s.active p
  let m := modeOf (vshRm s.cell.vsh) rm.toNat
  let ins := (List.range 64).map (fun i =>
    if act.toNat.testBit i then some (x.getD i 0) else if o.excludes then none else some o.unit)
  let r := o.tree m 6 ins 0
  s.vwrite 8 d (BitVec.allOnes 64) ((List.range 64).map (fun _ => r.1), r.2)

/-- The inclusive scan from lane 0 upwards (R71): the results of active lanes. -/
def RedOp.scan (o : RedOp) (m : RMode) (act : Word) : Nat → List Lane → Option Lane → List Lane × FFlags
  | _, [], _ => ([], 0)
  | i, a :: l, run =>
    if act.toNat.testBit i then
      let p := match run with
        | some r => o.comb m r a
        | none => (canonLane a, 0)
      let q := o.scan m act (i + 1) l (some p.1)
      (p.1 :: q.1, p.2 ||| q.2)
    else
      let q := o.scan m act (i + 1) l run
      (0 :: q.1, q.2)

/-- A scan: the active lanes on g + 10 (R253). -/
def State.vscan (s : State) (o : RedOp) (d a : VR) (p : PR) (rm : BitVec 3) : Res :=
  let act := s.active p
  let m := modeOf (vshRm s.cell.vsh) rm.toNat
  s.vwrite 10 d act (o.scan m act 0 (s.lanes a) (if o.excludes then none else some o.unit))

def execVrsum (_ : G4) (d a : VR) (p : PR) (r : BitVec 3) (s : State) : Res := s.vreduce .sum d a p r
def execVrmax (_ : G4) (d a : VR) (p : PR) (r : BitVec 3) (s : State) : Res := s.vreduce .max d a p r
def execVrmin (_ : G4) (d a : VR) (p : PR) (r : BitVec 3) (s : State) : Res := s.vreduce .min d a p r
def execVrisum (_ : G4) (d a : VR) (p : PR) (r : BitVec 3) (s : State) : Res := s.vreduce .isum d a p r
def execVrimax (_ : G4) (d a : VR) (p : PR) (r : BitVec 3) (s : State) : Res := s.vreduce .imax d a p r
def execVrimin (_ : G4) (d a : VR) (p : PR) (r : BitVec 3) (s : State) : Res := s.vreduce .imin d a p r
def execVscsum (_ : G4) (d a : VR) (p : PR) (r : BitVec 3) (s : State) : Res := s.vscan .sum d a p r
def execVscmax (_ : G4) (d a : VR) (p : PR) (r : BitVec 3) (s : State) : Res := s.vscan .max d a p r
def execVscmin (_ : G4) (d a : VR) (p : PR) (r : BitVec 3) (s : State) : Res := s.vscan .min d a p r
def execVscisum (_ : G4) (d a : VR) (p : PR) (r : BitVec 3) (s : State) : Res := s.vscan .isum d a p r
def execVscimax (_ : G4) (d a : VR) (p : PR) (r : BitVec 3) (s : State) : Res := s.vscan .imax d a p r
def execVscimin (_ : G4) (d a : VR) (p : PR) (r : BitVec 3) (s : State) : Res := s.vscan .imin d a p r

/-! ### Permutes, slides and moves (R254 to R256) -/

def execVperm (_ : G4) (d a b : VR) (p : PR) (s : State) : Res :=
  let x := s.lanes a
  let y := s.lanes b
  let act := s.active p
  s.vwrite 3 d act (mapActive act (fun i => (x.getD ((y.getD i 0).toNat % 64) 0, 0)))

/-- Source of lane i of a slide: lane i − k or i + k, 0 outside 0 to 63 (R255). -/
def slideLane (x : List Lane) (down : Bool) (k i : Nat) : Lane :=
  if down then (if i + k ≤ 63 then x.getD (i + k) 0 else 0) else (if k ≤ i then x.getD (i - k) 0 else 0)

def execVslide (_ : G4) (d a : VR) (e : BitVec 1) (k : BitVec 6) (s : State) : Res :=
  let x := s.lanes a
  s.vwrite 3 d s.below (mapActive s.below (fun i => (slideLane x (e == 1) k.toNat i, 0)))

def execVbcst (_ : G4) (d : VR) (x : XR) (p : PR) (s : State) : Res :=
  let v := (s.rx x).setWidth 32
  let act := s.active p
  s.vwrite 2 d act (mapActive act (fun _ => (v, 0)))

def execVmovxToX (_ : G4) (a : VR) (d : XR) (l : BitVec 6) (s : State) : Res :=
  .next (s.schedX 2 d ((laneOf (s.cell.rv a.toNat) l.toNat).setWidth 64)).advance

def execVmovxToV (_ : G4) (d : VR) (x : XR) (l : BitVec 6) (s : State) : Res :=
  let v := (s.rx x).setWidth 32
  s.vwrite 2 d (BitVec.ofNat 64 (2 ^ l.toNat)) ((List.range 64).map (fun i => if i = l.toNat then v else 0), 0)

/-! ### Lattice quantise and decode (R262, R263) -/

/-- vsh names a lattice element type and PART fits it; the answer is whether the format is L8X32. -/
def latEt (vsh : Word) (part : Nat) : Option LFmt :=
  if vshEt vsh = 8 then some false else if vshEt vsh = 9 ∧ part ≤ 7 then some true else none

/-- The offending value of a failed check of R262: the element type, or PART. -/
def latBad (vsh : Word) (part : Nat) : Nat := if vshEt vsh = 9 then part else vshEt vsh

/-- Little-endian number of codewords of `n` bytes. -/
def packCw (n : Nat) : List Nat → Nat
  | [] => 0
  | c :: l => c + 2 ^ (8 * n) * packCw n l

/-- The blocks of VLQNT: per block its codewords and, when it has an active lane, the scale it delivers (R262). -/
def vlqntBlocks (wide satf : Bool) (vsh act : Word) (x scales : List Lane) : List (List Nat × Option Nat × FFlags) :=
  let blk := vshBlk vsh
  (List.range (64 / blk)).map (fun b =>
    let e := (List.range blk).map (fun j => (laneNum (x.getD (b * blk + j) 0), act.toNat.testBit (b * blk + j)))
    if e.any (·.2) then
      let q := quantBlock wide satf (vshSf vsh) ((scales.getD b 0).toNat % 256) e
      (q.1, some q.2.1, q.2.2)
    else ((List.range (blk / 8)).map (fun _ => 0), none, 0))

def execVlqnt (g : G4) (d a : VR) (p : PR) (part : BitVec 4) (o : BitVec 1) (s : State) : Res :=
  let i := Instr.vlqnt g d a p part o
  let vsh := s.cell.vsh
  match latEt vsh part.toNat with
  | none => .next (s.illShape i (latBad vsh part.toNat))
  | some wide =>
    if a.toNat = 63 ∨ d.toNat = a.toNat + 1 then .next (s.illegal i 1)
    else
      let bl := vlqntBlocks wide (o == 1) vsh (s.active p) (s.lanes a) (s.lanes (a + 1))
      let cw := packCw (cwBytes wide) (bl.flatMap (·.1))
      let n := 2 * cwBytes wide
      let lane0 := n * part.toNat
      let val := BitVec.ofNat 2048 (cw * 2 ^ (32 * lane0))
      let smask := maskOf (fun b => match bl[b]? with
        | some (_, some _, _) => true
        | _ => false)
      let sval := ofLanes (bl.map (fun q => BitVec.ofNat 32 (q.2.1.getD 0)))
      let fl := bl.foldl (fun f q => f ||| q.2.2) 0
      let s := s.sched 8 (.v d.toNat (maskOf (fun i => decide (lane0 ≤ i) && decide (i < lane0 + n))) val)
      let s := if smask = 0 then s else s.sched 8 (.v (a.toNat + 1) smask sval)
      .next (s.schedFlags 8 fl).advance

/-- One element of VLDEC (R263). -/
def vldecLane (wide : Bool) (vsh : Word) (m : RMode) (img : Nat) (scales : List Lane) (part i : Nat) : Lane × FFlags :=
  let e := 64 * part + i
  let w := 8 * cwBytes wide
  let cw := bits img (w * (e / 8) + w - 1) (w * (e / 8))
  let sc := decScale (vshSf vsh) ((scales.getD (i / vshBlk vsh) 0).toNat % 256)
  roundF32 m ((decE8 wide cw sc).getD (e % 8) (.fin false 0 0))

def execVldec (g : G4) (d a : VR) (part : BitVec 4) (r : BitVec 3) (s : State) : Res :=
  let i := Instr.vldec g d a part r
  let vsh := s.cell.vsh
  match latEt vsh part.toNat with
  | none => .next (s.illShape i (latBad vsh part.toNat))
  | some wide =>
    if a.toNat = 63 then .next (s.illegal i 1)
    else
      let img := (s.cell.rv a.toNat).toNat
      let sc := s.lanes (a + 1)
      let m := modeOf (vshRm vsh) r.toNat
      s.vwrite 4 d s.below (mapActive s.below (vldecLane wide vsh m img sc part.toNat))

/-! ### Predicates (R264 to R266) -/

def execPlog (_ : G4) (d a b t : BitVec 4) (s : State) : Res :=
  let x := s.cell.rp a.toNat
  let y := s.cell.rp b.toNat
  let bit (i : Nat) : Bool :=
    t.toNat.testBit (2 * (if x.toNat.testBit i then 1 else 0) + (if y.toNat.testBit i then 1 else 0))
  .next (s.sched 1 (.p d.toNat (maskOf bit))).advance

/-- The mask M of PCNT (R265). -/
def State.pmask (s : State) (a b : BitVec 4) : Nat := (s.cell.rp a.toNat &&& s.cell.rp b.toNat &&& s.below).toNat

def execPcntCount (_ : G4) (a b : BitVec 4) (d : XR) (s : State) : Res :=
  let m := s.pmask a b
  .next (s.schedX 2 d (BitVec.ofNat 64 ((List.range 64).filter (fun i => m.testBit i)).length)).advance

def execPcntFirst (_ : G4) (a b : BitVec 4) (d : XR) (s : State) : Res :=
  let m := s.pmask a b
  .next (s.schedX 2 d (BitVec.ofNat 64 (((List.range 64).find? (fun i => m.testBit i)).getD 64))).advance

def execPcntLast (_ : G4) (a b : BitVec 4) (d : XR) (s : State) : Res :=
  let m := s.pmask a b
  .next (s.schedX 2 d (BitVec.ofNat 64 (((List.range 64).reverse.find? (fun i => m.testBit i)).getD 64))).advance

def execPsetFirst (_ : G4) (d : BitVec 4) (x : XR) (s : State) : Res :=
  .next (s.sched 1 (.p d.toNat (BitVec.ofNat 64 (2 ^ min (s.rx x).toNat 64 - 1)))).advance

def execPsetFromx (_ : G4) (d : BitVec 4) (x : XR) (s : State) : Res := .next (s.sched 1 (.p d.toNat (s.rx x))).advance

def execPsetTox (_ : G4) (a : BitVec 4) (x : XR) (s : State) : Res :=
  .next (s.schedX 2 x (s.cell.rp a.toNat)).advance

end Sys2Proof.Machine
end

