-- ==== Sys2Proof/Machine/VecMem.lean ====
section
/-!
DEFINITION. Vector loads, stores, gathers and scatters through the scratch window (R111, R257 to R260).
-/
namespace Sys2Proof.Machine

/-- Element width in bits of a type in memory (R257). -/
def elemBits (et : Nat) (desc : BitVec 16) : Nat :=
  match et with
  | 0 => 32 | 3 => 32 | 8 => 32 | 9 => 32 | 1 => 16 | 2 => 16 | 4 => 16 | 6 => 4 | 7 => mfContainer desc | _ => 8

/-- A lattice element type. -/
def etLattice (et : Nat) : Bool := et == 8 || et == 9

/-- The lane form of an element read from memory (R258). -/
def loadElem (et : Nat) (desc : BitVec 16) (raw : Nat) : Lane :=
  match et with
  | 0 => canonLane (BitVec.ofNat 32 raw)
  | 1 => BitVec.ofNat 32 (FF.f32.enc (FF.bf16.dec raw))
  | 2 => BitVec.ofNat 32 (FF.f32.enc (FF.f16.dec raw))
  | 4 => intLane 16 raw
  | 5 => intLane 8 raw
  | 6 => intLane 4 raw
  | 7 => BitVec.ofNat 32 (FF.f32.enc ((FF.ofDesc desc).dec raw))
  | _ => BitVec.ofNat 32 raw

/-- The element that a lane stores, and its flags (R259). -/
def storeElem (vsh : Word) (a : Lane) : Nat × FFlags :=
  let et := vshEt vsh
  match ffOf (vshDesc vsh) et with
  | some f => roundEnc f (modeOf (vshRm vsh) 7) (vshSat vsh) (laneNum a)
  | none =>
    if et = 4 ∨ et = 5 ∨ et = 6 then narrowInt (intBits et) (vshSat vsh) a.toInt
    else if et = 10 then (a.toNat % 256, 0)
    else (a.toNat, 0)

/-- Stride in elements of a STR code (R257). -/
def strideOf (k : Nat) : Nat := if k ≤ 6 then 2 ^ k else 0

/-- Base address of a vector access: c[cb].ADDR + x[xo], brought down to 4 bytes for a lattice type (R257). -/
def State.vbase (s : State) (c : BitVec 4) (x : XR) : Nat :=
  let b := ((s.rc c).addr + s.rx x).toNat
  if etLattice (vshEt s.cell.vsh) then b - b % 4 else b

/-- An element address: lane, address of its first byte, high nibble. -/
structure ElemAt where
  lane : Nat
  addr : Nat
  nib : Bool
  deriving DecidableEq, Repr

/-- The elements of the active lanes of VLD and VST (R257). -/
def State.velems (s : State) (c : BitVec 4) (x : XR) (p k : PR) : List ElemAt :=
  let act := s.active p
  let es := elemBits (vshEt s.cell.vsh) (vshDesc s.cell.vsh)
  let b := s.vbase c x
  (List.range 64).filterMap (fun i =>
    if act.toNat.testBit i then
      let bit := 8 * b + i * strideOf k.toNat * es
      some ⟨i, bit / 8, decide (bit / 4 % 2 = 1)⟩
    else none)

/-- The elements of the active lanes of VGATH and VSCAT, from index lanes (R260). -/
def State.gelems (s : State) (c : BitVec 4) (x : XR) (p sc : PR) (idx : VR) : List ElemAt :=
  let act := s.active p
  let lat := etLattice (vshEt s.cell.vsh)
  let b := (s.rc c).addr + s.rx x
  let ix := s.lanes idx
  (List.range 64).filterMap (fun i =>
    if act.toNat.testBit i then
      let a := (b + (ix.getD i 0).signExtend 64 * BitVec.ofNat 64 (2 ^ sc.toNat)).toNat
      some ⟨i, if lat then a - a % 4 else a, false⟩
    else none)

/-- CapCheck of every active lane (R111): the record of the fault, or `none` when every lane passes. -/
def laneFault (c : Cap) (size : Nat) (need : List Perm) (l : List ElemAt) : Option Flt :=
  let bad (e : ElemAt) : Option CapSub :=
    match capCheck c e.addr size 1 need with
    | some x => some x
    | none => if spaceOf scratchSize e.addr size = .scratch then none else some .bounds
  let fails := l.filterMap (fun e => (bad e).map (fun x => (e, x)))
  match fails with
  | [] => none
  | (e, x) :: _ => some ⟨3, x.code, e.addr, fails.foldl (fun m f => m + 2 ^ f.1.lane) 0, 0⟩

/-- A place in the scratchpad of a checked element. -/
def ElemAt.ref (e : ElemAt) : LaneRef := ⟨e.lane, e.addr - scratchBase, e.nib⟩

/-- Bytes of an element in memory, at least 1. -/
def elemBytes (es : Nat) : Nat := max (es / 8) 1

/-- The masked bytes that one element writes; a 4-bit element writes its nibble. -/
def elemWrite (es : Nat) (r : LaneRef) (v : Nat) : List WByte :=
  if es = 4 then
    [if r.nib then ⟨r.off, 0xF0, BitVec.ofNat 8 (v % 16 * 16)⟩ else ⟨r.off, 0x0F, BitVec.ofNat 8 (v % 16)⟩]
  else (List.range (elemBytes es)).map (fun j => ⟨r.off + j, 0xFF, BitVec.ofNat 8 (v / 2 ^ (8 * j) % 256)⟩)

/-- The writes of the active lanes in ascending order, so that the highest lane stands, and their flags (R259). -/
def State.laneWrites (s : State) (src : VR) (l : List ElemAt) : List WByte × FFlags :=
  let vsh := s.cell.vsh
  let es := elemBits (vshEt vsh) (vshDesc vsh)
  let x := s.lanes src
  l.foldr (fun e acc =>
    let r := storeElem vsh (x.getD e.lane 0)
    (elemWrite es e.ref r.1 ++ acc.1, r.2 ||| acc.2)) ([], 0)

/-- The shape check of VLD and VST: a lattice type takes stride 1 only (R257). -/
def State.strBad (s : State) (k : PR) : Bool := etLattice (vshEt s.cell.vsh) && k != 0

def execVld (g : G4) (v : VR) (c : BitVec 4) (x : XR) (p k : PR) (s : State) : Res :=
  let vsh := s.cell.vsh
  let l := s.velems c x p k
  .next (if s.strBad k then s.illShape (.vld g v c x p k) (vshEt vsh)
    else match laneFault (s.rc c) (elemBytes (elemBits (vshEt vsh) (vshDesc vsh))) [.ld] l with
      | some f => s.raise f
      | none => (s.sched 2 (.vld v.toNat (vshEt vsh) (vshDesc vsh) (l.map ElemAt.ref) false)).advance)

def execVst (g : G4) (v : VR) (c : BitVec 4) (x : XR) (p k : PR) (s : State) : Res :=
  let vsh := s.cell.vsh
  let l := s.velems c x p k
  .next (if s.strBad k then s.illShape (.vst g v c x p k) (vshEt vsh)
    else match laneFault (s.rc c) (elemBytes (elemBits (vshEt vsh) (vshDesc vsh))) [.st] l with
      | some f => s.raise f
      | none =>
        let w := s.laneWrites v l
        (s.sched 2 (.st w.1 [] w.2)).advance)

/-- Distinct lines touched by elements. -/
def elemLines (n : Nat) (l : List ElemAt) : List Nat :=
  (l.flatMap (fun e => [(e.addr - scratchBase) / 64, (e.addr - scratchBase + n - 1) / 64])).eraseDups

/-- The banks that more than 8 distinct lines fall in, lowest first (R260). -/
def overBank (n : Nat) (l : List ElemAt) : Option Nat :=
  let lines := elemLines n l
  (List.range 64).find? (fun b => decide (8 < (lines.filter (fun x => x % 64 == b)).length))

/-- The element types that VGATH and VSCAT refuse (R260). -/
def State.gathBad (s : State) (scat : Bool) : Bool :=
  let et := vshEt s.cell.vsh
  elemBits et (vshDesc s.cell.vsh) == 4 || (scat && etLattice et)

/-- The window of access cycles g + 2 to g + 9 in which every bank of the cell is held (R260). -/
def State.window (s : State) : State := (List.range 8).foldl (fun s k => s.sched (2 + k) .banks) s

def execVgath (g : G4) (v : VR) (c : BitVec 4) (x : XR) (p k : PR) (s : State) : Res :=
  let vsh := s.cell.vsh
  let n := elemBytes (elemBits (vshEt vsh) (vshDesc vsh))
  let l := s.gelems c x p k v
  .next (if s.gathBad false then s.illShape (.vgath g v c x p k) (vshEt vsh)
    else match laneFault (s.rc c) n [.ld] l, overBank n l with
      | some f, _ => s.raise f
      | none, some b => s.raise (timeFlt .bank b s.cur.cell)
      | none, none =>
        (s.window.sched 2 (.vld v.toNat (vshEt vsh) (vshDesc vsh) (l.map ElemAt.ref) true)).advance)

def execVscat (g : G4) (v : VR) (c : BitVec 4) (x : XR) (p k : PR) (s : State) : Res :=
  let i := Instr.vscat g v c x p k
  let vsh := s.cell.vsh
  let n := elemBytes (elemBits (vshEt vsh) (vshDesc vsh))
  let l := s.gelems c x p k (v + 1)
  .next (if s.gathBad true then s.illShape i (vshEt vsh)
    else if v.toNat = 63 then s.illegal i 1
    else match laneFault (s.rc c) n [.st] l, overBank n l with
      | some f, _ => s.raise f
      | none, some b => s.raise (timeFlt .bank b s.cur.cell)
      | none, none =>
        let w := s.laneWrites v l
        (s.window.sched 9 (.scat w.1 w.2)).advance)

end Sys2Proof.Machine
end

