-- ==== Sys2Proof/Machine/Matrix.lean ====
section
/-!
DEFINITION. The matrix engine (spec/12_matrix_instructions.md R268 to R288, R63, R70).
-/
namespace Sys2Proof.Machine

/-! ### The matrix shape register (R268 to R270) -/

def mshBm (w : Word) : Nat := bits w.toNat 2 0 + 1
def mshBn (w : Word) : Nat := bits w.toNat 5 3 + 1
def mshBk (w : Word) : Nat := bits w.toNat 8 6 + 1
def mshAf (w : Word) : Nat := bits w.toNat 12 9
def mshBf (w : Word) : Nat := bits w.toNat 16 13
def mshSp (w : Word) : Nat := bits w.toNat 18 17
def mshSa (w : Word) : Bool := bitOf w.toNat 19
def mshSb (w : Word) : Bool := bitOf w.toNat 20
def mshBlk (w : Word) : Nat := if bitOf w.toNat 21 then 32 else 16
def mshSf (w : Word) : Bool := bitOf w.toNat 22
def mshAdesc (w : Word) : BitVec 16 := BitVec.ofNat 16 (bits w.toNat 47 32)
def mshBdesc (w : Word) : BitVec 16 := BitVec.ofNat 16 (bits w.toNat 63 48)

/-- Brick depth of a pair of formats, where the table of R269 has a row for it. -/
def brickDepth (af bf : Nat) : Option Nat :=
  if (af = 1 ∨ af = 2) ∧ (bf = 1 ∨ bf = 2) then some 16
  else if af = 7 ∧ bf = 7 then some 32
  else if af = 5 ∧ bf = 5 then some 32
  else if af = 8 ∧ bf = 7 then some 64
  else if af = 9 ∧ bf = 7 then some 32
  else none

/-- Brick depth of a legal shape. -/
def mshDepth (w : Word) : Nat := (brickDepth (mshAf w) (mshBf w)).getD 16

/-- A descriptor is legal for its format: legal under R59 for MF, zero otherwise (R269). -/
def descFor (f : Nat) (d : BitVec 16) : Bool := if f = 7 then descLegal d else d == 0

/-- A value is legal for msh (R269). -/
def mshLegal (w : Word) : Bool :=
  let scaled := mshSa w || mshSb w
  let lat := etLattice (mshAf w)
  let row := match brickDepth (mshAf w) (mshBf w) with
    | none => false
    | some _ =>
      if lat then mshSa w && mshSp w == 0
      else if mshAf w = 7 then decide (mshSp w ≤ 1)
      else !scaled && decide (mshSp w ≤ 1)
  row && decide (bits w.toNat 31 23 = 0) && descFor (mshAf w) (mshAdesc w) && descFor (mshBf w) (mshBdesc w)
    && (scaled || decide (bits w.toNat 22 21 = 0))

/-- Grant(r) of a legal request (R270): at most 4 depth bricks under sparsity. -/
def mshGrant (w : Word) : Word :=
  if mshSp w = 1 ∧ 4 < mshBk w then w &&& ~~~ 0x1C0 ||| 0xC0 else w

def execMshapeReq (g : G4) (x : XR) (s : State) : Res :=
  let r := s.rx x
  .next (if mshLegal r then ((s.sched 1 (.msh (mshGrant r))).schedX 2 x (mshGrant r)).advance
    else s.illShape (.mshapeReq g x) r.toNat)

def execMshapeGet (_ : G4) (x : XR) (s : State) : Res := .next (s.schedX 2 x s.cell.msh).advance

/-! ### Spans of engines, slots and accumulators (R35, R285, R286) -/

/-- Some span of a key contains a cycle. -/
def spanAt (l : List Busy) (key c : Nat) : Bool := l.any (fun b => b.key == key && decide (b.lo ≤ c) && decide (c ≤ b.hi))

/-- A span added, spans that have ended dropped. -/
def spanAdd (l : List Busy) (now : Nat) (b : Busy) : List Busy := b :: l.filter (fun e => decide (now ≤ e.hi))

/-- Engine-busy fault naming what is busy. -/
def State.busy (s : State) (what : Nat) : State := s.raise (timeFlt .busy what s.cur.cell)

/-- Unclaimed-slot fault. -/
def State.unclaimed (s : State) (o : Nat) : State := s.raise (timeFlt .unclaimed o s.cur.cell)

/-- Missed-operand fault. -/
def State.missed (s : State) (what : Nat) : State := s.raise (timeFlt .missed what s.cur.cell)

/-- Queue-imbalance fault: sub-cause, entries needed and present (R63, R324 code 12). -/
def queueFlt (sub need have' : Nat) : Flt := ⟨12, sub, 0, need % 256 + have' % 256 * 256, 0⟩

/-! ### Claims (R273) -/

/-- The slots of a range. -/
def slotRange (o n : BitVec 4) : List Nat := span o.toNat (n.toNat + 1)

def execMclaim (g : G4) (o n : BitVec 4) (s : State) : Res :=
  let i := Instr.mclaim g o n
  .next (if 16 < o.toNat + n.toNat + 1 then s.illegal i 1
    else if (slotRange o n).any (fun k => NSet.mem s.cell.claims k) then s.streamFault i
    else (s.sched 1 (.claim o.toNat (n.toNat + 1))).advance)

/-- Some line of the slot is pending after cycle `c − 1` (R286). -/
def linePending (l : List Busy) (o lines c : Nat) : Bool :=
  l.any (fun b => decide (128 * o ≤ b.key) && decide (b.key < 128 * o + lines) && decide (b.lo ≤ c) && decide (c ≤ b.hi))

def execMrelease (g : G4) (o n : BitVec 4) (s : State) : Res :=
  let i := Instr.mrelease g o n
  let r := slotRange o n
  let c := s.cell
  .next (if 16 < o.toNat + n.toNat + 1 then s.illegal i 1
    else if r.any (fun k => !NSet.mem c.claims k) then s.streamFault i
    else match r.find? (fun k => spanAt c.slotHold k s.now || linePending c.linePend k 128 s.now) with
      | some k => s.busy k
      | none => (s.sched 1 (.release o.toNat (n.toNat + 1))).advance)

/-! ### Slot fills (R274) -/

/-- The capability check of the lines of a fill, and their scratchpad offsets. -/
def fillLines (c : Cap) (p : Word) (n : Nat) : Except Flt (List Nat) :=
  (List.range n).foldr (fun j acc =>
    let a := (c.addr + BitVec.ofNat 64 (bits p.toNat 37 16 + 64 * bits p.toNat 51 38 * j)) &&& ~~~ 63
    match place scratchSize c a 256 1 [.ld], acc with
    | .fault f, _ => .error f
    | .glob va, _ => .error (capFlt .bounds va)
    | .scr _, .error f => .error f
    | .scr o, .ok l => .ok (o :: l)) (.ok [])

/-- The fill port is taken and the lines become pending (R285, R286). -/
def Cell.fillBusy (c : Cell) (now o l0 n : Nat) : Cell :=
  { c with ports := spanAdd c.ports now ⟨0, now, now + n - 1⟩,
           linePend := (List.range n).foldl (fun l j => spanAdd l now ⟨128 * o + l0 + j, now, now + 4 + j⟩) c.linePend }

/-- An MFILL line would perform into its slot during a hold (R286). -/
def fillMeetsHold (l : List Busy) (o now n : Nat) : Bool :=
  (List.range n).any (fun j => spanAt l o (now + 5 + j))

/-- Checks 4 and 7 of R286 for a fill of a slot. -/
def State.fillCheck (s : State) (o n : Nat) (k : State → State) : State :=
  let c := s.cell
  if NSet.mem c.claims o = false then s.unclaimed o
  else if spanAt c.ports 0 s.now ∨ fillMeetsHold c.slotHold o s.now n then s.busy o
  else k s

def execMfillScratch (g : G4) (o c : BitVec 4) (p : XR) (s : State) : Res :=
  let w := s.rx p
  let l0 := bits w.toNat 6 0
  let n := bits w.toNat 13 7 + 1
  .next (if 128 < l0 + n then s.illShape (.mfillScratch g o c p) w.toNat
    else match fillLines (s.rc c) w n with
      | .error f => s.raise f
      | .ok offs => s.fillCheck o.toNat n (fun s =>
        let s := s.setCell (s.cell.fillBusy s.now o.toNat l0 n)
        ((List.range n).foldl (fun s j => s.sched (2 + j) (.mfill o.toNat (l0 + j) (offs.getD j 0))) s).advance))

/-- A pop taken from a stream's buffer on a gang cycle, if one is decoded (R131). -/
def Cell.popOf (c : Cell) (q cyc : Nat) : Option (Line256 × FFlags × Option Flt × Cell) :=
  let t := NMap.get QStream.unbound c.qs q
  match t.buf with
  | [] => none
  | (v, f, e) :: l =>
    some (v, f, e, { c with qs := NMap.put c.qs q { t with buf := l, taken := t.taken + 1, lastPop := some cyc } })

/-- The stream is RUNNING (R127). -/
def Cell.running (c : Cell) (q : Nat) : Bool := (NMap.get QStream.unbound c.qs q).st == 2

/-- A pop of a stream falls on a cycle on which another one was taken (R131). -/
def Cell.popBusy (c : Cell) (q cyc : Nat) : Bool := (NMap.get QStream.unbound c.qs q).lastPop == some cyc

/-- Pattern stream of an effect that is a pop. -/
def Act.popOf : Act → Option Nat
  | .pop q _ _ => some q
  | .vpop q _ => some q
  | _ => none

/-- A pop of the issuing cell's stream falls on the current cycle already: taken, or waiting to be decoded (R131). -/
def State.popNowBusy (s : State) (q : Nat) : Bool :=
  s.cell.popBusy q s.now ||
    (s.gang s.cur.unit).pend.any (fun e => e.ag.cell == s.cur.cell && e.due == s.now && e.act.popOf == some q)

/-- Pop 0 of a fill is taken on the issue cycle; a pop not yet decoded freezes the gang (R131, R274). -/
def State.takePop (s : State) (q : Nat) (later : Act) (now : Line256 → FFlags → State → State) : State :=
  if s.popNowBusy q then s.busy q
  else match s.cell.popOf q s.now with
    | none => ((s.sched 0 later).freezeOn (.pop s.cur.cell q))
    | some (v, f, e, c) =>
      match e with
      | some flt => s.raise flt
      | none => now v f (s.setCell c)

def execMfillStream (g : G4) (o n : BitVec 4) (p : XR) (s : State) : Res :=
  let i := Instr.mfillStream g o n p
  let w := s.rx p
  let l0 := bits w.toNat 6 0
  let k := bits w.toNat 13 7 + 1
  .next (if 128 < l0 + k then s.illShape i w.toNat
    else if s.cell.running n.toNat = false then s.streamFault i
    else s.fillCheck o.toNat k (fun s =>
      let t := s.takePop n.toNat (.pop n.toNat o.toNat l0)
        (fun v f s => (s.sched 5 (.slotLine o.toNat l0 v)).schedFlags 5 f)
      if (t.gang s.cur.unit).held then t
      else
        let t := t.setCell (t.cell.fillBusy t.now o.toNat l0 k)
        ((List.range (k - 1)).foldl (fun t j => t.sched (j + 1) (.pop n.toNat o.toNat (l0 + j + 1))) t).advance))

/-! ### Operand values (R271, R272, R275) -/

/-- Element `e` of a slot line in a format; `s` is the block scale, for lattice formats and scaled operands.
Code 0 stands only in the reset word of msh, which selects BF16 by BF16 (R268; log entry 21). -/
def elemNum (f : Nat) (desc : BitVec 16) (line : Nat) (e : Nat) (s : Option Num) : Num × Bool :=
  let raw (w : Nat) : Nat := (line / 2 ^ (e * w)) % 2 ^ w
  let scaled (x : Num) : Num × Bool := match s with
    | none => (x, false)
    | some k => x.mul k
  match f with
  | 0 => scaled (FF.bf16.dec (raw 16))
  | 1 => scaled (FF.bf16.dec (raw 16))
  | 2 => scaled (FF.f16.dec (raw 16))
  | 5 => scaled (intNum (sx 8 (raw 8)))
  | 8 => ((decE8 false ((line / 2 ^ (16 * (e / 8))) % 2 ^ 16) (s.getD (.fin false 1 0))).getD (e % 8) .nan, false)
  | 9 => ((decE8 true ((line / 2 ^ (32 * (e / 8))) % 2 ^ 32) (s.getD (.fin false 1 0))).getD (e % 8) .nan, false)
  | _ => scaled ((FF.ofDesc desc).dec (raw (mfContainer desc)))

/-- Block scale of position `k` of row or column `j`, from the operand's entries (R275). -/
def scaleAt (e4 : Bool) (blk : Nat) (entries : List (BitVec 1024)) (k j : Nat) : Num :=
  decScale e4 (bits ((entries.getD (k / blk) 0).toNat) (8 * j + 7) (8 * j))

/-- The stored elements of A that name dense position `k` (R272): their indices in the line. -/
def sparseAt (line k : Nat) : List Nat :=
  let j := k / 4
  let md := bits line (8 * (128 + j) + 7) (8 * (128 + j))
  (if md % 4 = k % 4 then [2 * j] else []) ++ (if md / 4 % 4 = k % 4 then [2 * j + 1] else [])

/-- The values of A at row `m` and dense position `k`: one, or under sparsity one or two, an exact zero where no stored
element names the position; the block scale multiplies each (R272, R275). -/
def Tile.opA (t : Tile) (m k : Nat) : List (Num × Bool) :=
  let w := t.msh
  let line := (t.a.getD m 0).toNat
  let ea := if mshSa w then mshDepth w * mshBk w / mshBlk w else 0
  let s := if mshSa w then some (scaleAt (mshSf w) (mshBlk w) (t.scales.take ea) k m) else none
  if mshSp w = 1 then
    match sparseAt line k with
    | [] => [match s with
      | none => (.fin false 0 0, false)
      | some k => (Num.fin false 0 0).mul k]
    | l => l.map (fun e => elemNum (mshAf w) (mshAdesc w) line e s)
  else [elemNum (mshAf w) (mshAdesc w) line k s]

/-- The value of B at dense position `k` and column `n` (R275). -/
def Tile.opB (t : Tile) (k n : Nat) : Num × Bool :=
  let w := t.msh
  let ea := if mshSa w then mshDepth w * mshBk w / mshBlk w else 0
  let s := if mshSb w then some (scaleAt (mshSf w) (mshBlk w) (t.scales.drop ea) k n) else none
  elemNum (mshBf w) (mshBdesc w) (t.b.getD n 0).toNat k s

/-- The products of one position and whether one is 0 × ∞ (R70). -/
def Tile.products (t : Tile) (m n k : Nat) : List Num × Bool :=
  let b := t.opB k n
  (t.opA m k).foldr (fun a acc =>
    let p := a.1.mul b.1
    (p.1 :: acc.1, acc.2 || a.2 || b.2 || p.2)) ([], false)

/-- One brick: positions `kb d` to `kb d + d − 1` below the depth mask, summed onto the element (R278). -/
def Tile.brick (t : Tile) (m n kb : Nat) (acc : Lane × FFlags) : Lane × FFlags :=
  let d := mshDepth t.msh
  let ks := (span (kb * d) d).filter (fun k => decide (k < t.depth))
  let ps := ks.map (fun k => t.products m n k)
  let r := accSum t.flush (ps.any (·.2)) (laneNum acc.1 :: ps.flatMap (·.1))
  (r.1, acc.2 ||| r.2)

/-- One accumulator element of a tile operation (R278). -/
def Tile.elem (t : Tile) (m n : Nat) (old : Lane) : Lane × FFlags :=
  (List.range (mshBk t.msh)).foldl (fun acc kb => t.brick m n kb acc) (if t.zr then 0 else old, 0)

/-- Key of an accumulator element. -/
def accKey (a m n : Nat) : Nat := 16384 * a + 128 * m + n

/-- A tile operation applied to the accumulators: rows, columns and flags (R278). -/
def Tile.apply (t : Tile) (accs : NMap Lane) : NMap Lane × FFlags :=
  (List.range t.rows).foldl (fun acc m => (List.range t.cols).foldl (fun acc n =>
    let r := t.elem m n (NMap.get 0 acc.1 (accKey t.acc m n))
    (NMap.set 0 acc.1 (accKey t.acc m n) r.1, acc.2 ||| r.2)) acc) (accs, 0)

/-! ### Multiply-accumulate (R276 to R280) -/

/-- Gang cycles T that a tile occupies the array (R278). -/
def mmaCycles (w : Word) : Nat :=
  let n := mshBm w * mshBn w * mshBk w
  if mshSp w = 1 then (n + 7) / 8 else (n + 3) / 4

/-- Scale entries that an operation takes (R276). -/
def mmaEntries (w : Word) : Nat :=
  ((if mshSa w then 1 else 0) + (if mshSb w then 1 else 0)) * (mshDepth w * mshBk w) / mshBlk w

/-- The lines of a slot from 0. -/
def Cell.slotLines (c : Cell) (o n : Nat) : List Line256 := (List.range n).map (fun l => NMap.get 0 c.slots (128 * o + l))

/-- The protected words of a slot's lines from 0. -/
def slotWords (o n : Nat) : List Nat := (span (128 * o) n).map eccSlot

/-- MMA and MMAL (R277, R278, R286): `lat` says that the instruction is MMAL. -/
def State.mma (s : State) (i : Instr) (lat : Bool) (a : BitVec 3) (oa ob : BitVec 4) (xm : XR) (z : BitVec 1) : State :=
  let c := s.cell
  let w := c.msh
  let n := mmaCycles w
  let now := s.now
  let need := mmaEntries w
  if etLattice (mshAf w) ≠ lat then s.illShape i (mshAf w)
  else if NSet.mem c.claims oa.toNat = false then s.unclaimed oa.toNat
  else if NSet.mem c.claims ob.toNat = false then s.unclaimed ob.toNat
  else if c.bound.length < need then s.raise (queueFlt 3 need c.bound.length)
  else if linePending c.linePend oa.toNat (16 * mshBm w) now then s.missed oa.toNat
  else if linePending c.linePend ob.toNat (16 * mshBn w) now then s.missed ob.toNat
  else if spanAt c.ports 1 now ∨ spanAt c.accRead a.toNat now then s.busy a.toNat
  else match c.wordFault (slotWords oa.toNat (16 * mshBm w) ++ slotWords ob.toNat (16 * mshBn w)) with
  | some f => s.raise f
  | none =>
    let mk := (s.rx xm).toNat
    let un := xm == 0
    let t : Tile :=
      { acc := a.toNat, msh := w, flush := c.mmode.toNat.testBit 3, zr := z == 1,
        rows := if un then 16 * mshBm w else min (bits mk 7 0) (16 * mshBm w),
        cols := if un then 16 * mshBn w else min (bits mk 15 8) (16 * mshBn w),
        depth := if un then mshDepth w * mshBk w else min (bits mk 25 16) (mshDepth w * mshBk w),
        a := c.slotLines oa.toNat (16 * mshBm w), b := c.slotLines ob.toNat (16 * mshBn w), scales := c.bound.take need }
    let hold (l : List Busy) (o : Nat) : List Busy := spanAdd l now ⟨o, now, now + n - 1⟩
    let s := s.setCell { c with bound := c.bound.drop need, ports := spanAdd c.ports now ⟨1, now, now + n - 1⟩,
                                slotHold := hold (hold c.slotHold oa.toNat) ob.toNat,
                                accPend := spanAdd c.accPend now ⟨a.toNat, now, now + n + 7⟩ }
    (s.sched (n + 8) (.mma t)).advance

def execMma (g : G4) (a : BitVec 3) (b c : BitVec 4) (m : XR) (z : BitVec 1) (s : State) : Res :=
  .next (s.mma (.mma g a b c m z) false a b c m z)

def execMmal (g : G4) (a : BitVec 3) (b c : BitVec 4) (m : XR) (z : BitVec 1) (s : State) : Res :=
  .next (s.mma (.mmal g a b c m z) true a b c m z)

def execMzero (_ : G4) (a : BitVec 3) (s : State) : Res :=
  let c := s.cell
  .next (if spanAt c.accRead a.toNat s.now ∨ spanAt c.accPend a.toNat s.now then s.busy a.toNat
    else ((s.setCell { c with accPend := spanAdd c.accPend s.now ⟨a.toNat, s.now, s.now⟩ }).sched 1
      (.mzero a.toNat)).advance)

/-- MSCALE (R276, R63): the checks of the queue and of the bound set, then the move on g + 1. A load of
the same gang cycle does not count (log entry 64). -/
def execMscale (g : G4) (n : BitVec 7) (s : State) : Res :=
  let c := s.cell
  let k := n.toNat
  .next (if k = 0 ∨ 64 < k then s.illegal (.mscale g n) 1
    else if c.scaleQ.length < k then s.raise (queueFlt 0 k c.scaleQ.length)
    else if (c.scaleQ.take k).any (fun e => !e.landed) then
      s.raise (queueFlt 1 k ((c.scaleQ.take k).filter (·.landed)).length)
    else if 64 < c.bound.length + k then s.raise (queueFlt 2 k c.bound.length)
    else (s.sched 1 (.scaleMove k)).advance)

/-! ### Rounding state (R281) -/

def execMmodeSet (_ : G4) (v : BitVec 4) (s : State) : Res := .next (s.sched 1 (.mmode v)).advance

def execMmodeSetx (g : G4) (x : XR) (s : State) : Res :=
  let v := (s.rx x).setWidth 4
  .next (if 4 < v.toNat % 8 then s.illShape (.mmodeSetx g x) (s.rx x).toNat else (s.sched 1 (.mmode v)).advance)

def execMmodeGet (_ : G4) (x : XR) (s : State) : Res := .next (s.schedX 2 x (s.cell.mmode.setWidth 64)).advance

/-! ### Drains (R282, R283) -/

/-- Bytes of a drained element. -/
def drainBytes (f : Nat) : Nat := if f = 0 ∨ f = 3 then 4 else if f = 5 then 1 else 2

/-- A drained element: its bits and flags (R282). -/
def drainElem (f : Nat) (mode : RMode) (sat : Bool) (a : Lane) : Nat × FFlags :=
  match f with
  | 0 => (a.toNat, 0)
  | 1 => roundEnc FF.bf16 mode sat (laneNum a)
  | 2 => roundEnc FF.f16 mode sat (laneNum a)
  | _ => toIntN (intBits f) mode (laneNum a)

/-- An accumulator row. -/
def Cell.accRow (c : Cell) (a m n : Nat) : List Lane := (List.range n).map (fun j => NMap.get 0 c.accs (accKey a m j))

/-- The drain port is taken and the accumulator is being read (R285, R286). -/
def Cell.drainBusy (c : Cell) (now a nr : Nat) : Cell :=
  { c with ports := spanAdd c.ports now ⟨2, now, now + max nr 1 - 1⟩,
           accRead := spanAdd c.accRead now ⟨a, now, now + 2 + max nr 1⟩ }

/-- Checks 6 and 7 of R286 for a drain, then the words of the rows and columns that it reads (R405). -/
def State.drainCheck (s : State) (a nr nc : Nat) (k : State → State) : State :=
  let c := s.cell
  let words := (List.range nr).flatMap (fun m => (span (accKey a m 0) nc).map eccAcc)
  if spanAt c.accPend a s.now then s.missed a
  else if spanAt c.ports 2 s.now then s.busy a
  else match c.wordFault words with
    | some f => s.raise f
    | none => k s

/-- The writes of one drained row at a scratchpad offset, and its flags. -/
def drainRow (f : Nat) (mode : RMode) (sat : Bool) : Nat → List Lane → List WByte × FFlags
  | _, [] => ([], 0)
  | off, a :: l =>
    let e := drainElem f mode sat a
    let n := drainBytes f
    let r := drainRow f mode sat (off + n) l
    (wholeWrite off (leBytes e.1 n) ++ r.1, e.2 ||| r.2)
where
  /-- Bytes written whole. -/
  wholeWrite (off : Nat) (l : List Byte) : List WByte := (List.range l.length).map (fun i => ⟨off + i, 0xFF, l.getD i 0⟩)

def execMdrain (g : G4) (a : BitVec 3) (c f : BitVec 4) (p : XR) (r : BitVec 3) (t : BitVec 1) (s : State) : Res :=
  let i := Instr.mdrain g a c f p r t
  let w := (s.rx p).toNat
  let nr := bits w 29 22
  let nc := bits w 37 30
  let rs := bits w 55 38
  let eb := drainBytes f.toNat
  let cap := s.rc c
  let b := cap.addr + BitVec.ofNat 64 (bits w 21 0)
  let mode := modeOf (s.cell.mmode.toNat % 8) r.toNat
  let run (off : Nat) (s : State) : State := s.drainCheck a.toNat nr nc (fun s =>
    let cl := s.cell
    let s := s.setCell (cl.drainBusy s.now a.toNat nr)
    ((if nc = 0 then [] else List.range nr).foldl (fun s m =>
      let q := drainRow f.toNat mode (t == 1) (off + m * rs) (cl.accRow a.toNat m nc)
      s.sched (3 + m) (.st q.1 [] q.2)) s).advance)
  .next (if 128 < nr ∨ 128 < nc then s.illShape i w
    else if nr = 0 ∨ nc = 0 then run 0 s
    else match place scratchSize cap b ((nr - 1) * rs + nc * eb) 1 [.st] with
      | .fault e => s.raise e
      | .glob va => s.capFault .bounds va
      | .scr off => run off s)

/-- MDRAINP (R283): the elements leave for the target as rows are read; their landings are events. -/
def execMdrainp (g : G4) (a : BitVec 3) (t p : XR) (s : State) : Res :=
  let w := (s.rx p).toNat
  let nr := bits w 7 0
  let nc := bits w 15 8
  .next (if 128 < nr ∨ 128 < nc then s.illShape (.mdrainp g a t p) w
    else s.drainCheck a.toNat nr nc (fun s =>
      let c := s.cell
      let launch := match (s.gang s.cur.unit).pour with
        | some q => q.launch
        | none => 0
      let d : Drain := ⟨s.cur, s.me.pc, launch, s.now, s.wall, s.rx t, nr, nc,
        (List.range nr).flatMap (fun m => c.accRow a.toNat m nc), List.range (nr * nc), false⟩
      let s := s.setCell (c.drainBusy s.now a.toNat nr)
      (if nr * nc = 0 then s else { s with drains := NMap.put s.drains s.nextId d, nextId := s.nextId + 1 }).advance))

end Sys2Proof.Machine
end

