-- ==== Sys2Proof/Machine/Zrl.lean ====
section
/-!
DEFINITION. The ZRL codec (R132 to R134, R304).
-/
namespace Sys2Proof.Machine

/-- Bytes of an uncompressed block (R132). -/
def zrlBytes : Nat := 512

/-- The tokens of a compressed block expanded: exactly `n` bytes produced and every input byte consumed (R132). The first
argument bounds the number of tokens. -/
def zrlTokens : Nat → Nat → List Byte → Option (List Byte)
  | 0, n, l => if n = 0 ∧ l = [] then some [] else none
  | k + 1, n, l =>
    match l with
    | [] => if n = 0 then some [] else none
    | c :: t =>
      if c.toNat < 128 then
        let m := c.toNat + 1
        if t.length < m ∨ n < m then none else (zrlTokens k (n - m) (t.drop m)).map (t.take m ++ ·)
      else
        let m := c.toNat - 127
        if n < m then none else (zrlTokens k (n - m) t).map (List.replicate m 0 ++ ·)

/-- A block decoded from its metadata entry and its slot (R133); `none` is ZRL-corrupt. -/
def zrlDecode (entry : Nat) (slot : List Byte) : Option (List Byte) :=
  if 512 < entry then none
  else if entry = 0 then some (List.replicate zrlBytes 0)
  else if entry = 512 then some slot
  else zrlTokens entry zrlBytes (slot.take entry)

/-- Zero bytes at the head of a list, at most `m`. -/
def zerosAt : Nat → List Byte → Nat
  | 0, _ => 0
  | m + 1, b :: l => if b = 0 then zerosAt m l + 1 else 0
  | _, [] => 0

/-- Bytes of the literal at the head of a list: up to `m`, ending before two zero bytes. -/
def literalAt : Nat → List Byte → Nat
  | 0, _ => 0
  | _, [] => 0
  | m + 1, [_] => min 1 (m + 1)
  | m + 1, a :: b :: l => if a = 0 ∧ b = 0 then 0 else literalAt m (b :: l) + 1

/-- The tokens of EncZRL (R304). -/
def zrlEncTokens : Nat → List Byte → List Byte
  | 0, _ => []
  | _, [] => []
  | k + 1, l =>
    let z := zerosAt 128 l
    if 2 ≤ z then BitVec.ofNat 8 (0x7F + z) :: zrlEncTokens k (l.drop z)
    else
      let n := literalAt 128 l
      BitVec.ofNat 8 (n - 1) :: l.take n ++ zrlEncTokens k (l.drop n)

/-- EncZRL (R304): the metadata entry and the slot bytes. -/
def zrlEncode (b : List Byte) : Nat × List Byte :=
  if b.all (· == 0) then (0, [])
  else
    let o := zrlEncTokens zrlBytes b
    if zrlBytes ≤ o.length then (512, b) else (o.length, o)

end Sys2Proof.Machine
end

