-- ==== Sys2Proof/Machine/PatternStream.lean ====
section
/-!
DEFINITION. Pattern streams: descriptors, operators, pops (R112, R127 to R134, R261, R306).
-/
namespace Sys2Proof.Machine

/-! ### Descriptors (R128) -/

/-- A stream descriptor. -/
structure QDesc where
  base : Nat
  sfmt : Nat
  desc : BitVec 16
  xr : Nat
  node : Bool
  strides : List Int
  counts : List Nat
  limits : List Nat
  fill : Nat
  idx : Bool
  idxOff : Nat

/-- Field of `n` bytes at an offset of a byte list. -/
def fieldAt (l : List Byte) (off n : Nat) : Nat := ofLE ((l.drop off).take n)

/-- The fields of 128 descriptor bytes. -/
def QDesc.ofBytes (l : List Byte) : QDesc :=
  let ctl := fieldAt l 0x18 8
  let ix := fieldAt l 0x68 8
  { base := fieldAt l 0x10 8, sfmt := bits ctl 3 0, desc := BitVec.ofNat 16 (bits ctl 19 4), xr := bits ctl 22 20,
    node := bitOf ctl 23, strides := (List.range 4).map (fun k => sx 64 (fieldAt l (0x20 + 8 * k) 8)),
    counts := (List.range 4).map (fun k => fieldAt l (0x40 + 4 * k) 4),
    limits := (List.range 4).map (fun k => fieldAt l (0x50 + 4 * k) 4), fill := fieldAt l 0x60 4, idx := bitOf ix 22,
    idxOff := bits ix 21 0 }

/-- The checks of R128 on the bytes: the offending word of the illegal-shape fault. -/
def descFault (l : List Byte) : Option Nat :=
  let q := QDesc.ofBytes l
  let ctl := fieldAt l 0x18 8
  let ix := fieldAt l 0x68 8
  if bits ctl 63 24 ≠ 0 then some ctl
  else if fieldAt l 0x64 4 ≠ 0 then some (fieldAt l 0x60 8)
  else if bits ix 63 23 ≠ 0 then some ix
  else if fieldAt l 0x70 8 ≠ 0 ∨ fieldAt l 0x78 8 ≠ 0 then some (fieldAt l 0x70 8)
  else match q.counts.find? (fun c => decide (c < 1) || decide (2 ^ 24 < c)) with
    | some c => some c
    | none =>
      match (q.counts.zip q.limits).find? (fun p => decide (p.1 < p.2)) with
      | some p => some p.2
      | none =>
        if 9 < q.sfmt ∨ (q.sfmt = 7 ∧ descLegal q.desc = false) ∨ q.xr = 7 then some ctl
        else if q.idx ∧ q.idxOff % 4 ≠ 0 then some ix else none

/-- Bits of an element of a format in memory; a codeword of a lattice format (R129). -/
def fmtBits (f : Nat) (desc : BitVec 16) : Nat := if f = 8 then 16 else elemBits f desc

/-- Bytes of a unit (R129). -/
def QDesc.unit (q : QDesc) : Nat := max 1 (fmtBits q.sfmt q.desc / 8)

/-- Elements of a unit: two of 4 bits, eight of a codeword. -/
def QDesc.perUnit (q : QDesc) : Nat := if etLattice q.sfmt then 8 else if fmtBits q.sfmt q.desc = 4 then 2 else 1

/-- Lowest address and length of the hull of the units within the limits (R112). -/
def QDesc.hull (q : QDesc) : Int × Nat :=
  let span (k : Nat) : Int := q.strides.getD k 0 * ((q.limits.getD k 0 : Int) - 1)
  let lo := (List.range 4).foldl (fun a k => a + min 0 (span k)) (0 : Int)
  let hi := (List.range 4).foldl (fun a k => a + max 0 (span k)) (0 : Int)
  ((q.base : Int) + lo, (hi - lo).toNat + q.unit)

/-- The capability checks of QBIND (R112, R179). -/
def State.qcapFault (s : State) (c : Cap) (q : QDesc) : Option Flt :=
  let a := c.addr.toNat
  if q.node then
    if c.tag = false then some (capFlt .tag a)
    else if c.otype ≠ 1 ∨ c.nhDev ≠ s.boot.dev then some (capFlt .otype a) else none
  else if q.idx ∨ q.limits.any (· == 0) then
    (if c.tag = false then some (capFlt .tag a)
     else if c.otype ≠ 0 then some (capFlt .locked a)
     else if c.has .ld = false then some (capFlt .perm a) else none)
  else
    let h := q.hull
    let lo := wrap 64 h.1
    (capCheck c lo h.2 1 [.ld]).map (fun e => capFlt e lo)

/-! ### Operators (R130) -/

def qoKind (w : Word) : Nat := bits w.toNat 3 0
def qoFmt (w : Word) : Nat := bits w.toNat 7 4
def qoRm (w : Word) : Nat := bits w.toNat 10 8
def qoSat (w : Word) : Bool := bitOf w.toNat 11
def qoBlk (w : Word) : Nat := if bitOf w.toNat 12 then 32 else 16
def qoSf (w : Word) : Bool := bitOf w.toNat 13
def qoDesc (w : Word) : BitVec 16 := BitVec.ofNat 16 (bits w.toNat 31 16)
def qoOff (w : Word) : Int := sx 32 (bits w.toNat 63 32)

/-- A floating format that scales and LDEC deliver. -/
def floatFmt (f : Nat) (desc : BitVec 16) : Bool := f == 0 || f == 1 || f == 2 || (f == 7 && descLegal desc)

/-- The output format that an operator record names is accepted for its kind, whatever its input (R55, R59, R130). -/
def qoFmtOk (w : Word) : Bool :=
  let f := qoFmt w
  (match qoKind w with
    | 1 => decide (f ≤ 7)
    | 2 => floatFmt f (qoDesc w)
    | 3 => floatFmt f (qoDesc w)
    | 4 => etLattice f
    | _ => decide (f ≤ 9)) && (f != 7 || descLegal (qoDesc w))

/-- An operator's input and output are legal under the table of R130. -/
def opLegal (first : Bool) (fin : Nat) (din : BitVec 16) (w : Word) : Bool :=
  let f := qoFmt w
  let d := qoDesc w
  decide (bits w.toNat 15 14 = 0) && decide (qoRm w ≤ 4) && (match qoKind w with
    | 0 => first && f == fin && (f != 7 || d == din)
    | 1 => !etLattice fin && decide (f ≤ 7) && (f != 7 || descLegal d)
    | 2 => etLattice fin && floatFmt f d && qoRm w == 0
    | 3 => floatFmt fin din && floatFmt f d && qoRm w == 0
    | 4 => decide (fin ≤ 2) && etLattice f
    | _ => false)

/-- The chain is legal from a source format on. -/
def chainLegal : Bool → Nat → BitVec 16 → List Word → Bool
  | _, _, _, [] => true
  | first, f, d, w :: l => opLegal first f d w && chainLegal false (qoFmt w) (qoDesc w) l

/-- The checks of QSTART (R130). -/
def chainOk (q : QDesc) (l : List Word) : Bool :=
  chainLegal true q.sfmt q.desc l && decide ((l.map qoKind).eraseDups.length = l.length)
    && (!(l.any (fun w => qoKind w == 0)) || (q.strides.getD 0 0 == (q.unit : Int) && !q.idx))

/-- Output format and descriptor of a chain. -/
def outFmt (q : QDesc) (l : List Word) : Nat × BitVec 16 :=
  match l.getLast? with
  | some w => (qoFmt w, qoDesc w)
  | none => (q.sfmt, q.desc)

/-! ### Units (R129) -/

/-- The visiting order: indices i_0 to i_3 of a unit number, none past the last unit. -/
def QDesc.index (q : QDesc) (u : Nat) : Option (List Nat) :=
  let c (k : Nat) : Nat := q.counts.getD k 1
  if c 0 * c 1 * c 2 * c 3 ≤ u then none
  else some [u % c 0, u / c 0 % c 1, u / (c 0 * c 1) % c 2, u / (c 0 * c 1 * c 2)]

/-- The scratchpad of an agent's cell read as a little-endian number. -/
def Cell.spmLE (c : Cell) (off n : Nat) : Nat := leRead (NMap.get 0 c.spm) off n

/-- Address of a unit; `none` when it is out of bounds (R129), a fault when its index entry lies outside the scratchpad (log
entry 72). -/
def QDesc.addr (q : QDesc) (c : Cell) (u : Nat) : Except Flt (Option Nat) :=
  match q.index u with
  | none => .ok none
  | some i =>
    if (i.zip q.limits).any (fun p => decide (p.2 ≤ p.1)) then .ok none
    else
      let o := q.idxOff + 4 * i.getD 1 0
      if q.idx ∧ scratchSize < o + 4 then .error (capFlt .bounds (scratchBase + o))
      else
        let j1 : Nat := if q.idx then c.spmLE o 4 else i.getD 1 0
        let st (k : Nat) : Int := q.strides.getD k 0
        .ok (some (wrap 64 ((q.base : Int) + (i.getD 0 0 : Nat) * st 0 + (j1 : Int) * st 1 + (i.getD 2 0 : Nat) * st 2
          + (i.getD 3 0 : Nat) * st 3)))

/-- Pieces and checks of `n` stream bytes at an address of the stream's space. -/
def State.qpieces (s : State) (a : Agent) (c : Cap) (node : Bool) (addr n : Nat) : Except Flt (Option (List Piece)) :=
  if node then
    match s.nodeByte c addr, s.nodeByte c (addr + n - 1) with
    | .error f, _ => .error f
    | .ok _, .error f => .error f
    | .ok (e, p), .ok (_, p') =>
      let m := (s.node e).size - (p - slotAddr e)
      .ok (some (⟨p, p, min n m, Attr.phys true⟩ :: (if m < n then [⟨p' + m + 1 - n, p' + m + 1 - n, n - m, Attr.phys true⟩] else [])))
  else match place scratchSize c (BitVec.ofNat 64 addr) n 1 [.ld] with
    | .fault f => .error f
    | .scr _ => .ok none
    | .glob va => match s.piecesOf a va n false with
      | .error f => .error f
      | .ok ps => .ok (some ps)

/-- A byte of a compressed page, decoded (R132, R133); `xr` gives the expansion check of R134. -/
def State.zrlByte (s : State) (p : Piece) (off : Nat) (xr : Option Nat) : Except Flt Byte :=
  let pa := p.pa + off
  let b := pa / zrlBytes
  let e := NMap.get 0 s.hbm.zmeta b
  let va := (p.va + off) / zrlBytes * zrlBytes
  let ovr := match xr with
    | none => false
    | some x => decide (1 ≤ e) && decide (e ≤ 511) && decide (2 ^ x * e < zrlBytes)
  if ovr then .error ⟨13, 0, va, e, 0⟩
  else match zrlDecode e (s.readBytes (b * zrlBytes) zrlBytes) with
    | none => .error ⟨14, 0, va, e, 0⟩
    | some l => .ok (l.getD (pa % zrlBytes) 0)

/-- The bytes of a piece; compressed pages are expanded when `zrl`, and other bytes pass through (log entry 72). -/
def State.pieceBytes (s : State) (a : Agent) (zrl : Bool) (xr : Option Nat) (p : Piece) : Except Flt (List Byte) :=
  if zrl ∧ p.attr.zrl then
    (List.range p.len).foldr (fun i acc =>
      match s.zrlByte p i xr, acc with
      | .error f, _ => .error f
      | .ok _, .error f => .error f
      | .ok b, .ok l => .ok (b :: l)) (.ok [])
  else .ok (s.seen a [p])

/-- The bytes of pieces in order. -/
def State.piecesBytes (s : State) (a : Agent) (zrl : Bool) (xr : Option Nat) : List Piece → Except Flt (List Byte)
  | [] => .ok []
  | p :: ps =>
    match s.pieceBytes a zrl xr p, s.piecesBytes a zrl xr ps with
    | .error f, _ => .error f
    | .ok _, .error f => .error f
    | .ok l, .ok m => .ok (l ++ m)

/-- `n` stream bytes at an address, as a number. -/
def State.qread (s : State) (a : Agent) (t : QStream) (q : QDesc) (addr n : Nat) : Except Flt Nat :=
  match s.qpieces a t.cap q.node addr n with
  | .error f => .error f
  | .ok none =>
    let c := s.cellOf a
    (match c.spmFault (spmLines (addr - scratchBase) n) with
    | some f => .error f
    | none => .ok (c.spmLE (addr - scratchBase) n))
  | .ok (some ps) =>
    match (s.checkLines ps false a.cache).2 with
    | some f => .error f
    | none =>
      let zrl := t.chain.any (fun w => qoKind w == 0)
      (s.piecesBytes a zrl (some q.xr) ps).map ofLE

/-! ### Operators applied (R130) -/

/-- A value in flight: its bits, the flags set on the way, whether it is out of bounds. -/
structure QVal where
  raw : Nat
  fl : FFlags
  oob : Bool

/-- Address of the scale byte of element `e` of a unit at an address; the distance from QD_BASE is signed and the divisions
round down (R130; log entry 72). -/
def QDesc.scaleAddr (q : QDesc) (w : Word) (addr e : Nat) : Nat :=
  let b : Int := if etLattice q.sfmt then ((fmtBits q.sfmt q.desc / 8 : Nat) : Int) else (fmtBits q.sfmt q.desc : Nat)
  let d := sx 64 (wrap 64 ((addr : Int) - (q.base : Int)))
  wrap 64 ((q.base : Int) + qoOff w + (d * 8 / b + (e : Int)) / (qoBlk w : Nat))

/-- The scale byte of element `e` of a unit at an address (R130). -/
def State.qscale (s : State) (a : Agent) (t : QStream) (q : QDesc) (w : Word) (addr e : Nat) : Except Flt Nat :=
  s.qread a { t with chain := [] } q (q.scaleAddr w addr e) 1

/-- Unit address and place in its unit of element `i`; none when out of bounds. -/
def State.elemAt (s : State) (a : Agent) (q : QDesc) (i : Nat) : Except Flt (Option (Nat × Nat)) :=
  match q.addr (s.cellOf a) (i / q.perUnit) with
  | .error f => .error f
  | .ok none => .ok none
  | .ok (some x) => .ok (some (x, i % q.perUnit))

/-- The scales of elements that lie in bounds, each read at its own element's address (R130). -/
def State.laneScales (s : State) (a : Agent) (t : QStream) (q : QDesc) (w : Word) : List Nat → Except Flt (List (Nat × Num))
  | [] => .ok []
  | i :: l =>
    match s.elemAt a q i, s.laneScales a t q w l with
    | .error f, _ => .error f
    | .ok none, r => r
    | .ok (some (x, e)), r =>
      match s.qscale a t q w x e, r with
      | .error f, _ => .error f
      | .ok _, .error f => .error f
      | .ok b, .ok m => .ok ((i, decScale (qoSf w) b) :: m)

/-- The number that a floating element's bits spell. -/
def rawNum (f : Nat) (d : BitVec 16) (raw : Nat) : Num := ((ffOf d f).getD FF.f32).dec raw

/-- A number rounded into a floating format. -/
def numRaw (f : Nat) (d : BitVec 16) (mode : RMode) (sat : Bool) (x : Num) : Nat × FFlags :=
  roundEnc ((ffOf d f).getD FF.f32) mode sat x

/-- DEC (R130, R67) on the bits of one element. -/
def decOp (fin : Nat) (din : BitVec 16) (w : Word) (raw : Nat) : Nat × FFlags :=
  let mode := (RMode.ofCode (qoRm w)).getD .rne
  let int (f : Nat) : Bool := decide (3 ≤ f) && decide (f ≤ 6)
  let f := qoFmt w
  if int fin then
    let v := sx (intBits fin) raw
    if int f then (if intBits f < intBits fin then narrowInt (intBits f) (qoSat w) v else (wrap (intBits f) v, 0))
    else numRaw f (qoDesc w) mode (qoSat w) (intNum v)
  else
    let x := rawNum fin din raw
    if int f then toIntN (intBits f) mode x else numRaw f (qoDesc w) mode (qoSat w) x

/-- Input format of the last operator of a chain in reverse. -/
def inFmt (q : QDesc) (rest : List Word) : Nat × BitVec 16 :=
  match rest with
  | w :: _ => (qoFmt w, qoDesc w)
  | [] => (q.sfmt, q.desc)

/-- The value after a chain (given in reverse): codeword `i` when `cw`, element `i` otherwise. A block of LQNT is 16 or 32
elements that follow one another in the visiting order, each with the scale of its own address (R84, R130; log entry 71). -/
def State.qval (s : State) (a : Agent) (t : QStream) (q : QDesc) : List Word → Bool → Nat → Except Flt QVal
  | [], cw, i =>
    match s.elemAt a q (if cw then 8 * i else i) with
    | .error f => .error f
    | .ok none => .ok ⟨0, 0, true⟩
    | .ok (some (x, e)) =>
      (s.qread a t q x q.unit).map (fun v =>
        ⟨if q.perUnit = 2 then v / 16 ^ e % 16 else v, 0, false⟩)
  | w :: rest, cw, i =>
    let fi := inFmt q rest
    match qoKind w with
    | 0 => s.qval a t q rest cw i
    | 4 =>
      let blk := qoBlk w
      let g := i * 8 / blk
      let els := (span (g * blk) blk).map (fun j => (j, s.qval a t q rest false j))
      match els.find? (fun e => match e.2 with
        | .error _ => true
        | .ok _ => false) with
      | some (_, .error f) => .error f
      | _ =>
        let vs := els.map (fun e => (e.1, match e.2 with
          | .ok v => v
          | .error _ => ⟨0, 0, true⟩))
        let fl := vs.foldl (fun (f : FFlags) v => f ||| v.2.fl) 0
        match s.laneScales a t q w ((vs.filter (fun v => !v.2.oob)).map (·.1)) with
        | .error f => .error f
        | .ok [] => .ok ⟨0, 0, true⟩
        | .ok sc =>
          let r := quantLanes (qoFmt w == 9) (qoSat w) (sc.map (·.2)) (vs.map (fun v =>
            ⟨rawNum fi.1 fi.2 v.2.raw, ((sc.find? (fun e => e.1 == v.1)).map (·.2)).getD (.fin false 1 0), !v.2.oob⟩))
          .ok ⟨r.1.getD (i - g * blk / 8) 0, fl ||| r.2, (vs.drop (8 * i - g * blk)).take 8 |>.all (·.2.oob)⟩
    | 2 =>
      match s.qval a t q rest true (i / 8) with
      | .error f => .error f
      | .ok v =>
        if v.oob then .ok v
        else match s.elemAt a q i with
          | .error f => .error f
          | .ok none => .ok ⟨0, 0, true⟩
          | .ok (some (x, e)) =>
            (s.qscale a t q w x e).map (fun sc =>
              let n := (decE8 (fi.1 == 9) v.raw (decScale (qoSf w) sc)).getD (i % 8) .nan
              let r := numRaw (qoFmt w) (qoDesc w) .rne false n
              ⟨r.1, v.fl ||| r.2, false⟩)
    | k =>
      match s.qval a t q rest false i with
      | .error f => .error f
      | .ok v =>
        if v.oob then .ok v
        else if k = 3 then
          match s.elemAt a q i with
          | .error f => .error f
          | .ok none => .ok ⟨0, 0, true⟩
          | .ok (some (x, e)) =>
            (s.qscale a t q w x e).map (fun sc =>
              let p := (rawNum fi.1 fi.2 v.raw).mul (decScale (qoSf w) sc)
              let r := numRaw (qoFmt w) (qoDesc w) .rne false p.1
              ⟨r.1, v.fl ||| r.2 ||| (if p.2 then fNV else 0), false⟩)
        else
          let r := decOp fi.1 fi.2 w v.raw
          .ok ⟨r.1, v.fl ||| r.2, false⟩

/-- Pop number `n` of a stream (R131): its 256 bytes, flags, and the first fault found. -/
def State.qpop (s : State) (a : Agent) (t : QStream) (n : Nat) : Line256 × FFlags × Option Flt :=
  let q := QDesc.ofBytes t.desc
  let f := outFmt q t.chain
  let w := fmtBits f.1 f.2
  let per := 2048 / w
  let lat := etLattice f.1
  let rev := t.chain.reverse
  let r := (List.range per).foldl (fun (acc : Nat × FFlags × Option Flt) k =>
    match acc.2.2 with
    | some _ => acc
    | none =>
      match s.qval a t q rev lat (n * per + k) with
      | .error e => (acc.1, acc.2.1, some e)
      | .ok v =>
        let x := if v.oob then (if lat then 0 else q.fill % 2 ^ w) else v.raw % 2 ^ w
        (acc.1 + x * 2 ^ (w * k), acc.2.1 ||| (if v.oob then 0 else v.fl), none)) (0, 0, none)
  (BitVec.ofNat 2048 r.1, r.2.1, r.2.2)

/-- The elements that a pop needs: those it delivers, rounded out to whole blocks before LQNT (R130). -/
def QStream.elems (t : QStream) (n : Nat) : List Nat :=
  let f := outFmt (QDesc.ofBytes t.desc) t.chain
  let per := 2048 / fmtBits f.1 f.2
  let els := if etLattice f.1 then 8 * per else per
  let blk := if t.chain.any (fun w => qoKind w == 4) then 32 else 1
  span (n * els / blk * blk) ((n * els % blk + els + blk - 1) / blk * blk)

/-- The reads of a pop in the stream's space: address and bytes of its units and of their scale bytes (R129, R130). -/
def State.qreads (s : State) (a : Agent) (t : QStream) (n : Nat) : List (Nat × Nat) :=
  let q := QDesc.ofBytes t.desc
  ((t.elems n).flatMap (fun i =>
    match s.elemAt a q i with
    | .ok (some (x, e)) =>
      (x, q.unit) :: (t.chain.filter (fun w => decide (2 ≤ qoKind w))).map (fun w => (q.scaleAddr w x e, 1))
    | _ => [])).eraseDups

/-- The pieces of global memory that a pop reads. -/
def State.qtouch (s : State) (a : Agent) (t : QStream) (n : Nat) : List Piece :=
  (s.qreads a t n).flatMap (fun r =>
    match s.qpieces a t.cap (QDesc.ofBytes t.desc).node r.1 r.2 with
    | .ok (some ps) => ps
    | _ => [])

/-- The scratchpad lines that a pop reads: index entries, units, scale bytes (R129). -/
def State.qlines (s : State) (a : Agent) (t : QStream) (n : Nat) : List Nat :=
  let q := QDesc.ofBytes t.desc
  let index := if q.idx then (t.elems n).filterMap (fun i => match s.elemAt a q i with
    | .ok (some _) => (q.index (i / q.perUnit)).map (fun j => (q.idxOff + 4 * j.getD 1 0) / 64)
    | _ => none) else []
  (index ++ (s.qreads a t n).flatMap (fun r =>
    match s.qpieces a t.cap q.node r.1 r.2 with
    | .ok none => spmLines (r.1 - scratchBase) r.2
    | _ => [])).eraseDups

/-- The machine as the next pop of a stream reads it: lines read ahead hold the bytes that they held then. -/
def State.readAhead (s : State) (a : Agent) (t : QStream) : State :=
  if t.ahead = [] then s
  else
    let c := s.cellOf a
    s.setCellOf a { c with spm := t.ahead.foldl (fun m e => putBytes 0 m (64 * e.1) e.2) c.spm }

/-- The lines that one wall cycle reads of those that a pop still needs: one of each bank, on bank cycles free of other accesses
(R19, R129). -/
def Cell.linesNow (c : Cell) (need : List Nat) : List Nat :=
  (need.filter c.lineFree).foldl (fun l i => if onePerBank (l ++ [i]) then l ++ [i] else l) []

/-- The pattern engine decodes the next pop of a RUNNING stream; its buffer holds 16 (R131). What it reads of the scratchpad
it reads on bank cycles free of other accesses, one line of a bank on a wall cycle (R19, R129); the pop is decoded on the cycle of
its last read. -/
def execPatternDecode (g c n : Nat) (s : State) : Res :=
  let a : Agent := ⟨false, g, c, .ladle⟩
  let cell := s.cellOf a
  let t := NMap.get QStream.unbound cell.qs n
  if t.st ≠ 2 ∨ 16 ≤ t.buf.length then .next s
  else
    let k := t.taken + t.buf.length
    let u := s.readAhead a t
    let ps := u.qtouch a t k
    let need := (u.qlines a t k).filter (fun l => (NMap.find t.ahead l).isNone)
    let lines := cell.linesNow need
    if lines ≠ need then
      let got := lines.foldl (fun m l => NMap.put m l ((span (64 * l) 64).map (NMap.get 0 cell.spm))) t.ahead
      .next (s.setCellOf a { (cell.useLines lines) with qs := NMap.put cell.qs n { t with ahead := got } })
    else if s.ready a.cache false ps = false then .next (s.askFor a.cache (s.partOf a) false ps)
    else if s.readMay s.nextId a ps = false then .next s
    else
      let s := ((s.checkLines ps false a.cache).1).touchFor a false ps
      let r := (s.readAhead a t).qpop a t k
      let s := s.takeTurn a.key ps
      let s := if (QDesc.ofBytes t.desc).node then
          (ps.map (fun p => slotEntry p.pa)).eraseDups.foldl (fun s e => s.useNode e) s else s
      let cell := (s.cellOf a).useLines lines
      .next (s.setCellOf a { cell with qs := NMap.put cell.qs n { t with buf := t.buf ++ [r], ahead := [] } })

/-! ### Control (R306) and VPOP (R261) -/

def execQbind (g : G4) (x : XR) (n : BitVec 4) (s : State) : Res :=
  let i := Instr.qbind g x n
  let off := bits (s.rx x).toNat 21 0
  .next (s.gangOnly i (fun s =>
    if off % 128 ≠ 0 ∨ scratchSize < off + 128 then s.capFault .bounds (scratchBase + off)
    else if s.cell.running n.toNat then s.streamFault i
    else (s.sched 2 (.qbind i n.toNat off)).advance))

/-- QBIND's access cycle: the descriptor read and checked (R128, R112). -/
def State.qbindRead (s : State) (a : Agent) (pc : Word) (i : Instr) (off : Nat) : Except Flt (List Byte × Cap) :=
  let c := s.cellOf a
  let l := (span off 128).map (NMap.get 0 c.spm)
  match descFault l with
  | some v => .error ⟨2, 0, pc.toNat, wordNat i, v⟩
  | none =>
    let cap := Cap.ofNat (ofLE (l.take 16)) (NSet.mem c.tags (off / 16))
    match s.qcapFault cap (QDesc.ofBytes l) with
    | some f => .error f
    | none => .ok (l, cap)

/-- QOP: a record with a reserved rounding mode, or with a format code or descriptor that is reserved or not accepted in
its place, is refused at the issue (R55, R59, R64); the rest of the chain is checked at QSTART (R130). -/
def execQop (g : G4) (x : XR) (n : BitVec 4) (s : State) : Res :=
  let i := Instr.qop g x n
  let t := NMap.get QStream.unbound s.cell.qs n.toNat
  .next (s.gangOnly i (fun s =>
    if t.st ≠ 1 then s.streamFault i
    else if qoRm (s.rx x) = 5 ∨ qoRm (s.rx x) = 6 then s.illegal i 1
    else if 4 ≤ t.chain.length ∨ qoFmtOk (s.rx x) = false then s.illShape i (s.rx x).toNat
    else (s.sched 1 (.qop n.toNat (s.rx x))).advance))

def execQstart (g : G4) (n : BitVec 4) (s : State) : Res :=
  let i := Instr.qstart g n
  let t := NMap.get QStream.unbound s.cell.qs n.toNat
  .next (s.gangOnly i (fun s =>
    if t.st ≠ 1 then s.streamFault i
    else if chainOk (QDesc.ofBytes t.desc) t.chain = false then s.illShape i ((t.chain.getLast?).getD 0).toNat
    else (s.sched 1 (.qstate n.toNat 2)).advance))

def execQstop (g : G4) (n : BitVec 4) (s : State) : Res :=
  .next (s.gangOnly (.qstop g n) (fun s =>
    if s.cell.running n.toNat then (s.sched 1 (.qstate n.toNat 1)).advance else s.advance))

def execVpop (g : G4) (d : BitVec 6) (n : BitVec 4) (s : State) : Res :=
  .next (if s.cell.running n.toNat = false then s.streamFault (.vpop g d n)
    else
      let t := s.takePop n.toNat (.vpop n.toNat d.toNat)
        (fun v f s => (s.sched 4 (.v d.toNat (BitVec.allOnes 64) v)).schedFlags 4 f)
      if (t.gang s.cur.unit).held then t else t.advance)

end Sys2Proof.Machine
end

