-- ==== Sys2Proof/Machine/Sync.lean ====
section
/-!
DEFINITION. Named barriers, HOLD on write pointers and barriers, gang links (R45, R124 to R126, R227 to R231).
-/
namespace Sys2Proof.Machine

/-! ### Barriers (R124, R125, R227) -/

/-- PEND and ARR of a barrier word (R124). -/
def barPend (w : BitVec 48) : Nat := bits w.toNat 39 0
def barArr (w : BitVec 48) : Nat := bits w.toNat 45 40

/-- The barrier is at zero (R126). -/
def barZero (w : BitVec 48) : Bool := decide (barPend w = 0) && decide (barArr w = 0)

/-- A barrier of a cell. -/
def Cell.bar (c : Cell) (b : Nat) : BitVec 48 := NMap.get 0 c.bars b

/-- A barrier of a cell replaced. -/
def Cell.setBar (c : Cell) (b : Nat) (w : BitVec 48) : Cell := { c with bars := NMap.set 0 c.bars b w }

/-- PEND replaced, modulo 2^40. -/
def barAdd (w : BitVec 48) (n : Int) : BitVec 48 :=
  BitVec.ofNat 48 (wrap 40 ((barPend w : Int) + n) + (w.toNat / 2 ^ 40) * 2 ^ 40)

/-- LAPSE set (R125). -/
def barLapse (w : BitVec 48) : BitVec 48 := w ||| BitVec.ofNat 48 (2 ^ 46)

def execBinit (_ : G4) (b : BitVec 5) (n : BitVec 6) (s : State) : Res := .next (s.sched 1 (.binit b.toNat n.toNat)).advance

/-- BARRIVE; a barrier with ARR = 0 raises its stream-state fault on the perform cycle (R125, R228). -/
def execBarrive (_ : G4) (b : BitVec 5) (s : State) : Res := .next (s.sched 1 (.barrive b.toNat)).advance

def execBexpect (_ : G4) (x : XR) (b : BitVec 5) (s : State) : Res := .next (s.sched 1 (.bexpect b.toNat (s.rx x))).advance

/-! ### Freeze conditions (R41) and HOLD (R229) -/

/-- A write pointer of a cell (R122). -/
def Cell.wptr (c : Cell) (k : Nat) : Nat := (NMap.get Chan.zero c.chans k).w

/-- A recorded condition holds in the current state. -/
def State.satisfied (s : State) (e : CondE) : Bool :=
  let c (i : Nat) : Cell := s.cellOf { e.ag with cell := i }
  match e.cond with
  | .wptr i k v => decide (v.toNat ≤ (c i).wptr k)
  | .barrier i b => barZero ((c i).bar b)
  | .op id => (NMap.find s.ops id).isNone
  | .pop i q => !(NMap.get QStream.unbound (c i).qs q).buf.isEmpty
  | .queue _ id => match NMap.find s.copies id with
    | some k => !k.queued
    | none => true

/-- HOLD: the condition is recorded and evaluated at the end of each wall cycle, the issue's own included; a steward's
HOLD stalls its stream (R41, R229, R316). -/
def State.hold (s : State) (c : Cond) : State := ((s.setMe { s.me with snap := none }).freezeOn c).advance

def execHoldWptr (g : G4) (x : XR) (k : BitVec 3) (s : State) : Res :=
  .next (s.gangOnly (.holdWptr g x k) (fun s => s.hold (.wptr s.cur.cell k.toNat (s.rx x))))

def execHoldBarrier (g : G4) (n : BitVec 5) (s : State) : Res :=
  .next (s.gangOnly (.holdBarrier g n) (fun s => s.hold (.barrier s.cur.cell n.toNat)))

/-! ### Gang links (R230, R231) -/

/-- Effective address of SEND and RECV: c[cb].ADDR + x[xs] with bits [5:0] cleared. -/
def State.linkAddr (s : State) (c : BitVec 4) (x : XR) : Word := ((s.rc c).addr + s.rx x) &&& ~~~ 63

/-- Number of a cell's link towards another cell. -/
def linkKey (d : BitVec 2) : Nat := d.toNat

/-- Spans of one list that overlap another, of the same key. -/
def spansMeet (l : List Busy) (b : Busy) : Bool := l.any (fun e => e.key == b.key && decide (e.lo ≤ b.hi) && decide (b.lo ≤ e.hi))

def execSend (g : G4) (x : XR) (c : BitVec 4) (d : BitVec 2) (n : BitVec 4) (s : State) : Res :=
  let a := s.linkAddr c x
  let lines := n.toNat + 1
  .next (s.gangOnly (.send g x c d n) (fun s =>
    if d.toNat = s.cur.cell then s.illegal (.send g x c d n) 1
    else match s.placeOf (s.rc c) a (64 * lines) 1 [.ld] with
      | .fault f => s.raise f
      | .glob va => s.capFault .bounds va
      | .scr off =>
        let span : Busy := ⟨linkKey d, s.now + 1, s.now + lines⟩
        if spansMeet s.cell.links span then s.raise (timeFlt .link s.cur.cell d.toNat)
        else s.fenceHold (.send g x c d n) (fun s =>
          let s := s.setCell { s.cell with links := span :: s.cell.links }
          ((List.range lines).foldl (fun s k =>
            s.sched (2 + k) (.send d.toNat (off + 64 * k) (if k = 0 then lines else 0))) s).advance)))

/-- Banks of a scratchpad range, as line numbers (R118). -/
def bankOf (off : Nat) : Nat := (off / 64) % 64

/-- The first line of a SEND from `src` to `dst` that arrives on the current gang cycle. -/
def Gang.arrival (g : Gang) (src dst : Nat) : Option LinkLine :=
  g.arrivals.find? (fun l => l.src == src && l.dst == dst && l.due == g.gc)

/-- A line written to the scratchpad with its tags (R108, R231). -/
def Cell.putLine (c : Cell) (off : Nat) (data : BitVec 512) (tags : BitVec 4) : Cell :=
  let spm := putBytes 0 c.spm off (leBytes data.toNat 64)
  let t := (List.range 4).foldl (fun t i =>
    if tags.toNat.testBit i then NSet.add t (off / 16 + i) else NSet.del t (off / 16 + i)) c.tags
  ({ c with spm := spm, tags := t }).heal [off / 64]

/-- RECV: the bank and arrival checks of line 0 fall on the issue cycle (R231). -/
def execRecv (g : G4) (x : XR) (c : BitVec 4) (d : BitVec 2) (n : BitVec 4) (s : State) : Res :=
  let a := s.linkAddr c x
  let lines := n.toNat + 1
  .next (s.gangOnly (.recv g x c d n) (fun s =>
    if d.toNat = s.cur.cell then s.illegal (.recv g x c d n) 1
    else match s.placeOf (s.rc c) a (64 * lines) 1 [.st] with
      | .fault f => s.raise f
      | .glob va => s.capFault .bounds va
      | .scr off =>
        let q := s.gang s.cur.unit
        match q.arrival d.toNat s.cur.cell with
        | none => s.raise (timeFlt .unmatched d.toNat s.cur.cell)
        | some l =>
          if l.first ≠ lines then s.raise (timeFlt .unmatched d.toNat s.cur.cell)
          else if s.cell.banksNow.contains (bankOf off) then s.raise (timeFlt .bank (bankOf off) s.cur.cell)
          else
            let s := s.setGang s.cur.unit { q with arrivals := q.arrivals.erase l }
            let cl := s.cell.putLine off l.data l.tags
            let s := s.setCell { cl with banksNow := bankOf off :: cl.banksNow }
            ((List.range (lines - 1)).foldl (fun s k => s.sched (k + 1) (.recv d.toNat (off + 64 * (k + 1)))) s).advance))

end Sys2Proof.Machine
end

