-- ==== Sys2Proof/Machine/Copies.lean ====
section
/-!
DEFINITION. Copies in flight: channel bytes, landings, faults after issue (R108, R121 to R123, R125, R291 to R305).
-/
namespace Sys2Proof.Machine

/-! ### Channel bytes performed (R121, R122) -/

/-- The interval is not yet landed at a receiver. -/
def Copy.fresh (c : Copy) (r lo n : Nat) : Bool :=
  !c.got.any (fun e => e.1 == r && decide (e.2.1 < lo + n) && decide (lo < e.2.2))

/-- The copy uses an entry of its cell's copy queue (R292). -/
def Copy.entry (c : Copy) (a : Agent) : Bool :=
  c.ag.stew == a.stew && c.ag.unit == a.unit && c.ag.cell == a.cell && !c.queued && !c.stopped && !c.complete

/-- Entries of an agent's cell in use (R292). -/
def State.queueUse (s : State) (a : Agent) : Nat := (s.copies.filter (fun e => e.2.entry a)).length

/-- A copy by number. -/
def State.copy? (s : State) (id : Nat) : Option Copy := NMap.find s.copies id

/-- A copy replaced. -/
def State.setCopy (s : State) (id : Nat) (c : Copy) : State := { s with copies := NMap.put s.copies id c }

/-- Number of a copy's first channel byte: those before it on its channel counted. -/
def State.copyStart (s : State) (id : Nat) (c : Copy) : Nat :=
  let ch := NMap.get Chan.zero (s.cellOf c.ag).chans c.ch
  (ch.copies.takeWhile (· ≠ id)).foldl (fun n i => match s.copy? i with
    | some d => n + d.len
    | none => n) ch.base

/-- The write pointer of a channel (R122): the copies in order, up to the first byte not performed. -/
def State.chanW (s : State) : Nat → List Nat → Nat
  | b, [] => b
  | b, i :: l =>
    match s.copy? i with
    | none => s.chanW b l
    | some c => if c.complete then s.chanW (b + c.len) l else b + c.landed

/-- Finished copies leave the front of a channel. -/
def State.dropDone (s : State) : Nat → List Nat → Nat × List Nat
  | b, [] => (b, [])
  | b, i :: l =>
    match s.copy? i with
    | none => s.dropDone b l
    | some c => if c.complete then s.dropDone (b + c.len) l else (b, i :: l)

/-- A channel brought up to date: its write pointer, then the finished copies at its front forgotten. -/
def State.updateChan (s : State) (a : Agent) (k : Nat) : State :=
  let cl := s.cellOf a
  let ch := NMap.get Chan.zero cl.chans k
  let r := s.dropDone ch.base ch.copies
  let gone := ch.copies.filter (fun i => !r.2.contains i)
  let s1 := s.setCellOf a { cl with chans := NMap.put cl.chans k ⟨s.chanW ch.base ch.copies, r.1, r.2⟩ }
  { s1 with copies := gone.foldl NMap.erase s1.copies }

/-- The oldest copy that waits for a queue entry of an agent's cell takes a free one (R292). -/
def State.takeQueue (s : State) (a : Agent) : State :=
  if 64 ≤ s.queueUse a then s
  else match s.copies.find? (fun e => e.2.queued && e.2.ag.stew == a.stew && e.2.ag.unit == a.unit && e.2.ag.cell == a.cell) with
    | none => s
    | some (i, c) =>
      let s := s.setCopy i { c with queued := false }
      if a.stew then s.setStreamOf c.ag { s.streamOf c.ag with stall := none, ready := s.wall + 1 } else s

/-- The bytes `lo` to `lo + n` have landed at a receiver: barrier, channel and queue follow (R122, R125, R292);
the flags of a reduction enter with its last element (R74). -/
def State.landed (s : State) (id : Nat) (c : Copy) (r lo n : Nat) : State :=
  let c' := { c with got := (r, lo, lo + n) :: c.got,
                     inbox := c.inbox.filter (fun e => decide (e.1 < lo) || decide (lo + n ≤ e.1)),
                     inTags := c.inTags.filter (fun e => decide (e.1 < lo) || decide (lo + n ≤ e.1)) }
  let more := c'.performed - c.performed
  let s := s.setCopy id c'
  let s := if c'.complete then s.orFlagsOf c.ag c'.fl else s
  let s := match c.bar with
    | none => s
    | some b =>
      let cl := s.cellOf c.ag
      s.setCellOf c.ag (cl.setBar b (barAdd (cl.bar b) (-(more : Int))))
  (s.updateChan c.ag c.ch).takeQueue c.ag

/-! ### Places (R117, R296 to R305) -/

/-- The scratchpad bytes of an agent's cell. -/
def State.spm (s : State) (a : Agent) (off n : Nat) : List Byte :=
  (span off n).map (NMap.get 0 (s.cellOf a).spm)

/-- Index `j` of an index array (R299). -/
def State.index (s : State) (a : Agent) (idx j : Nat) : Nat := (s.cellOf a).spmLE (idx + 4 * j) 4

/-- Table element address (R299). -/
def tableAt (t : Cap) (ix esz : Nat) : Nat := (t.addr.toNat + ix * 2 ^ esz) % 2 ^ 64

/-- Where the bytes of a copy at channel offset `off` come from and go to, and how many lie together. -/
structure Run where
  src : Nat
  dst : Nat
  left : Nat
  /-- First address of the table element that the run lies in; 0 where no table is used. -/
  elem : Nat
  /-- Scratchpad offset of its index entry. -/
  index : Option Nat

/-- The run of a copy at a channel offset. -/
def State.runAt (s : State) (c : Copy) (off : Nat) : Run :=
  let w (v : Int) : Nat := wrap 64 v
  let sa : Int := (c.src.addr.toNat : Nat)
  let da : Int := (c.dst.addr.toNat : Nat)
  match c.kind with
  | .nd run c1 c2 _ s1 s2 s3 d1 d2 d3 =>
    let r := off / run
    let i1 : Int := (r % c1 : Nat)
    let i2 : Int := (r / c1 % c2 : Nat)
    let i3 : Int := (r / (c1 * c2) : Nat)
    let o : Int := (off % run : Nat)
    ⟨w (sa + i1 * s1.toInt + i2 * s2.toInt + i3 * s3.toInt + o), w (da + i1 * d1.toInt + i2 * d2.toInt + i3 * d3.toInt + o),
     run - off % run, 0, none⟩
  | .gath idx esz =>
    let t := tableAt c.src (s.index c.ag idx (off / 2 ^ esz)) esz
    ⟨(t + off % 2 ^ esz) % 2 ^ 64, w (da + (off : Nat)), 2 ^ esz - off % 2 ^ esz, t, some (idx + 4 * (off / 2 ^ esz))⟩
  | .scat idx esz =>
    let t := tableAt c.dst (s.index c.ag idx (off / 2 ^ esz)) esz
    ⟨w (sa + (off : Nat)), (t + off % 2 ^ esz) % 2 ^ 64, 2 ^ esz - off % 2 ^ esz, t, some (idx + 4 * (off / 2 ^ esz))⟩
  | .scadd idx esz _ =>
    let t := tableAt c.dst (s.index c.ag idx (off / 2 ^ esz)) esz
    ⟨w (sa + (off : Nat)), (t + off % 2 ^ esz) % 2 ^ 64, 2 ^ esz - off % 2 ^ esz, t, some (idx + 4 * (off / 2 ^ esz))⟩
  | .sqld _ => ⟨w (sa + (off / 128 * c.stride + off % 128 : Nat)), off, 128 - off % 128, 0, none⟩
  | .rread o => ⟨w ((o.toNat : Nat) + (off : Nat)), w (da + (off : Nat)), c.len - off, 0, none⟩
  | .rwrite o => ⟨w (sa + (off : Nat)), w ((o.toNat : Nat) + (off : Nat)), c.len - off, 0, none⟩
  | .kget o => ⟨w ((o.toNat : Nat) + (off : Nat)), w (da + (off : Nat)), c.len - off, 0, none⟩
  | _ => ⟨w (sa + (off : Nat)), w (da + (off : Nat)), c.len - off, 0, none⟩

/-- The copy gathers or scatters through a table; each element is checked when it is generated (R294). -/
def Copy.table (c : Copy) : Option (Cap × Nat × List Perm) :=
  match c.kind with
  | .gath _ e => some (c.src, e, [.ld, .cp])
  | .scat _ e => some (c.dst, e, [.st, .cp])
  | .scadd _ e _ => some (c.dst, e, [.ld, .st, .at, .cp])
  | _ => none

/-- Pieces of a copy's global bytes now: by extent. A contiguous range was checked at the issue, so where its extent has
gone since (R368) the page tables give its place; a table element, and the rest of a copy that was stopped, without extent is an
extent miss (R294, R364). -/
def State.copyPieces (s : State) (a : Agent) (anew : Bool) (va n : Nat) (write : Bool) : Except Flt (List Piece) :=
  match s.piecesOf a va n write with
  | .ok ps => .ok ps
  | .error f =>
    if f.cause ≠ 5 ∨ a.stew ∨ anew then .error f
    else (cutPages va n (n / 4096 + 2)).foldr (fun (v, m) acc =>
      let w := s.walkTables (s.partOf a) v
      if w.resident = false then .error f
      else
        let pa := leafPa w.leaf w.size v
        let at' := leafAttr w.leaf pa
        if s.frameGone pa then .error ⟨6, 0, v, accInfo n write, 0⟩
        else if write ∧ at'.writable = false then .error ⟨6, 1, v, accInfo n write, 0⟩
        else match acc with
          | .error e => .error e
          | .ok ps => .ok (⟨v, pa, m, at'⟩ :: ps)) (.ok [])

/-- A side of a copy: a scratchpad offset, pieces of memory, the fault that its bytes meet, or no place of its own. -/
inductive Side where
  | spm (off : Nat) | mem (ps : List Piece) | bad (f : Flt) | none

/-- The check of a table element when it is generated: its index entry (R405), then its bounds and its pages over all its
bytes (R294, R299). -/
def State.elemFault (s : State) (c : Copy) (write : Bool) (r : Run) : Option Flt :=
  (r.index.bind (fun o => (s.cellOf c.ag).spmFault (spmLines o 4))) <|> match c.table with
  | some (t, e, need) => match capCheck t r.elem (2 ^ e) 1 need with
    | some x => some (capFlt x r.elem)
    | Option.none =>
      if spaceOf c.ag.scratch r.elem (2 ^ e) = .global then match s.copyPieces c.ag true r.elem (2 ^ e) write with
        | .error f => some f
        | .ok _ => Option.none
      else Option.none
  | Option.none => Option.none

/-- A side at an address: a table element passes its own check first (R294), and no bytes reach a sealed page (R170,
R179). -/
def State.sideAt (s : State) (c : Copy) (write isTable : Bool) (r : Run) (va n : Nat) : Side :=
  match (if isTable then s.elemFault c write r else Option.none) with
  | some f => .bad f
  | Option.none =>
    match spaceOf c.ag.scratch va n with
    | .scratch => match (if write then Option.none else (s.cellOf c.ag).spmFault (spmLines (va - scratchBase) n)) with
      | some f => .bad f
      | Option.none => .spm (va - scratchBase)
    | .global => match s.copyPieces c.ag (c.again || isTable && c.table.isSome) va n write with
      | .error f => .bad f
      | .ok ps =>
        if write ∧ ps.any (fun p => p.attr.sealed) then .bad ⟨7, 0, va, 0, 0⟩
        else match (s.checkLines ps write c.ag.cache).2 with
          | some f => .bad f
          | Option.none => .mem ps
    | .other => .bad (capFlt .bounds va)

/-- The table is the source side. -/
def Copy.tableSrc (c : Copy) : Bool := match c.kind with
  | .gath _ _ => true
  | _ => false

/-- The copy's bytes come from another device (R302, R303). -/
def State.fromAfar (s : State) (c : Copy) : Bool := match c.kind with
  | .rread _ => true
  | .kget _ => c.src.nhDev != s.boot.dev
  | _ => false

/-- Source of a run of `n` bytes; node space is resolved ingot by ingot (R303); bytes from another device have no source
here. -/
def State.srcSide (s : State) (c : Copy) (r : Run) (n : Nat) : Side :=
  if s.fromAfar c then .none
  else match c.kind with
    | .kget _ => match s.nodeByte c.src r.src with
      | .error f => .bad f
      | .ok (_, pa) => .mem [⟨r.src, pa, n, Attr.phys true⟩]
    | _ => s.sideAt c false c.tableSrc r r.src n

/-- The address lies in a block that is UNSEALED and owned by the agent's pour (R297). -/
def State.openBlock (s : State) (a : Agent) (va : Nat) : Bool :=
  let nd := s.node (slotEntry va)
  inSlotWindow va && decide (nd.st = 1) && decide (nd.owner = some (s.holderOf a))

/-- Destination of a run of `n` bytes; KPUT lands only in an open block of the pour. -/
def State.dstSide (s : State) (c : Copy) (r : Run) (n : Nat) : Side :=
  match c.kind with
  | .sqld _ => .none
  | .rwrite _ => .none
  | .kput => if s.openBlock c.ag r.dst then s.sideAt c true true r r.dst n else .bad ⟨7, 0, r.dst, 0, 0⟩
  | _ => s.sideAt c true (!c.tableSrc) r r.dst n

/-- Bytes from a run's start that lie in one piece of the copy: in one ingot for KGET, in one run for the rest. -/
def State.runLeft (s : State) (c : Copy) (r : Run) : Nat :=
  match c.kind with
  | .kget _ =>
    if s.fromAfar c then r.left
    else match s.nodeByte c.src r.src with
      | .ok (a, pa) => min r.left ((s.node a).size - (pa - slotAddr a))
      | .error _ => r.left
  | _ => r.left

/-- Bytes from a run's start that lie together at the destination: gathered and resolved bytes are contiguous there. -/
def Copy.dstLeft (c : Copy) (r : Run) (lo : Nat) : Nat := match c.kind with
  | .nd _ _ _ _ _ _ _ _ _ _ => r.left
  | .scat _ _ => r.left
  | .scadd _ _ _ => r.left
  | .sqld _ => r.left
  | _ => c.len - lo

/-- The receivers at which the next byte lies in a scratchpad line that holds a double-bit error and that the copy does not fill,
as a mask (R301, R405). -/
def State.badReceivers (s : State) (c : Copy) : Nat :=
  (c.receivers.filter (fun r =>
    let lo := prefixFrom c.got r (c.got.length + 1) 0
    let run := s.runAt c lo
    match s.dstSide c run 1 with
    | .spm off =>
      let cl := s.cellOf { c.ag with cell := r }
      decide (lo < c.len) && NSet.mem cl.bad (off / 64) && !(decide (off % 64 = 0) && decide (64 ≤ c.dstLeft run lo))
    | _ => false)).foldl (fun m r => m + 2 ^ r) 0

/-- The bytes that one unit of a landing takes at a destination: the rest of a table element, else the rest of the line, or of
the compressed block. -/
def State.unitLeft (s : State) (c : Copy) (r : Run) (lo : Nat) : Nat :=
  if c.table.isSome ∧ c.tableSrc = false then r.left
  else
    let u := match s.dstSide c r 1 with
      | .mem (p :: _) => if p.attr.zrl then zrlBytes else 64
      | _ => 64
    min (c.dstLeft r lo) (u - r.dst % u)

/-- The record of a fault found after issue (R324, row 10): layout, first undelivered destination address and channel
byte; the failing receivers of a multicast stand in the field that row 20 gives them (R301; log entry 69). -/
def State.afterIssue (s : State) (id : Nat) (c : Copy) (f : Flt) : Flt :=
  let lo := c.landed
  let (b, e) := match c.bar with
    | some b => (b, 1)
    | Option.none => (0, 0)
  let named := match c.kind with
    | .mcast _ => f.cause == 20 && f.finfo != 0
    | _ => false
  { f with faddr := (s.runAt c lo).dst, finfo := if named then f.finfo else c.ch + b * 2 ^ 3 + e * 2 ^ 8 + (c.len - lo) % 2 ^ 40 * 2 ^ 24,
           faux := s.copyStart id c + lo }

/-- A copy stops with a fault found after its issue: the gang is held against the copy (R294); a steward takes it as a
fault of its own. -/
def State.copyFault (s : State) (id : Nat) (c : Copy) (f : Flt) : State :=
  let g := s.afterIssue id c f
  let s := (s.setCopy id { c with stopped := true }).takeQueue c.ag
  if c.ag.stew then s.stewFault c.ag.unit c.pc (causeWord g)
  else (s.holdGang c.ag.unit c.ag c.pc (some id) g).afterFault c.ag.unit g

/-- A lease lapse (R123): LAPSE of the barrier, then the lease-lapse fault. -/
def State.lapse (s : State) (id : Nat) (c : Copy) : State :=
  let s := match c.bar with
    | some b =>
      let cl := s.cellOf c.ag
      s.setCellOf c.ag (cl.setBar b (barLapse (cl.bar b)))
    | Option.none => s
  s.copyFault id c ⟨10, 0, 0, 0, 0⟩

/-! ### Landing (R34, R108, R122, R293, R295) -/

/-- Landings of the copy follow channel order: multicasts, and copies whose runs may meet one granule. -/
def Copy.inOrder (c : Copy) : Bool := match c.kind with
  | .mcast _ => true
  | .nd _ _ _ _ _ _ _ _ _ _ => true
  | .scat _ _ => true
  | _ => false

/-- The side lies on a strongly ordered page (R140). -/
def Side.so (d : Side) : Bool := match d with
  | .mem ps => soPieces ps
  | _ => false

/-- Bytes that wait in the inbox, when all of them are there. -/
def Copy.arrived (c : Copy) (lo n : Nat) : Option (List Byte) := (span lo n).mapM (NMap.find c.inbox)

/-- Hull of the destination of an unfinished linear or gathered copy, in one space; other kinds count as anywhere. -/
def Copy.dstHull (c : Copy) : Option (Nat × Nat) := match c.kind with
  | .nd _ _ _ _ _ _ _ _ _ _ => Option.none
  | .scat _ _ => Option.none
  | .scadd _ _ _ => Option.none
  | .sqld _ => some (0, 0)
  | .rwrite _ => some (0, 0)
  | _ => some (c.dst.addr.toNat, c.dst.addr.toNat + c.len)

/-- An earlier copy of the channel that has not finished, stopped or not, may write a granule of these bytes (R293). -/
def State.earlierWrites (s : State) (id : Nat) (c : Copy) (a n : Nat) : Bool :=
  let ch := NMap.get Chan.zero (s.cellOf c.ag).chans c.ch
  (ch.copies.takeWhile (· ≠ id)).any (fun i => match s.copy? i with
    | Option.none => false
    | some d => !d.complete && (!d.ready || match d.dstHull with
      | Option.none => true
      | some (lo, hi) => decide (a / 8 * 8 < hi) && decide (lo < a + n)))

/-- A posted store to these bytes that the ladle had acquired before the copy must perform before the landing (R146, R148). -/
def State.mateFirst (s : State) (id : Nat) (c : Copy) (d : Side) : Bool :=
  match d with
  | .mem ps => (s.mates c.ag id).any (fun e => piecesMeet e.2.pieces ps)
  | _ => false

/-- A posted store that came before the copy must perform before the landing: one to the same bytes of the ladle or acquired by
it, and on a strongly ordered page any of the ladle (rules 1 and 3 of R145, R140). -/
def State.storeFirst (s : State) (id : Nat) (c : Copy) (d : Side) : Bool :=
  match d with
  | .mem ps =>
    (s.ownStores c.ag).any (fun e => decide (e.1 < id) && (soPieces ps || piecesMeet e.2.pieces ps)) || s.mateFirst id c d
  | _ => false

/-- The memory that a side lies in. -/
def Side.pieces (d : Side) : List Piece := match d with
  | .mem ps => ps
  | _ => []

/-- Least cycles from the issue to the last byte beside the transfer itself, and the bytes of a cycle, by the path of the
copy (R295): none where the table gives no floor. -/
def State.copyPath (s : State) (c : Copy) : Option (Nat × Nat) :=
  let far (d : Nat) : Nat := if d = c.ag.die then 0 else 30
  let r := s.runAt c 0
  let mem (p : Piece) : Option (Nat × Nat) := match s.backing p.pa with
    | .hbm =>
      let v := s.line (p.pa / 64)
      some (if (v.of c.ag.die).valid then 48 else if (v.of (1 - c.ag.die)).valid then 48 + 30
        else 160 + far (s.homeDie p.attr.cls p.pa), 128)
    | _ => Option.none
  let own : Option (Nat × Nat) := match s.srcSide c r 1, s.dstSide c r 1 with
    | .spm _, .spm _ => some (6, 128)
    | .mem (p :: _), .spm _ => mem p
    | _, _ => Option.none
  match c.kind with
  | .lin => own
  | .nd _ _ _ _ _ _ _ _ _ _ => own
  | .sqld _ => (match s.srcSide c r 1 with
    | .mem (p :: _) => mem p
    | _ => Option.none)
  | .mcast _ => if spaceOf scratchSize r.src 1 = .scratch then some (10, 64) else Option.none
  | .kget o => (match s.nodeByte c.src o.toNat with
    | .ok (e, _) =>
      if s.fromAfar c then Option.none
      else if (s.node e).tier = 0 then some (40 + far ((s.node e).slice / 24), 128)
      else some (160 + far (s.homeDie 0 (slotAddr e)), 128)
    | .error _ => Option.none)
  | _ => Option.none

/-- Both ends of every run of a copy are aligned to 64 bytes (R295). -/
def Copy.aligned64 (c : Copy) : Bool :=
  let src := match c.kind with
    | .kget o => o.toNat
    | _ => c.src.addr.toNat
  let strides : List Word := match c.kind with
    | .nd run _ _ _ s1 s2 s3 d1 d2 d3 => [BitVec.ofNat 64 run, s1, s2, s3, d1, d2, d3]
    | .sqld _ => [BitVec.ofNat 64 c.stride]
    | _ => []
  decide (src % 64 = 0) && decide (c.dst.addr.toNat % 64 = 0) && decide (c.len % 64 = 0)
    && strides.all (fun w => decide (w.toNat % 64 = 0))

/-- Earliest wall cycle of a copy's last byte (R295): fixed when its first landing is tried; 0 where the table gives no
floor. -/
def State.copyFloor (s : State) (c : Copy) : Nat :=
  match c.floor with
  | some f => f
  | Option.none =>
    if c.aligned64 = false then 0
    else match s.copyPath c with
      | some (d, rate) => c.wall + d + (c.len + rate - 1) / rate
      | Option.none => 0

/-- Lines of a side in a scratchpad. -/
def Side.lines (d : Side) (n : Nat) : List Nat := match d with
  | .spm off => span (off / 64) ((off + n + 63) / 64 - off / 64)
  | _ => []

/-- The scratchpad lines of the index entries of `n` channel bytes (R299) that have not been read ahead. -/
def Copy.indexLines (c : Copy) (lo n : Nat) : List Nat :=
  let lines (i e : Nat) : List Nat := if n = 0 then []
    else (((span (lo / 2 ^ e) ((lo + n - 1) / 2 ^ e + 1 - lo / 2 ^ e)).map (fun j => (i + 4 * j) / 64)).eraseDups).filter
      (fun l => c.idxAt ≠ some l)
  match c.kind with
  | .gath i e => lines i e
  | .scat i e => lines i e
  | .scadd i e _ => lines i e
  | _ => []

/-- The index lines that a landing reads: none for a gather whose elements have all been read. -/
def Copy.landIndex (c : Copy) (lo n : Nat) (src : List Nat) : List Nat :=
  if c.tableSrc ∧ src = [] ∧ (c.arrived lo n).isSome then [] else c.indexLines lo n

/-- The lines that a landing reads and those that it writes, one access each, lie in different banks (R19); the receivers of a
multicast have banks of their own. -/
def Copy.banksApart (c : Copy) (r lo n : Nat) (d : Side) (src : List Nat) : Bool :=
  let reads := (src ++ c.landIndex lo n src).eraseDups
  if r = c.ag.cell then onePerBank (reads ++ d.lines n) else onePerBank reads && onePerBank (d.lines n)

/-- Banks of a landing, of its source reads and of its index entries, and the link of a multicast, are free on this wall
cycle (R34, R293, R301). A steward's scratch arbitrates (R317). -/
def State.landFree (s : State) (c : Copy) (r lo n : Nat) (d : Side) (src : List Nat) : Bool :=
  if c.ag.stew then true
  else
    let g := s.gang c.ag.unit
    let own := s.cellOf c.ag
    let cl := NMap.get Cell.zero g.cells r
    let link := match c.kind with
      | .mcast _ => r == c.ag.cell || !g.live || !spanAt own.links r g.gc
      | _ => true
    (d.lines n).all cl.lineFree && src.all own.lineFree && (c.landIndex lo n src).all own.lineFree && link
      && c.banksApart r lo n d src

/-- The physical address of the byte `i` of a side's pieces, with its attributes. -/
def pieceAt (ps : List Piece) (i : Nat) : Option (Nat × Attr) :=
  let va := (ps.headD ⟨0, 0, 0, Attr.phys true⟩).va + i
  (ps.find? (fun p => decide (p.va ≤ va) && decide (va < p.va + p.len))).map (fun p => (p.pa + (va - p.va), p.attr))

/-- The tag that the granule at byte `i` of a side carries as the ladle sees it (R108, R146); a tagless page holds none (R110). -/
def State.sideTag (s : State) (a : Agent) (d : Side) (i : Nat) : Bool :=
  match d with
  | .spm off => NSet.mem (s.cellOf a).tags ((off + i) / 16)
  | .mem ps => match pieceAt ps i with
    | some (pa, at') => !at'.tagless && seenTag (s.tagAt pa) (pa / 16 * 16) (s.ownStores a)
    | Option.none => false
  | _ => false

/-- Offsets of the aligned granules of 16 bytes that lie whole in `n` bytes from an address. -/
def granules16 (a n : Nat) : List Nat :=
  let o := (16 - a % 16) % 16
  (List.range ((n - o) / 16)).map (fun i => o + 16 * i)

/-- Bytes written to one piece: a compressed page takes whole blocks, coded with their metadata (R304). -/
def State.putPiece (s : State) (p : Piece) (l : List Byte) : State :=
  if p.attr.zrl then
    ((List.range (p.len / zrlBytes)).foldl (fun s i =>
      let e := zrlEncode ((l.drop (zrlBytes * i)).take zrlBytes)
      let pa := p.pa + zrlBytes * i
      let s := s.writeBytes pa e.2
      { s with hbm := { s.hbm with zmeta := NMap.set 0 s.hbm.zmeta (pa / zrlBytes) e.1 } })
      (p.wholes.foldl (fun s l => s.seatLine p.attr.cls l) s)).wholeLines p
  else s.writePiece p l

/-- Bytes written through pieces in order. -/
def State.putPieces (s : State) : List Piece → List Byte → State
  | [], _ => s
  | p :: ps, l => (s.putPiece p (l.take p.len)).putPieces ps (l.drop p.len)

/-- The granule at byte `i` of a side lands with its tag: the load barrier, then the tag and the page's cap-store bit (R110,
R113, R362); a page that takes no tags keeps none. -/
def State.landTag (s : State) (a : Agent) (r : Nat) (d : Side) (i : Nat) : State :=
  match d with
  | .spm off =>
    let b := { a with cell := r }
    let cl := s.cellOf b
    let v := Cap.ofNat (cl.spmLE (off + i) 16) true
    if a.stew ∨ (s.barrier a.die (s.partOf a) v).tag then
      s.setCellOf b { cl with tags := NSet.add cl.tags ((off + i) / 16) } else s
  | .mem ps =>
    (match pieceAt ps i with
    | Option.none => s
    | some (pa, at') =>
      let v := Cap.ofNat (s.readLE pa 16) true
      if at'.tagless ∨ s.tagless pa then s
      else if a.stew ∨ (s.barrier a.die (s.partOf a) v).tag then
        ({ s with tags := NSet.add s.tags (pa / 16) }).setCs (s.partOf a) ⟨(ps.headD ⟨0, 0, 0, at'⟩).va + i, pa, 16, at'⟩
      else s)
  | _ => s

/-- Granules of a tag-keeping copy have landed whole: loads of their two halves see one value (R151). -/
def State.hitGranules (s : State) (d : Side) (l : List Nat) : State :=
  match d with
  | .mem ps => l.foldl (fun s i => match pieceAt ps i with
    | some (pa, _) => s.hitSnap (pa / 16)
    | Option.none => s) s
  | _ => s

/-- A scale-queue entry takes landed bytes (R63, R305). -/
def scaleLand (q : List ScaleE) (id off : Nat) (l : List Byte) (complete : Nat → Bool) : List ScaleE :=
  q.map (fun e =>
    if e.copy = id ∧ e.idx = off / 128 ∧ e.landed = false then
      let data := (List.range l.length).foldl (fun (d : BitVec 1024) j =>
        let k := 8 * (off % 128 + j)
        (d &&& ~~~ (BitVec.ofNat 1024 (255 * 2 ^ k))) ||| BitVec.ofNat 1024 ((l.getD j 0).toNat * 2 ^ k)) e.data
      { e with data := data, landed := complete e.idx }
    else e)

/-- Bytes delivered at a receiver from channel offset `lo`: written to their place, with the tags of the granules at the bytes
`tags`. -/
def State.deliver (s : State) (id : Nat) (c : Copy) (r lo : Nat) (d : Side) (l : List Byte) (tags : List Nat) : State :=
  let s := match d with
    | .spm off =>
      let b := { c.ag with cell := r }
      let cl := s.cellOf b
      s.setCellOf b ({ cl with spm := putBytes 0 cl.spm off l, tags := clearTags cl.tags off l.length }.heal (fullLines off l.length))
    | .mem ps =>
      let s := (s.checkLines ps true c.ag.cache).1
      ((if s.ready c.ag.cache true ps then s.touchFor c.ag true ps else s).takeTurn c.ag.key ps).putPieces ps l
    | _ => match c.kind with
      | .sqld _ =>
        let cl := s.cellOf c.ag
        let got : List (Nat × Nat × Nat) := (c.ag.cell, lo, lo + l.length) :: c.got
        let full (i : Nat) : Bool :=
          decide (128 ≤ got.foldl (fun (n : Nat) (e : Nat × Nat × Nat) => n + (min e.2.2 (128 * i + 128) - max e.2.1 (128 * i))) 0)
        s.setCellOf c.ag { cl with scaleQ := scaleLand cl.scaleQ id lo l full }
      | _ => s
  let s := if c.keep then s.hitGranules d (granules16 (s.runAt c lo).dst l.length) else s
  let s := tags.foldl (fun s i => s.landTag c.ag r d i) s
  s.landed id c r lo l.length

/-- The lines of a side may be accessed now (R384, R388). -/
def Side.ready (s : State) (a : Agent) (write : Bool) (d : Side) : Bool := match d with
  | .mem ps => s.ready a.cache write ps
  | .bad _ => false
  | _ => true

/-- Of `n` channel bytes, those from the first on that wait in the inbox as it does, or do not as it does not. -/
def Copy.alike (c : Copy) (lo n : Nat) : Nat :=
  if c.inbox = [] then n
  else
    let w := (NMap.find c.inbox lo).isSome
    ((span lo n).takeWhile (fun i => (NMap.find c.inbox i).isSome == w)).length

/-- The source runs of `n` channel bytes, none across the end of a line: channel offset and bytes of each. -/
def State.srcRuns (s : State) (c : Copy) : Nat → Nat → Nat → List (Nat × Nat)
  | 0, _, _ => []
  | k + 1, lo, n =>
    if n = 0 then []
    else
      let r := s.runAt c lo
      let m := max 1 (c.alike lo (min (min n (s.runLeft c r)) (64 - r.src % 64)))
      (lo, m) :: s.srcRuns c k (lo + m) (n - m)

/-- The bytes of one source run. -/
def State.sideBytes (s : State) (c : Copy) (lo n : Nat) (d : Side) : Option (List Byte) :=
  match d with
  | .spm off => some (s.spm c.ag off n)
  | .mem ps => (s.piecesBytes c.ag true Option.none ps).toOption
  | .none => c.arrived lo n
  | .bad _ => Option.none

/-- The side that a source run of a copy has: none for bytes that have been read already. -/
def State.runSide (s : State) (c : Copy) (lo n : Nat) : Side :=
  if (c.arrived lo n).isSome then .none else s.srcSide c (s.runAt c lo) n

/-- The source runs of a landing with their sides. -/
def State.sources (s : State) (c : Copy) (lo n : Nat) : List (Nat × Nat × Side) :=
  (s.srcRuns c n lo n).map (fun e => (e.1, e.2, s.runSide c e.1 e.2))

/-- Channel bytes before and after a run that its first and last source granule of 8 bytes still have. -/
def State.granuleRest (s : State) (c : Copy) (lo n : Nat) : Nat × Nat :=
  let a := (s.runAt c lo).src
  let near (i b : Nat) : Bool := decide ((s.runAt c i).src = b) && (NMap.find c.inbox i).isNone
  (((List.range (a % 8)).takeWhile (fun j => decide (j < lo) && near (lo - j - 1) (a - j - 1))).length,
   ((List.range ((8 - (a + n) % 8) % 8)).takeWhile (fun j => decide (lo + n + j < c.len) && near (lo + n + j) (a + n + j))).length)

/-- A source run as it is read now: its bytes, and the rest of its granules, which is read with it so that no granule is read
twice (R90, R146). -/
def State.readRun (s : State) (c : Copy) (lo n : Nat) : Option (List Byte × List (Nat × Byte)) :=
  match c.arrived lo n with
  | some l => some (l, [])
  | Option.none =>
    if s.fromAfar c then Option.none
    else
      let (b, e) := s.granuleRest c lo n
      let from' := lo - b
      (s.sideBytes c from' (b + n + e) (s.srcSide c (s.runAt c from') (b + n + e))).map (fun l =>
        ((l.drop b).take n, (span from' b).zip l ++ (span (lo + n) e).zip (l.drop (b + n))))

/-- Bytes that have been read at the source wait for their place. -/
def Copy.stage (c : Copy) (l : List (Nat × Byte)) : Copy :=
  { c with inbox := (l.filter (fun e => c.receivers.any (fun r => c.fresh r e.1 1))).foldl (fun m e => NMap.put m e.1 e.2) c.inbox }

/-- The granules of a run of a tag-keeping copy that carry a tag, by channel offset (R108): those aligned at both ends. -/
def State.runTags (s : State) (c : Copy) (lo n : Nat) (d : Side) : List Nat :=
  let r := s.runAt c lo
  if c.keep = false ∨ r.src % 16 ≠ r.dst % 16 then []
  else ((granules16 r.src n).filter (fun i => match d with
    | .none => NSet.mem c.inTags (lo + i)
    | _ => s.sideTag c.ag d i)).map (lo + ·)

/-- The source lines of a landing are read by the ladle's die, and an ingot read gets its last-use tick (R176, R303). -/
def State.touchSources (s : State) (c : Copy) (l : List (Nat × Nat × Side)) : State :=
  l.foldl (fun s e => match e.2.2 with
    | .mem ps =>
      let s := ((s.checkLines ps false c.ag.cache).1.touchFor c.ag false ps).takeTurn c.ag.key ps
      (match c.kind with
      | .kget _ => match s.nodeByte c.src (s.runAt c e.1).src with
        | .ok (a, _) => s.useNode a
        | .error _ => s
      | _ => s)
    | _ => s) s

/-- One write of a landing: `n` bytes that lie together at the destination, with all their source bytes, or none of
them. -/
def State.landChunk (s : State) (id : Nat) (c : Copy) (r lo n : Nat) : Option State :=
  let run := s.runAt c lo
  let dst := s.dstSide c run n
  let src := s.sources c lo n
  let lines := (src.flatMap (fun e => e.2.2.lines e.2.1)).eraseDups
  let ps := dst.pieces ++ src.flatMap (fun e => e.2.2.pieces)
  let late : Bool := (dst.so || src.any (fun e => e.2.2.so)) && prefixFrom c.got r (c.got.length + 1) 0 != lo
  let torn : Bool := match dst with
    | .spm off => ((s.cellOf { c.ag with cell := r }).spmFault (partLines off n)).isSome
    | _ => false
  let after : Bool := match c.kind with
    | .sqld _ => false
    | _ => s.earlierWrites id c run.dst n || s.storeFirst id c dst
  if n = 0 ∨ torn ∨ late ∨ Side.ready s c.ag true dst = false
      ∨ src.any (fun e => !Side.ready s c.ag false e.2.2 || s.mateFirst id c e.2.2)
      ∨ after ∨ s.mayServe id c.ag ps = false ∨ s.landFree c r lo n dst lines = false then Option.none
  else match src.mapM (fun e => s.readRun c e.1 e.2.1) with
    | Option.none => Option.none
    | some _ =>
      let s := s.touchSources c src
      let l := (src.mapM (fun e => s.readRun c e.1 e.2.1)).getD []
      let tags := src.flatMap (fun e => s.runTags c e.1 e.2.1 e.2.2)
      let s := s.setCellOf c.ag ((s.cellOf c.ag).useLines (lines ++ c.landIndex lo n lines))
      let b : Agent := { c.ag with cell := r }
      let s := s.setCellOf b ((s.cellOf b).useLines (dst.lines n))
      some (s.deliver id (c.stage (l.flatMap (·.2))) r lo dst (l.flatMap (·.1)) (tags.map (· - lo)))

/-- A side that is not ready is asked for (R384, R388). -/
def State.askSide (s : State) (a : Agent) (write : Bool) (d : Side) : State := match d with
  | .mem ps => if s.ready a.cache write ps then s else s.askFor a.cache (s.partOf a) write ps
  | _ => s

/-- A source run is read ahead of its landing, when its lines are free now: one access of a bank line serves every run in it
(R19, R146, R293). The lines reached by this copy on this wall cycle go along. -/
def State.stageRun (s : State) (id : Nat) (used : List Nat) (lo n : Nat) : State × List Nat :=
  match s.copy? id with
  | Option.none => (s, used)
  | some c =>
    let d := s.runSide c lo n
    let fresh (l : List Nat) : List Nat := (l.filter (fun l => !used.contains l)).eraseDups
    let index := fresh (c.indexLines lo n)
    let lines := fresh (d.lines n ++ index)
    let free (l : List Nat) : Bool := c.ag.stew || l.all (s.cellOf c.ag).lineFree
    let read : Bool := match d with
      | .spm _ => true
      | .mem ps => s.mayServe id c.ag ps
      | _ => false
    if read = false ∨ Side.ready s c.ag false d = false ∨ s.mateFirst id c d then (s.askSide c.ag false d, used)
    else if onePerBank lines = false ∧ free index then
      match index with
      | l :: _ =>
        ((s.setCellOf c.ag ((s.cellOf c.ag).useLines [l])).setCopy id { c with idxAt := some l }, used ++ [l])
      | [] => (s, used)
    else if free lines = false then (s, used)
    else match s.readRun c lo n with
      | Option.none => (s, used)
      | some _ =>
        let s := s.touchSources c [(lo, n, d)]
        let (l, more) := (s.readRun c lo n).getD ([], [])
        let tags := s.runTags c lo n d
        let s := s.setCellOf c.ag ((s.cellOf c.ag).useLines lines)
        let c := c.stage ((span lo n).zip l ++ more)
        (s.setCopy id { c with inTags := tags.foldl NSet.add c.inTags }, used ++ lines)

/-- The source bytes of a stretch are read ahead as far as the banks allow on this wall cycle. -/
def State.stageRuns (s : State) (id : Nat) (c : Copy) (lo n : Nat) : State :=
  ((s.srcRuns c n lo n).foldl (fun (a : State × List Nat) e => a.1.stageRun id a.2 e.1 e.2) (s, [])).1

/-- The least size in which the bytes of a copy land at a place: 512-byte blocks on compressed pages, granules of 16 bytes
where tags are kept, else granules of 8 bytes (R151, R304). -/
def State.unitAt (s : State) (c : Copy) (r : Run) : Nat :=
  match s.dstSide c r 1 with
  | .mem (p :: _) => if p.attr.zrl then zrlBytes else if c.keep then 16 else 8
  | _ => if c.keep then 16 else 8

/-- Bytes up to the end of the first unit of a landing. -/
def State.firstUnit (s : State) (c : Copy) (lo n : Nat) : Nat :=
  let r := s.runAt c lo
  let u := s.unitAt c r
  min (u - r.dst % u) (min n (c.dstLeft r lo))

/-- Bytes of one write: at most 64 lines, none beyond the page before a strongly ordered one, of those that have arrived only
whole units while more may arrive, on a strongly ordered page one unit (R141). -/
def State.chunk (s : State) (c : Copy) (lo n : Nat) : Nat :=
  let r := s.runAt c lo
  let u := s.unitAt c r
  let m := min (min n (c.dstLeft r lo)) (4096 - r.dst % 64)
  let m := if (s.dstSide c r m).so then min m (4096 - r.dst % 4096) else m
  if (s.dstSide c r 1).so then s.firstUnit c lo n
  else if s.fromAfar c then
    let k := ((span lo m).takeWhile (fun i => (NMap.find c.inbox i).isSome)).length
    if k = m ∨ (c.fails.isSome ∧ u ≠ zrlBytes) then k else k - (r.dst + k) % u
  else m

/-- The fault that a copy's next undelivered bytes meet, if any (R294): the rest of a table element, else the next byte, and
the compressed block that it lies in; the answer of another device when nothing that has arrived can land; a memory error of a multicast names the receivers that fail (R301). -/
def State.copyFailure (s : State) (c : Copy) : Option Flt :=
  let lo := c.landed
  if c.len ≤ lo then Option.none
  else if c.fails.isSome ∧ s.chunk c lo (c.len - lo) = 0 then c.fails
  else
    let r := s.runAt c lo
    let n := if c.table.isSome then r.left else 1
    let one (d : Side) : Option Flt := match d with
      | .bad f => some f
      | _ => Option.none
    let bad := s.badReceivers c
    match one (s.srcSide c r n), one (s.dstSide c r (s.unitLeft c r lo)) with
    | some f, _ => some f
    | Option.none, some f => some f
    | Option.none, Option.none => if bad ≠ 0 then some ⟨20, 0, 0, bad, 0⟩ else
      match s.srcSide c r n with
      | .mem ps =>
        (match s.piecesBytes c.ag true Option.none (ps.map (fun p => { p with len := min p.len 1 })) with
        | .error f => some f
        | .ok _ => Option.none)
      | _ => Option.none

/-- Bytes before the first source run that meets a fault (R294). -/
def State.beforeBad (s : State) (c : Copy) (lo n : Nat) : Nat :=
  match (s.sources c lo n).find? (fun e => match e.2.2 with
    | .bad _ => true
    | .mem _ => (s.sideBytes c e.1 e.2.1 e.2.2).isNone
    | _ => false) with
  | some e => e.1 - lo
  | Option.none => 0

/-- The next write of a landing: as many bytes as can land together, else one unit, else the bytes of a unit that come
before a failing element; the state after it and its bytes. -/
def State.landNext (s : State) (id : Nat) (c : Copy) (r lo n : Nat) : Option (State × Nat) :=
  let tries := [s.chunk c lo n, s.firstUnit c lo n, s.beforeBad c lo (s.firstUnit c lo n)]
  tries.findSome? (fun m => (s.landChunk id c r lo m).map (·, m))

/-- The next write would reach a bank of its own cell twice on one wall cycle: its source is read ahead (R19). -/
def State.readsAhead (s : State) (c : Copy) (r lo n : Nat) : Bool :=
  let src := (s.sources c lo n).flatMap (fun e => e.2.2.lines e.2.1)
  !c.ag.stew && src != [] && !c.banksApart r lo n (s.dstSide c (s.runAt c lo) n) src.eraseDups

/-- A landing of `n` bytes, write by write; it stops where nothing more can land, and on a strongly ordered page after one
granule (R141). -/
def State.landRuns (s : State) (id r : Nat) : Nat → Nat → Nat → State
  | 0, _, _ => s
  | k + 1, lo, n =>
    if n = 0 then s
    else match s.copy? id with
      | Option.none => s
      | some c =>
        let run := s.runAt c lo
        if s.readsAhead c r lo (s.chunk c lo n) then s.stageRuns id c lo (s.chunk c lo n)
        else match s.landNext id c r lo n with
        | Option.none =>
          let u := s.firstUnit c lo n
          (s.sources c lo u).foldl (fun s e => s.askSide c.ag false e.2.2) (s.askSide c.ag true (s.dstSide c run u))
        | some (t, m) => if (s.dstSide c run 1).so then t else t.landRuns id r k (lo + m) (n - m)

/-- The bounds of a landing are whole units of the destination, ends of runs, or ends of what has landed. -/
def State.landWhole (s : State) (c : Copy) (r lo n : Nat) : Bool :=
  let u := s.unitAt c (s.runAt c lo)
  let at' (o : Nat) : Bool := o == c.len || decide (o = 0) || decide ((s.runAt c o).dst % u = 0)
    || decide (c.dstLeft (s.runAt c (o - 1)) (o - 1) = 1)
    || c.got.any (fun e => e.1 == r && (e.2.1 == o || e.2.2 == o))
  at' lo && at' (lo + n)

/-- Channel bytes land at a receiver: `n` bytes from channel offset `lo`; bytes of another device have arrived before. -/
def execCopyLanding (id r lo n : Nat) (s : State) : Res :=
  match s.copy? id with
  | Option.none => .next s
  | some c =>
    let here := match c.kind with
      | .scadd _ _ _ => false
      | .rwrite _ => false
      | _ => true
    let ordered := c.inOrder || (s.dstSide c (s.runAt c lo) 1).so || (s.srcSide c (s.runAt c lo) 1).so
    if here = false ∨ c.queued ∨ c.stopped ∨ c.ready = false ∨ n = 0 ∨ c.len < lo + n then .next s
    else if c.receivers.contains r = false ∨ c.fresh r lo n = false then .next s
    else if ordered ∧ prefixFrom c.got r (c.got.length + 1) 0 ≠ lo then .next s
    else if c.performed + n = c.len ∧ s.wall < s.copyFloor c then .next s
    else if s.landWhole c r lo n = false then .next s
    else .next ((s.setCopy id { c with floor := some (s.copyFloor c) }).landRuns id r n lo n)

/-- What the lines of a failing copy have met at its next byte is recorded (R403). -/
def State.recordErrors (s : State) (c : Copy) : State :=
  let r := s.runAt c c.landed
  let look (s : State) (write : Bool) (va : Nat) : State :=
    if spaceOf c.ag.scratch va 1 = .global then match s.copyPieces c.ag false va 1 write with
      | .ok ps => (s.checkLines ps write c.ag.cache).1
      | .error _ => s
    else s
  let src := match c.kind with
    | .kget _ => s
    | _ => if s.fromAfar c then s else look s false r.src
  match c.kind with
  | .rwrite _ => src
  | .sqld _ => src
  | _ => look src true r.dst

/-- A failure found while a copy moves (R294). -/
def execCopyFaultAfterIssue (id : Nat) (s : State) : Res :=
  match s.copy? id with
  | Option.none => .next s
  | some c =>
    if c.queued ∨ c.stopped ∨ c.ready = false then .next s
    else match s.copyFailure c with
      | Option.none => .next s
      | some f => .next ((s.recordErrors c).copyFault id c f)

/-! ### Scatter-add (R300) -/

/-- One lane of a scatter-add. -/
def scaddLane (red : Nat) (d x : Nat) : Nat × FFlags :=
  match red with
  | 0 => ((d + x) % 2 ^ 32, 0)
  | 1 => ((d + x) % 2 ^ 64, 0)
  | _ =>
    let r := sumExact false [laneNum (BitVec.ofNat 32 d), laneNum (BitVec.ofNat 32 x)]
    let q := roundF32 .rne r.1
    (q.1.toNat, q.2 ||| (if r.2 then fNV else 0))

/-- The lanes of an element, lowest first. -/
def scaddLanes (red : Nat) : Nat → List Byte → List Byte → List Byte × FFlags
  | 0, _, _ => ([], 0)
  | k + 1, d, x =>
    let w := if red = 1 then 8 else 4
    let r := scaddLane red (ofLE (d.take w)) (ofLE (x.take w))
    let t := scaddLanes red k (d.drop w) (x.drop w)
    (leBytes r.1 w ++ t.1, r.2 ||| t.2)

/-- An element is reduced at its home as one step (R300); elements of one copy that name one table element go in order,
after earlier copies of the channel and earlier stores of the ladle to the bytes (R145, R293). -/
def execScaddReduction (id j : Nat) (s : State) : Res :=
  match s.copy? id with
  | Option.none => .next s
  | some c =>
    match c.kind with
    | .scadd idx esz red =>
      let n := 2 ^ esz
      let lo := j * n
      let same := (List.range j).any (fun i => c.fresh c.ag.cell (i * n) n && s.index c.ag idx i == s.index c.ag idx j)
      if c.queued ∨ c.stopped ∨ c.ready = false ∨ c.len < lo + n ∨ c.fresh c.ag.cell lo n = false ∨ same then .next s
      else
        let run := s.runAt c lo
        let src := s.runSide c lo n
        match s.sideBytes c lo n src, s.dstSide c run n with
        | some _, .mem ps =>
          if c.ag.stew = false ∧ c.banksApart c.ag.cell lo n .none (src.lines n) = false then .next (s.stageRuns id c lo n)
          else if Side.ready s c.ag false src = false ∨ s.landFree c c.ag.cell lo n .none (src.lines n) = false then
            .next (s.askSide c.ag false src)
          else if s.earlierWrites id c run.dst n ∨ s.storeFirst id c (.mem ps) ∨ s.mateFirst id c src then .next s
          else if soPieces ps ∧ prefixFrom c.got c.ag.cell (c.got.length + 1) 0 ≠ lo then .next s
          else if s.homeReady ps = false then .next (s.recallFor (s.partOf c.ag) ps)
          else if s.mayServe id c.ag (ps ++ src.pieces) = false then .next s
          else
            let s := s.takeTurn c.ag.key ps
            let s := s.touchSources c [(lo, n, src)]
            let x := (s.sideBytes c lo n src).getD []
            let s := s.setCellOf c.ag ((s.cellOf c.ag).useLines (src.lines n ++ c.indexLines lo n))
            let s := s.takeLines (s.partOf c.ag) ps
            let r := scaddLanes red (n / (if red = 1 then 8 else 4)) (s.readPieces ps) x
            .next ((s.putPieces ps r.1).landed id { c with fl := c.fl ||| r.2 } c.ag.cell lo n)
        | _, _ => .next s
    | _ => .next s

end Sys2Proof.Machine
end

