-- ==== Sys2Proof/Machine/Ladle.lean ====
section
/-!
DEFINITION. The copy instructions of the ladle: issue, checks, the copy queue (R289 to R305, R307).
-/
namespace Sys2Proof.Machine

/-! ### Page checks (R291, step 4) -/

/-- An extent as a copy meets it: virtual base, physical base, bytes, attributes. -/
structure Ext where
  va : Nat
  pa : Nat
  len : Nat
  attr : Attr

/-- Some retired frame lies in a physical range. -/
def State.retiredIn (s : State) (pa n : Nat) : Bool :=
  s.hbm.retired.any (fun e => decide (pa / 4096 ≤ e.1) && decide (e.1 * 4096 < pa + n)) ||
    (!s.hbm.chMasked.isEmpty && (span (pa / 4096) ((pa + n + 4095) / 4096 - pa / 4096)).any s.hbm.isRetired)

/-- The extents that a contiguous global range runs through, or the first page fault of the range: a miss, a retired
frame, a write without permission; a steward's addresses are physical. -/
def State.rangeExts (s : State) (a : Agent) (write : Bool) (total : Nat) : Nat → Nat → Nat → Except Flt (List Ext)
  | 0, va, n => if n = 0 then .ok [] else .error ⟨5, 0, va, accInfo total write, 0⟩
  | k + 1, va, n =>
    if n = 0 then .ok []
    else if a.stew ∧ inSlotWindow va = false then
      let m := if va < slotBase then min n (slotBase - va) else n
      match s.physPiece va m total write with
      | .error f => .error f
      | .ok p => (s.rangeExts a write total k (va + m) (n - m)).map (fun l => ⟨va, va, m, p.attr⟩ :: l)
    else if inSlotWindow va then
      let m := min n (2 ^ 22 - va % 2 ^ 22)
      match s.slotPiece a va m write with
      | .error f => .error f
      | .ok p => (s.rangeExts a write total k (va + m) (n - m)).map (fun l => ⟨va, va, m, p.attr⟩ :: l)
    else match (s.gang a.unit).extent va 1 with
      | none => .error ⟨5, 0, va, accInfo total write, 0⟩
      | some r =>
        let m := min n (exVa r + exLen r - va)
        let pa := exPa r + (va - exVa r)
        let at' := Attr.ofExt (exAttr r) pa
        if s.backing pa = .unbacked ∨ s.backing pa = .rom ∨ (s.backing pa = .hbm ∧ s.retiredIn pa m) then
          .error ⟨6, 0, va, accInfo total write, 0⟩
        else if write ∧ at'.writable = false then .error ⟨6, 1, va, accInfo total write, 0⟩
        else (s.rangeExts a write total k (va + m) (n - m)).map (fun l => ⟨va, pa, m, at'⟩ :: l)

/-- What the pages of one extent refuse of a run of `n` bytes at `va` that touches them: a run that starts or ends within a
codeword (R88) or within a block (R304). -/
def Ext.runFault (va n : Nat) (e : Ext) : Option Flt :=
  let w := e.attr.codeword
  let cuts (w : Nat) : Bool := decide (va % w ≠ 0) || decide ((va + n) % w ≠ 0)
  if e.attr.lat ∧ cuts w then some ⟨8, 0, e.va, w, 0⟩
  else if e.attr.zrl ∧ cuts zrlBytes then some ⟨9, 0, e.va, 0, 0⟩ else none

/-- What the pages of a contiguous destination run refuse (R88, R110, R170, R304). -/
def extFault (keep : Bool) (va n : Nat) (l : List Ext) : Option Flt :=
  match l.find? (fun e => e.attr.sealed) with
  | some e => some ⟨7, 0, e.va, 0, 0⟩
  | none => match l.findSome? (Ext.runFault va n) with
    | some f => some f
    | none => if keep ∧ l.any (fun e => e.attr.tagless) then some (capFlt .tagless va) else none

/-- Page check of one contiguous range; scratchpad ranges have no pages. -/
def State.rangeFault (s : State) (a : Agent) (write keep : Bool) (va n : Nat) : Option Flt :=
  if n = 0 ∨ spaceOf a.scratch va n = .scratch then none
  else match s.rangeExts a write n 1100 va n with
    | .error f => some f
    | .ok l => if write then extFault keep va n l else none

/-- The first page fault of a list of ranges. -/
def State.rangesFault (s : State) (a : Agent) (write keep : Bool) : List (Nat × Nat) → Option Flt
  | [] => none
  | (va, n) :: l => match s.rangeFault a write keep va n with
    | some f => some f
    | none => s.rangesFault a write keep l

/-! ### Issue -/

/-- Capability check of a contiguous side with the classification of R117. -/
def State.sideFault (s : State) (c : Cap) (va n : Nat) (need : List Perm) : Option Flt :=
  match capCheck c va n 1 need with
  | some e => some (capFlt e va)
  | none => if spaceOf s.cur.scratch va n = .other then some (capFlt .bounds va) else none

/-- The first fault of a list of checks. -/
def firstFault (l : List (Option Flt)) : Option Flt := (l.find? Option.isSome).join

/-- A copy of the issuing ladle, without its parameters. -/
def State.newCopy (s : State) (h : BitVec 3) (e : BitVec 3) (k : CopyKind) (src dst : Cap) (len : Nat)
    (bar : Option Nat) (keep : Bool) : Copy :=
  { ag := s.cur, pc := s.me.pc, ch := h.toNat, kind := k, src := src, dst := dst, stride := 0, len := len, ready := true,
    bar := bar, scope := e.toNat, wall := s.wall, got := [], queued := false, stopped := false, keep := keep, fl := 0,
    floor := none, inbox := [], inTags := [], idxAt := none, sent := 0, again := false, fails := none }

/-- The copy is listed at the end of its channel under the next number (R121). -/
def State.listCopy (s : State) (c : Copy) : State × Nat :=
  let id := s.nextId
  let cl := s.cellOf c.ag
  let ch := NMap.get Chan.zero cl.chans c.ch
  let s := s.setCellOf c.ag { cl with chans := NMap.put cl.chans c.ch { ch with copies := ch.copies ++ [id] } }
  ({ s with copies := NMap.put s.copies id c, nextId := id + 1 }, id)

/-- Packets of a remote copy, split at 4,096-byte boundaries of the remote address (R302): offset and length. -/
def splitRemote (o n : Nat) : Nat → List (Nat × Nat)
  | 0 => []
  | k + 1 =>
    if n = 0 then []
    else
      let m := min n (4096 - o % 4096)
      (o, m) :: splitRemote (o + m) (n - m) k

/-- Field of an export handle's address: device (R417). -/
def exportDev (c : Cap) : Nat := bits c.addr.toNat 17 0

/-- The fault that the source bytes of a stretch meet. -/
def State.sourceFault (s : State) (c : Copy) (lo n : Nat) : Option Flt :=
  (s.sources c lo n).findSome? (fun e => match e.2.2 with
    | .bad f => some f
    | .mem ps => match s.piecesBytes c.ag true none ps with
      | .error f => some f
      | .ok _ => none
    | _ => none)

/-- A remote write has packets to send. -/
def Copy.pushes (c : Copy) : Bool := match c.kind with
  | .rwrite _ => !c.stopped && !c.queued && decide (c.sent < c.len)
  | _ => false

/-- The next packet of a remote write, split at a 4,096-byte boundary of the remote address: its source bytes are read as a
copy's are (R146, R293), and it is sent when all of them are there (R302), with the bytes that the request still has in FP_LEN
(log entry 70). -/
def State.pushWrite (s : State) (id : Nat) : State :=
  match s.copy? id with
  | none => s
  | some c => match c.kind with
    | .rwrite o =>
      let off := o.toNat + c.sent
      let m := min (c.len - c.sent) (4096 - off % 4096)
      if c.stopped ∨ c.queued ∨ m = 0 then s
      else
        let s := s.stageRuns id c c.sent m
        match s.copy? id with
        | none => s
        | some c => match c.arrived c.sent m with
          | some l =>
            (s.setCopy id { c with sent := c.sent + m, inbox := c.inbox.filter (fun e => decide (c.sent + m ≤ e.1)) }).sendPacket
              (exportDev c.dst) 3 c.dst.addr.toNat off (o.toNat + c.len - off) id l
          | none => match s.sourceFault c c.sent m with
            | some f => s.copyFault id c f
            | none => s
    | _ => s

/-- The copy asks another device for its bytes, or sends them there; its `stride` tells whether the requests are out. -/
def Copy.remote (c : Copy) : Bool := match c.kind with
  | .rread _ => true
  | .rwrite _ => true
  | .kget _ => true
  | _ => false

/-- A copy towards another device starts, or starts again where it stopped: its requests are sent in order (R302, R303), each
packet with the bytes that the request still has from its offset on (log entry 70). A dead peer contains it. -/
def State.startRemote (s : State) (id : Nat) (c : Copy) : State :=
  let lo := c.landed
  let s := if c.remote then s.setCopy id { c with stride := 1 } else s
  let dead (d : Nat) (s : State) (k : State → State) : State :=
    if s.peerDead d then s.copyFault id c ⟨19, 1, 0, d, 0⟩ else k s
  match c.kind with
  | .rread o =>
    let d := exportDev c.src
    dead d s (fun s => (splitRemote (o.toNat + lo) (c.len - lo) (c.len / 4096 + 2)).foldl (fun s p =>
      s.sendPacket d 1 c.src.addr.toNat p.1 (o.toNat + c.len - p.1) id []) s)
  | .rwrite _ =>
    let d := exportDev c.dst
    dead d s (fun s => (s.setCopy id { c with stride := 1, sent := lo, inbox := [] }).pushWrite id)
  | .kget o =>
    let d := c.src.nhDev
    if d = s.boot.dev then s
    else dead d s (fun s => s.askRead (some id) 0 c.src (o.toNat + lo) (c.len - lo) id)
  | _ => s

/-- The last step of an issue (R292): an entry of the copy queue, or the freeze until one frees. -/
def State.queueCopy (s : State) (c : Copy) : State :=
  if s.queueUse s.cur < 64 then
    let r := s.listCopy c
    r.1.startRemote r.2 c
  else
    let r := s.listCopy { c with queued := true }
    if s.cur.stew then r.1.setMe { r.1.me with stall := some r.2 } else r.1.freezeOn (.queue s.cur.cell r.2)

/-- A copy issues when no check fails. -/
def State.issueCopy (s : State) (faults : List (Option Flt)) (c : Copy) : State :=
  match firstFault faults with
  | some f => s.raise f
  | none => (s.queueCopy c).advance

def cpLen (w : Word) : Nat := bits w.toNat 31 0
def cpBar (w : Word) : Option Nat := if bitOf w.toNat 37 then some (bits w.toNat 36 32) else none
def cpMask (w : Word) : Nat := bits w.toNat 41 38

/-- Tags may be kept: the source has LC and the destination SC (R108). -/
def keeps (src dst : Cap) : Bool := src.has .lc && dst.has .sc

/-! ### Linear copies (R296, R297, R301) -/

def execCpy (_ : G4) (d c : BitVec 4) (x : XR) (h e : BitVec 3) (s : State) : Res :=
  let dst := s.rc d
  let src := s.rc c
  let w := s.rx x
  let n := cpLen w
  let keep := keeps src dst
  .next (if n = 0 then s.advance
    else s.issueCopy
      [s.sideFault dst dst.addr.toNat n [.st, .cp], s.sideFault src src.addr.toNat n [.ld, .cp],
       s.rangeFault s.cur true keep dst.addr.toNat n, s.rangeFault s.cur false false src.addr.toNat n]
      (s.newCopy h e .lin src dst n (cpBar w) keep))

def execKput (g : G4) (d c : BitVec 4) (x : XR) (h e : BitVec 3) (s : State) : Res :=
  let dst := s.rc d
  let src := s.rc c
  let w := s.rx x
  let n := cpLen w
  .next (s.gangOnly (.kput g d c x h e) (fun s => if n = 0 then s.advance
    else s.issueCopy
      [s.sideFault dst dst.addr.toNat n [.st, .cp], s.sideFault src src.addr.toNat n [.ld, .cp],
       s.rangeFault s.cur true false dst.addr.toNat n, s.rangeFault s.cur false false src.addr.toNat n]
      (s.newCopy h e .kput src dst n (cpBar w) false)))

def execMcast (g : G4) (d c : BitVec 4) (x : XR) (h e : BitVec 3) (s : State) : Res :=
  let i := Instr.mcast g d c x h e
  let dst := s.rc d
  let src := s.rc c
  let w := s.rx x
  let n := cpLen w
  let da := dst.addr.toNat
  let own := spaceOf scratchSize src.addr.toNat n = .scratch
  let win : Option Flt := if spaceOf scratchSize da n = .scratch then none else some (capFlt .bounds da)
  .next (s.gangOnly i (fun s => if n = 0 then s.advance
    else if cpMask w = 0 then s.illShape i w.toNat
    else s.issueCopy
      [s.sideFault dst da n [.st, .cp], win, s.sideFault src src.addr.toNat n [.ld, .cp],
       s.rangeFault s.cur false false src.addr.toNat n]
      (s.newCopy h e (.mcast (cpMask w)) src dst n (cpBar w) (decide own || keeps src dst))))

/-! ### N-D copies (R298) -/

def execCpyn (g : G4) (d c : BitVec 4) (x : XR) (h e : BitVec 3) (s : State) : Res :=
  let i := Instr.cpyn g d c x h e
  let off := bits (s.rx x).toNat 21 0
  .next (if off % 128 ≠ 0 ∨ s.cur.scratch < off + 128 then s.capFault .bounds (scratchBase + off)
    else
      let r := s.listCopy { s.newCopy h e .lin (s.rc c) (s.rc d) 0 none (keeps (s.rc c) (s.rc d)) with ready := false }
      (r.1.sched 2 (.cpyn i r.2 off)).advance)

/-- Fields of an N-D descriptor. -/
structure NdDesc where
  run : Nat
  counts : List Nat
  sstr : List Word
  dstr : List Word

/-- The N-D descriptor that 128 bytes spell. -/
def NdDesc.ofBytes (l : List Byte) : NdDesc :=
  { run := fieldAt l 0 4, counts := (List.range 3).map (fun k => fieldAt l (0x08 + 4 * k) 4),
    sstr := (List.range 3).map (fun k => BitVec.ofNat 64 (fieldAt l (0x20 + 8 * k) 8)),
    dstr := (List.range 3).map (fun k => BitVec.ofNat 64 (fieldAt l (0x40 + 8 * k) 8)) }

/-- Total bytes of an N-D copy. -/
def NdDesc.total (d : NdDesc) : Nat := d.counts.foldl (· * ·) d.run

/-- The offending value of an ill-formed N-D descriptor. -/
def ndFault (l : List Byte) : Option Nat :=
  let d := NdDesc.ofBytes l
  let res := fieldAt l 0x14 12 + fieldAt l 0x38 8 + fieldAt l 0x58 40
  if fieldAt l 4 4 / 64 ≠ 0 then some (fieldAt l 4 4)
  else if res ≠ 0 then some res
  else if d.run < 1 ∨ 2 ^ 24 < d.run then some d.run
  else match d.counts.find? (fun c => decide (c < 1) || decide (2 ^ 24 < c)) with
    | some c => some c
    | none => if 2 ^ 40 - 1 < d.total then some d.total else none

/-- Hull of the runs of one side: lowest address and bytes. -/
def ndHull (d : NdDesc) (base : Nat) (str : List Word) : Nat × Nat :=
  let part (k : Nat) : Int := (str.getD k 0).toInt * ((d.counts.getD k 1 : Int) - 1)
  let lo := (List.range 3).foldl (fun a k => a + min 0 (part k)) (base : Int)
  let hi := (List.range 3).foldl (fun a k => a + max 0 (part k)) (base : Int)
  (wrap 64 lo, (hi - lo).toNat + d.run)

/-- The runs of one side in visiting order. -/
def ndRuns (d : NdDesc) (base : Nat) (str : List Word) : List (Nat × Nat) :=
  (List.range (d.counts.getD 2 1)).flatMap (fun i3 => (List.range (d.counts.getD 1 1)).flatMap (fun i2 =>
    (List.range (d.counts.getD 0 1)).map (fun i1 =>
      (wrap 64 ((base : Int) + Int.ofNat i1 * (str.getD 0 0).toInt + Int.ofNat i2 * (str.getD 1 0).toInt
        + Int.ofNat i3 * (str.getD 2 0).toInt), d.run))))

/-- The descriptor's access cycle (R291, R298): the copy is complete, or the first check's fault. -/
def State.ndRead (s : State) (c : Copy) (i : Instr) (off : Nat) : Except Flt Copy :=
  let l := s.spm c.ag off 128
  let d := NdDesc.ofBytes l
  match ndFault l with
  | some v => .error ⟨2, 0, c.pc.toNat, wordNat i, v⟩
  | none =>
    let sa := c.src.addr.toNat
    let da := c.dst.addr.toNat
    let keep := keeps c.src c.dst
    let sh := ndHull d sa d.sstr
    let dh := ndHull d da d.dstr
    let s := { s with cur := c.ag }
    match firstFault [s.sideFault c.dst dh.1 dh.2 [.st, .cp], s.sideFault c.src sh.1 sh.2 [.ld, .cp],
        s.rangesFault c.ag true keep (ndRuns d da d.dstr), s.rangesFault c.ag false false (ndRuns d sa d.sstr)] with
    | some f => .error f
    | none =>
      let b := fieldAt l 4 4
      let w (l : List Word) (k : Nat) : Word := l.getD k 0
      .ok { c with kind := .nd d.run (d.counts.getD 0 1) (d.counts.getD 1 1) (d.counts.getD 2 1) (w d.sstr 0) (w d.sstr 1)
                       (w d.sstr 2) (w d.dstr 0) (w d.dstr 1) (w d.dstr 2),
                   len := d.total, bar := if bitOf b 5 then some (b % 32) else none, keep := keep, ready := true }

/-! ### Indexed copies (R299, R300) -/

def gpIdx (w : Word) : Nat := bits w.toNat 21 0
def gpCnt (w : Word) : Nat := bits w.toNat 41 22
def gpEsz (w : Word) : Nat := bits w.toNat 45 42
def gpBar (w : Word) : Option Nat := if bitOf w.toNat 51 then some (bits w.toNat 50 46) else none
def gpRed (w : Word) : Nat := bits w.toNat 53 52

/-- Tag, lock and permissions of a table capability (R299). -/
def tableFault (t : Cap) (need : List Perm) : Option Flt :=
  let a := t.addr.toNat
  if t.tag = false then some (capFlt .tag a)
  else if t.otype ≠ 0 then some (capFlt .locked a)
  else if need.all (fun p => t.has p) = false then some (capFlt .perm a) else none

/-- A table that must lie in global memory does not lie in the scratch window (R300). -/
def globalTable (t : Cap) : Option Flt :=
  if scratchBase ≤ t.addr.toNat then some (capFlt .bounds t.addr.toNat) else none

/-- Pages of a table that an indexed write may not touch (R88, R304). -/
def State.tablePages (s : State) (t : Cap) : Option Flt :=
  if s.cur.stew then none
  else ((s.gang s.cur.unit).extents.filterMap (fun e =>
    let r := e.2
    let at' := Attr.ofWord (exAttr r)
    if bitOf (exAttr r) 0 = false ∨ t.top ≤ exVa r ∨ exVa r + exLen r ≤ t.base then none
    else if at'.lat then some (⟨8, 0, max t.base (exVa r), at'.codeword, 0⟩ : Flt)
    else if at'.zrl then some ⟨9, 0, max t.base (exVa r), 0, 0⟩ else none)).head?

/-- The index array lies in the scratchpad (R299). -/
def State.idxFault (s : State) (w : Word) : Option Flt :=
  if s.cur.scratch < gpIdx w + 4 * gpCnt w then some (capFlt .bounds (scratchBase + gpIdx w)) else none

/-- The parameter check common to the indexed copies. -/
def gpBad (w : Word) : Bool := decide (gpIdx w % 4 ≠ 0) || decide (12 < gpEsz w)

def execGath (g : G4) (d c : BitVec 4) (x : XR) (h e : BitVec 3) (s : State) : Res :=
  let dst := s.rc d
  let t := s.rc c
  let w := s.rx x
  let n := gpCnt w * 2 ^ gpEsz w
  .next (if gpCnt w = 0 then s.advance
    else if gpBad w then s.illShape (.gath g d c x h e) w.toNat
    else s.issueCopy
      [s.sideFault dst dst.addr.toNat n [.st, .cp], tableFault t [.ld, .cp], s.idxFault w,
       s.rangeFault s.cur true (keeps t dst) dst.addr.toNat n]
      (s.newCopy h e (.gath (gpIdx w) (gpEsz w)) t dst n (gpBar w) false))

def execScat (g : G4) (d c : BitVec 4) (x : XR) (h e : BitVec 3) (s : State) : Res :=
  let t := s.rc d
  let src := s.rc c
  let w := s.rx x
  let n := gpCnt w * 2 ^ gpEsz w
  .next (if gpCnt w = 0 then s.advance
    else if gpBad w then s.illShape (.scat g d c x h e) w.toNat
    else s.issueCopy
      [tableFault t [.st, .cp], globalTable t, s.sideFault src src.addr.toNat n [.ld, .cp], s.idxFault w,
       s.rangeFault s.cur false false src.addr.toNat n, s.tablePages t]
      (s.newCopy h e (.scat (gpIdx w) (gpEsz w)) src t n (gpBar w) false))

def execScadd (g : G4) (d c : BitVec 4) (x : XR) (h e : BitVec 3) (s : State) : Res :=
  let t := s.rc d
  let src := s.rc c
  let w := s.rx x
  let n := gpCnt w * 2 ^ gpEsz w
  let low := if gpRed w = 1 then 3 else 2
  .next (if gpCnt w = 0 then s.advance
    else if gpBad w ∨ gpRed w = 3 ∨ gpEsz w < low ∨ 6 < gpEsz w ∨ t.addr.toNat % 2 ^ gpEsz w ≠ 0 then
      s.illShape (.scadd g d c x h e) w.toNat
    else s.issueCopy
      [tableFault t [.ld, .st, .at, .cp], globalTable t, s.sideFault src src.addr.toNat n [.ld, .cp], s.idxFault w,
       s.rangeFault s.cur false false src.addr.toNat n, s.tablePages t]
      (s.newCopy h e (.scadd (gpIdx w) (gpEsz w) (gpRed w)) src t n (gpBar w) false))

/-! ### Remote copies and node space (R302, R303) -/

/-- A handle operand: tagged, locked to a type, with a permission. -/
def handleChk (c : Cap) (ty : Nat) (need : List Perm) : Option Flt :=
  let a := c.addr.toNat
  if c.tag = false then some (capFlt .tag a)
  else if c.otype.toNat ≠ ty then some (capFlt .otype a)
  else if need.all (fun p => c.has p) = false then some (capFlt .perm a) else none

/-- x[xp + 1], the offset operand. -/
def State.offArg (s : State) (x : XR) : Word := s.rx (x + 1)

def execRread (g : G4) (d c : BitVec 4) (x : XR) (h e : BitVec 3) (s : State) : Res :=
  let dst := s.rc d
  let w := s.rx x
  let n := cpLen w
  .next (if x.toNat = 31 then s.illegal (.rread g d c x h e) 1
    else if n = 0 then s.advance
    else s.issueCopy
      [s.sideFault dst dst.addr.toNat n [.st, .cp], handleChk (s.rc c) 2 [.ld],
       s.rangeFault s.cur true false dst.addr.toNat n]
      (s.newCopy h e (.rread (s.offArg x)) (s.rc c) dst n (cpBar w) false))

def execRwrite (g : G4) (d c : BitVec 4) (x : XR) (h e : BitVec 3) (s : State) : Res :=
  let src := s.rc c
  let w := s.rx x
  let n := cpLen w
  .next (if x.toNat = 31 then s.illegal (.rwrite g d c x h e) 1
    else if n = 0 then s.advance
    else s.issueCopy
      [handleChk (s.rc d) 2 [.st], s.sideFault src src.addr.toNat n [.ld, .cp],
       s.rangeFault s.cur false false src.addr.toNat n]
      (s.newCopy h e (.rwrite (s.offArg x)) src (s.rc d) n (cpBar w) false))

def execKget (g : G4) (d c : BitVec 4) (x : XR) (h e : BitVec 3) (s : State) : Res :=
  let dst := s.rc d
  let w := s.rx x
  let n := cpLen w
  .next (if x.toNat = 31 then s.illegal (.kget g d c x h e) 1
    else if n = 0 then s.advance
    else s.issueCopy
      [s.sideFault dst dst.addr.toNat n [.st, .cp], handleChk (s.rc c) 1 [],
       s.rangeFault s.cur true false dst.addr.toNat n]
      (s.newCopy h e (.kget (s.offArg x)) (s.rc c) dst n (cpBar w) false))

/-! ### Scale-queue loads and write pointers (R305, R307) -/

def execSqld (g : G4) (c : BitVec 4) (x : XR) (h : BitVec 3) (s : State) : Res :=
  let i := Instr.sqld g c x h
  let src := s.rc c
  let w := (s.rx x).toNat
  let n := bits w 6 0
  let str := bits w 31 8
  let a := src.addr.toNat
  let ovr : Option Flt := if 64 < s.cell.scaleQ.length + n then some (queueFlt 2 n s.cell.scaleQ.length) else none
  .next (s.gangOnly i (fun s =>
    if n = 0 ∨ 64 < n then s.illShape i w
    else match firstFault [s.sideFault src a ((n - 1) * str + 128) [.ld, .cp], ovr,
        s.rangesFault s.cur false false ((List.range n).map (fun k => (a + k * str, 128)))] with
      | some f => s.raise f
      | none =>
        let id := s.nextId
        let s := s.setCell { s.cell with scaleQ := s.cell.scaleQ ++ (List.range n).map (fun k => ⟨id, k, false, 0⟩) }
        (s.queueCopy { s.newCopy h 0 (.sqld 0) src Cap.null (128 * n)
          (if bitOf w 37 then some (bits w 36 32) else none) false with stride := str }).advance))

def execWprd (_ : G4) (d : XR) (k : BitVec 3) (s : State) : Res :=
  let s := s.setMe { s.me with snap := none }
  .next (s.schedX 1 d (BitVec.ofNat 64 (s.cell.wptr k.toNat))).advance

end Sys2Proof.Machine
end

