-- ==== Sys2Proof/Machine/Remote.lean ====
section
/-!
DEFINITION. Messages and packets of other devices: the directory's home and holder roles, the answers to this device's
requests, the Fliran transport, exports (R180 to R182, R393 to R397, R414 to R418).
-/
namespace Sys2Proof.Machine

/-! ### Answers to requests of Crucible instructions and copies -/

/-- The operation of a transaction goes on in another phase, with the deepest handle. -/
def State.opPhase (s : State) (id : Nat) (f : Prog → Prog) (h : Option Cap) : State :=
  match NMap.find s.ops id with
  | none => s
  | some o => s.setOp id (o.withProg (f o.prog) (h.getD o.best))

/-- The operation is a KREPL. -/
def Op.isRepl (o : Op) : Bool := match o.i with
  | .krepl _ _ _ _ _ => true
  | _ => false

/-- The request of an operation ends with a status: KREPL gives back the entry it was fetching into (R437). -/
def State.opStop (s : State) (id st : Nat) : State :=
  match NMap.find s.ops id with
  | none => s
  | some o =>
    if o.isRepl then
      let p := o.prog
      let s := if p.phase = 7 then s.freeNode p.entry none else s
      s.setOp id (o.withProg { p with phase := 9, stop := st } o.best)
    else s.setOp id (o.withProg { o.prog with phase := 2, stop := st } o.best)

/-- A copy of a transaction stops with a fault, once the bytes that have arrived have landed (R294). -/
def State.copyStop (s : State) (id : Nat) (f : Flt) : State :=
  match s.copy? id with
  | none => s
  | some c =>
    if c.stopped ∨ c.complete ∨ c.fails.isSome then s
    else if s.fromAfar c ∧ c.inbox ≠ [] then s.setCopy id { c with fails := some f }
    else s.copyFault id c f

/-- A transaction ends without its answer: UNREACH to an instruction, containment to a copy (R397). -/
def State.xactFail (s : State) (tx : Nat) (x : Xact) : State :=
  let s := s.closeXact tx
  match x.kind with
  | .lookup => s.opStop x.op 8
  | .stat => s.opStop x.op 8
  | .read none => s.opStop x.op 8
  | .read (some id) => s.copyStop id ⟨19, 1, x.off, x.dev, 0⟩
  | .reg _ => s

/-- A device is heard of (R396). -/
def State.hear (s : State) (src : Nat) : State :=
  { s with cru := { s.cru with heard := NMap.put s.cru.heard src s.tick } }

/-- The transaction that a reply of a device names. -/
def State.xact? (s : State) (src tx : Nat) : Option Xact :=
  match NMap.find s.cru.xacts tx with
  | some x => if x.dev = src then some x else none
  | none => none

def execLookupR (src tx st w _depth : Nat) (s : State) : Res :=
  let s := s.hear src
  match s.xact? src tx with
  | none => .next s
  | some x =>
    let s := s.closeXact tx
    .next (match x.kind with
      | .lookup =>
        if st = 0 then
          s.opPhase x.op (fun p => { p with phase := 0, j := 1, depth := p.depth + 1, name := x.name })
            (some (wordHandle w))
        else s.opStop x.op 0
      | _ => s)

def execStatR (src tx word name depth anc : Nat) (s : State) : Res :=
  let s := s.hear src
  match s.xact? src tx with
  | none => .next s
  | some x =>
    let s := s.closeXact tx
    .next (match x.kind, NMap.find s.ops x.op with
      | .stat, some o =>
        if o.isRepl then
          let p := o.prog
          let q : Prog := match p.phase with
            | 1 => { p with phase := 2, j := 1, depth := depth }
            | 3 => if anc = 0 then { p with phase := 9, stop := 3 } else { p with phase := 4, word := anc }
            | 5 => { p with phase := 6, name := name }
            | _ => p
          s.setOp x.op (o.withProg q o.best)
        else
          let seen := 3 * 8 + bits word 21 6 * 2 ^ 6
          s.setOp x.op (o.withProg { o.prog with phase := 2, stop := 0, word := seen, name := name, depth := depth }
            (if x.off = 0 ∨ anc = 0 then Cap.null else wordHandle anc))
      | _, _ => s)

/-- Bytes of another device arrive for a copy: those that have not landed wait for their place (R34, R302, R303). -/
def State.arrive (s : State) (id off : Nat) (l : List Byte) : State :=
  match s.copy? id with
  | none => s
  | some c =>
    if c.stopped ∨ c.queued ∨ c.fails.isSome ∨ c.len < off + l.length then s
    else
      let new := ((span off l.length).zip l).filter (fun e => c.fresh c.ag.cell e.1 1)
      s.setCopy id { c with inbox := new.foldl (fun m e => NMap.put m e.1 e.2) c.inbox }

/-- DATA: the bytes of its flits that the read still wants, from the next one on (R395, R397). -/
def execData (src tx off : Nat) (data : List Byte) (s : State) : Res :=
  let s := s.hear src
  match s.xact? src tx with
  | none => .next s
  | some x =>
    .next (if x.off < off ∨ off + data.length ≤ x.off then s
      else
        let data := (data.drop (x.off - off)).take x.len
        let off := x.off
        let next : Xact := { x with off := off + data.length, len := x.len - data.length, sent := s.wall }
        let s := if next.len = 0 then s.closeXact tx else { s with cru := { s.cru with xacts := NMap.put s.cru.xacts tx next } }
        match x.kind with
        | .read (some id) =>
          (match s.copy? id with
          | some c => (match c.kind with
            | .kget o => s.arrive id (off - o.toNat) data
            | _ => s)
          | none => s)
        | .read none =>
          (match NMap.find s.ops x.op with
          | some o =>
            let p := o.prog
            let n := s.node p.entry
            let base := (p.j - 1) * n.size
            let s := { s with cru := { s.cru with pay := putBytes 0 s.cru.pay (slotAddr p.entry + (off - base)) data } }
            if next.len = 0 then s.opPhase x.op (fun p => { p with phase := 8 }) none else s
          | none => s)
        | _ => s)

def execLapse (src tx off : Nat) (s : State) : Res :=
  let s := s.hear src
  match s.xact? src tx with
  | none => .next s
  | some x =>
    let s := s.closeXact tx
    .next (match x.kind with
      | .read none => s.opStop x.op 7
      | .read (some id) =>
        (match s.copy? id with
        | some c => if c.stopped ∨ c.complete ∨ off < x.off then s else s.lapse id c
        | none => s)
      | _ => s)

/-- NACK (R395, R397). A KREPL whose READ is refused with BOUNDS or NOTREADY ends with UNREACH (log entry 68). -/
def execNack (src tx st code : Nat) (s : State) : Res :=
  let s := s.hear src
  match s.xact? src tx with
  | none => .next s
  | some x =>
    .next (match code, x.kind with
      | 1, .read (some id) => (s.closeXact tx).copyStop id ⟨11, st % 2, x.off, 0, 0⟩
      | 2, .read (some id) => (s.closeXact tx).copyStop id (capFlt .bounds x.off)
      | 3, .read (some id) => (s.closeXact tx).copyStop id ⟨19, 2, x.off, x.dev, 0⟩
      | 1, .read none => (s.closeXact tx).opStop x.op 3
      | 1, .stat => (s.closeXact tx).opStop x.op 3
      | 4, _ => s.closeXact tx
      | _, _ => s.xactFail tx x)

def execRegAck (src tx st : Nat) (s : State) : Res :=
  let s := s.hear src
  match s.xact? src tx with
  | none => .next s
  | some x => .next (if st ≤ 5 then (match x.kind with
    | .reg _ => s.closeXact tx
    | _ => s) else s)

def execRemoteAnswerTimeout (tx : Nat) (s : State) : Res :=
  match NMap.find s.cru.xacts tx with
  | none => .next s
  | some x =>
    let t := min (max (s.csrGet 0x400).toNat 1024) (2 ^ 20)
    if s.wall < x.sent + 64 * t then .next s else .next (s.xactFail tx x)

/-! ### The home and holder roles (R394 to R397) -/

def execLookup (src tx name : Nat) (s : State) : Res :=
  let s := s.hear src
  .next (match s.dirFind name src with
    | some (w, d) =>
      if NSet.mem s.cru.gone (w % 2 ^ 18) then s.sendMsg src 2 1 tx name []
      else s.sendMsg src 2 0 tx name (leBytes w 8 ++ leBytes d 2)
    | none => s.sendMsg src 2 1 tx name [])

def execReg (src tx name w depth cls : Nat) (s : State) : Res :=
  if NSet.mem s.cru.gone src then .next (s.sendMsg src 6 5 tx name [])
  else
    let r := (s.hear src).dirAdd name w depth cls
    .next (r.1.sendMsg src 6 r.2 tx name [])

def execRetire (src name w : Nat) (s : State) : Res :=
  .next ((s.hear src).dirDrop (fun m h => m == name && h == w))

def execRenew (src : Nat) (s : State) : Res := .next (s.hear src)

/-- A request for a sealed node of this device: its entry, or the NACK of R395. -/
def State.asked (s : State) (src tx idx gen : Nat) (k : State → State) : State :=
  let n := s.node idx
  if n.st = 2 ∧ n.gen = gen then k s
  else s.sendMsg src 10 (if n.gen = (gen + 1) % 2 ^ 22 then 1 else 0) tx 0 [1]

def execStat (src tx idx gen j : Nat) (s : State) : Res :=
  let s := s.hear src
  .next (s.asked src tx idx gen (fun s =>
    let n := s.node idx
    let anc := if 1 ≤ j ∧ j ≤ n.depth then (match s.anc idx j with
      | some a => s.ownWord a
      | none => 0) else 0
    s.sendMsg src 12 0 tx n.name (leBytes (s.nodeWord idx (2 ^ 61)) 8 ++ leBytes n.name 16 ++ leBytes n.depth 2
      ++ leBytes anc 8)))

/-- A transfer lease opens on each ingot of a READ that starts at an offset, with the part of the range that lies in it, and
each ingot gets its last-use tick (R176, R181, R303, R397). -/
def State.openLeases (s : State) (idx src tx tag size : Nat) (past : Bool) : Nat → Nat → Nat → State
  | 0, _, _ => s
  | k + 1, off, stop =>
    if stop ≤ off then s
    else match s.anc idx (off / size + 1) with
      | none => s
      | some a =>
        let m := s.node a
        let part := min stop ((off / size + 1) * size)
        let l : XLease := ⟨src, tx, tag, off, part, (s.tick + s.crLease m.cls + 1) % 2 ^ 32, past, none⟩
        (s.setNode a { m with leases := m.leases ++ [l], lastUse := s.tick, demote := none }).openLeases idx src tx tag size past k part stop

/-- The payload of some ingot of a range lies in a die that is dead (R391, R395). -/
def State.ingotsDead (s : State) (idx size off stop : Nat) : Bool :=
  (span (off / size) ((stop + size - 1) / size - off / size)).any (fun i => match s.anc idx (i + 1) with
    | some a => s.lineErr (Attr.phys true) (slotAddr a) false false == .contained
    | none => false)

/-- A holder opens the transfer leases of a READ, each ingot for itself; a range that starts past depth × P is refused at once, one
that goes on past it when the bytes before have been sent (R294, R303, R397); an ingot in a dead die is contained. -/
def execRead (src tx idx gen off len tag : Nat) (s : State) : Res :=
  let s := s.hear src
  .next (s.asked src tx idx gen (fun s =>
    let n := s.node idx
    let top := n.depth * n.size
    let stop := min top (off + len)
    if n.size = 0 ∨ top ≤ off then s.sendMsg src 10 0 tx 0 [2]
    else if s.ingotsDead idx n.size off stop then s.sendMsg src 10 0 tx 0 [5]
    else s.openLeases idx src tx tag n.size (decide (top < off + len)) (n.depth + 1) off stop))

/-- The bytes of the read before this lease have been sent. -/
def State.firstLease (s : State) (l : XLease) : Bool :=
  s.cru.nodes.all (fun e => e.2.leases.all (fun m => !(m.sameRead l.dev l.tx && decide (m.next < l.next))))

/-- One DATA message of a lease on a wall cycle, in offset order: the flit of 64 bytes of node space that holds its next byte (log
entry 78). The lease closes with its last byte; after the last one of a READ that goes on past depth × P comes NACK BOUNDS (R395,
R397). -/
def State.pumpLease (s : State) (e : Nat) (l : XLease) : State :=
  if s.linksOpen = false ∨ l.sentAt = some s.wall ∨ psnWindow ≤ (s.ctx l.dev).unacked.length ∨ inForce l.expiry (s.tick - 1) = false ∨ s.firstLease l = false then s
  else
    let n := s.node e
    let base := l.next / 64 * 64
    let next := min l.stop (base + 64)
    let bytes := (span base 64).map (fun o => NMap.get 0 s.cru.pay (slotAddr e + o % max 1 n.size))
    let s := s.sendMsg l.dev 4 0 l.tx n.name (leBytes base 8 ++ bytes)
    let left := n.leases.erase l
    let s := s.setNode e { n with leases := if next = l.stop then left else left ++ [{ l with next := next, sentAt := some s.wall }] }
    if l.past ∧ s.cru.nodes.all (fun q => q.2.leases.all (fun m => !m.sameRead l.dev l.tx)) then s.sendMsg l.dev 10 0 l.tx 0 [2]
    else s

/-- Every open transfer lease sends its next message. -/
def State.pumpLeases (s : State) : State :=
  s.cru.nodes.foldl (fun s e => e.2.leases.foldl (fun s l => s.pumpLease e.1 l) s) s

/-! ### The transport (R415) -/

/-- Bytes of remote writes perform when their packets are acknowledged (R302). -/
def State.ackWrites (s : State) (l : List Packet) : State :=
  l.foldl (fun s p =>
    if p.ty ≠ 3 then s
    else match s.copy? p.tag with
      | none => s
      | some c => match c.kind with
        | .rwrite o =>
          if c.stopped ∨ c.fresh c.ag.cell (p.off - o.toNat) p.body.length = false then s
          else s.landed p.tag c c.ag.cell (p.off - o.toNat) p.body.length
        | _ => s) s

/-- An acknowledgement of a peer. -/
def State.ackFrom (s : State) (peer apsn : Nat) : State :=
  let done := (s.ctx peer).unacked.filter (fun p => psnGe apsn p.psn)
  (s.acked peer apsn).ackWrites done

/-- The transport's test of an arriving packet (R415): in order it is accepted, otherwise nacked with the expected
number. -/
def State.inSeq (s : State) (p : Packet) (k : State → State) : State :=
  let s := s.ackFrom p.src p.apsn
  let c := s.ctx p.src
  if c.dead then s
  else if p.psn = c.expected then k (s.setCtx p.src { c with expected := psnNext c.expected })
  else s.sendCtl p.src 5 1 c.expected 0

/-- A peer dies on the transport: every open transaction and copy towards it is contained, an event of code 4 (R415,
R416). -/
def State.peerDies (s : State) (d : Nat) : State :=
  let s := (s.setCtx d { s.ctx d with dead := true, unacked := [] }).portEvent 4 0 d
  let s := s.cru.xacts.foldl (fun s x => if x.2.dev = d then s.xactFail x.1 x.2 else s) s
  s.copies.foldl (fun s e =>
    let tgt := match e.2.kind with
      | .rread _ => exportDev e.2.src == d
      | .rwrite _ => exportDev e.2.dst == d
      | _ => false
    if tgt then s.copyStop e.1 ⟨19, 1, 0, d, 0⟩ else s) s

/-! ### Exports (R417, R418) -/

/-- Bytes that a request packet itself carries or asks for: those of its request up to the next 4,096-byte boundary of the
remote address (R302); a write brings them. -/
def Packet.bytes (p : Packet) : Nat := if p.ty = 3 then p.body.length else min p.len (4096 - p.off % 4096)

/-- The parts of a physical range page by page, each with the attributes of its page. -/
def State.physPieces (s : State) (pa n : Nat) : List Piece :=
  (cutPages pa n (n / 4096 + 2)).map (fun e => ⟨e.1, e.1, e.2, (s.physAttrs e.1).headD (Attr.phys false)⟩)

/-- A write of a physical range would write part of a codeword of a page that an entry maps as lattice (R88). -/
def State.halfCodeword (s : State) (pa n : Nat) : Bool :=
  (cutPages pa n (n / 4096 + 2)).any (fun e => (s.physAttrs e.1).any (fun a =>
    a.lat && (decide (e.1 % a.codeword ≠ 0) || decide ((e.1 + e.2) % a.codeword ≠ 0))))

/-- A page of a physical range has a destroyed key (R417). -/
def State.rangeKeyDead (s : State) (pa n : Nat) : Bool :=
  (cutPages pa n (n / 4096 + 2)).any (fun e => (s.physAttrs e.1).any (fun a => s.keyGone a.key))

/-- The local physical address of a remote request, when the registration holds (one accepted on the wall cycle of the revocation
point is let through, R418, R419) and the export lets its packet of `n` bytes through (R417). The bounds
are those of the `len` bytes of FP_LEN, which are the whole of the request from here on, so that one that leaves
them is refused in its first packet (R302; log entry 70). -/
def State.exportAt (s : State) (peer exp off len n : Nat) (write : Bool) : Option Nat :=
  let i := bits exp 33 18
  let e := (s.csrGet 0x530).toNat + 64 * i
  let cap := s.readCap e
  let ctl := s.readLE (e + 0x10) 8
  let pa := cap.base + off
  if (s.csrGet 0x531).toNat ≤ i ∨ bitOf ctl 0 = false ∨ bits ctl 49 20 ≠ bits exp 63 34 then none
  else if s.net.revoking.any (fun r => r.1 == i && decide (r.2 < s.wall)) then none
  else if bitOf ctl 1 = false ∧ bits ctl 19 2 ≠ peer then none
  else if cap.tag = false ∨ cap.otype ≠ 0 ∨ cap.has .rx = false then none
  else if cap.has (if write then .st else .ld) = false then none
  else if cap.top < pa + max len n then none
  else if write ∧ s.halfCodeword pa n then none
  else if s.rangeKeyDead pa n then none
  else some pa

/-- A remote read of these parts is served at the homes of their lines, with the bytes that `f` reads there (R417). -/
def State.serveRead (s : State) (p : Packet) (q : List Piece) (f : State → List Byte) : State :=
  let c := s.checkLines q false
  match c.2 with
  | some _ => c.1.sendCtl p.src 5 4 p.psn p.tag
  | none =>
    let s := (c.1.takeLines 256 q).takeTurn remoteKey q
    (s.sendCtl p.src 4 0 p.psn 0).sendPacket p.src 2 p.exp p.off p.bytes p.tag (f s)

/-- A remote write of these parts is applied whole (R302, R417); it clears the tags it touches (R109). -/
def State.serveWrite (s : State) (p : Packet) (q : List Piece) : State :=
  let c := s.checkLines q true
  match c.2 with
  | some _ => c.1.sendCtl p.src 5 4 p.psn p.tag
  | none => (((c.1.takeLines 256 q).takeTurn remoteKey q).writePieces q p.body).sendCtl p.src 4 0 p.psn 0

/-- A request whose lines are free is served, or refused with NACK ACCESS (R417). -/
def State.serveExport (s : State) (p : Packet) : State :=
  match s.exportAt p.src p.exp p.off p.len p.bytes (p.ty == 3) with
  | none => s.sendCtl p.src 5 3 p.psn p.tag
  | some pa =>
    let q := s.physPieces pa p.bytes
    if p.ty = 3 then s.serveWrite p q else s.serveRead p q (fun s => s.readBytes pa p.bytes)

/-- The lines of an export request are free at their homes. -/
def State.exportReady (s : State) (p : Packet) : Bool :=
  match s.exportAt p.src p.exp p.off p.len p.bytes (p.ty == 3) with
  | none => true
  | some pa => s.homeReady (s.physPieces pa p.bytes)

/-! ### Crucible messages in packets (R395) -/

/-- A field of a message. -/
def msgField (b : List Byte) (off n : Nat) : Nat := fieldAt b off n

/-- A discarded packet or message is counted at its port (R395, R414). -/
def State.discard (s : State) (port : Nat) : State :=
  s.setNet (fun t => { t with discarded := NMap.put t.discarded port (NMap.get 0 t.discarded port + 1) })

/-- The next state of an outcome; a state that stops is kept as it was. -/
def resState (s : State) : Res → State
  | .next t => t
  | _ => s

/-- A Crucible message carried out by its type; one of another type is discarded, counted and reported (R395, R416). -/
def State.crucibleMsg (s : State) (port src : Nat) (m : List Byte) : State :=
  let st := msgField m 1 1
  let tx := msgField m 8 8
  let name := msgField m 16 16
  let b := m.drop 32
  match msgField m 0 1 with
  | 1 => resState s (execLookup src tx name s)
  | 2 => resState s (execLookupR src tx st (msgField b 0 8) (msgField b 8 2) s)
  | 3 => resState s (execRead src tx (msgField b 0 4) (msgField b 4 4) (msgField b 8 8) (msgField b 16 8) (msgField b 24 4) s)
  | 4 => resState s (execData src tx (msgField b 0 8) (b.drop 8) s)
  | 5 => resState s (execReg src tx name (msgField b 0 8) (msgField b 8 2) (msgField b 10 2) s)
  | 6 => resState s (execRegAck src tx st s)
  | 7 => resState s (execRetire src name (msgField b 0 8) s)
  | 8 => resState s (execRenew src s)
  | 9 => resState s (execLapse src tx (msgField b 0 8) s)
  | 10 => resState s (execNack src tx st (msgField b 0 1) s)
  | 11 => resState s (execStat src tx (msgField b 0 4) (msgField b 4 4) (msgField b 8 2) s)
  | 12 => resState s (execStatR src tx (msgField b 0 8) (msgField b 8 16) (msgField b 24 2) (msgField b 26 8) s)
  | _ => (s.discard port).portEvent 6 port 0

/-! ### Packets -/

/-- The copy whose packet a peer refuses ends (R294, R302, R415). -/
def State.refuseCopy (s : State) (peer tag sub : Nat) : State := s.copyStop tag ⟨19, sub, 0, peer, 0⟩

/-- Packets of a copy leave a context; those after them are numbered anew from the first (log entry 14). -/
def Ctx.without (c : Ctx) (tag : Nat) : Ctx :=
  match c.unacked with
  | [] => c
  | p :: _ =>
    let l := c.unacked.filter (fun q => decide (q.ty = 6 ∨ q.tag ≠ tag))
    { c with unacked := (l.zip (List.range l.length)).map (fun q => { q.1 with psn := (p.psn + q.2) % 2 ^ 24 }),
             next := (p.psn + l.length) % 2 ^ 24, rnr := 0, rnrUntil := none }

/-- A nack of a peer (R415). -/
def State.nacked (s : State) (p : Packet) : State :=
  let n := (p.psn + 2 ^ 24 - 1) % 2 ^ 24
  match p.code with
  | 1 => (s.ackFrom p.src n).resend p.src
  | 2 =>
    let c := s.ctx p.src
    let lim := bits (s.csrGet 0x523).toNat 39 32
    if lim ≤ c.rnr + 1 then
      match c.unacked with
      | [] => s
      | q :: _ => (s.setCtx p.src (c.without q.tag)).refuseCopy p.src q.tag 2
    else s.setCtx p.src { c with rnr := c.rnr + 1, rnrUntil := some (s.wall + bits (s.csrGet 0x523).toNat 31 0) }
  | 3 => (s.ackFrom p.src n |>.acked p.src p.psn).refuseCopy p.src p.tag 0
  | _ => (s.ackFrom p.src n |>.acked p.src p.psn).refuseCopy p.src p.tag 1

/-- An RDATA packet is applied (R302). -/
def State.applyRdata (s : State) (p : Packet) : State :=
  let s := s.sendCtl p.src 4 0 p.psn 0
  match s.copy? p.tag with
  | some c => (match c.kind with
    | .rread o => s.arrive p.tag (p.off - o.toNat) p.body
    | _ => s)
  | none => s

/-- A CRUCIBLE packet is applied (R395). -/
def State.applyCrucible (s : State) (port : Nat) (p : Packet) : State :=
  (s.sendCtl p.src 4 0 p.psn 0).crucibleMsg port p.src p.body

/-- A packet of this peer has been accepted and waits to be applied. -/
def State.pktWaits (s : State) (d : Nat) : Bool := s.net.waitPkts.any (fun w => w.pkt.src == d)

/-- An accepted packet waits; the lines of its request are recalled from the host (R385; log entry 81). -/
def State.waitPkt (s : State) (port : Nat) (p : Packet) : State :=
  let q := if p.ty = 1 ∨ p.ty = 3 then
      (s.exportAt p.src p.exp p.off p.len p.bytes (p.ty == 3)).map (fun pa => s.physPieces pa p.bytes)
    else none
  (s.setNet (fun t => { t with waitPkts := t.waitPkts ++ [⟨p, port, q⟩] })).recallFor 256 (q.getD [])

/-- An accepted packet is applied, at once where nothing of its context waits (R152, R415). -/
def State.accept (s : State) (port : Nat) (p : Packet) (now : Bool) (k : State → State) : State :=
  s.inSeq p (fun s => if now then k s else s.waitPkt port p)

/-- A packet whose context is in the cache. -/
def State.takePacket (s : State) (port : Nat) (p : Packet) : State :=
  let free := !s.pktWaits p.src
  match p.ty with
  | 1 => s.accept port p (free && s.exportReady p) (fun s => s.serveExport p)
  | 2 => s.accept port p free (fun s => s.applyRdata p)
  | 3 => s.accept port p (free && s.exportReady p) (fun s => s.serveExport p)
  | 4 => s.ackFrom p.src p.apsn
  | 5 => s.nacked p
  | 6 => s.accept port p free (fun s => s.applyCrucible port p)
  | _ => s.discard port

/-- The first waiting packet of a peer is applied once the lines of its request are free; one that was refused when it was
accepted is answered NACK ACCESS (R417, R418). -/
def State.applyWaiting (s : State) (d : Nat) : State :=
  match s.net.waitPkts.find? (fun w => w.pkt.src == d) with
  | none => s
  | some w =>
    let t := s.setNet (fun n => { n with waitPkts := n.waitPkts.erase w })
    match w.pkt.ty, w.pieces with
    | 2, _ => t.applyRdata w.pkt
    | 6, _ => t.applyCrucible w.port w.pkt
    | _, none => t.sendCtl d 5 3 w.pkt.psn w.pkt.tag
    | ty, some q =>
      if s.homeReady q = false then s.recallFor 256 q
      else if ty = 3 then t.serveWrite w.pkt q
      else t.serveRead w.pkt q (fun s => q.flatMap (fun e => s.readBytes e.pa e.len))

/-- A packet arrives: one whose context is not in the cache is held while it is fetched (R415). -/
def State.packetIn (s : State) (port : Nat) (p : Packet) : State :=
  if s.peerDead p.src ∧ (s.ctx p.src).dead then s
  else if s.ctxCached p.src then s.takePacket port p
  else s.setNet (fun t => { t with heldPkts := t.heldPkts ++ [⟨p, s.wall, port⟩] })

/-- A packet for this device. -/
def State.mkPacket (s : State) (ty code src psn apsn exp off len tag : Nat) (body : List Byte) : Packet :=
  ⟨ty, code, s.boot.dev, src, psn, apsn, exp, off, len, tag, body⟩

def execFliranRead (src psn apsn exp off len tag : Nat) (s : State) : Res :=
  .next (s.packetIn 0 (s.mkPacket 1 0 src psn apsn exp off len tag []))
def execFliranRdata (src psn apsn off tag : Nat) (body : List Byte) (s : State) : Res :=
  .next (s.packetIn 0 (s.mkPacket 2 0 src psn apsn 0 off body.length tag body))
/-- A write packet: `tag` holds FP_TAG in [31:0], and above it what FP_LEN counts beyond the payload (log entry 70). -/
def execFliranWrite (src psn apsn exp off tag : Nat) (body : List Byte) (s : State) : Res :=
  .next (s.packetIn 0 (s.mkPacket 3 0 src psn apsn exp off (body.length + tag / 2 ^ 32) (tag % 2 ^ 32) body))
def execFliranAck (src apsn : Nat) (s : State) : Res := .next (s.packetIn 0 (s.mkPacket 4 0 src 0 apsn 0 0 0 0 []))
def execFliranNack (src code psn tag : Nat) (s : State) : Res :=
  .next (s.packetIn 0 (s.mkPacket 5 code src psn 0 0 0 0 tag []))
def execFliranCrucible (port src psn apsn : Nat) (body : List Byte) (s : State) : Res :=
  .next (s.packetIn port (s.mkPacket 6 0 src psn apsn 0 0 body.length 0 body))

/-- FL_RTO without an acknowledgement (R415): everything is sent again, or the peer is dead. -/
def execResendTimeout (peer : Nat) (s : State) : Res :=
  let c := s.ctx peer
  if c.unacked = [] ∨ c.dead ∨ s.wall < c.since + (s.csrGet 0x521).toNat then .next s
  else if bits (s.csrGet 0x522).toNat 7 0 ≤ c.resends then .next (s.peerDies peer)
  else .next ((s.setCtx peer { c with resends := c.resends + 1, since := s.wall }).resend peer)

/-- A context has been fetched: the packets held for it are taken in order; one held for longer than 3,760 wall cycles is answered
NACK NOTREADY (R415, R419). -/
def execContextFetchComplete (peer : Nat) (s : State) : Res :=
  let l := s.net.heldPkts.filter (fun h => h.pkt.src == peer)
  let s := (s.cacheCtx peer).setNet (fun t => { t with heldPkts := t.heldPkts.filter (fun h => h.pkt.src ≠ peer) })
  .next (l.foldl (fun s h =>
    if h.since + 3760 < s.wall then s.sendCtl peer 5 2 h.pkt.psn h.pkt.tag else s.takePacket h.port h.pkt) s)

/-- A packet has been held for longer than 3,760 wall cycles: NACK NOTREADY (R415). -/
def execContextFetchTimeout (peer : Nat) (s : State) : Res :=
  let late (h : HeldPkt) : Bool := h.pkt.src == peer && decide (h.since + 3760 < s.wall)
  let l := s.net.heldPkts.filter late
  let s := s.setNet (fun t => { t with heldPkts := t.heldPkts.filter (fun h => !late h) })
  .next (l.foldl (fun s h => s.sendCtl peer 5 2 h.pkt.psn h.pkt.tag) s)

/-- The not-ready wait is over: everything unacknowledged is sent again (R415). -/
def execRnrWaitExpiry (peer : Nat) (s : State) : Res :=
  let c := s.ctx peer
  match c.rnrUntil with
  | none => .next s
  | some t => if s.wall < t then .next s else .next ((s.setCtx peer { c with rnrUntil := none }).resend peer)

/-- A packet of an undefined type is discarded and counted; an event of code 6 reports it (R414, R416). -/
def execDiscardedPacket (port : Nat) (s : State) : Res := .next ((s.discard port).portEvent 6 port 0)

/-- XR_REVOKE (R418): the revocation point of an export; its register write of steward `n`. -/
def execXrRevoke (_n : Nat) (v : Word) (s : State) : Res :=
  if s.net.revoking.isSome then .next s else .next (s.setNet (fun t => { t with revoking := some (v.toNat % 65536, s.wall) }))

/-- An accepted packet of an export still waits to perform (R418). -/
def State.exportBusy (s : State) (i : Nat) : Bool :=
  s.net.waitPkts.any (fun w => w.pieces.isSome && decide (bits w.pkt.exp 33 18 = i))

/-- The last packet accepted up to the revocation point has performed: valid clears, the generation moves on (R418). -/
def execExportRevocationComplete (s : State) : Res :=
  match s.net.revoking with
  | none => .next s
  | some (i, at') =>
    if s.wall ≤ at' ∨ s.exportBusy i then .next s else
    let e := (s.csrGet 0x530).toNat + 64 * i + 0x10
    let w := s.readLE e 8
    let g := (bits w 49 20 + 1) % 2 ^ 30
    let w := w / 2 % 2 ^ 19 * 2 + g * 2 ^ 20 + w / 2 ^ 50 * 2 ^ 50
    .next ((s.writeLE e 8 w).setNet (fun t => { t with revoking := none }))

end Sys2Proof.Machine
end

