-- ==== Sys2Proof/Machine/Paging.lean ====
section
/-!
DEFINITION. The fault gatherer, the translation registers, page migration and revocation epochs
(R113, R114, R363 to R376, R413).
-/
namespace Sys2Proof.Machine

/-! ### Waiting operations of a steward's register writes (R316, R364) -/

/-- The seq stream of a steward. -/
def stewSeq (n : Nat) : Agent := ⟨true, n, 0, .seq⟩

/-- A register write that makes its steward's seq stream stall until the operation ends (R316). -/
def State.stewWait (s : State) (n : Nat) (k : OpK) (v : Word) : State :=
  let a := stewSeq n
  let q := s.streamOf a
  let o : Op := { ag := a, pc := q.pc, k := k, i := .nop 0, t0 := s.wall, wall := s.wall, addr := 0, pieces := [], val := v,
                  val2 := 0, caps := [], relMark := 0, near := [], stage := 0, res := [], cres := [], flt := none }
  let s := { s with ops := NMap.put s.ops s.nextId o, nextId := s.nextId + 1 }
  s.setStreamOf a { q with stall := some (s.nextId - 1) }

/-! ### The fault gatherer (R366, R367) -/

/-- A run of a batch. -/
structure FRun where
  part : Nat
  page : Nat
  pages : Nat
  write : Bool
  malformed : Bool
  nfault : Nat
  deriving DecidableEq, Repr

/-- Faults ascending by partition and page. -/
def sortFaults (l : List GFault) : List GFault :=
  l.foldl (fun (acc : List GFault) f =>
    let le (g : GFault) : Bool := decide (g.part < f.part) || (g.part == f.part && decide (g.page ≤ f.page))
    acc.filter le ++ f :: acc.filter (fun g => !le g)) []

/-- One fault merged into the runs, the last of which stands first (R366). -/
def mergeFault (runs : List FRun) (f : GFault) : List FRun :=
  match runs with
  | [] => [⟨f.part, f.page, 1, f.write, f.malformed, 1⟩]
  | r :: rs =>
    if r.part = f.part ∧ f.page ≤ r.page + 4096 * r.pages then
      { r with pages := if f.page = r.page + 4096 * r.pages then r.pages + 1 else r.pages, write := r.write || f.write,
               malformed := r.malformed || f.malformed, nfault := r.nfault + 1 } :: rs
    else ⟨f.part, f.page, 1, f.write, f.malformed, 1⟩ :: r :: rs

/-- The runs of a batch, in order (R366). -/
def formBatch (l : List GFault) : List FRun := ((sortFaults l).foldl mergeFault []).reverse

/-- Entries N of the fault-range queue (R364). -/
def State.fbN (s : State) : Nat := bits (s.csrGet 0x305).toNat 15 0

/-- One range record written at the write index (R367). -/
def State.putRange (s : State) (r : FRun) : State :=
  let q := (s.csrGet 0x304).toNat / 64 * 64 + 32 * s.tr.wpos
  let b (v : Bool) (k : Nat) : Nat := if v then 2 ^ k else 0
  let s := s.hwWrite 0 q 8 (b s.tr.wphase 0 + b r.write 1 + b r.malformed 2 + r.page / 4096 % 2 ^ 45 * 4096)
  let s := s.hwWrite 0 (q + 8) 8 (r.pages % 2 ^ 32 + r.part % 256 * 2 ^ 32)
  let s := s.hwWrite 0 (q + 16) 8 s.tr.batch
  let s := s.hwWrite 0 (q + 24) 8 r.nfault
  let last := decide (s.fbN ≤ s.tr.wpos + 1)
  { s with tr := { s.tr with wpos := if last then 0 else s.tr.wpos + 1, wphase := if last then !s.tr.wphase else s.tr.wphase } }

/-- The queue has room for the runs of a batch. -/
def State.batchFits (s : State) (l : List GFault) : Bool :=
  decide (s.fbN ≠ 0) && decide ((formBatch l).length ≤ queueRoom s.fbN s.tr.wpos (s.csrGet 0x307).toNat)

/-- The held batch is written when its queue has room: FBATCH in steward 0, MSI vector 0 (R366, R413). -/
def State.writeBatch (s : State) : State :=
  match s.tr.held with
  | none => s
  | some l =>
    if s.batchFits l = false then s
    else
      let s := (formBatch l).foldl State.putRange s
      let s := { s with tr := { s.tr with held := none, batch := (s.tr.batch + 1) % 2 ^ 64 } }
      (s.latch 0 3).emit (.msi 0)

/-- The gathered faults form a batch, unless one is held already (R366). -/
def State.formHeld (s : State) : State :=
  if s.tr.held.isSome ∨ s.tr.gath = [] then s
  else ({ s with tr := { s.tr with held := some s.tr.gath, gath := [] } }).writeBatch

/-- A fault reaches the gatherer: dropped and counted at 256, a batch at the count threshold (R366). -/
def State.gather (s : State) (part va : Nat) (write malformed : Bool) : State :=
  let held := match s.tr.held with
    | some l => l.length
    | none => 0
  if 256 ≤ s.tr.gath.length + held then
    { s with tr := { s.tr with dropped := min (s.tr.dropped + 1) 65535 } }
  else
    let f : GFault := ⟨part, va / 4096 * 4096, write, malformed, s.wall⟩
    let s := { s with tr := { s.tr with gath := s.tr.gath ++ [f] } }
    if bits (s.csrGet 0x305).toNat 31 16 ≤ s.tr.gath.length then s.formHeld else s

/-- The oldest gathered fault has been held for the age threshold, or the count threshold was reached while an earlier
batch waited for room (R366). -/
def State.batchAged (s : State) : Bool :=
  match s.tr.gath with
  | [] => false
  | f :: l => s.tr.held.isNone && (decide (f.at0 + (s.csrGet 0x305).toNat / 2 ^ 32 ≤ s.wall)
      || decide (bits (s.csrGet 0x305).toNat 31 16 ≤ (f :: l).length))

def execFaultBatchAge (s : State) : Res := .next (if s.batchAged then s.formHeld else s)

def execFaultBatchWrite (s : State) : Res := .next s.writeBatch

/-! ### Translation registers (R364) -/

/-- TR_PROBE: the walk's leaf, with the PA of the 4 KiB page, and its outcome in TR_PROBEX. -/
def execTrProbe (n : Nat) (v : Word) (s : State) : Res :=
  let va := bits v.toNat 56 0
  let part := bits (s.csrGet 0x302).toNat 7 0
  let (w, s) := s.walkAt (n / 2) part va
  let leaf := if w.resident then w.leaf - bits w.leaf 51 12 * 4096 + leafPa w.leaf w.size va / 4096 * 4096 else w.leaf
  let lvl := if w.resident then (if w.size = 3 then 2 else if w.size = 2 then 1 else 0) else w.level
  let x := part + (if w.resident then w.size * 2 ^ 8 else 2 ^ 10) + (if w.malformed then 2 ^ 11 else 0) + lvl * 2 ^ 12
  .next ((s.csrPut 0x301 (BitVec.ofNat 64 leaf)).csrPut 0x302 (BitVec.ofNat 64 x))

def execTrInval (n : Nat) (v : Word) (s : State) : Res :=
  .next (if s.invalWaits v.toNat then s.stewWait n (.inval v.toNat) v else s.invalidate v.toNat)

def execTrFpost (_n : Nat) (v : Word) (s : State) : Res :=
  .next (s.gather (bits v.toNat 11 4) (bits v.toNat 56 12 * 4096) (bitOf v.toNat 0) false)

def execTrRetry (_n : Nat) (v : Word) (s : State) : Res :=
  .next (if bitOf v.toNat 0 then { s with cup := { s.cup with resident := [] } } else s)

/-! ### Page migration (R368, R369, R413) -/

/-- Two migrations name one page. -/
def Migration.samePage (m : Migration) (part va : Nat) : Bool := m.part == part && m.va / m.size == va / m.size

/-- Status of a migration request that does not start: `host` tells whose it is (R368, R369, R413). -/
def State.migBusy (s : State) (host : Bool) (part va : Nat) : Option Nat :=
  (s.tr.mig.find? (fun m => m.samePage part va)).map (fun m => if m.host = host then 2 else 1)

/-- The steward's migration that has come to the page on the same wall cycle gives way to the host's: it ends HOSTWON (R369). -/
def State.hostFirst (s : State) (part va : Nat) : State :=
  match s.tr.mig.find? (fun m => m.samePage part va && !m.host && m.at0 == s.wall) with
  | none => s
  | some m =>
    let t := s.stew m.stew
    let s := { s with tr := { s.tr with mig := s.tr.mig.erase m } }.setStew m.stew { t with migst := 1 }
    match s.ops.find? (fun e => decide (e.2.ag = stewSeq m.stew) && e.2.k == .migrate) with
    | some (id, o) => s.endOp id o
    | none => s

/-- Physical addresses of the leaf of a page: one, or the 16 entries of a 64 KiB group (R361, R368). -/
def groupPtes (size pte : Nat) : List Nat := if size = 2 ^ 16 then (List.range 16).map (fun i => pte + 8 * i) else [pte]

/-- TR_MIGST of a steward. -/
def State.setMigst (s : State) (n st : Nat) : State := s.setStew n { s.stew n with migst := BitVec.ofNat 64 st }

def execTrMigrate (n : Nat) (v : Word) (s : State) : Res :=
  let d := v.toNat / 64 * 64
  let src := s.readLE d 8
  let dst := s.readLE (d + 8) 8
  let va := s.readLE (d + 0x10) 8
  let ctl := s.readLE (d + 0x18) 8
  let pte := s.readLE (d + 0x20) 8
  let size := pageBytes (bits ctl 1 0)
  let part := bits ctl 15 8
  .next (if bits ctl 1 0 = 3 ∨ bits ctl 7 2 ≠ 0 ∨ bits ctl 63 16 ≠ 0 ∨ s.readLE (d + 0x28) 24 ≠ 0
      ∨ src % size ≠ 0 ∨ dst % size ≠ 0 then s.setMigst n 4
    else match s.migBusy false part va with
      | some st => s.setMigst n st
      | none =>
        if s.tagless dst ∧ (groupPtes size pte).any (fun p => bitOf (s.readLE p 8) 11) then s.setMigst n 3
        else
          let s := s.stewWait n .migrate v
          { s with tr := { s.tr with mig := s.tr.mig ++ [⟨false, n, src, dst, va, size, part, pte, s.wall⟩] } })

/-- The migration that the host's registers ask for: into the host window, of the page that a walk finds; none for a request
that breaks a rule of R413. -/
def State.hostMigration (s : State) (va part tgt : Nat) : Option Migration :=
  let w := s.walkTables part va
  if va % 4096 ≠ 0 ∨ 2 ^ 57 ≤ va ∨ w.resident = false ∨ w.size = 3 ∨ tgt % pageBytes w.size ≠ 0 ∨ bitOf w.leaf 11 then none
  else
    let size := pageBytes w.size
    let pte := if w.size = 1 then w.pte / 128 * 128 else w.pte
    some ⟨true, 0, leafPa w.leaf w.size (va / size * size), tgt, va / size * size, size, part, pte, s.wall⟩

/-- The host writes the migration registers of BAR0; the first starts a migration into the host window (R369, R413). -/
def execHostMigrationStart (vareg dst : Word) (s : State) : Res :=
  let va := vareg.toNat
  let part := bits dst.toNat 7 0
  let s := { s with tr := { s.tr with hostMigVa := vareg, hostMigDst := dst } }
  let st (k : Nat) (s : State) : State := { s with tr := { s.tr with hostMigSt := k } }
  let t := s.hostFirst part va
  .next (match t.migBusy true part va, s.hostMigration va part (0x2000_0000_0000 + bits dst.toNat 47 12 * 4096) with
    | some k, _ => st k s
    | none, none => st 4 s
    | none, some m => st 7 { t with tr := { t.tr with mig := t.tr.mig ++ [m] } })

/-- Entries of a map with keys in [dst, dst + n) replaced by those of [src, src + n). -/
def moveKeys {α : Type} (m : NMap α) (src dst n : Nat) : NMap α :=
  let take := m.filter (fun e => decide (src ≤ e.1) && decide (e.1 < src + n))
  let rest := m.filter (fun e => !(decide (dst ≤ e.1) && decide (e.1 < dst + n)))
  take.foldl (fun m e => NMap.put m (e.1 - src + dst) e.2) rest

/-- The migration engine reads a line under the page's class: what its read meets is recorded (R403, R408), and it arrives at the
destination under the same KEY, in the slot that the masks give it there, poisoned or contained as it was (R368, R409). -/
def State.moveLine (s : State) (m : Migration) (c l : Nat) : State :=
  let from' := l * 64
  let dest := l * 64 - m.src + m.dst
  let s := if s.backing from' = .hbm ∧ NSet.mem s.hbm.poison (s.slot c from') = false then
    s.lineMet c from' (s.memErr c from') else s
  let a := s.slot c from'
  let bad := NSet.mem s.hbm.poison a || s.readStored c from' == .poisoned
  let s := s.seatLine c (dest / 64)
  let b := s.slot c dest
  let mark (n : NSet) (v : Bool) : NSet := if v then NSet.add n b else NSet.del n b
  let s := (s.cleanLine (dest / 64) b).countLine c from'
  let h := s.hbm
  ({ s with hbm := { h with poison := mark h.poison bad, contained := mark h.contained (NSet.mem h.contained a),
                            keyed := NMap.set 0 h.keyed (dest / 64) (NMap.get 0 h.keyed l) } }).countLine c dest

/-- A frame copied with its sideband words and check bytes (R368 step 2, R404); a destination outside HBM keeps no tags. -/
def State.moveFrame (s : State) (m : Migration) : State :=
  let c := bits (s.readLE m.pte 8) 7 5
  let s := (span (m.src / 64) (m.size / 64)).foldl (fun s l => s.moveLine m c l) s
  let h := s.hbm
  let hbm := s.backing m.dst = .hbm
  let tags := if hbm then s.tags else s.tags.filter (fun e => !(decide (m.src / 16 ≤ e.1) && decide (e.1 < (m.src + m.size) / 16)))
  let checks := 0x8_0000_0000_0000
  { s with mem := moveKeys (moveKeys s.mem m.src m.dst m.size) (checks + m.src / 16) (checks + m.dst / 16) (m.size / 16),
           tags := if hbm then moveKeys tags (m.src / 16) (m.dst / 16) (m.size / 16) else s.tags,
           hbm := { h with zmeta := moveKeys h.zmeta (m.src / 512) (m.dst / 512) (m.size / 512) } }

/-- An access queued at the source goes to the new home (R368 step 5). -/
def Migration.repiece (m : Migration) (p : Piece) : Piece :=
  if m.src ≤ p.pa ∧ p.pa < m.src + m.size then { p with pa := p.pa - m.src + m.dst } else p

/-- The number of a unit of `n` bytes after the move. -/
def Migration.remap (m : Migration) (n u : Nat) : Nat :=
  if m.src ≤ u * n ∧ u * n < m.src + m.size then u - m.src / n + m.dst / n else u

/-- An access of the host that waits, after the move. -/
def Migration.rehost (m : Migration) : HostReq → HostReq
  | .rd l own part => .rd (m.remap 64 l) own part
  | .wr l off d => .wr (m.remap 64 l) off d

/-- The lines of the two frames of a migration that have an entry. -/
def State.migLines (s : State) (m : Migration) : List Nat :=
  (NMap.keys s.coh.lines).filter (fun l => (decide (m.src ≤ l * 64) && decide (l * 64 < m.src + m.size))
    || (decide (m.dst ≤ l * 64) && decide (l * 64 < m.dst + m.size)))

/-- Steps 2 to 5 of a migration (R368): those that wait at the old home, requests of the dies and accesses of the host among them,
wait in the same order at the new one (R154). -/
def State.migrate (s : State) (m : Migration) : State :=
  let s := (s.migLines m).foldl (fun s l => s.recallLine 256 l) s
  let s := s.moveFrame m
  let s := ((groupPtes m.size m.pte).zip (List.range 16)).foldl (fun s (p, i) =>
    let e := s.readLE p 8
    s.writeLE p 8 (e - bits e 51 12 * 4096 + (m.dst + 4096 * i) / 4096 % 2 ^ 40 * 4096)) s
  let s := s.invalidate (m.part * 16 + m.va / 4096 % 2 ^ 45 * 4096)
  { s with ops := s.ops.map (fun (i, o) => (i, { o with pieces := o.pieces.map m.repiece })),
           wq := s.wq.map (fun (i, p) => (i, { p with pieces := p.pieces.map m.repiece })),
           coh := { s.coh with lines := moveKeys s.coh.lines (m.src / 64) (m.dst / 64) (m.size / 64) |>.filter (fun e =>
                                 !(decide (m.src ≤ e.1 * 64) && decide (e.1 * 64 < m.src + m.size))),
                               sent := s.coh.sent.map (fun e => (m.remap 64 e.1, e.2)),
                               hostQ := s.coh.hostQ.map (fun e => (e.1, m.rehost e.2)),
                               waitQ := s.coh.waitQ.map (fun e => { e with line := m.remap 64 e.line }),
                               rels := s.coh.rels.map (fun r => { r with granule := m.remap 8 r.granule }) },
           net := { s.net with waitPkts := s.net.waitPkts.map (fun w =>
             { w with pieces := w.pieces.map (fun q => q.map m.repiece) }) },
           tr := { s.tr with mig := s.tr.mig.erase m } }

/-- What the host reads in BAR0 of port 0 at an offset: the identification, the request and status of its migration, the write
index and phase of the fault-range queue; doorbells and other offsets read 0 (R413; log entry 80). -/
def State.bar0 (s : State) (off : Nat) : Word :=
  match off with
  | 0x0000 => BitVec.ofNat 64 (0x0940 + s.boot.dev * 2 ^ 16)
  | 0x1100 => s.tr.hostMigVa
  | 0x1108 => s.tr.hostMigDst
  | 0x1110 => BitVec.ofNat 64 s.tr.hostMigSt
  | 0x1200 => BitVec.ofNat 64 (s.tr.wpos + if s.tr.wphase then 2 ^ 16 else 0)
  | _ => 0

/-- The k-th migration under way ends, once its lines have returned to their homes, from the host by snoop (R385): TR_MIGST or the
host's status reads DONE. -/
def execMigrationComplete (k : Nat) (s : State) : Res :=
  match s.tr.mig[k]? with
  | none => .next s
  | some m =>
    let lines := s.migLines m
    if lines.any (fun l => !(s.line l).settled) then .next s
    else if lines.any (fun l => (s.line l).inHost) then .next (lines.foldl (fun s l => s.openRecall 256 l) s)
    else
      let s := s.migrate m
      if m.host then .next { s with tr := { s.tr with hostMigSt := 0 } }
      else
        let s := s.setMigst m.stew 0
        match s.ops.find? (fun e => decide (e.2.ag = stewSeq m.stew) && e.2.k == .migrate) with
        | some (id, o) => .next (s.endOp id o)
        | none => .next s

/-! ### Revocation epochs (R370 to R376) -/

/-- The epoch enters a phase: SWEEP latched in steward 0 of each die (R372). -/
def State.phase (s : State) (p : Nat) : State :=
  (({ s with tr := { s.tr with epoch := { s.tr.epoch with phase := p } } }).latch 0 2).latch 2 2

/-- The hull list at TR_RVLIST: partition, RMBASE and hulls, or the word that breaks a limit (R371). -/
def State.hullList (s : State) : Except Nat (Nat × Nat × List (Nat × Nat)) :=
  let a := (s.csrGet 0x30C).toNat / 16 * 16
  let h := s.readLE a 8
  let base := s.readLE (a + 8) 8
  let l := (List.range (bits h 15 8)).map (fun i => (s.readLE (a + 16 + 16 * i) 8, s.readLE (a + 24 + 16 * i) 8))
  if bits h 63 16 ≠ 0 ∨ l.length < 1 ∨ 64 < l.length then .error h
  else if base % 2 ^ 50 ≠ 0 then .error base
  else match l.find? (fun e => decide (e.1 % 16 ≠ 0) || decide (e.2 % 16 ≠ 0) || decide (e.2 ≤ e.1)) with
    | some e => .error e.1
    | none => .ok (bits h 7 0, base, l)

/-- An epoch opens (R371, R372): every gang of the partition that holds a pour is to be swept. -/
def State.openEpoch (s : State) (part base : Nat) (l : List (Nat × Nat)) : State :=
  let gangs := s.gangs.map (fun (g, q) => (g, { q with swept := decide (q.pour.map (·.part) ≠ some part) }))
  ({ s with gangs := gangs,
            tr := { s.tr with epoch := ⟨s.tr.epoch.num + 1, 0, part, base, l, s.wall, [], []⟩ } }).phase 1

/-- SWEEP FORCE: the sweeps still due start at once (R331). -/
def State.forceSweeps (s : State) : State :=
  (NMap.keys s.gangs).foldl (fun s g => if s.unswept g then s.startSweep g else s) s

def execRegisterSweepStart (g : Nat) (s : State) : Res :=
  .next (if s.unswept g ∧ s.tr.epoch.opened + 2 ^ 16 ≤ s.wall then s.startSweep g else s)

/-- A copy into the gang's scratchpads has not landed. -/
def State.intoGang (s : State) (g : Nat) : Bool :=
  s.copies.any (fun e => !e.2.ag.stew && e.2.ag.unit == g && e.2.toScratch && !e.2.complete)

/-- The 64 cycles of a sweep begin once every copy into the gang's scratchpads has landed (R114 steps 1 and 2). -/
def State.sweepLanded (s : State) (g : Nat) : State :=
  let q := s.gang g
  if q.sweeping ∧ q.sweepAt = none ∧ s.intoGang g = false then s.setGang g { q with sweepAt := some s.wall } else s

/-- A capability loses its tag when its base is marked. -/
def State.sweepCap (s : State) (die : Nat) (c : Cap) : Cap := if c.tag ∧ s.marked die c.base then { c with tag := false } else c

/-- The granule tags that stay: those of capabilities with unmarked bases (R114). -/
def State.sweepTags (s : State) (die : Nat) (spm : NMap Byte) (t : NSet) : NSet :=
  t.filter (fun e => !s.marked die (Cap.ofNat (leRead (NMap.get 0 spm) (16 * e.1) 16) true).base)

/-- A stream's capabilities swept. -/
def State.sweepStream (s : State) (die : Nat) (t : Stream) : Stream :=
  { t with c := t.c.map (fun (i, c) => (i, s.sweepCap die c)), pcc := s.sweepCap die t.pcc }

/-- Capability data in flight towards registers and scratchpads swept. -/
def State.sweepAct (s : State) (die : Nat) : Act → Act
  | .c r v => .c r (s.sweepCap die v)
  | .st l tags f => .st l (tags.filter (fun g =>
      let b := NMap.get 0 (l.map (fun w => (w.off, w.val)))
      !s.marked die (Cap.ofNat (leRead b (16 * g) 16) true).base)) f
  | a => a

/-- A line on a gang link swept. -/
def State.sweepLine (s : State) (die : Nat) (l : LinkLine) : LinkLine :=
  let keep (i : Nat) : Nat :=
    if l.tags.toNat.testBit i ∧ s.marked die (Cap.ofNat (l.data.toNat / 2 ^ (128 * i)) true).base = false then 2 ^ i else 0
  { l with tags := BitVec.ofNat 4 (keep 0 + keep 1 + keep 2 + keep 3) }

/-- The gang's registers, pcc values and scratchpads swept (R114 step 3). -/
def State.sweepGang (s : State) (g : Nat) : State :=
  let q := s.gang g
  let cell (c : Cell) : Cell :=
    { c with streams := c.streams.map (fun (i, t) => (i, s.sweepStream (g / 32) t)), tags := s.sweepTags (g / 32) c.spm c.tags }
  s.setGang g { q with cells := q.cells.map (fun (i, c) => (i, cell c)), arrivals := q.arrivals.map (s.sweepLine (g / 32)),
                       pend := q.pend.map (fun e => { e with act := s.sweepAct (g / 32) e.act }),
                       sweeping := false, swept := true, sweepAt := none }

def execRegisterSweepEnd (g : Nat) (s : State) : Res :=
  let q := s.gang g
  match q.sweepAt with
  | some t => .next (if q.sweeping ∧ t + 64 ≤ s.wall then s.sweepGang g else s)
  | none => .next s

/-- Every gang of the epoch's partition that holds a pour has been swept. -/
def State.allSwept (s : State) : Bool :=
  s.gangs.all (fun e => e.2.pour.map (·.part) != some s.tr.epoch.part || e.2.swept)

def execEpochSettle (s : State) : Res := .next (if s.tr.epoch.phase = 1 ∧ s.allSwept then s.phase 2 else s)

/-- Every tag-keeping copy recorded by the sweeps has landed (R374). -/
def State.settled (s : State) : Bool :=
  s.tr.epoch.settle.all (fun id => match s.copy? id with
    | some c => c.complete
    | none => true)

/-- What the fettler has to visit: of the partition, every leaf with CS, resident or not, and every malformed one, and the
images of its suspended pours (R375). -/
def State.fettleList (s : State) : List Fettle :=
  let part := s.tr.epoch.part
  let one (w : Walk) : Bool := w.malformed || (bitOf w.leaf 11 && (w.size != 1 || decide (w.pte / 8 % 16 = 0)))
  ((s.partLeaves part).filter (fun e => one e.2)).map (fun e => Fettle.page e.1)
    ++ s.cup.launches.flatMap (fun e => if e.2.part = part then e.2.susp.map (fun p => Fettle.image e.1 p.idx) else [])

def execEpochFettle (s : State) : Res :=
  .next (if s.tr.epoch.phase = 2 ∧ s.settled then
    let s := s.phase 3
    { s with tr := { s.tr with epoch := { s.tr.epoch with fettle := s.fettleList } } }
  else s)

/-- Marked capabilities of a range lose their tags (R375). -/
def State.fettleRange (s : State) (pa n : Nat) : State :=
  { s with tags := s.tags.filter (fun e =>
      !(decide (pa ≤ 16 * e.1) && decide (16 * e.1 < pa + n) && s.marked 0 (s.readCap (16 * e.1)).base)) }

/-- The fettler's reads of the lines of a range that hold tags, through the L2 of die 0 (R420). -/
def State.fettleLook (s : State) (pa n : Nat) : State :=
  (((s.tags.filter (fun e => decide (pa ≤ 16 * e.1) && decide (16 * e.1 < pa + n))).map (fun e => e.1 / 4)).eraseDups).foldl
    (fun s l => s.look 0 (l * 64) 64) s

/-- No granule of a range holds a tag. -/
def State.noTags (s : State) (pa n : Nat) : Bool :=
  s.tags.all (fun e => !(decide (pa ≤ 16 * e.1) && decide (16 * e.1 < pa + n)))

/-- CS cleared in the leaf of a page whose range holds no tag, or in the 16 entries of its group (R375). -/
def State.clearCs (s : State) (w : Walk) : State :=
  (groupPtes (pageBytes w.size) (if w.size = 1 then w.pte / 128 * 128 else w.pte)).foldl (fun s p =>
    let e := s.readLE p 8
    s.writeLE p 8 (if bitOf e 11 then e - 2 ^ 11 else e)) s

/-- The fettler can go on with an entry of its list: a posted page waits until it is resident again. -/
def State.canFettle (s : State) : Fettle → Bool
  | .posted va => (s.walkTables s.tr.epoch.part va).resident
  | _ => true

/-- The fettler visits a page: a page it cannot walk is posted and visited again; a page or group without tags loses CS
(R375). The fettler translates through the TLB of die 0 (R363). -/
def State.fettlePage (s : State) (va : Nat) : State :=
  let e := s.tr.epoch
  let w := s.walkTables e.part va
  if w.resident = false then
    ({ s with tr := { s.tr with epoch := { e with fettle := e.fettle ++ [Fettle.posted va] } } }).gather e.part va false w.malformed
  else
    let t := s.walkAt 0 e.part va
    let r := leafRange t.1.leaf t.1.size
    let s := t.2.fettleLook r.1 r.2 |>.fettleRange r.1 r.2
    if bitOf w.leaf 11 ∧ s.noTags r.1 r.2 then s.clearCs w else s

/-- The fettler visits the first entry of its list with which it can go on (R375). -/
def execFettlerVisit (s : State) : Res :=
  let e := s.tr.epoch
  .next (if e.phase ≠ 3 then s else match e.fettle.find? s.canFettle with
    | none => s
    | some v =>
      let s := { s with tr := { s.tr with epoch := { e with fettle := e.fettle.erase v } } }
      match v with
      | .page va => s.fettlePage va
      | .posted va => s.fettlePage va
      | .image l i => match NMap.find s.cup.launches l with
        | none => s
        | some la => match NMap.find la.areas i with
          | some (pa, n) => if la.susp.any (fun p => p.idx == i) then (s.fettleLook pa n).fettleRange pa n else s
          | none => s)

def execEpochEnd (s : State) : Res :=
  .next (if s.tr.epoch.phase = 3 ∧ s.tr.epoch.fettle = [] then s.phase 0 else s)

end Sys2Proof.Machine
end

