-- ==== Sys2Proof/Machine/Cupola.lean ====
section
/-!
DEFINITION. The cupola's tables, submission of launches, the levels of work, their ends, and the dispatch instructions
(R25 to R29, R51 to R53, R199, R200, R236 to R238, R330, R338, R339, R344 to R347, R353, R356).
-/
namespace Sys2Proof.Machine

/-! ### Sessions and handles (R26, R339) -/

/-- Address of the record of session `i` (R339). -/
def State.ssAddr (s : State) (i : Nat) : Nat := (s.csrGet 0x201).toNat / 64 * 64 + 64 * i

/-- SS_CTL of a session. -/
def State.ssCtl (s : State) (i : Nat) : Nat := s.readLE (s.ssAddr i) 8

/-- SS_OPEN, the partition and the class range of a session (R339). -/
def State.ssOpen (s : State) (i : Nat) : Bool := bitOf (s.ssCtl i) 0
def State.ssPart (s : State) (i : Nat) : Nat := bits (s.ssCtl i) 15 8
def State.ssLo (s : State) (i : Nat) : Nat := bits (s.ssCtl i) 27 16
def State.ssHi (s : State) (i : Nat) : Nat := bits (s.ssCtl i) 39 28

/-- SS_BALANCE in µJ. -/
def State.ssBalance (s : State) (i : Nat) : Int := sx 64 (s.readLE (s.ssAddr i + 8) 8)

/-- SS_RESERVED in µJ. -/
def State.ssReserved (s : State) (i : Nat) : Nat := s.readLE (s.ssAddr i + 0x10) 8

/-- SS_IMGPOOL, whose place in the record no granule holds: its tag is not tested (log entry 17). -/
def State.ssPool (s : State) (i : Nat) : Cap := Cap.ofNat (s.readLE (s.ssAddr i + 0x18) 16) true

/-- SS_RESERVED changed by the cupola, through the L2 of die 0 (R420; log entry 89). -/
def State.reserve (s : State) (i : Nat) (d : Int) : State :=
  s.hwWrite 0 (s.ssAddr i + 0x10) 8 (wrap 64 ((s.ssReserved i : Int) + d))

/-- SS_BALANCE changed by an atomic add (R339). -/
def State.credit (s : State) (i : Nat) (d : Int) : State :=
  s.hwWrite 0 (s.ssAddr i + 8) 8 (wrap 64 (s.ssBalance i + d))

/-- Run-time state of a session; a record opened again after its end counts as newly opened (R51). -/
def State.sess (s : State) (i : Nat) : Sess :=
  let r := NMap.get ⟨0, .running, false, false⟩ s.cup.sessions i
  if r.status = .cancelled ∧ s.ssOpen i then ⟨0, .running, false, false⟩ else r

def State.setSess (s : State) (i : Nat) (r : Sess) : State :=
  { s with cup := { s.cup with sessions := NMap.put s.cup.sessions i r } }
def State.setLaunch (s : State) (i : Nat) (l : Launch) : State :=
  { s with cup := { s.cup with launches := NMap.put s.cup.launches i l } }
def State.setGraph (s : State) (i : Nat) (g : Graph) : State :=
  { s with cup := { s.cup with graphs := NMap.put s.cup.graphs i g } }

/-- ADDR of launch and graph handles, places in the cupola's own tables (R339; log entry 15). -/
def launchAddr (i : Nat) : Nat := 2 ^ 62 + i
def graphAddr (i : Nat) : Nat := 2 ^ 62 + 2 ^ 61 + i

/-- The level a handle names (R26, R339). -/
def State.levelOf (s : State) (c : Cap) : Option Level :=
  let a := c.addr.toNat
  let t := (s.csrGet 0x201).toNat / 64 * 64
  if 2 ^ 62 + 2 ^ 61 ≤ a then
    (NMap.find s.cup.graphs (a - graphAddr 0)).map (fun _ => .graph (a - graphAddr 0))
  else if 2 ^ 62 ≤ a then
    (NMap.find s.cup.launches (a - launchAddr 0)).map (fun _ => .launch (a - launchAddr 0))
  else if t ≤ a ∧ a < t + 64 * 4096 ∧ (a - t) % 64 = 0 then some (.session ((a - t) / 64))
  else none

/-- The session of a level. -/
def State.levelSession (s : State) : Level → Option Nat
  | .session i => some i
  | .graph i => (NMap.find s.cup.graphs i).map (·.session)
  | .launch i => (NMap.find s.cup.launches i).map (·.session)

/-- The completion word of a level (R51). -/
def State.completionWord (s : State) (v : Level) : Nat :=
  let w (n : Nat) (st : CwSt) : Nat := n % 2 ^ 40 + st.code * 2 ^ 40
  match v with
  | .session i => w (s.sess i).graphs (s.sess i).status
  | .graph i => match NMap.find s.cup.graphs i with
    | some g => w g.complete g.status
    | none => 0
  | .launch i => match NMap.find s.cup.launches i with
    | some l => w l.retired l.status
    | none => 0

/-- COMPLETE, CANCELLED or FAULTED (R51). -/
def CwSt.final : CwSt → Bool
  | .pending | .running => false
  | _ => true

/-! ### Reading through page tables (R28) -/

/-- Pages that a read of R28 misses, each with whether its leaf is malformed. -/
abbrev Missed := List (Nat × Bool)

/-- The pages that a read has missed. -/
def missedBy {α : Type} : Except Missed α → Missed
  | .error l => l
  | .ok _ => []

/-- Physical pieces of `n` bytes at a virtual address of a partition, or every page that a read of R28 misses: not
resident, malformed or its frame retired. -/
def State.vpieces (s : State) (part va n : Nat) : Except Missed (List (Nat × Nat)) :=
  (cutPages va n (n / 4096 + 2)).foldr (fun (v, m) acc =>
    let w := s.walkTables part v
    let pa := leafPa w.leaf w.size v
    if w.resident = false ∨ s.frameGone pa then .error ((v / 4096 * 4096, w.malformed) :: missedBy acc)
    else match acc with
      | .error e => .error e
      | .ok l => .ok ((pa, m) :: l)) (.ok [])

/-- The bytes of physical pieces. -/
def State.bytesAt (s : State) (l : List (Nat × Nat)) : List Byte := l.flatMap (fun e => s.readBytes e.1 e.2)

/-- A capability among virtual bytes: its granule's bytes and tag. -/
def State.capAt (s : State) (l : List (Nat × Nat)) : Cap := match l with
  | (pa, _) :: _ => if pa % 16 = 0 then s.readCap pa else Cap.ofNat (ofLE (s.bytesAt l)) false
  | [] => Cap.null

/-- A launch record, its tags as found (R28). -/
structure LRec where
  bytes : List Byte
  image : Cap
  parent : Cap
  nodes : Cap
  grants : List Cap
  deriving DecidableEq, Repr

def LRec.f (r : LRec) (off n : Nat) : Nat := fieldAt r.bytes off n
def LRec.ctl (r : LRec) : Nat := r.f 0x30 8
def LRec.cost (r : LRec) : Nat := r.f 0x38 8
def LRec.deps (r : LRec) : Nat := r.f 0x40 8
def LRec.ngrants (r : LRec) : Nat := bits r.ctl 28 24
def LRec.nnodes (r : LRec) : Nat := bits r.ctl 35 29
def LRec.prio (r : LRec) : Nat := bits r.ctl 38 36
def LRec.wdog (r : LRec) : Nat := bits r.ctl 43 39
def LRec.energy (r : LRec) : Nat := bits r.cost 31 0
def LRec.gslot (r : LRec) : Nat := bits r.cost 39 32

/-- A launch record read at a virtual address of a partition, or at a physical one. -/
def State.readRec (s : State) (part : Option Nat) (va : Nat) : Except Missed LRec :=
  let at' (o n : Nat) : Except Missed (List (Nat × Nat)) := match part with
    | some p => s.vpieces p (va + o) n
    | none => .ok [(va + o, n)]
  let cap (o : Nat) : Cap := match at' o 16 with
    | .ok l => s.capAt l
    | .error _ => Cap.null
  match at' 0 384 with
  | .error e => .error e
  | .ok l => .ok ⟨s.bytesAt l, cap 0, cap 0x10, cap 0x20, (List.range 16).map (fun i => cap (0x80 + 16 * i))⟩

/-- A field of the record that R29 makes illegal. -/
def LRec.badField (r : LRec) : Bool :=
  decide (16 < r.ngrants) || decide (64 < r.nnodes) || (decide (1 ≤ r.wdog) && decide (r.wdog ≤ 15)) || decide (29 ≤ r.wdog)
    || decide (bits r.ctl 63 44 ≠ 0) || decide (bits r.cost 63 40 ≠ 0)
    || (List.range 4).any (fun j => decide (bits r.deps (16 * j + 14) (16 * j + 8) ≠ 0)) || decide (r.f 0x48 56 ≠ 0)

/-- Slots of the predecessors that LR_DEPS names (R28). -/
def LRec.preds (r : LRec) : List Nat :=
  (List.range 4).filterMap (fun j => if bitOf r.deps (16 * j + 15) then some (bits r.deps (16 * j + 7) (16 * j)) else none)

/-! ### The pour image (R199, R200) -/

/-- A read within LR_IMAGE's bounds: the pieces, none when out of bounds. -/
def State.imagePieces (s : State) (part : Nat) (im : Cap) (off n : Nat) : Except Missed (Option (List (Nat × Nat))) :=
  let a := im.addr.toNat + off
  if a < im.base ∨ im.top < a + n then .ok none
  else match s.vpieces part a n with
    | .error e => .error e
    | .ok l => .ok (some l)

/-- A range entry of a liveness record within its limits (R200). -/
def rangeOk (e : Nat) : Bool :=
  decide (bits e 31 24 = 0) && decide (bits e 63 54 = 0) && decide (bits e 21 0 % 64 = 0) && decide (bits e 53 32 % 64 = 0)
    && decide (64 ≤ bits e 53 32) && decide (bits e 21 0 + bits e 53 32 ≤ scratchSize)

/-- LV_SIZE of a number of ranges (R200). -/
def liveSize (n : Nat) : Nat := roundUp (0xD0 + 8 * n) 16

/-- The fields of a liveness record are legal (R200). -/
def liveOk (b : List Byte) : Bool :=
  let n := fieldAt b 2 2
  decide (n ≤ 64) && decide (fieldAt b 0 2 = liveSize n) && decide (fieldAt b 4 12 = 0)
    && (List.range 4).all (fun c => decide (fieldAt b (0x10 + 48 * c + 0x27) 9 = 0))
    && (List.range n).all (fun k => rangeOk (fieldAt b (0xD0 + 8 * k) 8))

/-- Liveness record `i` of an image, when it is valid (R200). Where LV_SIZE and LV_NRANGE disagree the record is invalid, and the
spec does not say how much of it is read: the model reads what LV_NRANGE gives, of a record with more than 64 ranges the header
alone (DESIGN CHOICE, log entry 86). -/
def State.liveRec (s : State) (part : Nat) (im : Cap) (tab i : Nat) : Except Missed (Option (List Byte)) :=
  match s.imagePieces part im (tab + 4 * i) 4 with
  | .error e => .error e
  | .ok none => .ok none
  | .ok (some l) =>
    let off := ofLE (s.bytesAt l)
    match s.imagePieces part im off 16 with
    | .error e => .error e
    | .ok none => .ok none
    | .ok (some h) =>
      let n := fieldAt (s.bytesAt h) 2 2
      if 64 < n then .ok none
      else match s.imagePieces part im off (liveSize n) with
        | .error e => .error e
        | .ok none => .ok none
        | .ok (some r) => .ok (if liveOk (s.bytesAt r) then some (s.bytesAt r) else none)

/-- The valid liveness records of an image from index `i` on. -/
def State.liveRecs (s : State) (part : Nat) (im : Cap) (tab i : Nat) : Nat → Except Missed (NMap (List Byte))
  | 0 => .ok []
  | n + 1 => match s.liveRec part im tab i, s.liveRecs part im tab (i + 1) n with
    | .ok none, .ok m => .ok m
    | .ok (some b), .ok m => .ok ((i, b) :: m)
    | a, b => .error (missedBy a ++ missedBy b)

/-- What the cupola reads of an image at submission: entry offsets and liveness records (R199). A header outside the
bounds leaves every stream an entry outside them. -/
def State.readImage (s : State) (part : Nat) (im : Cap) : Except Missed (List Nat × NMap (List Byte)) :=
  match s.imagePieces part im 0 128 with
  | .error e => .error e
  | .ok none =>
    let out := if im.addr.toNat < im.base then 0 else roundUp (im.top - im.addr.toNat) 4
    .ok (List.replicate 16 out, [])
  | .ok (some l) =>
    let h := s.bytesAt l
    match s.liveRecs part im (fieldAt h 0x0C 4) 0 (min (fieldAt h 0x10 4) 256) with
    | .error e => .error e
    | .ok m => .ok ((List.range 16).map (fun i => fieldAt h (0x20 + 4 * i) 4 / 4 * 4), m)

/-- The pieces of a read within an image; none when it is out of bounds or misses a page. -/
def State.imageRead (s : State) (part : Nat) (im : Cap) (off n : Nat) : List (Nat × Nat) :=
  match s.imagePieces part im off n with
  | .ok (some l) => l
  | _ => []

/-- Everything that a submission reads of an image: the header, and of each liveness record its offset, its first granule and the
rest (R199, R200). -/
def State.imageReads (s : State) (part : Nat) (im : Cap) : List (Nat × Nat) :=
  let p := s.imageRead part im
  let l := p 0 128
  let h := s.bytesAt l
  l ++ (List.range (min (fieldAt h 0x10 4) 256)).flatMap (fun i =>
    let e := p (fieldAt h 0x0C 4 + 4 * i) 4
    let off := ofLE (s.bytesAt e)
    let g := if e = [] then [] else p off 16
    let n := fieldAt (s.bytesAt g) 2 2
    e ++ g ++ (if g = [] ∨ 64 < n then [] else p off (liveSize n)))

/-- The cupola's reads of a submission, with the walks that they take, through the L2 of die 0 (R420; log entry 89). -/
def State.submitLook (s : State) (part : Option Nat) (va : Nat) : State :=
  let see (s : State) (l : List (Nat × Nat)) : State := l.foldl (fun s e => s.look 0 e.1 e.2) s
  let walk (s : State) (p va n : Nat) : State := (cutPages va n (n / 4096 + 2)).foldl (fun s e => s.walkLook 0 p e.1) s
  match part with
  | none => see s [(va, 384)]
  | some p =>
    match s.vpieces p va 384, s.readRec part va with
    | .ok l, .ok r =>
      let n := 16 * r.nnodes
      let nodes := (match s.vpieces p r.nodes.addr.toNat n with
        | .ok l => l
        | .error _ => [])
      see (see (see (walk (walk s p va 384) p r.nodes.addr.toNat n) l) nodes) (s.imageReads p r.image)
    | _, _ => walk s p va 384

/-! ### Submission (R28, R29, R345, R347) -/

/-- Who submits: a stream of a pour, a steward, or a ring entry with its window and parent. -/
inductive Submitter where
  | pour (part : Nat) | stew
  | ring (r session : Nat) (graph : Option Nat) (window : Cap) (seq tag : Nat) (badEntry : Bool)
  deriving DecidableEq, Repr

/-- A grant lies in the class window of the partition at a class that is no store class of the session (R345 code 9). -/
def State.badClass (s : State) (sess : Nat) (c : Cap) : Bool :=
  let part := s.ssPart sess
  let base := s.ptClassVa part
  let a := c.addr.toNat
  if base ≤ a ∧ a < base + 2 ^ 18 then
    let k := (a - base) / 64
    !(decide (s.ssLo sess ≤ k) && decide (k ≤ s.ssHi sess) && s.crValid k && s.crPart k == part)
  else false

/-- The parent of a submission: session and graph, or none when the parent test fails (R29, R342). -/
def State.parentOf (s : State) (who : Submitter) (r : LRec) : Option (Nat × Option Nat) :=
  match who with
  | .ring _ sess none _ _ _ _ => some (sess, none)
  | .ring _ sess (some g) _ _ _ _ => match NMap.find s.cup.graphs g with
    | some q => if q.closed = false ∧ q.session = sess then some (sess, some g) else none
    | none => none
  | _ =>
    if r.parent.tag = false ∨ r.parent.otype ≠ 4 then none
    else match s.levelOf r.parent with
      | some (.session i) => some (i, none)
      | some (.graph g) => (NMap.find s.cup.graphs g).map (fun q => (q.session, some g))
      | _ => none

/-- The first rejection code that applies before the other reads of R28, in the order of the codes (R345). -/
def State.rejection (s : State) (who : Submitter) (va : Nat) (r : LRec) : Nat :=
  let parent := s.parentOf who r
  let sess := (parent.map (·.1)).getD 0
  let graph := parent.bind (fun p => p.2.bind (fun g => NMap.find s.cup.graphs g))
  let inWindow := match who with
    | .ring _ _ _ w _ _ _ => decide (w.base ≤ va) && decide (va + 384 ≤ w.top)
    | _ => true
  let badDeps := match graph with
    | some g => r.preds.any (fun k => (NMap.find g.slots k).isNone) || (NMap.find g.slots r.gslot).isSome
    | none => decide (r.deps ≠ 0) || decide (r.gslot ≠ 0)
  let closed := match graph with
    | some g => g.closed || decide (256 ≤ g.count) || g.ending || g.status.final || !s.ssOpen sess
    | none => !s.ssOpen sess
  let badEntry := match who with
    | .ring _ _ _ _ _ _ b => b
    | _ => false
  if r.badField then 1
  else if r.image.tag = false ∨ r.image.otype ≠ 0 ∨ r.image.has .ex = false ∨ r.image.has .ld = false then 2
  else if parent.isNone then 3
  else if (r.grants.take r.ngrants).any (fun c => !c.tag) then 4
  else if r.nnodes ≠ 0 ∧ (capCheck r.nodes r.nodes.addr.toNat (16 * r.nnodes) 1 [.lc]).isSome then 5
  else if va % 128 ≠ 0 ∨ inWindow = false then 6
  else if badDeps then 7
  else if closed ∨ (s.sess sess).ending then 8
  else if (r.grants.take r.ngrants).any (s.badClass sess) then 9
  else if badEntry then 10
  else 0

/-- SY is cleared in every capability of a grant list (R92). -/
def Cap.noSy (c : Cap) : Cap := { c with perms := c.perms &&& 0xDFFF }

/-- A predecessor has ended COMPLETE. -/
def State.predDone (s : State) (i : Nat) : Bool := match NMap.find s.cup.launches i with
  | some l => l.status == .complete
  | none => true

/-- Every launch that is not finished takes the eligibility its predecessors allow; one with a cancelled or faulted
predecessor is cancelled (R347, R52). -/
def State.updateDeps (s : State) : State :=
  s.cup.launches.foldl (fun s e =>
    let l := (NMap.find s.cup.launches e.1).getD e.2
    if l.status.final ∨ l.ending.isSome ∨ l.te.isSome then s
    else if l.deps.any (fun d => match NMap.find s.cup.launches d with
        | some p => p.status == .cancelled || p.status == .faulted
        | none => false) then s.setLaunch e.1 { l with ending := some .cancelled }
    else if l.deps.all s.predDone then s.setLaunch e.1 { l with te := some s.wall } else s) s

/-- Each page that a read of R28 misses is posted (R29); the rejection is RESIDENT. -/
def State.missing (s : State) (part : Nat) (l : Missed) : State × Except Nat Nat :=
  (l.eraseDups.foldl (fun s e => s.gather part e.1 false e.2) s, .error 12)

/-- A record is submitted: the new launch, or the rejection code (R28, R29, R345). -/
def State.submit (s : State) (who : Submitter) (va : Nat) : State × Except Nat Nat :=
  let part := match who with
    | .pour p => some p
    | .stew => none
    | .ring _ i _ _ _ _ _ => some (s.ssPart i)
  match s.readRec part va with
  | .error e => s.missing (part.getD 0) e
  | .ok r =>
    let code := s.rejection who va r
    if code ≠ 0 then (s.submitLook part va, .error code)
    else
      let (sess, graph) := (s.parentOf who r).getD (0, none)
      let p := match who with
        | .pour p => p
        | _ => s.ssPart sess
      match s.vpieces p r.nodes.addr.toNat (16 * r.nnodes), s.readImage p r.image with
      | .error e, v => s.missing p (e ++ missedBy v)
      | .ok _, .error e => s.missing p e
      | .ok _, .ok (entries, live) =>
        let node (i : Nat) : Cap := match s.vpieces p (r.nodes.addr.toNat + 16 * i) 16 with
          | .ok l => s.capAt l
          | .error _ => Cap.null
        let id := s.cup.nextSeq
        let deps := match graph.bind (fun g => NMap.find s.cup.graphs g) with
          | some q => r.preds.filterMap (fun k => NMap.find q.slots k)
          | none => []
        let ring := match who with
          | .ring k _ _ _ seq tag _ => some (k, seq, tag)
          | _ => none
        let l : Launch :=
          { session := sess, part := s.ssPart sess, graph := graph, gslot := r.gslot, n := bits r.ctl 23 0 + 1, prio := r.prio,
            wdog := if r.wdog = 0 then 20 else r.wdog, energy := r.energy, image := r.image, entries := entries, live := live,
            grants := (r.grants.take r.ngrants).map Cap.noSy, nodes := (List.range r.nnodes).map node, deps := deps,
            te := if deps = [] then some s.wall else none, seq := id, next := 0, retired := 0, status := .pending, susp := [],
            ring := ring, ending := none, areas := [] }
        let s := { s with cup := { s.cup with nextSeq := id + 1 } }.setLaunch id l
        let s := match graph with
          | some g => match NMap.find s.cup.graphs g with
            | some q => s.setGraph g { q with slots := NMap.put q.slots r.gslot id, count := q.count + 1 }
            | none => s
          | none => s
        (s.updateDeps.submitLook part va, .ok id)

/-! ### Completion entries (R344) -/

/-- Address of a ring's descriptor (R341). -/
def State.rdAddr (s : State) (r : Nat) : Nat := (s.csrGet 0x202).toNat + 128 * r

/-- RD_N (R341). -/
def State.rdN (s : State) (r : Nat) : Nat := s.readLE (s.rdAddr r + 0x50) 4

/-- Capabilities of a ring's descriptor (R341). -/
def State.rdCap (s : State) (r off : Nat) : Cap := s.readCap (s.rdAddr r + off)

/-- The session of a ring (R341). -/
def State.rdSession (s : State) (r : Nat) : Option Nat := match s.levelOf (s.rdCap r 0x20) with
  | some (.session i) => some i
  | _ => none

/-- Run-time state of a ring. -/
def State.ring (s : State) (r : Nat) : Ring := NMap.get Ring.zero s.cup.rings r
def State.setRing (s : State) (r : Nat) (v : Ring) : State := { s with cup := { s.cup with rings := NMap.put s.cup.rings r v } }

/-- Unacknowledged completion entries of a ring: the phases tell an empty ring from a full one (R343, R344). -/
def Ring.used (q : Ring) (n : Nat) : Nat :=
  if bitOf q.ack 16 = q.cphase then q.cw - bits q.ack 15 0 else q.cw + n - bits q.ack 15 0

/-- The completion ring has room. -/
def State.ringRoom (s : State) (r : Nat) : Bool := decide ((s.ring r).used (s.rdN r) < s.rdN r) && (s.ring r).pend.isEmpty

/-- Waiting completion entries are written while the ring has room; each signals MSI vector 1 + r (R344, R413). -/
def State.drainRing (s : State) (r : Nat) : Nat → State
  | 0 => s
  | k + 1 =>
    let q := s.ring r
    let n := s.rdN r
    match q.pend with
    | [] => s
    | (a, b) :: l =>
      if n ≤ q.used n then s
      else
        let d := (s.rdCap r 0x30).addr.toNat + 16 * q.cw
        let s := (s.hwWrite 0 d 8 (a + (if q.cphase then 1 else 0))).hwWrite 0 (d + 8) 8 b
        let last := decide (n ≤ q.cw + 1)
        ((s.setRing r { q with pend := l, cw := if last then 0 else q.cw + 1,
                               cphase := if last then !q.cphase else q.cphase }).emit (.msi (1 + r))).drainRing r k

/-- A completion entry joins a ring (R344). -/
def State.complete (s : State) (r kind code seq tag status : Nat) : State :=
  let q := s.ring r
  (s.setRing r { q with pend := q.pend ++ [(kind * 2 ^ 8 + code % 2 ^ 16 * 2 ^ 16 + seq % 2 ^ 32 * 2 ^ 32,
                                            tag % 2 ^ 32 + status * 2 ^ 32)] }).drainRing r (q.pend.length + 1)

/-- The completion entry of a launch or graph that has no sequence number in the ring. -/
def State.unknown (s : State) (r kind : Nat) (st : CwSt) : State :=
  let w := (Config.freeWord s.fresh).toNat
  { s with fresh := s.fresh + 1 }.complete r kind 0 (w / 2 ^ 32) w st.code

/-- A launch or graph of a session finishes: an entry in each ring of the session; one that a ring did not submit has no
stated sequence number and tag there (R344, log entry 3). -/
def State.finished (s : State) (sess kind : Nat) (by' : Option (Nat × Nat × Nat)) (st : CwSt) : State :=
  (List.range 16).foldl (fun s r =>
    if s.rdN r = 0 ∨ s.rdSession r ≠ some sess then s
    else match by' with
      | some (q, seq, tag) => if q = r then s.complete r kind 0 seq tag st.code else s.unknown r kind st
      | none => s.unknown r kind st) s

/-! ### Ends of levels (R51, R347) -/

/-- A graph whose total is reached takes COMPLETE (R51, R342). -/
def State.graphDone (s : State) (i : Nat) : State :=
  match NMap.find s.cup.graphs i with
  | none => s
  | some g =>
    if g.closed ∧ g.complete = g.count ∧ g.status.final = false ∧ g.ending = false then
      let s := s.setGraph i { g with status := .complete }
      let s := s.setSess g.session { s.sess g.session with graphs := (s.sess g.session).graphs + 1 }
      s.finished g.session 4 (g.ring.map (·, g.seqNo, g.tag)) .complete
    else s

/-- A launch takes a final status; its dependents follow (R51, R52, R347). -/
def State.launchEnds (s : State) (i : Nat) (st : CwSt) : State :=
  match NMap.find s.cup.launches i with
  | none => s
  | some l =>
    let s := (s.setLaunch i { l with status := st, ending := none }).finished l.session 3 l.ring st
    let s := match l.graph, st with
      | some g, .complete => match NMap.find s.cup.graphs g with
        | some q => (s.setGraph g { q with complete := q.complete + 1 }).graphDone g
        | none => s
      | _, _ => s
    s.updateDeps

/-! ### Ends of pours (R36, R39, R52, R53, R353) -/

/-- The entry that an unanswered LAUNCH has taken in its die's queue is free (R346). -/
def State.freeEntry (s : State) (o : Op) : State :=
  match o.i with
  | .launch _ _ _ _ =>
    if o.k = .dispatch ∧ o.val ≠ 1 then
      let n := NMap.get 0 s.cup.devQ o.ag.die - 1
      { s with cup := { s.cup with devQ := NMap.set 0 s.cup.devQ o.ag.die n } }
    else s
  | _ => s

/-- What belongs to a stream of a gang goes: its operations, copies, drain-adds and posted stores; the stores of pours that it has suspended stay. -/
def State.dropGang (s : State) (g : Nat) : State :=
  let mine (a : Agent) : Bool := !a.stew && a.unit == g
  let s := (s.ops.filter (fun e => mine e.2.ag)).foldl (fun s e => s.freeEntry e.2) s
  { s with drains := s.drains.filter (fun e => !mine e.2.ag), ops := s.ops.filter (fun e => !mine e.2.ag), wq := s.wq.filter (fun e => !e.2.ofGang g),
           copies := s.copies.filter (fun e => !mine e.2.ag),
           stews := s.stews.map (fun (n, t) => (n, { t with gfault := t.gfault &&& ~~~ (BitVec.ofNat 64 (2 ^ g)) })) }

/-- The pour's leases, image area and reservation end (R353). -/
def State.releasePour (s : State) (launch idx : Nat) : State :=
  match NMap.find s.cup.launches launch with
  | none => s
  | some l =>
    let s := s.setLaunch launch { l with areas := NMap.erase l.areas idx, susp := l.susp.filter (fun p => p.idx ≠ idx) }
    (s.reserve l.session (-(l.energy : Int))).pourLeaves (launch * 2 ^ 24 + idx)

/-- The gang is without a pour; a steward freeze stays (R327), and its cells keep what they hold until the next pour is placed
(R30, R313). A request that stood on it or that waited for this pour ends
(R350). -/
def State.emptyGang (s : State) (g : Nat) : State :=
  let q := s.gang g
  let s := s.dropGang g
  let s := { s with cup := { s.cup with preempts := s.cup.preempts.filter (fun e => e.2.1 ≠ g) } }
  s.setGang g { Gang.zero with sfrozen := q.sfrozen, frec := q.frec, cells := q.cells }

/-- The pour of a gang ends and leaves it (R39, R52, R53). -/
def State.endPour (s : State) (g : Nat) : State :=
  match (s.gang g).pour with
  | none => s
  | some p => (s.emptyGang g).releasePour p.launch p.index

/-- A pour is abandoned (R53): its launch ends FAULTED. -/
def State.faultLaunch (s : State) (i : Nat) : State :=
  match NMap.find s.cup.launches i with
  | none => s
  | some l => if l.status.final then s else s.setLaunch i { l with ending := some .faulted }

/-- Pours of ending launches are frozen from the next wall cycle on (R52 step 2). -/
def State.freezeEnding (s : State) : State :=
  { s with gangs := s.gangs.map (fun (g, q) => (g, match q.pour with
    | some p => match NMap.find s.cup.launches p.launch with
      | some l => if l.ending.isSome ∧ q.cancelAt.isNone then { q with cancelAt := some (s.wall + 1) } else q
      | none => q
    | none => q)) }

/-- Launches marked to end with a status. -/
def State.endLaunches (s : State) (p : Launch → Bool) (st : CwSt) : State :=
  { s with cup := { s.cup with launches := s.cup.launches.map (fun (i, l) =>
      (i, if p l ∧ l.status.final = false ∧ l.ending.isNone then { l with ending := some st } else l)) } }

/-- A cancel of a level is recorded (R52, R356); a finished level is left alone. -/
def State.cancel (s : State) (v : Level) : State :=
  match v with
  | .launch i =>
    let s := match NMap.find s.cup.launches i with
      | some l => if l.status.final ∨ l.ending.isSome then s else s.setLaunch i { l with ending := some .cancelled }
      | none => s
    s.freezeEnding
  | .graph i =>
    (match NMap.find s.cup.graphs i with
    | none => s
    | some g =>
      if g.status.final then s
      else ((s.setGraph i { g with ending := true, closed := true }).endLaunches (fun l => l.graph = some i) .cancelled).freezeEnding)
  | .session i =>
    let r := s.sess i
    if r.status.final then s
    else
      let s := s.setSess i { r with ending := true }
      let s := s.writeLE (s.ssAddr i) 8 (s.ssCtl i / 2 * 2)
      let s := s.unpin i
      let close (g : Graph) : Graph :=
        if g.session = i ∧ g.status.final = false then { g with ending := true, closed := true } else g
      let s := { s with cup := { s.cup with graphs := s.cup.graphs.map (fun (k, g) => (k, close g)) } }
      (s.endLaunches (fun l => l.session = i) .cancelled).freezeEnding

/-- The stream belongs to a pour that a cancel or an abandonment has frozen (R52 step 2). -/
def State.cancelling (s : State) (a : Agent) : Bool := !a.stew && (s.gang a.unit).cancelAt.any (fun t => decide (t ≤ s.wall))

/-- A packet of a remote write has been sent and is not acknowledged. -/
def State.writeOut (s : State) (id : Nat) (c : Copy) : Bool :=
  match c.kind with
  | .rwrite _ => (s.ctx (bits c.dst.addr.toNat 17 0)).unacked.any (fun p => p.ty == 3 && p.tag == id)
  | _ => false

/-- A copy of a stopped pour stands at a 64-byte boundary of its destination in memory, or has landed in full (R52); one that a
fault has stopped stands where it is (log entry 83), and a remote write has no packet on its way. -/
def State.copyAligned (s : State) (id : Nat) (c : Copy) : Bool :=
  !s.writeOut id c && (c.toScratch || c.complete || c.stopped || c.got.all (fun e =>
    decide (c.len ≤ e.2.2) || decide (((s.runAt c e.2.2).dst) % 64 = 0) || decide ((s.runAt c e.2.2).left = (s.runAt c (e.2.2 - 1)).left)))

/-- The pour of a gang is at rest: its freeze is in force, its vector and matrix operations and its drain-adds are complete,
its posted stores have performed, its copies stand at boundaries (R52 step 2). -/
def State.atRest (s : State) (g : Nat) : Bool :=
  (match (s.gang g).cancelAt with
    | some t => decide (t ≤ s.wall)
    | none => false)
  && s.wq.all (fun e => !e.2.ofGang g)
  && (s.gang g).pend.all (fun e => decide (e.ag.kind ≠ .vec) && decide (e.ag.kind ≠ .mat))
  && s.drains.all (fun e => e.2.ag.unit != g)
  && s.copies.all (fun e => e.2.ag.stew || e.2.ag.unit != g || s.copyAligned e.1 e.2)

/-- The gangs that run pours of a launch. -/
def State.gangsOf (s : State) (i : Nat) : List Nat :=
  (s.gangs.filter (fun e => (e.2.pour.map (·.launch)) == some i)).map (·.1)

/-- An ending launch completes its end when all its pours are at rest and the stores of its suspended pours have performed:
images of suspended pours are discarded (R52). -/
def State.endLaunch (s : State) (i : Nat) : State :=
  match NMap.find s.cup.launches i with
  | none => s
  | some l => match l.ending with
    | none => s
    | some st =>
      if (s.gangsOf i).all s.atRest = false ∨ s.wq.any (fun e => e.2.park.any (fun k => k.1 == i)) then s
      else
        let s := (s.gangsOf i).foldl State.endPour s
        let s := l.susp.foldl (fun s p => s.releasePour i p.idx) s
        s.launchEnds i st

/-- No launch of a graph, or of a session, is still ending. -/
def State.allFinal (s : State) (p : Launch → Bool) : Bool := s.cup.launches.all (fun e => !p e.2 || e.2.status.final)

/-- A cancel's steps end: kind 0 launch, 1 graph, 2 session (R52 step 5). -/
def execCancelComplete (kind id : Nat) (s : State) : Res :=
  .next (match kind with
  | 0 => s.endLaunch id
  | 1 => match NMap.find s.cup.graphs id with
    | none => s
    | some g =>
      if g.ending ∧ g.status.final = false ∧ s.allFinal (fun l => l.graph = some id) then
        (s.setGraph id { g with status := .cancelled, ending := false }).finished g.session 4 (g.ring.map (·, g.seqNo, g.tag)) .cancelled
      else s
  | _ =>
    let r := NMap.get ⟨0, .running, false, false⟩ s.cup.sessions id
    if r.ending ∧ s.allFinal (fun l => l.session = id)
        ∧ s.cup.graphs.all (fun e => decide (e.2.session ≠ id) || e.2.status.final) then
      (s.unpin id).setSess id { r with status := .cancelled, ending := false, halted := false }
    else s)

/-- All conditions of R39 hold: every stream has issued RDV, no vector or matrix operation, copy or drain-add is in
flight, every global write has performed. -/
def State.retires (s : State) (g : Nat) : Bool :=
  let q := s.gang g
  q.pour.isSome && !q.held && q.openAt.isNone && (q.cancelAt.all (fun t => decide (s.wall < t)))
    && (gangAgents g).all (fun a => decide ((s.streamOf a).wait = .rdv))
    && q.pend.all (fun e => decide (e.ag.kind ≠ .vec) && decide (e.ag.kind ≠ .mat))
    && s.copies.all (fun e => e.2.ag.stew || e.2.ag.unit != g || e.2.complete)
    && s.drains.all (fun e => e.2.ag.unit != g)
    && s.wq.all (fun e => !e.2.ofGang g)

/-- The pour retires (R39): its leases end, the launch counts it, the launch completes with its last pour (R51). -/
def execPourRetirement (g : Nat) (s : State) : Res :=
  .next (if s.retires g = false then s
  else match (s.gang g).pour with
    | none => s
    | some p =>
      let s := s.endPour g
      (match NMap.find s.cup.launches p.launch with
      | none => s
      | some l =>
        let s := s.setLaunch p.launch { l with retired := l.retired + 1 }
        if l.retired + 1 = l.n then s.launchEnds p.launch .complete else s))

/-! ### Dispatch instructions (R236 to R238, R330) -/

/-- The issue of a dispatch instruction: an operation that the cupola answers. -/
def State.dispatchOp (s : State) (i : Instr) (caps : List Cap) : State := s.startOp { s.newOp .dispatch i with caps := caps }

/-- LAUNCH takes an entry of its die's queue of 64, or finds it full (R237, R346). A record capability in the scratch window, of
which the spec says nothing, raises BOUNDS (DESIGN CHOICE, log entry 86). -/
def execLaunch (g : G4) (d : XR) (a e : BitVec 4) (s : State) : Res :=
  let c := s.rc a
  .next (match s.placeOf c c.addr 384 1 [.ld] with
  | .fault f => s.raise f
  | .scr _ => s.capFault .bounds c.addr.toNat
  | .glob _ =>
    let die := s.cur.die
    let full := decide (64 ≤ NMap.get 0 s.cup.devQ die)
    let s := if full then s else { s with cup := { s.cup with devQ := NMap.set 0 s.cup.devQ die (NMap.get 0 s.cup.devQ die + 1) } }
    s.startOp { s.newOp .dispatch (.launch g d a e) with caps := [c], val := b2w full })

/-- The handle test of R238. -/
def State.withLevel (s : State) (c : Cap) (k : State) : State :=
  if c.tag = false then s.capFault .tag c.addr.toNat
  else if c.otype ≠ 4 then s.capFault .otype c.addr.toNat
  else k

def execGcancel (g : G4) (d : XR) (a : BitVec 4) (s : State) : Res :=
  .next (s.withLevel (s.rc a) (s.dispatchOp (.gcancel g d a) [s.rc a]))
def execCwread (g : G4) (d : XR) (a : BitVec 4) (s : State) : Res :=
  .next (s.withLevel (s.rc a) (s.dispatchOp (.cwread g d a) [s.rc a]))
def execEread (g : G4) (d : XR) (a : BitVec 4) (s : State) : Res :=
  .next (s.withLevel (s.rc a) (s.dispatchOp (.eread g d a) [s.rc a]))
def execCancel (g : G4) (d : XR) (a : BitVec 4) (s : State) : Res :=
  .next (s.steward (.cancel g d a) (fun s => s.withLevel (s.rc a) (s.dispatchOp (.cancel g d a) [s.rc a])))

/-- A value that the spec states no result for. -/
def State.freeNat (s : State) : State × Nat := ({ s with fresh := s.fresh + 1 }, (Config.freeWord s.fresh).toNat)

/-- The cupola answers with a word, performing on g + 5. -/
def State.answer (s : State) (id : Nat) (o : Op) (d : XR) (w : Nat) (acts : List Act) : State :=
  (acts.foldl (fun s a => s.opSched o 5 a) (s.opSched o 5 (.x d.toNat (BitVec.ofNat 64 w)))).endOp id o

/-- The level contains the pour of the gang. -/
def State.inLevel (s : State) (a : Agent) (v : Level) : Bool :=
  if a.stew then false else match (s.gang a.unit).pour with
    | none => false
    | some p => match v with
      | .launch i => p.launch == i
      | .session i => p.session == i
      | .graph i => ((NMap.find s.cup.launches p.launch).bind (·.graph)) == some i

/-- GCANCEL and CANCEL answered: a pour that cancels its own level gets no result and stays frozen (R238). -/
def State.answerCancel (s : State) (id : Nat) (o : Op) (d : XR) : State :=
  match s.levelOf (o.caps.headD Cap.null) with
  | none => s.answer id o d 0 []
  | some v =>
    let own := s.inLevel o.ag v && decide (bits (s.completionWord v) 42 40 < 2)
    let s := s.cancel v
    if own then s.setOp id { o with stage := 2 } else s.answer id o d 0 []

/-- The cupola answers a dispatch instruction (R236 to R238). LAUNCH is a release of the stream's earlier global writes. On BUSY
c[cd] takes null: R237 gives null for REJECTED and says nothing of BUSY (DESIGN CHOICE, log entry 86). -/
def execCupolaAnswer (id : Nat) (s : State) : Res :=
  match NMap.find s.ops id with
  | none => .next s
  | some o =>
    let c := o.caps.headD Cap.null
    .next (if o.k ≠ .dispatch ∨ o.stage ≠ 0 then s else match o.i with
    | .launch _ d _ e =>
      if o.val = 1 then s.answer id o d 2 [.c e.toNat Cap.null]
      else if s.before o.ag id ≠ [] then s
      else
        let s := s.freeEntry o
        let who := if o.ag.stew then Submitter.stew else .pour (s.partOf o.ag)
        let r := s.submit who c.addr.toNat
        (match r.2 with
        | .ok i => r.1.answer id o d 0 [.c e.toNat (Cap.handle (launchAddr i))]
        | .error code => r.1.answer id o d (1 + code * 256) [.c e.toNat Cap.null])
    | .gcancel _ d _ => s.answerCancel id o d
    | .cancel _ d _ => s.answerCancel id o d
    | .cwread _ d _ =>
      (match s.levelOf c with
      | some v => s.answer id o d (s.completionWord v) []
      | none => let f := s.freeNat
        f.1.answer id o d f.2 [])
    | .eread _ d _ =>
      (match (s.levelOf c).bind s.levelSession with
      | some i => s.answer id o d (wrap 64 (s.ssBalance i / 1000)) []
      | none => let f := s.freeNat
        f.1.answer id o d f.2 [])
    | _ => s)

end Sys2Proof.Machine
end

