-- ==== Sys2Proof/Machine/Context.lean ====
section
/-!
DEFINITION. YIELD, the context image, its save and its restore (R46 to R50, R200, R201, R232, R333 to R337).
-/
namespace Sys2Proof.Machine

/-! ### Liveness records (R200, R201) -/

/-- The set bits of a bitmap of `n` bits, from bit `lo`. -/
def setBits (m lo n : Nat) : List Nat := (List.range n).filter (fun i => decide (lo ≤ i) && bitOf m i)

/-- Offset of a cell's block in a liveness record. -/
def lvAt (c : Nat) : Nat := 0x10 + 48 * c

/-- Items of a cell block's variable part (R336). -/
inductive Item where
  | bound (i : Nat) | scale (i : Nat) | x (k : Kind) (i : Nat) | pad | c (k : Kind) (i : Nat) | v (i : Nat) | p (i : Nat)
  | m (i : Nat) | o (i : Nat) | a (i : Nat)
  deriving DecidableEq, Repr

/-- Bytes of an item. -/
def Item.size : Item → Nat
  | .bound _ | .scale _ => 128
  | .x _ _ | .p _ | .m _ => 8
  | .pad => 0
  | .c _ _ => 16
  | .v _ => 256
  | .o _ => 0x8000
  | .a _ => 0x10000

/-- The items that a record names for one stream. -/
def streamItems (b : List Byte) (c : Nat) (k : Kind) : List Item :=
  let cs := setBits (fieldAt b (lvAt c + 0x10 + 2 * k.idx) 2) 1 16
  (setBits (fieldAt b (lvAt c + 4 * k.idx) 4) 1 32).map (Item.x k) ++ (if cs = [] then [] else [Item.pad]) ++ cs.map (Item.c k)
    ++ (if k = .vec then (setBits (fieldAt b (lvAt c + 0x18) 8) 0 64).map Item.v
          ++ (setBits (fieldAt b (lvAt c + 0x20) 2) 1 16).map Item.p else [])

/-- The items of a cell block with `bs` bound-set entries, `sq` queue entries and a claim map (R201, R336). -/
def cellItems (b : List Byte) (c bs sq claim : Nat) : List Item :=
  (List.range bs).map Item.bound ++ (List.range sq).map Item.scale
    ++ [Kind.seq, .vec, .mat, .ladle].flatMap (streamItems b c)
    ++ (setBits (fieldAt b (lvAt c + 0x22) 2) 0 16).map Item.m
    ++ (setBits (fieldAt b (lvAt c + 0x24) 2 &&& claim) 0 16).map Item.o
    ++ (setBits (fieldAt b (lvAt c + 0x26) 1) 0 8).map Item.a

/-- Items with their offsets from `off`, and the end. -/
def layItems : Nat → List Item → List (Item × Nat) × Nat
  | off, [] => ([], off)
  | off, i :: l =>
    let a := if i = .pad then roundUp off 16 else off
    let r := layItems (a + i.size) l
    ((i, a) :: r.1, r.2)

/-- A cell block at an offset of the image: its items with their offsets, and its end (R335, R336). -/
def layCell (b : List Byte) (c off bs sq claim : Nat) : List (Item × Nat) × Nat :=
  let r := layItems (off + 0x200) (cellItems b c bs sq claim)
  (r.1, roundUp r.2 64)

/-- The scratchpad lines of the union of a record's ranges: line `0xC000 cell + line`, ascending (R201, R336). -/
def recLines (b : List Byte) : List Nat :=
  let t := (List.range (fieldAt b 2 2)).foldl (fun (t : NSet) k =>
    let e := fieldAt b (0xD0 + 8 * k) 8
    (span (0xC000 * bits e 23 22 + bits e 21 0 / 64) (bits e 53 32 / 64)).foldl NSet.add t) []
  NMap.keys t

/-- The layout of an image: the items of the four cell blocks with their block offsets, the offset of the lines and the
length; `f` gives BS_N, SQ_N and the claim map of the block of a cell at an offset. -/
def layImage (b : List Byte) (f : Nat → Nat → Nat × Nat × Nat) : List (Nat × List (Item × Nat)) × Nat × Nat :=
  let r := (List.range 4).foldl (fun (acc : List (Nat × List (Item × Nat)) × Nat) c =>
    let (bs, sq, cl) := f c acc.2
    let q := layCell b c acc.2 bs sq cl
    (acc.1 ++ [(acc.2, q.1)], q.2)) ([], 128)
  (r.1, r.2, r.2 + 64 * (recLines b).length)

/-- Bytes of the image area of a launch: the largest valid record in its largest case (R333, R353). -/
def areaBytes (live : NMap (List Byte)) : Nat :=
  live.foldl (fun n e => max n (layImage e.2 (fun _ _ => (64, 64, 0xFFFF))).2.2) 0

/-! ### YIELD (R46, R47, R232) -/

/-- The word at a stream's program counter, when its page is mapped. -/
def State.wordAt (s : State) (a : Agent) (pc : Nat) : Option Nat :=
  if a.stew then some (s.readLE pc 4)
  else match s.vpieces (s.partOf a) pc 4 with
    | .ok l => some (ofLE (s.bytesAt l))
    | .error _ => none

/-- The next word of a stream: the word fetched, else the one that stands at the program counter (R202). -/
def State.nextWord (s : State) (a : Agent) : Option Nat :=
  let t := s.streamOf a
  t.word.or (s.wordAt a t.pc.toNat)

/-- The gang cycle on which a stream that does not wait issues next (R31). The gap of a next word that cannot be read, its page
not mapped, stands nowhere: the model takes gap 0, so the fault of its fetch is raised then (DESIGN CHOICE, log entry 86). -/
def State.nextIssue (s : State) (a : Agent) : Nat :=
  let t := s.streamOf a
  t.ready + (if t.first then 0 else bits ((s.nextWord a).getD 0) 31 28)

/-- A stream is inside an IDLE or waits at an alignment point on the current gang cycle (R47, R195). A stream whose IDLE ends, or
whose IDLE or ALIGN itself issues, on the very gang cycle of the YIELD does not rest: R47 does not settle that boundary
(DESIGN CHOICE, log entry 86). -/
def State.resting (s : State) (a : Agent) : Bool :=
  let t := s.streamOf a
  decide (t.wait ≠ .none) || (t.idling && decide ((s.gang a.unit).gc < s.nextIssue a))

/-- The gang is quiescent for a YIELD of `a` (R47, R232). -/
def State.quiescent (s : State) (a : Agent) : Bool :=
  let q := s.gang a.unit
  (gangAgents a.unit).all (fun b => decide (b = a) || s.resting b)
    && q.arrivals.isEmpty
    && q.pend.all (fun e => match e.act with
      | .send _ _ _ => false
      | _ => true)
    && q.cells.all (fun c => c.2.qs.all (fun t => t.2.st != 2))
    && !s.intoGang a.unit

/-- Copies, pipelines and drain-adds of the gang are done, and so are its stores to UO pages, which suspension orders (R48, R50,
R140, R287, R333). -/
def State.drained (s : State) (g : Nat) : Bool :=
  let q := s.gang g
  q.pend.isEmpty && s.copies.all (fun e => e.2.ag.stew || e.2.ag.unit != g || e.2.complete)
    && s.wq.all (fun e => !e.2.ofGang g || (!e.2.uo && !soPieces e.2.pieces))
    && s.drains.all (fun e => e.2.ag.unit != g || e.2.left.isEmpty)

/-! ### The save (R48, R333 to R336) -/

/-- The launch of a gang's pour. -/
def State.launchOf (s : State) (g : Nat) : Option (PourRef × Launch) :=
  match (s.gang g).pour with
  | none => none
  | some p => (NMap.find s.cup.launches p.launch).map (p, ·)

/-- Layout of the image of a gang now. -/
def State.imageOf (s : State) (g : Nat) (b : List Byte) : List (Nat × List (Item × Nat)) × Nat × Nat :=
  layImage b (fun c _ =>
    let cl := s.cellOf ⟨false, g, c, .seq⟩
    (cl.bound.length, cl.scaleQ.length, (NMap.keys cl.claims).foldl (fun m i => m + 2 ^ i) 0))

/-- The wait state word of a stream (R335). -/
def waitWord : Wait → Nat
  | .none => 0
  | .align t => t % 256 + 2 ^ 8
  | .rdv => 2 ^ 9

/-- The bytes of an item. -/
def Cell.itemBytes (c : Cell) : Item → List Byte
  | .bound i => leBytes (c.bound.getD i 0).toNat 128
  | .scale i => match c.scaleQ[i]? with
    | some e => leBytes e.data.toNat 128
    | none => leBytes 0 128
  | .x k i => leBytes ((c.stream k).rx i).toNat 8
  | .pad => []
  | .c k i => leBytes ((c.stream k).rc i).toNat 16
  | .v i => leBytes (c.rv i).toNat 256
  | .p i => leBytes (c.rp i).toNat 8
  | .m i => leBytes (NMap.get 0 c.mail i).toNat 8
  | .o i => (List.range 128).flatMap (fun l => leBytes (NMap.get 0 c.slots (128 * i + l)).toNat 256)
  | .a i => (List.range 16384).flatMap (fun e => leBytes (NMap.get 0 c.accs (16384 * i + e)).toNat 4)

/-- An item written into the image. -/
def State.saveItem (s : State) (base : Nat) (c : Cell) (e : Item × Nat) : State :=
  match e.1 with
  | .c k i => s.writeCap (base + e.2) ((c.stream k).rc i)
  | i => s.writeBytes (base + e.2) (c.itemBytes i)

/-- IDLE remainder of a stream on a gang cycle (R195, R335). -/
def State.idleLeft (s : State) (a : Agent) (gc : Nat) : Nat :=
  let t := s.streamOf a
  if t.wait = .none ∧ t.idling then s.nextIssue a - 1 - gc else 0

/-- The fixed part of a cell block written (R335). -/
def State.saveFixed (s : State) (g base c gc count : Nat) : State :=
  let a (k : Kind) : Agent := ⟨false, g, c, k⟩
  let cl := s.cellOf (a .seq)
  let left := [Kind.seq, .vec, .mat, .ladle].map (fun k => (k, s.idleLeft (a k) gc))
  let s := left.foldl (fun s (k, n) =>
    let t := cl.stream k
    let b := base + 32 * k.idx
    (((s.writeCap b (t.pcc.moveTo t.pc)).writeLE (b + 0x10) 4 n).writeLE (b + 0x14) 4 (waitWord t.wait)).writeLE
      (b + 0x18) 8 t.fflags.toNat) s
  let s := (s.writeLE (base + 0x80) 8 cl.vsh.toNat).writeLE (base + 0x88) 8 cl.msh.toNat
  let s := s.writeLE (base + 0x90) 1 cl.mmode.toNat
  let s := s.writeLE (base + 0x92) 2 ((NMap.keys cl.claims).foldl (fun m i => m + 2 ^ i) 0)
  let s := (s.writeLE (base + 0x94) 1 cl.scaleQ.length).writeLE (base + 0x95) 1 cl.bound.length
  let s := (List.range 8).foldl (fun s k => s.writeLE (base + 0xA0 + 8 * k) 8 (cl.wptr k)) s
  let s := (List.range 32).foldl (fun s b => s.writeLE (base + 0xE0 + 8 * b) 8 (cl.bar b).toNat) s
  s.writeLE (base + 0x1E0) 8 (if c = 0 then count else 0)

/-- Alignment-wait count of R38 on a gang cycle. -/
def Gang.awaitCount (q : Gang) (gc : Nat) : Nat := match q.awaitFrom with
  | some f => q.awaitBase + (gc - f)
  | none => 0

/-- The context image of a gang written to its area (R334 to R336). -/
def State.saveImage (s : State) (g lidx gc : Nat) (p : PourRef) (l : Launch) (b : List Byte) : State :=
  let q := s.gang g
  let base := q.image
  let (blocks, lineOff, total) := s.imageOf g b
  let s := s.writeBytes base (List.replicate total 0)
  let s := ((s.writeLE base 4 0x49435A51).writeLE (base + 4) 4 total).writeLE (base + 8) 1 lidx
  let s := (s.writeCap (base + 0x10) l.image).writeCap (base + 0x20) (Cap.handle (launchAddr p.launch))
  let s := ((s.writeLE (base + 0x30) 4 p.index).writeLE (base + 0x34) 4 g).writeLE (base + 0x38) 8 s.tick
  let s := (blocks.zip (List.range 4)).foldl (fun s (e, c) =>
    let s := s.saveFixed g (base + e.1) c gc (q.awaitCount gc)
    e.2.foldl (fun s i => s.saveItem base (s.cellOf ⟨false, g, c, .seq⟩) i) s) s
  ((recLines b).zip (List.range (recLines b).length)).foldl (fun s (n, i) =>
    let cl := s.cellOf ⟨false, g, n / 0xC000, .seq⟩
    let off := n % 0xC000 * 64
    let d := base + lineOff + 64 * i
    let s := s.writeBytes d ((span off 64).map (NMap.get 0 cl.spm))
    { s with tags := (List.range 4).foldl (fun t j =>
      if NSet.mem cl.tags (off / 16 + j) then NSet.add t (d / 16 + j) else t) s.tags }) s

/-- The drain of a taken YIELD ends; the save engine starts (R48). -/
def execYieldDrainComplete (g : Nat) (s : State) : Res :=
  let q := s.gang g
  match q.stage, s.launchOf g with
  | .drain lidx gc, some (_, l) =>
    if q.held ∨ s.drained g = false then .next s
    else
      let n := (s.imageOf g ((NMap.find l.live lidx).getD [])).2.2
      .next (s.setGang g { q with stage := .save lidx gc (s.wall + (n + 255) / 256), saving := true })
  | _, _ => .next s

/-- A line of the image area cannot be written or read (R337). -/
def State.areaBad (s : State) (pa n : Nat) (write : Bool) : Bool :=
  (linesOf pa n).any (fun l => match s.lineErr (s.physAttr (l * 64)) (l * 64) write write with
    | .fine => false
    | .corrected => false
    | _ => true)

/-- The pour is abandoned by its save or restore, its record with cause 20 for a memory error (R337). -/
def State.abandonImage (s : State) (g launch : Nat) (memory : Bool) : State :=
  let q := s.gang g
  let s := if memory then s.setGang g { q with frec := { FRec.zero with flt := ⟨20, 0, q.image, 0, 0⟩, wall := s.wall } } else s
  (s.faultLaunch launch).freezeEnding

/-- Bytes of physical memory with their tags as another state has them. -/
def State.copyRange (s t : State) (pa n : Nat) : State :=
  let s := s.writePiece ⟨pa, pa, n, s.physAttr pa⟩ (t.readBytes pa n)
  { s with tags := (granules pa n).foldl (fun m g => if NSet.mem t.tags g then NSet.add m g else m) s.tags }

/-- The save engine writes the 256 bytes of the image that are due on the current wall cycle (R333). -/
def State.saveChunk (s : State) (g : Nat) : State :=
  match (s.gang g).stage, s.launchOf g with
  | .save lidx gc stop, some (p, l) =>
    let q := s.gang g
    let b := (NMap.find l.live lidx).getD []
    let total := (s.imageOf g b).2.2
    let off := 256 * (s.wall + (total + 255) / 256 - stop)
    let n := min 256 (total - off)
    if stop ≤ s.wall ∨ q.cancelAt.isSome then s
    else if s.areaBad (q.image + off) n true then s.abandonImage g p.launch true
    else (s.look (g / 32) (q.image + off) n true).copyRange (s.saveImage g lidx gc p l b) (q.image + off) n
  | _, _ => s

/-- Stores of the pour that have not performed stay in the write path: they perform in their order, and the pour finds them
as its own when it resumes (R50). -/
def State.parkStores (s : State) (g : Nat) (p : PourRef) : State :=
  { s with wq := s.wq.map (fun (i, e) => (i, if e.ofGang g then { e with park := some (p.launch, p.index) } else e)) }

/-- The stores of a resumed pour, which its streams have acquired (R50, R148). A release store of a scope narrower than the
package that performs after the resumption is a release of the scope instance of the new gang: R138 does not say which gang's
it is (DESIGN CHOICE, log entry 86). -/
def State.unparkStores (s : State) (g : Nat) (p : PourRef) : State :=
  let mine (e : PStore) : Bool := e.park == some (p.launch, p.index)
  let wq := s.wq.map (fun (i, e) => (i, if mine e then { e with ag := { e.ag with unit := g }, park := none } else e))
  let acqs : List Acq := if s.wq.any (fun e => mine e.2) then [⟨none, s.nextId, s.nextId⟩] else []
  { s with wq := wq }.setGang g { s.gang g with acqs := acqs }

/-- The fences of a gang's streams, number `4 cell + stream`. -/
def Gang.keptMarks (q : Gang) : NMap Marks :=
  (List.range 16).map (fun n => (n, ((NMap.get Cell.zero q.cells (n / 4)).stream (Kind.ofIdx (n % 4))).marks))

/-- A cell of a resumed pour with the fences kept for its streams (R50). -/
def Cell.withMarks (c : Cell) (i : Nat) (m : NMap Marks) : Cell :=
  { c with streams := c.streams.map (fun (k, t) => (k, t.withMarks (NMap.get Marks.zero m (4 * i + k)))) }

/-- The save ends: the pour is suspended and its gang is free (R48, R333). -/
def execContextSaveComplete (g : Nat) (s : State) : Res :=
  match (s.gang g).stage, s.launchOf g with
  | .save _ _ stop, some (p, l) =>
    let q := s.gang g
    if s.wall < stop ∨ q.held ∨ q.cancelAt.isSome then .next s
    else
      let s := (s.parkStores g p).emptyGang g
      .next (s.setLaunch p.launch { l with susp := l.susp ++ [⟨p.index, q.image, g / 32, q.keptMarks⟩] })
  | _, _ => .next s

/-! ### The restore (R49, R337) -/

/-- An item read from the image into a cell of a partition, through the load barrier. -/
def State.loadItem (s : State) (die part base : Nat) (c : Cell) (e : Item × Nat) : Cell :=
  let a := base + e.2
  let w (n : Nat) : Nat := s.readLE a n
  match e.1 with
  | .bound _ => { c with bound := c.bound ++ [BitVec.ofNat 1024 (w 128)] }
  | .scale i => { c with scaleQ := c.scaleQ ++ [⟨0, i, true, BitVec.ofNat 1024 (w 128)⟩] }
  | .x k i => c.setStream k ((c.stream k).wx i (BitVec.ofNat 64 (w 8)))
  | .pad => c
  | .c k i => c.setStream k ((c.stream k).wc i (s.barrier die part (s.readCap a)))
  | .v i => { c with v := NMap.set 0 c.v i (BitVec.ofNat 2048 (w 256)) }
  | .p i => c.wp i (BitVec.ofNat 64 (w 8))
  | .m i => { c with mail := NMap.set 0 c.mail i (BitVec.ofNat 64 (w 8)) }
  | .o i => { c with slots := (List.range 128).foldl (fun m l =>
      NMap.set 0 m (128 * i + l) (BitVec.ofNat 2048 (s.readLE (a + 256 * l) 256))) c.slots }
  | .a i => { c with accs := (List.range 16384).foldl (fun m l =>
      NMap.set 0 m (16384 * i + l) (BitVec.ofNat 32 (s.readLE (a + 4 * l) 4))) c.accs }

/-- The wait state of a word (R335). -/
def waitOf (w : Nat) : Wait := if bitOf w 8 then .align (w % 256) else if bitOf w 9 then .rdv else .none

/-- The fixed part of a cell block read (R335); a stream goes on with its IDLE remainder from gang cycle 0 (R49); reserved bits
of its registers read as zero (R12). -/
def State.loadFixed (s : State) (die part base : Nat) : Cell :=
  let stream (k : Kind) : Stream :=
    let b := base + 32 * k.idx
    let p := s.barrier die part (s.readCap b)
    let r := s.readLE (b + 0x10) 4
    { Stream.zero with pcc := p, pc := p.addr, fflags := fflagsOf (BitVec.ofNat 64 (s.readLE (b + 0x18) 8)),
                       ready := r, first := true, idling := decide (r ≠ 0), wait := waitOf (s.readLE (b + 0x14) 4), run := true }
  let w (k : Nat) : Nat := s.readLE (base + 0xA0 + 8 * k) 8
  { Cell.zero with
    streams := [Kind.seq, .vec, .mat, .ladle].map (fun k => (k.idx, stream k)),
    vsh := BitVec.ofNat 64 (s.readLE (base + 0x80) 8) &&& 0x0000FFFF0001FFFF,
    msh := BitVec.ofNat 64 (s.readLE (base + 0x88) 8) &&& 0xFFFFFFFF007FFFFF,
    mmode := BitVec.ofNat 4 (s.readLE (base + 0x90) 1),
    claims := (setBits (s.readLE (base + 0x92) 2) 0 16).foldl NSet.add [],
    chans := (List.range 8).map (fun k => (k, ⟨w k, w k, []⟩)),
    bars := (List.range 32).foldl (fun m b => NMap.set 0 m b (BitVec.ofNat 48 (s.readLE (base + 0xE0 + 8 * b) 8 % 2 ^ 47))) [] }

/-- The image at an address as the record that its header names lays it out; none when R337 refuses it. -/
def State.imageAt (s : State) (base : Nat) (l : Launch) : Option (List Byte × List (Nat × List (Item × Nat)) × Nat × Nat) :=
  match NMap.find l.live (s.readLE (base + 8) 1) with
  | none => none
  | some b =>
    let f (_ off : Nat) : Nat × Nat × Nat :=
      (s.readLE (base + off + 0x95) 1, s.readLE (base + off + 0x94) 1, s.readLE (base + off + 0x92) 2)
    let r := layImage b f
    if s.readLE base 4 = 0x49435A51 ∧ s.readLE (base + 4) 4 = r.2.2
        ∧ r.1.all (fun e => decide (s.readLE (base + e.1 + 0x94) 1 ≤ 64) && decide (s.readLE (base + e.1 + 0x95) 1 ≤ 64)) then
      some (b, r)
    else none

/-- The cells of the image that memory `s` holds. -/
def State.loadCells (s : State) (g part base : Nat) (b : List Byte) (blocks : List (Nat × List (Item × Nat))) (lineOff : Nat) :
    NMap Cell :=
  let cells := (blocks.zip (List.range 4)).map (fun (e, c) =>
    (c, e.2.foldl (fun cl i => s.loadItem (g / 32) part base cl i) (s.loadFixed (g / 32) part (base + e.1))))
  ((recLines b).zip (List.range (recLines b).length)).foldl (fun (m : NMap Cell) (n, i) =>
    let cl := NMap.get Cell.zero m (n / 0xC000)
    let off := n % 0xC000 * 64
    let d := base + lineOff + 64 * i
    let tag (j : Nat) : Nat := if (s.barrier (g / 32) part (s.readCap (d + 16 * j))).tag then 2 ^ j else 0
    NMap.put m (n / 0xC000) (cl.putLine off (BitVec.ofNat 512 (s.readLE d 64)) (BitVec.ofNat 4 (tag 0 + tag 1 + tag 2 + tag 3)))) cells

/-- The cells of a restored image take the cleared gang, with an alignment-wait count; the resumption opens a window (R49,
R335). -/
def State.resumeGang (s : State) (g : Nat) (cells : NMap Cell) (count : Nat) : State :=
  let waits := cells.any (fun e => e.2.streams.any (fun t => decide (t.2.wait ≠ .none)))
  let q := s.gang g
  let s := s.setGang g { q with cells := cells.map (fun (i, c) => (i, c.withMarks i q.marks)), gc := 0, base := 0,
                                live := !q.sfrozen && !s.unswept g, done := false, saving := false, stage := .none, openAt := none,
                                awaitFrom := if waits then some 0 else none, awaitBase := if waits then count + 1 else 0,
                                inImg := InImage.zero, marks := [] }
  if s.unswept g then s.startSweep g else s

/-- The state whose memory is what the restore of a gang has read. -/
def State.seenImage (s : State) (g : Nat) : State :=
  { s with mem := (s.gang g).inImg.bytes, tags := (s.gang g).inImg.tags }

/-- A restore begins: it will read the bytes that the image's header gives, a launch's area at most (R337). -/
def State.startRestore (s : State) (g : Nat) : State :=
  let q := s.gang g
  let most := match s.launchOf g with
    | some (_, l) => areaBytes l.live
    | none => 0
  let len := max 128 (min (s.readLE (q.image + 4) 4) most)
  s.setGang g { q with saving := true, stage := .restore (s.wall + (len + 255) / 256), inImg := ⟨s.wall, len, [], []⟩ }

/-- The restore reads the 256 bytes of the image that are due on the current wall cycle (R337). -/
def State.restoreChunk (s : State) (g : Nat) : State :=
  let q := s.gang g
  let m := q.inImg
  let off := 256 * (s.wall - m.start)
  let n := min 256 (m.len - off)
  match q.stage, q.pour with
  | .restore stop, some p =>
    if stop ≤ s.wall ∨ q.cancelAt.isSome ∨ q.openAt.isSome then s
    else if s.areaBad (q.image + off) n false then s.abandonImage g p.launch true
    else
      let tags := (granules (q.image + off) n).foldl (fun t g => if NSet.mem s.tags g then NSet.add t g else t) m.tags
      let m := { m with bytes := putBytes 0 m.bytes (q.image + off) (s.readBytes (q.image + off) n), tags := tags }
      (s.look (g / 32) (q.image + off) n).setGang g { q with inImg := m }
  | _, _ => s

/-- The restore ends (R49), or the pour is abandoned (R337). -/
def execContextRestoreComplete (g : Nat) (s : State) : Res :=
  let q := s.gang g
  match q.stage, s.launchOf g with
  | .restore stop, some (p, l) =>
    if s.wall < stop ∨ q.cancelAt.isSome ∨ q.openAt.isSome then .next s
    else
      let v := s.seenImage g
      match v.imageAt q.image l with
      | none => .next (s.abandonImage g p.launch false)
      | some (b, blocks, lineOff, _) =>
        .next ((s.resumeGang g (v.loadCells g p.part q.image b blocks lineOff) (v.readLE (q.image + 128 + 0x1E0) 8)).unparkStores g p)
  | _, _ => .next s

end Sys2Proof.Machine
end

