-- ==== Sys2Proof/Machine/Placing.lean ====
section
/-!
DEFINITION. Ranking and placement of pours, extent building, pre-emption, YIELD, planning intervals, slice reassignment
(R30, R46 to R48, R348 to R357, R428, R431, R434).
-/
namespace Sys2Proof.Machine

/-! ### Extents of a pour (R351) -/

/-- Physical run of pages: virtual and physical base, bytes, attribute word. -/
structure ExtRun where
  va : Nat
  pa : Nat
  len : Nat
  attr : Nat
  deriving DecidableEq, Repr

/-- Runs being built, last first, the pages found missing, and whether a run past the 64th has been needed: nothing is
written from then on (R351). -/
structure ExtBuild where
  runs : List ExtRun
  missing : List (Nat × Bool)
  full : Bool
  deriving DecidableEq, Repr

/-- A page joins the runs: merged into the last one when contiguous with equal attributes. -/
def ExtBuild.page (b : ExtBuild) (va pa len attr : Nat) : ExtBuild :=
  match b.runs with
  | r :: rs =>
    if r.va + r.len = va ∧ r.pa + r.len = pa ∧ r.attr = attr then { b with runs := { r with len := r.len + len } :: rs }
    else { b with runs := ⟨va, pa, len, attr⟩ :: b.runs }
  | [] => { b with runs := [⟨va, pa, len, attr⟩] }

/-- The address lies in a window that needs no extent: slot window, or the partition's class window (R351). -/
def State.noExtent (s : State) (part va : Nat) : Bool :=
  inSlotWindow va || (decide (s.ptClassVa part ≤ va) && decide (va < s.ptClassVa part + 2 ^ 18))

/-- Where a part of a range that starts at `va` ends at the latest: at `stop`, at a run already written, at a window that
needs no extent. -/
def State.partEnd (s : State) (part stop va : Nat) (b : ExtBuild) : Nat :=
  ((slotBase :: s.ptClassVa part :: b.runs.map (·.va)).filter (fun a => decide (va < a))).foldl min stop

/-- The end of the run or window that covers an address, which is then not written (R351). -/
def State.coveredTo (s : State) (part va : Nat) (b : ExtBuild) : Option Nat :=
  match b.runs.find? (fun r => decide (r.va ≤ va) && decide (va < r.va + r.len)) with
  | some r => some (r.va + r.len)
  | none =>
    if inSlotWindow va then some (2 ^ 57)
    else if s.noExtent part va then some (s.ptClassVa part + 2 ^ 18) else none

/-- The pages of [va, stop) translated in ascending order by the TLB of a die (R363), until 64 extents stand. -/
def State.buildRange (die part stop : Nat) : Nat → Nat → State → ExtBuild → State × ExtBuild
  | 0, _, s, b => (s, b)
  | k + 1, va, s, b =>
    if stop ≤ va ∨ b.full then (s, b)
    else match s.coveredTo part va b with
      | some a => State.buildRange die part stop k a s b
      | none =>
        let t := s.walkAt die part va
        let w := t.1
        if w.resident = false then
          State.buildRange die part stop k (va + 4096) t.2 { b with missing := b.missing ++ [(va, w.malformed)] }
        else
          let n := min (if w.size = 1 then 4096 else pageBytes w.size - va % pageBytes w.size) (s.partEnd part stop va b - va)
          let pa := leafPa w.leaf w.size va
          let c := b.page va pa n (leafAttr w.leaf pa).word
          if 64 < c.runs.length then (t.2, { b with full := true }) else State.buildRange die part stop k (va + n) t.2 c

/-- The range of a grant that needs extents (R351): none for handles and scratch-window grants. -/
def grantRange (c : Cap) : Nat × Nat :=
  if c.otype = 1 ∨ c.otype = 2 ∨ c.otype = 4 ∨ c.tag = false ∨ scratchBase ≤ c.base then (0, 0)
  else (c.base / 4096 * 4096, min (roundUp c.top 4096) (2 ^ 57))

/-- The extents of a pour's grants, in slot order, and the pages missing (R351). -/
def State.buildExtents (s : State) (die part : Nat) (grants : List Cap) : State × ExtBuild :=
  let r := grants.foldl (fun (r : State × ExtBuild) c =>
    let (lo, hi) := grantRange c
    State.buildRange die part hi ((hi - lo) / 4096 + 70) lo r.1 r.2) (s, ⟨[], [], false⟩)
  (r.1, { r.2 with runs := r.2.runs.reverse })

/-- The extent table of the runs. -/
def extTable (l : List ExtRun) : NMap ExtRec :=
  (l.zip (List.range l.length)).map (fun (r, i) => (i, extOf r.va r.pa r.len r.attr))

/-! ### Ranking (R348) -/

/-- A candidate: launch, pour index, whether suspended, and its rank. -/
structure Cand where
  launch : Nat
  idx : Nat
  image : Option Nat
  e : Nat
  te : Nat
  seq : Nat
  deriving DecidableEq, Repr

/-- CU_AGE, clamped (R340). -/
def State.cuAge (s : State) : Nat := min (max (s.csrGet 0x203).toNat (2 ^ 10)) (2 ^ 32)

/-- Effective class (R348). -/
def State.effClass (s : State) (prio te : Nat) : Nat := prio - (s.wall - te) / s.cuAge

/-- The order of R348. -/
def Cand.before (a b : Cand) : Bool :=
  decide (a.e < b.e) || (a.e == b.e && (decide (a.te < b.te) || (a.te == b.te &&
    (decide (a.seq < b.seq) || (a.seq == b.seq && decide (a.idx < b.idx))))))

/-- Pour number of a candidate. -/
def Cand.key (c : Cand) : Nat := c.launch * 2 ^ 24 + c.idx

/-- The life-cycle state and mode let pours of a partition run (R428, R431). -/
def State.poursRun (s : State) (p : Nat) : Bool :=
  !s.boot.minimal && (s.boot.lc == 2 || (s.boot.lc == 0 && p == 0))

/-- The candidates of a partition in rank order (R348). -/
def State.candidates (s : State) (p : Nat) : List Cand :=
  let all := s.cup.launches.flatMap (fun (i, l) =>
    match l.te with
    | none => []
    | some te =>
      if l.part ≠ p ∨ l.status.final ∨ l.ending.isSome ∨ (s.sess l.session).halted then []
      else
        let c (k : Nat) (im : Option Nat) : Cand := ⟨i, k, im, s.effClass l.prio te, te, l.seq⟩
        l.susp.map (fun q => c q.idx (some q.image)) ++ (if l.next < l.n then [c l.next none] else []))
  all.foldl (fun acc c => acc.filter (fun d => d.before c) ++ c :: acc.filter (fun d => !d.before c)) []

/-- A place for an image area of `n` bytes in a session's pool: the lowest multiple of 64 clear of its other areas. -/
def State.allocArea (s : State) (sess n : Nat) : Option Nat :=
  let pool := s.ssPool sess
  let used := s.cup.launches.flatMap (fun e => if e.2.session = sess then e.2.areas.map (·.2) else [])
  let free (a : Nat) : Bool := decide (a + n ≤ pool.top) && used.all (fun u => decide (a + n ≤ u.1) || decide (u.1 + u.2 ≤ a))
  if n = 0 then some 0
  else if pool.otype ≠ 0 ∨ pool.has .ld = false ∨ pool.has .st = false then none
  else (roundUp pool.base 64 :: used.map (fun u => roundUp (u.1 + u.2) 64)).foldl (fun (b : Option Nat) a =>
    if free a ∧ pool.base ≤ a ∧ b.all (fun x => decide (a < x)) then some a else b) none

/-- The image area that a launch's pours need. -/
def Launch.areaLen (l : Launch) : Nat := areaBytes l.live

/-- A pour not yet dispatched is held for balance or for its image area, or any pour for residency (R348 items 1 to 3). -/
def State.candHeld (s : State) (c : Cand) : Bool :=
  match NMap.find s.cup.launches c.launch with
  | none => true
  | some l =>
    NSet.mem s.cup.resident c.key || (c.image.isNone &&
      (decide (s.ssBalance l.session - (s.ssReserved l.session : Int) < (l.energy : Int))
        || (s.allocArea l.session l.areaLen).isNone))

/-- The interval budget is closed to a candidate (R348 item 4, R354, R434). -/
def State.budgetShut (s : State) (c : Cand) : Bool :=
  match NMap.find s.cup.launches c.launch with
  | none => true
  | some l => s.cup.placed && (s.cup.limited || decide ((s.csrGet 0x204).toNat < s.cup.sum + l.energy))

/-- Pours refused for the rest of the interval. -/
def State.refuse (s : State) (l : List Cand) : State :=
  { s with cup := { s.cup with refused := l.foldl (fun r c => NSet.add r c.key) s.cup.refused } }

/-- The first candidate that is not held; a refusal for the budget closes the interval to it and to all ranked after it
(R348, R354). -/
def State.pick (s : State) : List Cand → State × Option Cand
  | [] => (s, none)
  | c :: l =>
    if NSet.mem s.cup.refused c.key then (s.refuse l, none)
    else if s.candHeld c then s.pick l
    else if s.budgetShut c then (s.refuse (c :: l), none)
    else (s, some c)

/-- The gang can take a pour (R327, R338). -/
def State.gangFree (s : State) (p g : Nat) : Bool :=
  s.ptGang p g && (s.gang g).pour.isNone && !(s.gang g).sfrozen

/-- The lowest free gang of a partition (R355). -/
def State.freeGang (s : State) (p : Nat) : Option Nat := (List.range Config.gangs).find? (s.gangFree p)

/-! ### Placement (R30, R353, R355) -/

/-- Cycles of a gang's clearing (R30). -/
def clearCycles : Nat := 768

/-- A stream at the start of a pour (R30, R199). -/
def startStream (im : Cap) (entry idx n cell g : Nat) (c2 : Cap) : Stream :=
  { Stream.zero with
    x := [(10, BitVec.ofNat 64 idx), (11, BitVec.ofNat 64 n), (12, BitVec.ofNat 64 cell), (13, BitVec.ofNat 64 g)].filter
      (fun e => decide (e.2 ≠ 0)),
    c := (1, Cap.scratchC1) :: (if c2 = Cap.null then [] else [(2, c2)]),
    pcc := im, pc := im.addr + BitVec.ofNat 64 entry, ready := 0, first := true, run := true }

/-- A cell at the start of a pour (R30). -/
def startCell (im : Cap) (entries : List Nat) (grants : List Cap) (idx n cell g : Nat) : Cell :=
  let gs := grants.zip (List.range 16)
  { Cell.zero with
    spm := gs.foldl (fun m (v, i) => putBytes 0 m (16 * i) (leBytes v.toNat 16)) [],
    tags := gs.foldl (fun t (v, i) => if v.tag then NSet.add t i else t) [],
    streams := [Kind.seq, .vec, .mat, .ladle].map (fun k =>
      (k.idx, startStream im (entries.getD (4 * cell + k.idx) 0) idx n cell g (grants.headD Cap.null))) }

/-- A gang placed with a pour: cleared, its extents in force, opening when the clearing ends (R30, R351, R355). -/
def State.occupy (s : State) (g : Nat) (p : PourRef) (wdog image : Nat) (ext : NMap ExtRec) (cells : NMap Cell)
    (stage : SaveStage) : State :=
  s.setGang g { Gang.zero with pour := some p, extents := ext, image := image, cells := cells, stage := stage, wdogK := wdog,
                               frec := (s.gang g).frec, openAt := some (s.wall + clearCycles) }

/-- Node entries of a launch's node set, when every handle is local and current (R353 item 1). -/
def State.nodeSet (s : State) : List Cap → Option (List Nat)
  | [] => some []
  | c :: l => match if c.tag ∧ c.otype = 1 then s.nodeOf c else none, s.nodeSet l with
    | some e, some m => some (e :: m)
    | _, _ => none

/-- The interval's sum counts a placement; a request that waited for the pour is withdrawn (R350, R354). -/
def State.countPlaced (s : State) (key energy : Nat) : State :=
  let gone := s.cup.preempts.filter (fun e => e.2.2 == key)
  let s := gone.foldl (fun s e => s.setGang e.2.1 { s.gang e.2.1 with preempt := false }) s
  { s with cup := { s.cup with sum := s.cup.sum + energy, placed := true, waits := NMap.erase s.cup.waits key,
                               preempts := s.cup.preempts.filter (fun e => e.2.2 != key) } }

/-- A candidate is placed on a gang, held for residency, or its launch ends (R351, R353, R355). -/
def State.place (s : State) (p g : Nat) (c : Cand) : State :=
  match NMap.find s.cup.launches c.launch with
  | none => s
  | some l =>
    let grants := l.grants.map (s.barrier (g / 32) p)
    let (s, b) := s.buildExtents (g / 32) p grants
    if b.missing ≠ [] then
      let s := b.missing.foldl (fun s e => s.gather p e.1 false e.2) s
      { s with cup := { s.cup with resident := NSet.add s.cup.resident c.key } }
    else
      let ref : PourRef := ⟨c.launch, c.idx, p, l.session, l.image⟩
      match c.image with
      | some im =>
        let s := s.setLaunch c.launch { l with susp := l.susp.filter (fun q => q.idx ≠ c.idx) }
        let t := s.occupy g ref l.wdog im (extTable b.runs) [] (.restore 0)
        let marks := ((l.susp.find? (fun q => q.idx == c.idx)).map (·.marks)).getD []
        (t.setGang g { t.gang g with marks := marks }).countPlaced c.key l.energy
      | none =>
        match s.nodeSet l.nodes with
        | none => (s.faultLaunch c.launch).freezeEnding
        | some nodes =>
          let area := (s.allocArea l.session l.areaLen).getD 0
          let s := nodes.foldl (fun s e => s.grantLife e c.key) s
          let s := s.reserve l.session (l.energy : Int)
          let areas := if l.areaLen = 0 then l.areas else NMap.put l.areas c.idx (area, l.areaLen)
          let s := s.setLaunch c.launch { l with next := l.next + 1, status := .running, areas := areas }
          let s := match l.graph.bind (fun k => (NMap.find s.cup.graphs k).map (k, ·)) with
            | some (k, q) => if q.status = CwSt.pending then s.setGraph k { q with status := .running } else s
            | none => s
          let im := s.barrier (g / 32) p l.image
          let cells := (List.range 4).map (fun k => (k, startCell im l.entries grants c.idx l.n k g))
          (s.occupy g ref l.wdog area (extTable b.runs) cells .none).countPlaced c.key l.energy

/-- The first ranked unheld pour of a partition takes its lowest free gang (R348, R355). -/
def execPourPlacement (p : Nat) (s : State) : Res :=
  .next (if s.poursRun p = false ∨ s.ptValid p = false then s else match s.freeGang p with
    | none => s
    | some g =>
      let r := s.pick (s.candidates p)
      (match r.2 with
      | some c => r.1.place p g c
      | none => r.1))

/-! ### Pre-emption and YIELD (R46 to R48, R350) -/

/-- Pours of effective class 0 of a partition that wait unheld while no gang is free (R350). -/
def State.waiting (s : State) (p : Nat) : List Cand :=
  if s.poursRun p = false ∨ s.ptValid p = false ∨ (s.freeGang p).isSome then []
  else ((s.candidates p).takeWhile (fun c => !NSet.mem s.cup.refused c.key)).filter (fun c =>
    c.e == 0 && !s.candHeld c && !s.budgetShut c)

/-- Start cycles of the unheld waits brought up to date (R350). -/
def State.updateWaits (s : State) : State :=
  let l := (List.range 256).flatMap s.waiting
  { s with cup := { s.cup with waits := l.foldl (fun (m : NMap Nat) c =>
      NMap.put m c.key ((NMap.find s.cup.waits c.key).getD s.wall)) [] } }

/-- The victim of a partition: the running pour of the greatest LR_PRIO above 0, the highest gang (R350). -/
def State.victim (s : State) (p : Nat) : Option Nat :=
  ((List.range Config.gangs).foldl (fun (b : Option (Nat × Nat)) g =>
    match s.launchOf g with
    | some (_, l) =>
      if s.ptGang p g ∧ 0 < l.prio ∧ b.all (fun x => decide (x.2 ≤ l.prio)) then some (g, l.prio) else b
    | none => b) none).map (·.1)

/-- The pour whose wait has reached CU_PREEMPT in a partition without a standing request (R350). -/
def State.preemptDue (s : State) (p : Nat) : Option Nat :=
  if (NMap.find s.cup.preempts p).isSome then none
  else ((s.waiting p).find? (fun c => match NMap.find s.cup.waits c.key with
    | some t => decide (t + (s.csrGet 0x205).toNat ≤ s.wall)
    | none => decide ((s.csrGet 0x205).toNat = 0))).map Cand.key

/-- A request is raised on the victim of a partition (R350). -/
def execPreemptionRequest (p : Nat) (s : State) : Res :=
  .next (match s.preemptDue p, s.victim p with
    | some key, some g =>
      let s := s.setGang g { s.gang g with preempt := true }
      { s with cup := { s.cup with preempts := NMap.put s.cup.preempts p (g, key) } }
    | _, _ => s)

/-- A pre-emption request for a gang is pending on this wall cycle, or arrives on it (R46, R350). -/
def State.requested (s : State) (g : Nat) : Bool :=
  (s.gang g).preempt || (match (s.gang g).pour with
    | some p => (s.preemptDue p.part).isSome && s.victim p.part == some g
    | none => false)

/-- YIELD (R46, R47, R232). -/
def execYield (g : G4) (i : BitVec 8) (s : State) : Res :=
  let q := s.gang s.cur.unit
  let valid := match s.launchOf s.cur.unit with
    | some (_, l) => (NMap.find l.live i.toNat).isSome
    | none => false
  .next (if s.cur.stew ∨ s.cur.cell ≠ 0 ∨ s.cur.kind ≠ .seq then s.illegal (.yield g i) 2
    else if valid = false then s.illegal (.yield g i) 3
    else if s.requested s.cur.unit = false then s.advance
    else if s.quiescent s.cur = false then s.raise (timeFlt .yield 0 0)
    else
      let s := s.advance
      let s := { s with cup := { s.cup with preempts := s.cup.preempts.filter (fun e => e.2.1 ≠ s.cur.unit) } }
      s.setGang s.cur.unit { s.gang s.cur.unit with stage := .drain i.toNat q.gc, preempt := false })

/-! ### Planning intervals (R340, R354, R434) -/

/-- Wall cycles of a planning interval (R340). -/
def intervalCycles : Nat := 940000

/-- BU_PLIM, clamped (R433). -/
def State.powerLimit (s : State) : Nat := min (max (s.csrGet 0x606).toNat 200000) 2000000

/-- An interval ends: `charges` by session in µJ, the power in mW and the temperature are what the sensors give (R354,
R433); at 110 °C the package resets (R434). -/
def execPlanningInterval (charges : List (Nat × Nat)) (mw temp : Nat) (s : State) : Res :=
  if tripTemp ≤ temp % 256 then .next s.thermalReset
  else
  let s := charges.foldl (fun s e => s.credit e.1 (-(e.2 : Int))) s
  let ovr := decide (s.powerLimit < mw)
  let pwr := mw % 2 ^ 32 + temp % 256 * 2 ^ 32 + (if ovr then 2 ^ 40 else 0)
  .next { s with cup := { s.cup with sum := 0, placed := false, refused := [], limited := ovr, interval := s.wall / intervalCycles },
                 boot := { s.boot with pwr := BitVec.ofNat 64 pwr } }

/-! ### Slices (R340, R357) -/

/-- The request is refused: another is under way, the slice is none, or its die would keep fewer than four slices in the L2
role (R357, R377). -/
def State.sliceRefuses (s : State) (r : Nat) : Bool :=
  s.cup.sliceReq.isSome || decide (23 < bits r 4 0) ||
    (bitOf r 6 && decide (((l2Slices s.cup.slices (bits r 5 5)).filter (· ≠ bits r 4 0)).length < 4))

/-- A slice reassignment starts, or is refused (R357). -/
def execCuSlicereq (_n : Nat) (v : Word) (s : State) : Res :=
  let r := v.toNat
  .next (if s.sliceRefuses r then { s with cup := { s.cup with sliceRefused := true } }
    else { s with cup := { s.cup with sliceReq := some (bits r 14 0), sliceRefused := false } })

/-- A sealed block of a slice that is to join L2 begins its demotion once it is not leased (R177, R178, R357): room is made
in the next lower tier of its class; a block that cannot move down is deleted when it is idle, and waits otherwise. -/
def State.evictBlock (s : State) (e : Nat) : State :=
  let n := s.node e
  if n.st ≠ 2 ∨ n.leased s.tick ∨ n.demote.isSome then s
  else
    let idle := decide (n.code s.tick = 4)
    match s.lowerTier n.cls n.tier with
    | none => if idle ∧ s.readHeld e = false then s.deleteNode e else s
    | some t =>
      let r := s.room n.part t n.size
      if r.2 then r.1.setNode e { r.1.node e with demote := some t }
      else if idle ∧ s.readHeld e = false then r.1.deleteNode e else r.1

/-- Every block of a slice that can begin its demotion does. -/
def State.evictSlice (s : State) (i : Nat) : State :=
  s.cru.nodes.foldl (fun s e =>
    let n := s.node e.1
    if n.tier = 0 ∧ n.slice = i then s.evictBlock e.1 else s) s

/-- A block still occupies a slice. -/
def State.sliceHeld (s : State) (i : Nat) : Bool := s.cru.nodes.any (fun e => e.2.counts && e.2.tier == 0 && e.2.slice == i)

/-- PT_SLICES of every valid partition without a slice, but for one partition, valid or not, that gains it (R357; log entry
65). -/
def State.writeSlices (s : State) (i : Nat) (tgt : Option Nat) : State :=
  (List.range 256).foldl (fun s p =>
    let w := s.readLE (s.ptAddr p + 0x10) 8
    if tgt = some p then (if bitOf w i then s else s.writeLE (s.ptAddr p + 0x10) 8 (w + 2 ^ i))
    else if s.ptValid p ∧ bitOf w i then s.writeLE (s.ptAddr p + 0x10) 8 (w - 2 ^ i) else s) s

/-- The L2 of a die gives up what the slices left to it have no room for (R18, R357). -/
def State.trimL2 (s : State) (die : Nat) : State :=
  s.evictL2 die (2 ^ 60) ((s.l2Held die (2 ^ 60)).length - l2Lines s.rolesNext die)

/-- The reassignment goes on while blocks stand in a slice that joins L2, and ends when none is left; every line of a slice
that leaves L2 is at its home, but for requests that wait there (R357, R377). A slice that is SRAM tier of another partition keeps its blocks (log entry 65). -/
def execSliceReassignComplete (s : State) : Res :=
  .next (match s.cup.sliceReq with
    | none => s
    | some r =>
      let i := 24 * bits r 5 5 + bits r 4 0
      let moving := (NMap.keys s.coh.lines).filter (fun l => (List.range 8).any (fun c => s.homeMoves c (l * 64)))
      if bitOf r 6 = false ∧ s.sliceHeld i then s.evictSlice i
      else if moving.any (fun l => !(s.line l).settled || (s.line l).inHost) then
        moving.foldl (fun s l => s.openRecall 256 l) s
      else
        let s := (moving.foldl (fun s l => s.recallLine 256 l) s).trimL2 (bits r 5 5)
        let roles := s.rolesNext
        if l2Lines roles (bits r 5 5) < (s.l2Held (bits r 5 5) (2 ^ 60)).length then s
        else
          let s := s.writeSlices i (if bitOf r 6 then some (bits r 14 7) else none)
          { s with cup := { s.cup with slices := roles, sliceReq := none } })

end Sys2Proof.Machine
end

