-- ==== Sys2Proof/Machine/Rings.lean ====
section
/-!
DEFINITION. Host submission rings (R340 to R344, R413).
-/
namespace Sys2Proof.Machine

/-- An entry of a ring (R342). -/
abbrev Entry := List Byte

def heCtl (e : Entry) : Nat := fieldAt e 0 8
def heKind (e : Entry) : Nat := bits (heCtl e) 15 8
def heGraph (e : Entry) : Nat := bits (heCtl e) 31 16
def heTag (e : Entry) : Nat := bits (heCtl e) 63 32
def heArg (e : Entry) : Nat := fieldAt e 8 8

/-- A reserved field of an entry is nonzero (R345 code 10). -/
def heBad (e : Entry) : Bool := decide (bits (heCtl e) 7 1 ≠ 0) || decide (fieldAt e 0x10 48 ≠ 0)

/-- The ring is halted (CU_RINGRUN). -/
def State.ringHalted (s : State) (r : Nat) : Bool := (s.csrGet 0x208).toNat.testBit r

/-- Overrun() of R343. -/
def State.overrun (s : State) (r : Nat) : State :=
  ((s.csrPut 0x208 (s.csrGet 0x208 ||| BitVec.ofNat 64 (2 ^ r))).writeLE (s.rdAddr r + 0x58) 4 1).latch 0 6

/-- The evaluation of R343: the entry at the read index, none when nothing may be consumed; an overrun halts the ring. -/
def State.ringHead (s : State) (r : Nat) : State × Option Entry :=
  let q := s.ring r
  let n := s.rdN r
  let w := bits q.door 15 0
  let count : Int := if bitOf q.door 16 = q.rphase then (w : Int) - q.rd else (w : Int) + n - q.rd
  if 16 ≤ r ∨ s.ringHalted r then (s, none)
  else if n ≤ w ∨ count < 0 ∨ (n : Int) < count then (s.overrun r, none)
  else if count = 0 then (s, none)
  else
    let e := s.readBytes ((s.rdCap r 0).addr.toNat + 64 * q.rd) 64
    let s := s.look 0 ((s.rdCap r 0).addr.toNat + 64 * q.rd) 64
    if bitOf (heCtl e) 0 ≠ q.rphase then (s.overrun r, none) else (s, some e)

/-- An entry is consumed: read index, phase and sequence number advance (R342, R343). -/
def State.consume (s : State) (r : Nat) : State × Nat :=
  let q := s.ring r
  let last := decide (s.rdN r ≤ q.rd + 1)
  let rd := if last then 0 else q.rd + 1
  let ph := if last then !q.rphase else q.rphase
  let s := s.setRing r { q with rd := rd, rphase := ph, seq := (q.seq + 1) % 2 ^ 32 }
  (s.writeLE (s.rdAddr r + 0x54) 4 (rd + (if ph then 2 ^ 16 else 0)), q.seq)

/-- The entry at the read index is consumed when its kind passes and the completion ring has room; it is accepted, or
rejected with a code (R344, R345). -/
def State.ringTake (s : State) (r : Nat) (kind : Nat → Bool) (act : State → Nat → Nat → Entry → State × Nat) : State :=
  match s.ringHead r with
  | (s, none) => s
  | (s, some e) =>
    if kind (heKind e) = false ∨ s.ringRoom r = false then s
    else match s.rdSession r with
      | none => (let c := s.consume r
        c.1.complete r 2 8 c.2 (heTag e) 0)
      | some i =>
        let c := s.consume r
        let a := act c.1 i c.2 e
        a.1.complete r (if a.2 = 0 then 1 else 2) a.2 c.2 (heTag e) 0

/-- The unfinished graph of a session with an id (R342). -/
def State.sessGraph (s : State) (sess gid : Nat) : Option (Nat × Graph) :=
  s.cup.graphs.find? (fun e => e.2.session == sess && e.2.gid == gid && !e.2.status.final)

/-- LAUNCH submits the record at RD_WINDOW.ADDR + HE_ARG (R342). -/
def execRingLaunch (r : Nat) (s : State) : Res :=
  .next (s.ringTake r (· == 1) (fun s sess seq e =>
    let win := s.rdCap r 0x10
    let va := (win.addr.toNat + heArg e) % 2 ^ 64
    let graph := if heGraph e = 0xFFFF then some none else (s.sessGraph sess (heGraph e)).map (fun g => some g.1)
    let who := Submitter.ring r sess (graph.getD (some (2 ^ 64))) win seq (heTag e) (heBad e)
    match s.submit who va with
    | (s, .ok _) => (s, 0)
    | (s, .error c) => (s, c)))

/-- GOPEN opens a graph and writes its handle to its slot of RD_HANDLES (R342). -/
def execGopen (r : Nat) (s : State) : Res :=
  .next (s.ringTake r (· == 2) (fun s sess seq e =>
    let gid := heGraph e
    if s.ssOpen sess = false ∨ (s.sess sess).ending then (s, 8)
    else if heBad e then (s, 10)
    else if 255 < gid ∨ (s.sessGraph sess gid).isSome then (s, 11)
    else
      let id := s.cup.nextSeq
      let g : Graph := { session := sess, ring := some r, gid := gid, tag := heTag e, seqNo := seq, closed := false, slots := [],
                         count := 0, complete := 0, status := .pending, ending := false }
      let s := { s with cup := { s.cup with nextSeq := id + 1 } }.setGraph id g
      (s.storeCap ((s.rdCap r 0x40).addr.toNat / 16 * 16 + 16 * gid) (Cap.handle (graphAddr id)), 0)))

/-- GCLOSE fixes the graph's total (R342). -/
def execGclose (r : Nat) (s : State) : Res :=
  .next (s.ringTake r (· == 3) (fun s sess _ e =>
    match s.sessGraph sess (heGraph e) with
    | none => (s, if heBad e then 10 else 11)
    | some (i, g) =>
      if g.closed then (s, 8) else if heBad e then (s, 10)
      else ((s.setGraph i { g with closed := true }).graphDone i, 0)))

/-- CANCEL of a launch by sequence number, of a graph, or of the ring's session (R342, R52). -/
def execRingCancel (r : Nat) (s : State) : Res :=
  .next (s.ringTake r (· == 4) (fun s sess _ e =>
    if heBad e ∨ bits (heArg e) 1 0 = 3 then (s, 10)
    else match bits (heArg e) 1 0 with
      | 0 => (match s.cup.launches.reverse.find? (fun l => (l.2.ring.map (fun q => (q.1, q.2.1))) == some (r, bits (heArg e) 63 32)) with
        | some (i, _) => (s.cancel (.launch i), 0)
        | none => (s, 11))
      | 1 => (match s.cup.graphs.find? (fun g => g.2.session == sess && g.2.gid == heGraph e) with
        | some _ => (match s.sessGraph sess (heGraph e) with
          | some (i, _) => (s.cancel (.graph i), 0)
          | none => (s, 0))
        | none => (s, 11))
      | _ => (s.cancel (.session sess), 0)))

/-- A NOP entry is consumed; so is an entry of an unknown kind, rejected with KIND (R342, R345). -/
def execRingNop (r : Nat) (s : State) : Res :=
  .next (s.ringTake r (fun k => decide (k = 0) || decide (5 ≤ k)) (fun s _ _ e =>
    (s, if heKind e ≠ 5 ∨ heBad e then 10 else 0)))

/-- The host writes a submission doorbell and the cupola evaluates the ring (R341, R343). -/
def execSubmissionDoorbell (r : Nat) (v : Word) (s : State) : Res :=
  if 16 ≤ r then .next s
  else .next ((s.setRing r { s.ring r with door := bits v.toNat 16 0 }).ringHead r).1

/-- The host acknowledges completion entries (R344). -/
def execCompletionAckDoorbell (r : Nat) (v : Word) (s : State) : Res :=
  if 16 ≤ r then .next s
  else .next ((s.setRing r { s.ring r with ack := bits v.toNat 16 0 }).drainRing r ((s.ring r).pend.length + 1))

/-- CU_RINGRUN: a written 1 restarts a halted ring (R340, R343); completion entries that wait for room are still written
(R344). -/
def execCuRingrun (_n : Nat) (v : Word) (s : State) : Res :=
  .next ((List.range 16).foldl (fun s r =>
    if s.ringHalted r ∧ v.toNat.testBit r then
      let s := s.csrPut 0x208 (s.csrGet 0x208 &&& ~~~ (BitVec.ofNat 64 (2 ^ r)))
      let s := s.setRing r { Ring.zero with door := (s.ring r).door, pend := (s.ring r).pend }
      (s.writeLE (s.rdAddr r + 0x54) 4 (2 ^ 16)).writeLE (s.rdAddr r + 0x58) 4 0
    else s) s)

end Sys2Proof.Machine
end

