-- ==== Sys2Proof/Machine/Registers.lean ====
section
/-!
DEFINITION. Register writes with effects of coherence and HBM, and the gang window (R325, R326, R389, R406 to R408, R420).
-/
namespace Sys2Proof.Machine

/-! ### Coherence (R389) -/

/-- CO_DECLARE: every named agent is dead. -/
def execCoDeclare (_n : Nat) (v : Word) (s : State) : Res :=
  .next ((List.range 7).foldl (fun s k => if bitOf v.toNat k then s.die k else s) s)

/-- CO_FLUSH: the steward stalls until every line of the range is at home. -/
def execCoFlush (n : Nat) (v : Word) (s : State) : Res :=
  let frame := bits v.toNat 51 12
  let count := bits v.toNat 11 0 + 1
  let s := s.flushRange frame count
  .next (if s.rangeHome frame count then s else s.stewWait n (.flush frame count) v)

/-- What CO_HALTQ reads: the next halted session, or 2^64 − 1. -/
def State.haltqHead (s : State) : Word := match s.coh.haltQ with
  | [] => BitVec.allOnes 64
  | i :: _ => BitVec.ofNat 64 i

/-- CO_HALTQ: the read removes what it reads. -/
def execCoHaltq (_n : Nat) (s : State) : Res := .next { s with coh := { s.coh with haltQ := s.coh.haltQ.drop 1 } }

/-! ### HBM (R406 to R408, R420) -/

/-- HM_RATE: a data-rate switch starts; it is ignored while one is in progress (R407). -/
def execHmRate (_n : Nat) (v : Word) (s : State) : Res :=
  let h := s.hbm
  let ch := bits v.toNat 7 0
  let all := bitOf v.toNat 8
  let p := bits v.toNat 10 9
  let rate := if all then (if p = 0 then [] else (List.range 256).map (·, p)) else NMap.set 0 h.rate ch p
  .next (if h.rateBusy.isSome ∨ p = 3 then s
    else { s with hbm := { h with rate := rate, rateBusy := some (s.wall + wakeCycles), rateLast := ch,
                                  rateSet := if all then none else some ch } })

/-- The stall of a data-rate switch ends (R407). -/
def execHmRateSwitchEnd (s : State) : Res := .next { s with hbm := { s.hbm with rateBusy := none, rateSet := none } }

def execHmRetireWrite (_n : Nat) (v : Word) (s : State) : Res :=
  .next { s with hbm := { s.hbm with retired := NSet.add s.hbm.retired (bits v.toNat 51 12) } }

/-- What HM_RETIRE reads. -/
def State.retireHead (s : State) : Word := match s.hbm.retireQ with
  | [] => 0
  | f :: _ => BitVec.ofNat 64 (1 + f % 2 ^ 40 * 2 ^ 12)

/-- HM_RETIRE: the read removes the oldest frame that hardware retired. -/
def execHmRetireRead (_n : Nat) (s : State) : Res :=
  .next { s with hbm := { s.hbm with retireQ := s.hbm.retireQ.drop 1 } }

/-- HM_CHMASK: the frames with a line on the channel retire, under the masks of this cycle (R408). -/
def execHmChmask (_n : Nat) (v : Word) (s : State) : Res :=
  let h := s.hbm
  .next (if bitOf v.toNat 8 ∧ (NMap.find h.chMasked (bits v.toNat 7 0)).isNone then
      { s with hbm := { h with chMasked := NMap.put h.chMasked (bits v.toNat 7 0) h.masks } }
    else s)

def execHmEcnt (_n : Nat) (_v : Word) (s : State) : Res :=
  .next { s with hbm := { s.hbm with corrected := 0, uncorrected := 0 } }

def execHmPcclr (_n : Nat) (_v : Word) (s : State) : Res := .next { s with hbm := { s.hbm with pc := [] } }

/-! ### The gang window (R325, R326) -/

/-- Gang, and stream, that GW_SEL of a steward selects. -/
def State.selGang (s : State) (n : Nat) : Nat := bits (s.stew n).gwSel.toNat 5 0
def State.selAgent (s : State) (n : Nat) : Agent :=
  ⟨false, s.selGang n, bits (s.stew n).gwSel.toNat 7 6, Kind.ofIdx (bits (s.stew n).gwSel.toNat 9 8)⟩

/-- GW_FFLAGS and GW_PC are reachable: the selected gang is fault-held or steward-frozen (R326). -/
def State.windowOpen (s : State) (n : Nat) : Bool := (s.gang (s.selGang n)).held || (s.gang (s.selGang n)).sfrozen

/-- GW_PC written: the word at the new address takes the place of the next unissued instruction (R326). -/
def execGwPc (n : Nat) (v : Word) (s : State) : Res :=
  let a := s.selAgent n
  .next (if s.windowOpen n then s.setStreamOf a { s.streamOf a with pc := v, word := none } else s)

/-- GW_FFLAGS written; reserved bits are ignored (R73, R326). -/
def execGwFflags (n : Nat) (v : Word) (s : State) : Res :=
  let a := s.selAgent n
  .next (if s.windowOpen n then s.setStreamOf a { s.streamOf a with fflags := fflagsOf v } else s)

/-- GW_STATE of a gang. -/
def Gang.stateWord (q : Gang) : Nat :=
  let b (v : Bool) (k : Nat) : Nat := if v then 2 ^ k else 0
  let r := q.frec
  b q.pour.isSome 0 + b q.held 1 + b q.sfrozen 2 + b q.saving 3 + b (!q.conds.isEmpty) 4 + b r.copy.isSome 5
    + r.flt.cause % 256 * 2 ^ 8 + r.flt.sub % 256 * 2 ^ 16 + r.cell % 4 * 2 ^ 24 + r.stream % 4 * 2 ^ 26
    + q.pendMask.toNat * 2 ^ 32

end Sys2Proof.Machine
end

