-- ==== Sys2Proof/Machine/Thaw.lean ====
section
/-!
DEFINITION. Timeouts of a gang, notification of its faults, freezing and thawing, drain-add landings
(R38, R43, R284, R294, R323, R326 to R328).
-/
namespace Sys2Proof.Machine

/-! ### Timeouts (R38, R43) -/

/-- The recorded condition that a freeze timeout reports: the earliest wall cycle, then R36's order (R43). -/
def Gang.firstCond (q : Gang) : Option CondE :=
  let key (e : CondE) : Nat := 4 * e.ag.cell + e.ag.kind.idx
  q.conds.foldl (fun b e => match b with
    | none => some e
    | some x => if e.wall < x.wall ∨ (e.wall = x.wall ∧ key e < key x) then some e else some x) none

/-- A source other than the pending set holds the gang (R43). -/
def Gang.stopped (q : Gang) : Bool := q.held || q.sfrozen || q.sweeping || q.saving

/-- The watchdog has reached 2^k while the pending set holds the gang (R43). -/
def Gang.froze (q : Gang) : Bool :=
  !q.live && !q.stopped && !q.paused && !q.conds.isEmpty && decide (2 ^ q.wdogK ≤ q.wdog)

/-- The freeze-timeout fault of the freeze sub-cause (R43). -/
def execFreezeTimeout (g : Nat) (s : State) : Res :=
  let q := s.gang g
  .next (if q.froze = false then s
    else match q.firstCond with
      | none => s
      | some e =>
        let t := s.holdGang g e.ag e.pc none ⟨17, 0, 0, q.wdogK, 0⟩
        t.setGang g { t.gang g with frec := { (t.gang g).frec with iss := some e.iss } })

/-- The alignment wait has reached 2^k on the current gang cycle (R38). -/
def Gang.overdue (q : Gang) : Bool :=
  q.live && !q.held && q.awaitFrom.isSome && q.stage == .none && decide (2 ^ q.wdogK ≤ q.awaitCount q.gc)

/-- A vector or matrix operation. -/
def Eff.engine (e : Eff) : Bool := e.ag.kind == .vec || e.ag.kind == .mat

/-- The operations still outstanding under items 2 to 4 of R39: wall cycle of the issue, stream, instruction. -/
def State.outstanding (s : State) (g : Nat) : List (Nat × Agent × Word) :=
  ((s.gang g).pend.filter Eff.engine).map (fun e => (e.iss, e.ag, e.pc))
    ++ (s.copies.filter (fun e => !e.2.ag.stew && e.2.ag.unit == g && !e.2.complete)).map (fun e => (e.2.wall, e.2.ag, e.2.pc))
    ++ (s.drains.filter (fun e => e.2.ag.unit == g && !e.2.left.isEmpty)).map (fun e => (e.2.wall, e.2.ag, e.2.pc))

/-- The one of them issued first; on one gang cycle R36's order decides (R38). -/
def State.earliest (s : State) (g : Nat) : Option (Agent × Word) :=
  ((s.outstanding g).foldl (fun (b : Option (Nat × Agent × Word)) e =>
    if b.all (fun x => decide (e.1 < x.1) || (e.1 == x.1 && decide (e.2.1.rank < x.2.1.rank))) then some e else b) none).map
      (·.2)

/-- The freeze-timeout fault of the alignment sub-cause: the streams that are late, or, when all wait at RDV, the stream
of the earliest outstanding operation (R38). When all wait at RDV and only posted stores are outstanding, so none of items 2 to
4 of R39, R38 names no stream: the model reports the seq stream of cell 0 (log entry 86). -/
def State.lateFaults (s : State) (g : Nat) : List (Agent × Word × Flt) :=
  let q := s.gang g
  let f : Flt := ⟨17, 1, 0, q.wdogK, 0⟩
  let late := (gangAgents g).filter (fun a => decide ((s.streamOf a).wait = .none))
  let a0 : Agent := ⟨false, g, 0, .seq⟩
  if q.overdue = false then []
  else match late, s.earliest g with
    | [], some (a, pc) => [(a, pc, f)]
    | [], none => [(a0, (s.streamOf a0).pc, f)]
    | l, _ => l.map (fun a => (a, (s.streamOf a).pc, f))

/-- The alignment timeout of R38. -/
def execAlignmentTimeout (g : Nat) (s : State) : Res :=
  .next ((s.lateFaults g).foldl (fun s e => s.holdGang g e.1 e.2.1 none e.2.2) s)

/-! ### Notification (R323) -/

/-- Four wall cycles after a hold the gang's bit of ST_GFAULT is set in the steward that serves it, if any does. -/
def execGfaultNotify (g : Nat) (s : State) : Res :=
  let q := s.gang g
  .next (if q.held = false ∨ q.frec.told ∨ s.wall < q.frec.wall + 4 then s
    else
      let s := s.setGang g { q with frec := { q.frec with told := true } }
      match s.serving g with
      | none => s
      | some n => s.setStew n { s.stew n with gfault := (s.stew n).gfault ||| BitVec.ofNat 64 (2 ^ g) })

/-! ### FREEZE and THAW (R327, R328) -/

/-- The steward freeze of a gang is in force. -/
def State.doFreeze (s : State) (g : Nat) : State := s.setGang g { s.gang g with sfrozen := true }

/-- Pops decoded from a faulty one on are decoded again (R327). -/
def QStream.retry (t : QStream) : QStream := { t with buf := t.buf.takeWhile (fun e => e.2.2.isNone), ahead := [] }

/-- The hold and the freeze end: the pending mask and the bits of ST_GFAULT are cleared (R327). -/
def State.lift (s : State) (g : Nat) : State :=
  let cells := (s.gang g).cells.map (fun (i, c) => (i, { c with qs := c.qs.map (fun (k, t) => (k, t.retry)) }))
  let s := s.setGang g { s.gang g with held := false, sfrozen := false, pendMask := 0, cells := cells }
  { s with stews := s.stews.map (fun (n, t) => (n, { t with gfault := t.gfault &&& ~~~ (BitVec.ofNat 64 (2 ^ g)) })) }

/-- A faulted operation begins again with its translation; what that meets is found again where its result is awaited. -/
def State.retryOp (s : State) (o : Op) : Op :=
  match s.opPieces o with
  | .ok ps => { o with stage := 0, flt := none, pieces := ps }
  | .error f =>
    let st := match o.k with
      | .ringHold _ => 2
      | _ => 1
    { o with stage := st, flt := some f }

/-- The gang's operations that have faulted are to be carried out again (R327). -/
def State.retryOps (s : State) (g : Nat) : State :=
  { s with ops := s.ops.map (fun (i, o) =>
      (i, if o.ag.stew = false ∧ o.ag.unit = g ∧ o.stage = 3 then s.retryOp o else o)) }

/-- The gang's stopped copies go on with their undelivered ranges (R123, R294); one that finds no free entry of its queue
waits for it. -/
def State.retryCopies (s : State) (g : Nat) : State :=
  (NMap.keys s.copies).foldl (fun s id => match s.copy? id with
    | none => s
    | some c =>
      if c.ag.stew ∨ c.ag.unit ≠ g ∨ c.stopped = false then s
      else
        let c := { c with stopped := false, again := true, fails := none, queued := decide (64 ≤ s.queueUse c.ag) }
        let s := s.setCopy id (if c.remote then { c with stride := 0 } else c)
        if c.remote ∧ c.queued = false then s.startRemote id c else s) s

/-- A copy that never was: it leaves its channel. -/
def State.dropCopy (s : State) (id : Nat) : State :=
  match s.copy? id with
  | none => s
  | some c =>
    let cl := s.cellOf c.ag
    let ch := NMap.get Chan.zero cl.chans c.ch
    let s := s.setCellOf c.ag { cl with chans := NMap.put cl.chans c.ch { ch with copies := ch.copies.erase id } }
    { s with copies := NMap.erase s.copies id }

/-- What an issued instruction has in flight is given up (R327). -/
def State.dropIssue (s : State) (g : Nat) (e : Eff) : State :=
  let mine (d : Eff) : Bool := d.ag == e.ag && d.pc == e.pc && d.iss == e.iss
  let q := s.gang g
  let s := (q.pend.filter mine).foldl (fun s d => match d.act with
    | .cpyn _ id _ => s.dropCopy id
    | _ => s) s
  s.setGang g { s.gang g with pend := q.pend.filter (fun d => !mine d) }

/-- An outstanding operation is given up with the stores that it waits for; the entry of a LAUNCH in its queue is free
(R327, R346). The fetch that a KREPL has open keeps its transaction and its slot until the pour ends: R437 does not speak of it
(DESIGN CHOICE, log entry 86). -/
def State.dropOp (s : State) (id : Nat) : State :=
  match NMap.find s.ops id with
  | none => s
  | some o => { s.freeEntry o with ops := NMap.erase s.ops id, wq := s.wq.filter (fun e => e.2.op != some id) }

/-- The operation or copy that a condition waits for, or the fill of a pop, is given up: its instruction writes nothing
(R327). -/
def State.giveUp (s : State) (g : Nat) (e : CondE) : State :=
  let q := s.gang g
  let s := s.setGang g { q with conds := q.conds.erase e }
  match e.cond with
  | .op id => s.dropOp id
  | .queue _ id => s.dropCopy id
  | .pop _ _ =>
    let pops (a : Act) : Bool := match a with
      | .pop _ _ _ => true
      | .vpop _ _ => true
      | _ => false
    let q := s.gang g
    (match q.pend.find? (fun d => d.ag == e.ag && d.pc == e.pc && d.iss == e.iss && pops d.act) with
    | some d => s.dropIssue g d
    | none => s)
  | _ => s

/-- SKIP: the reported instruction issues as NOP, or what of it has faulted is given up; after a freeze timeout its
condition leaves the pending set and it writes nothing, whether or not the condition has been met meanwhile (R327). -/
def State.skip (s : State) (g : Nat) : State :=
  let q := s.gang g
  let r := q.frec
  let a : Agent := ⟨false, g, r.cell, Kind.ofIdx r.stream⟩
  if r.flt.cause = 17 ∧ r.flt.sub = 0 then
    (match q.conds.find? (fun e => e.ag == a && e.pc == r.pc && some e.iss == r.iss) with
    | some e => s.giveUp g e
    | none => s.setGang g { q with pend := q.pend.filter (fun e => !(e.ag == a && e.pc == r.pc && some e.iss == r.iss)) })
  else if r.flt.cause = 17 then s.setGang g { q with awaitFrom := q.awaitFrom.map (fun _ => q.gc), awaitBase := 0 }
  else
    let mine (o : Op) : Bool := decide (o.ag = a) && o.pc == r.pc && o.stage == 3
    let bad := q.pend.find? (fun e => e.ag == a && e.pc == r.pc && r.iss == some e.iss)
    if s.ops.any (fun e => mine e.2) then { s with ops := s.ops.filter (fun e => !mine e.2) }
    else if r.flt.cause = 4 ∧ r.flt.sub = 5 ∧ q.arrivals.any (fun l => l.ag == a && l.pc == r.pc && decide (l.due ≤ q.gc)) then
      s.setGang g { q with arrivals := q.arrivals.filter (fun l => !(l.ag == a && l.pc == r.pc && decide (l.due ≤ q.gc))) }
    else match bad with
      | some e => s.dropIssue g e
      | none => if r.iss.isNone ∧ (s.streamOf a).pc = r.pc then s.setGang g { q with skip := some a } else s

/-- The gaps of a copy's landed intervals at a receiver, from byte `v`. -/
def gapsFrom (l : List (Nat × Nat × Nat)) (r len : Nat) : Nat → Nat → List (Nat × Nat)
  | 0, _ => []
  | k + 1, v =>
    let a := prefixFrom l r (l.length + 1) v
    if len ≤ a then []
    else
      let b := (l.filter (fun e => e.1 == r && decide (a < e.2.1))).foldl (fun m e => min m e.2.1) len
      (a, b - a) :: gapsFrom l r len k b

/-- FILLED: the undelivered range of a copy counts as performed (R327). -/
def State.filled (s : State) (id : Nat) : State :=
  match s.copy? id with
  | none => s
  | some c =>
    let s := s.setCopy id { c with stopped := false }
    let l := c.receivers.flatMap (fun r => (gapsFrom c.got r c.len (c.got.length + 1) 0).map (fun e => (r, e.1, e.2)))
    l.foldl (fun s e => match s.copy? id with
      | none => s
      | some c => s.landed id c e.1 e.2.1 e.2.2) s

/-- THAW on its perform cycle (R327, R328): modes 0 RESUME, 1 SKIP, 2 FILLED, 3 ABANDON. -/
def State.doThaw (s : State) (g mode : Nat) : State :=
  let q := s.gang g
  if q.held = false ∧ q.sfrozen = false then s
  else if q.held ∧ s.serving g = none then s
  else if mode = 3 then
    let s := s.lift g
    match q.pour with
    | none => s
    | some p =>
      let s := s.setGang g { s.gang g with cancelAt := some s.wall }
      (s.faultLaunch p.launch).freezeEnding
  else
    let copy := if q.held then q.frec.copy else none
    let s := if mode = 1 ∧ q.held ∧ copy.isNone then s.skip g else s
    let s := match copy with
      | some id => if mode = 2 then s.filled id else s
      | none => s
    ((s.lift g).retryOps g).retryCopies g

/-! ### Drain-adds (R283, R284) -/

/-- Target agent and accumulator of drain-add elements, and the barrier. -/
def Drain.to (d : Drain) : Agent := ⟨false, bits d.target.toNat 7 2, bits d.target.toNat 1 0, .mat⟩
def Drain.acc (d : Drain) : Nat := bits d.target.toNat 10 8
def Drain.bar (d : Drain) : Nat := bits d.target.toNat 15 11

/-- The row of the element has left the sender: rows are read on g + 3 + m, and an issued operation of a stopped pour goes to
its end (R52). -/
def State.rowRead (s : State) (d : Drain) (e : Nat) : Bool :=
  let q := s.gang d.ag.unit
  let t := d.t0 + 3 + e / max 1 d.cols
  decide (t < q.gc) || (t == q.gc && q.done) || q.cancelAt.any (fun w => decide (w ≤ s.wall))

/-- The target takes elements of the sender's launch: it runs an unsuspended pour of it whose save has not begun (R284,
R287). -/
def State.takesDrain (s : State) (d : Drain) : Bool :=
  let q := s.gang d.to.unit
  (q.pour.map (·.launch)) == some d.launch && q.openAt.isNone && !q.saving

/-- An operation on the accumulator is pending, or reads it (R284, R286). -/
def State.accBusy (s : State) (d : Drain) : Bool :=
  let q := s.gang d.to.unit
  let c := s.cellOf d.to
  let acts := q.pend.any (fun e => e.ag.cell == d.to.cell && (match e.act with
    | .mma t => t.acc == d.acc
    | .mzero a => a == d.acc
    | _ => false))
  acts || spanAt c.accPend d.acc q.gc || spanAt c.accRead d.acc q.gc

/-- A drain-add with the elements that it still has; it ends with the last one, once its refusal has been told. -/
def State.drainLeft (s : State) (id : Nat) (d : Drain) : State :=
  { s with drains := if d.left = [] ∧ d.refused = false then NMap.erase s.drains id else NMap.put s.drains id d }

/-- Element `e` of a drain-add lands: the add, the flags, then the barrier (R284); a target that does not take it refuses
it, that element alone, and the refusal travels back to the sender; a double-bit error in the word that it is added to is a
memory error of the MDRAINP (log entry 40). -/
def execDrainAddLanding (id e : Nat) (s : State) : Res :=
  match NMap.find s.drains id with
  | none => .next s
  | some d =>
    if d.left.contains e = false ∨ s.rowRead d e = false then .next s
    else if s.takesDrain d = false then
      .next { s with drains := NMap.put s.drains id { d with refused := true, left := d.left.erase e } }
    else if s.accBusy d then .next s
    else if ((s.cellOf d.to).wordFault [eccAcc (accKey d.acc (e / d.cols) (e % d.cols))]).isSome then
      .next ((s.drainLeft id { d with left := d.left.erase e }).raiseLate d.ag d.pc (memFlt 0))
    else
      let c := s.cellOf d.to
      let k := accKey d.acc (e / d.cols) (e % d.cols)
      let r := accSum (c.mmode.toNat.testBit 3) false [laneNum (NMap.get 0 c.accs k), laneNum (d.vals.getD e 0)]
      let t := c.stream .mat
      let c := ({ c with accs := NMap.set 0 c.accs k r.1 }.setStream .mat (t.orFlags r.2))
      let s := s.setCellOf d.to (c.setBar d.bar (barAdd (c.bar d.bar) (-4)))
      .next (s.drainLeft id { d with left := d.left.erase e })

/-- The sender's pour is being stopped (R52). -/
def State.stopping (s : State) (g : Nat) : Bool := (s.gang g).cancelAt.isSome

/-- The refusal reaches the sender: a remote-error fault against the MDRAINP (R284); a pour that is being stopped takes
none. The refused elements are gone, the others go on. -/
def execDrainAddRefusal (id : Nat) (s : State) : Res :=
  match NMap.find s.drains id with
  | none => .next s
  | some d =>
    .next (if d.refused = false then s
      else
        let s := s.drainLeft id { d with refused := false }
        if s.stopping d.ag.unit then s else s.raiseLate d.ag d.pc ⟨19, 3, 0, s.boot.dev, 0⟩)

end Sys2Proof.Machine
end

