-- ==== Sys2Proof/Machine/Boot.lean ====
section
/-!
DEFINITION. Reset, life cycle and power; ports; trusted device interfaces and keys (R409 to R416, R428 to R434).
-/
namespace Sys2Proof.Machine

/-! ### BU_ID and BU_START (R433) -/

/-- BU_ID. -/
def Boot.idWord (b : Boot) : Nat :=
  0x0940 + b.rev % 2 ^ 8 * 2 ^ 16 + b.dev % 2 ^ 18 * 2 ^ 24 + b.lc % 4 * 2 ^ 42 + (if b.grade then 2 ^ 44 else 0)

/-- BU_START. -/
def Boot.startWord (b : Boot) : Nat :=
  b.fails % 4 + (if b.minimal then 4 else 0) + b.cause % 2 ^ 8 * 8 + (if b.refused then 2 ^ 11 else 0)
    + (if b.clearf then 2 ^ 12 else 0)

/-! ### Resets (R430, R431) -/

/-- A requested reset: ignored in steps 1 to 6; in step 7 the start ends as failed with cause 9 WARM (R430). -/
def State.requestReset (s : State) : State :=
  if s.boot.powered = false ∨ s.boot.step < 7 then s
  else if s.boot.step = 7 then s.restart (s.boot.failed 9)
  else s.restart s.boot

/-- The reset that follows a written life-cycle fuse; during step 7 it ends the start as failed (R428, R430). -/
def State.lifeReset (s : State) : State := s.restart (if s.boot.step = 7 then s.boot.failed 9 else s.boot)

def execPowerOn (s : State) : Res := .next (if s.boot.powered then s else s.restart s.boot)

def execPcieConventionalReset (s : State) : Res := .next s.requestReset

def execBuReset (_n : Nat) (v : Word) (s : State) : Res := .next (if v = 0x0D1E then s.requestReset else s)

/-- The supply is lost: nothing runs until power-on (R428). -/
def execPowerLoss (s : State) : Res := .next (s.setBoot { s.boot with powered := false })

/-- Wall cycles in which a steward must write BU_READY (R430 step 7). -/
def readyCycles : Nat := 2 ^ 30

/-- The start fails with cause 8 NOREADY; nothing runs until a reset (log entry 19). -/
def execReadyTimeout (s : State) : Res :=
  .next (if s.boot.step = 7 ∧ s.boot.stepAt + readyCycles ≤ s.wall then s.setBoot { s.boot.failed 8 with step := 9 } else s)

/-- The thermal reset, which does not count as a failed start (R434). -/
def execThermalTrip (s : State) : Res := .next (if s.boot.powered then s.thermalReset else s)

/-- BU_READY: step 7 ends; outside minimal mode F := 0 (R431). -/
def execBuReady (_n : Nat) (_v : Word) (s : State) : Res :=
  let b := s.boot
  .next (s.setBoot { b with step := if b.step = 7 then 8 else b.step, fails := if b.minimal then b.fails else 0 })

/-- The step of a start that a cause of failure belongs to (R430); in minimal mode die 1 and the bridge are not tested (R431). -/
def Boot.failStep (b : Boot) : Nat :=
  match b.trouble with
  | 1 => 1
  | 2 => 2
  | 3 => if b.minimal then 0 else 2
  | 4 => if b.minimal then 0 else 2
  | 5 => 3
  | 6 => 4
  | 7 => 5
  | _ => 0

/-- The next step of R430 up to the start of the stewards; the steps take no wall cycles of the new count. A step that fails
ends the start, with its cause (R430, R431). -/
def State.bootStep (s : State) : State :=
  let b := s.boot
  if b.failStep = b.step then s.setBoot { b.failed b.trouble with step := 9 }
  else s.setBoot { b with step := b.step + 1, stepAt := s.wall }

/-! ### Life cycle (R428, R429) -/

/-- A life-cycle request: the fuses first, then the reset; refused when illegal or while a change is in progress. -/
def State.lifeRequest (s : State) (ok : Bool) (tgt : Nat) : State :=
  if ok = false ∨ s.boot.lcChange then s.setBoot { s.boot with refused := true }
  else s.setBoot { s.boot with lc := tgt, lcChange := true }

/-- A steward requests RUN → PROVISION, or any state → RETIRED. -/
def execBuLcreq (_n : Nat) (v : Word) (s : State) : Res :=
  let t := bits v.toNat 1 0
  .next (s.lifeRequest (decide (t = 1 ∧ s.boot.lc = 2) || decide (t = 3)) t)

/-- The host requests MANUFACTURE → PROVISION or PROVISION → RUN. -/
def execLcHostRequest (t : Nat) (s : State) : Res :=
  .next (s.lifeRequest (decide (t = 1 ∧ s.boot.lc = 0) || decide (t = 2 ∧ s.boot.lc = 1)) t)

/-! ### Ports (R390, R412, R414 to R416) -/

/-- Event code of a Fliran port that changes its width code (R416). -/
def portCode (old new : Nat) : Option Nat :=
  if old = new then none else if new = 0 then some 2 else if old = 0 then some 1 else if new < old then some 3 else some 1

/-- A Fliran port (0 to 15) takes a width code and an error flag, or a CXL port (0 to 3) a width in lanes, 0 for
down: below four lanes it is down, and its agent dead (R412). In minimal mode and in RETIRED all but port 0 stay down
(R428, R431). -/
def execPortStateChange (cxl : Bool) (p st : Nat) (err : Bool) (s : State) : Res :=
  .next (if s.boot.portsShut ∧ (cxl = false ∨ p ≠ 0) then s
    else if cxl then
      let st := if st < 4 then 0 else st
      (if 4 ≤ p ∨ NMap.get 16 s.net.cports p = st then s
      else
        let s := (s.setNet (fun t => { t with cports := NMap.set 16 t.cports p st })).portEvent 5 p 0
        if st = 0 then (if p = 0 then (s.die 2).die 6 else s.die (2 + p)) else s)
    else if 16 ≤ p ∨ 4 ≤ st then s
    else
      let old := NMap.get 0 s.net.fports p
      let s := s.setNet (fun t => { t with fports := NMap.set 0 t.fports p st,
                                           perr := if err then NSet.add t.perr p else NSet.del t.perr p })
      match portCode old st with
      | none => s
      | some c => s.portEvent c p 0)

/-- A PFC pause or resume frame of priority 3 arrives on a Fliran port (R414). -/
def execPfcPause (p : Nat) (on : Bool) (s : State) : Res :=
  .next (if 16 ≤ p then s
    else s.setNet (fun t => { t with paused := if on then NSet.add t.paused p else NSet.del t.paused p }))

/-! ### Trusted device interfaces (R409 to R411) -/

/-- The dirty lines in the L2s that are encrypted under one of some key pairs are invalidated without write-back (R411); the host
keeps a shared copy. -/
def State.dropKeyed (s : State) (codes : List Nat) : State :=
  (s.hbm.keyed.filter (fun e => codes.contains e.2)).foldl (fun s e =>
    let v := s.line e.1
    if (v.of 0).dirty = false ∧ (v.of 1).dirty = false then s
    else
      let host := if v.home.sharers.contains 2 then HomeSt.hs [2] else HomeSt.hi
      (s.revert e.1).setLine e.1 { v with st := v.st.filter (fun q => !q.2.valid || q.1 == 2),
                                          home := if v.txn.isSome then v.home else host }) s

/-- A TDI takes a state; on leaving RUN every key bound to it is destroyed, its dirty lines first (R411). -/
def State.tdiTo (s : State) (i st : Nat) : State :=
  let leave := decide (NMap.get 0 s.net.tdi i = 2) && decide (st ≠ 2)
  let mine := (s.net.keys.filter (fun k => k.2.tdi == i && !k.2.destroyed)).map (fun k => s.keyCode k.1)
  (if leave then s.dropKeyed mine else s).setNet (fun t => { t with
    tdi := NMap.set 0 t.tdi i st,
    keys := if leave then t.keys.map (fun (k, e) => (k, if e.tdi = i then { e with destroyed := true } else e)) else t.keys })

def execLockInterface (i : Nat) (s : State) : Res :=
  .next (if 256 ≤ i ∨ NMap.get 0 s.net.tdi i ≠ 0 then s else s.tdiTo i 1)

def execStartInterface (i : Nat) (s : State) : Res :=
  .next (if 256 ≤ i ∨ NMap.get 0 s.net.tdi i ≠ 1 then s else s.tdiTo i 2)

def execStopInterface (i : Nat) (s : State) : Res := .next (if 256 ≤ i then s else s.tdiTo i 0)

def execTdiError (i : Nat) (s : State) : Res := .next (if 256 ≤ i then s else s.tdiTo i 3)

/-- The interface report: the partition's CXL.mem ranges and the doorbells of its rings (R410, R413). -/
def execGetDeviceInterfaceReport (i : Nat) (s : State) : Res :=
  let bells := (List.range 16).filter (fun r => s.rdN r ≠ 0 ∧ (s.rdSession r).map s.ssPart = some i)
  .next (if 256 ≤ i then s
    else { s with fresh := s.fresh + 1 }.emit (.report i (Config.freeWord s.fresh) (bells.map (0x1000 + 8 * ·))))

/-- A key pair is installed and bound to a TDI; in life-cycle state RUN only (R409, R428). Lines written under an earlier
pair of the KEY stay unreadable until rewritten (R411). -/
def execKeyPairInstall (key i : Nat) (s : State) : Res :=
  .next (if key = 0 ∨ 4096 ≤ key ∨ 256 ≤ i ∨ s.boot.lc ≠ 2 then s
    else s.setNet (fun t =>
      let n := match NMap.find t.keys key with
        | some k => k.gen + 1
        | none => 0
      { t with keys := NMap.put t.keys key ⟨i, false, n⟩ }))

end Sys2Proof.Machine
end

