-- ==== Sys2Proof/Machine/CapInstr.lean ====
section
/-!
DEFINITION. The capability instructions that make no memory access (R100 to R106).
-/
namespace Sys2Proof.Machine

/-! ### Queries (R101, R103) -/

/-- x[d] := v on g + 1. -/
def State.query (s : State) (d : XR) (v : Word) : Res := .next (s.schedX 1 d v).advance

def execCgeta (_ : G4) (d : XR) (c : BitVec 4) (s : State) : Res := s.query d (s.rc c).addr
def execCgetb (_ : G4) (d : XR) (c : BitVec 4) (s : State) : Res := s.query d (BitVec.ofNat 64 (s.rc c).base)
def execCgetl (_ : G4) (d : XR) (c : BitVec 4) (s : State) : Res :=
  s.query d (BitVec.ofNat 64 (min ((s.rc c).top - (s.rc c).base) (2 ^ 64 - 1)))
def execCgetp (_ : G4) (d : XR) (c : BitVec 4) (s : State) : Res := s.query d ((s.rc c).perms.setWidth 64)
def execCgett (_ : G4) (d : XR) (c : BitVec 4) (s : State) : Res := s.query d (b2w (s.rc c).tag)
def execCgeto (_ : G4) (d : XR) (c : BitVec 4) (s : State) : Res := s.query d ((s.rc c).otype.setWidth 64)
def execCtsub (_ : G4) (d : XR) (a b : BitVec 4) (s : State) : Res := s.query d (b2w ((s.rc b).subsetOf (s.rc a)))

/-! ### Derivations (R102 to R104) -/

/-- c[d] := v on g + 1, or the capability fault at address `a`. -/
def State.derive (s : State) (d : BitVec 4) (a : Word) (v : Except CapSub Cap) : Res :=
  match v with
  | .error e => .next (s.capFault e a.toNat)
  | .ok c => .next (s.schedC 1 d c).advance

def execCseta (_ : G4) (d c : BitVec 4) (x : XR) (s : State) : Res :=
  s.derive d (s.rc c).addr (capSetAddr (s.rc c) (s.rx x))
def execCincaReg (_ : G4) (d c : BitVec 4) (x : XR) (s : State) : Res :=
  s.derive d (s.rc c).addr (capSetAddr (s.rc c) ((s.rc c).addr + s.rx x))
def execCincaImm (_ : G4) (d c : BitVec 4) (i : BitVec 12) (s : State) : Res :=
  s.derive d (s.rc c).addr (capSetAddr (s.rc c) ((s.rc c).addr + imm i))
def execCsetb (_ : G4) (d c : BitVec 4) (x : XR) (s : State) : Res :=
  s.derive d (s.rc c).addr (capSetBounds encExact (s.rc c) (s.rx x))
def execCsetbr (_ : G4) (d c : BitVec 4) (x : XR) (s : State) : Res :=
  s.derive d (s.rc c).addr (capSetBounds encInward (s.rc c) (s.rx x))
def execCandp (_ : G4) (d c : BitVec 4) (x : XR) (s : State) : Res :=
  s.derive d (s.rc c).addr (capAndPerms (s.rc c) ((s.rx x).setWidth 16))
def execCmov (_ : G4) (d c : BitVec 4) (s : State) : Res := s.derive d 0 (.ok (s.rc c))

/-- GW_FADDR of a failed CLOCK or CUNLOCK: the ADDR of the operand when the operand fails, else that of the authority. A derivation
makes no access, and R324 names no address for its fault: the model records this ADDR, for the other derivations that of the source
(DESIGN CHOICE, log entry 86). -/
def lockAddr (c a : Cap) (lock : Bool) : Word := if c.tag = false ∨ (lock ∧ c.otype ≠ 0) then c.addr else a.addr

def execClock (_ : G4) (d c a : BitVec 4) (s : State) : Res :=
  s.derive d (lockAddr (s.rc c) (s.rc a) true) (capLock (s.rc c) (s.rc a))
def execCunlock (_ : G4) (d c a : BitVec 4) (s : State) : Res :=
  s.derive d (lockAddr (s.rc c) (s.rc a) false) (capUnlock (s.rc c) (s.rc a))

/-! ### Capability jumps (R106) -/

/-- The code capability that a jump installs, or the sub-cause of its fault (R106, steps 1 and 2). -/
def jumpCap (t : Cap) : Except CapSub Cap :=
  if t.otype ≠ 0 ∧ t.otype ≠ 3 then .error .otype
  else match capCheck { t with otype := 0 } t.addr.toNat 4 1 [.ex] with
    | some e => .error e
    | none => .ok { t with otype := 0 }

/-- The return capability: the old pcc at the word after the jump, locked to object type 3 (R106, step 4). -/
def State.linkCap (s : State) : Cap := { s.me.pcc.moveTo (s.me.pc + 4) with otype := 3 }

/-- pcc := t; the next instruction is fetched at t.ADDR after the fixed cost of 2 (R106). -/
def State.jumpTo (s : State) (t : Cap) : State := (s.setMe { s.me with pcc := t }).branch 2 t.addr

def execCjal (_ : G4) (d c : BitVec 4) (s : State) : Res :=
  match jumpCap (s.rc c) with
  | .error e => .next (s.capFault e (s.rc c).addr.toNat)
  | .ok t => .next ((s.schedC 1 d s.linkCap).jumpTo t)

def execCjr (_ : G4) (c : BitVec 4) (s : State) : Res :=
  match jumpCap (s.rc c) with
  | .error e => .next (s.capFault e (s.rc c).addr.toNat)
  | .ok t => .next (s.jumpTo t)

end Sys2Proof.Machine
end

