-- ==== Sys2Proof/Machine/System.lean ====
section
/-!
DEFINITION. The system opcodes of a steward: CSRR, CSRW, TRAP, ERET, WFE, FREEZE, THAW, XINS, SWEEP, MASKW, and the
events of a steward (R315 to R322, R327 to R332, R413).
-/
namespace Sys2Proof.Machine

/-! ### Events of a steward (R320, R321) -/

/-- ST_EVENT: the latched bits and the two level events (R320). -/
def State.eventWord (s : State) (n : Nat) : Nat :=
  let t := s.stew n
  t.event.toNat ||| (if t.gfault = 0 then 0 else 1) ||| (if t.timecmp.toNat ≤ s.wall then 2 ^ 4 else 0)

/-- Events pending and enabled. -/
def State.enabled (s : State) (n : Nat) : Nat := s.eventWord n &&& bits (s.stew n).evmask.toNat 7 0

/-- A stream stopped in WFE goes on once an enabled event is pending: on the wall cycle of its issue WFE had no effect,
later the next instruction issues on the following wall cycle (R322). -/
def State.wakeWfe (s : State) (n : Nat) : State :=
  let a := stewSeq n
  let q := s.streamOf a
  if q.wfe = false ∨ s.enabled n = 0 then s
  else if q.ready = s.wall + 1 then s.setStreamOf a { q with wfe := false }
  else s.setStreamOf a { q with wfe := false, ready := s.wall + 1, first := true }

/-- The evaluation at the end of a wall cycle: WFE ends, then the lowest enabled event enters the handler (R321). -/
def State.eventTurn (s : State) (n : Nat) : State :=
  let t := s.stew n
  if t.halt ∨ s.enabled n = 0 then s
  else
    let s := s.wakeWfe n
    let t := s.stew n
    if t.ie ∧ t.inh = false then
      let e := ((List.range 8).find? (fun e => bitOf (s.enabled n) e)).getD 0
      s.enterHandler n (t.cell.stream .seq).pc (128 + e)
    else s

def execHandlerEntry (n : Nat) (s : State) : Res := .next (if 4 ≤ n then s else s.eventTurn n)

/-- TIMER is pending from the wall cycle on which ST_CYCLE reaches ST_TIMECMP (R320): what it ends and enters. -/
def execStewardTimer (n : Nat) (s : State) : Res :=
  .next (if 4 ≤ n ∨ s.wall < (s.stew n).timecmp.toNat then s else s.eventTurn n)

/-- A host write to the doorbell of a steward (R413). -/
def execStewardDoorbell (n : Nat) (s : State) : Res := .next (if 4 ≤ n then s else s.latch n 1)

/-! ### System registers (R318, R319) -/

/-- The assigned CSR numbers (R318, R319, R325, R340, R364, R389, R406, R410, R412, R415, R417, R418, R420, R433). -/
def csrAssigned (c : Nat) : Bool :=
  [(0x000, 0x00A), (0x100, 0x108), (0x200, 0x209), (0x300, 0x30C), (0x400, 0x406), (0x500, 0x508), (0x510, 0x511),
   (0x520, 0x527), (0x530, 0x533), (0x540, 0x541), (0x551, 0x553), (0x600, 0x606)].any
    (fun e => decide (e.1 ≤ c) && decide (c ≤ e.2))

/-- A number in which given bits stand at their places. -/
def flagsAt (l : List (Bool × Nat)) : Nat := l.foldl (fun n e => if e.1 then n + 2 ^ e.2 else n) 0

/-- FL_PORTST (R415). -/
def State.portWord (s : State) : Nat :=
  (List.range 16).foldl (fun n p =>
    n + (NMap.get 0 s.net.fports p % 4 + flagsAt [(NSet.mem s.net.paused p, 2), (NSet.mem s.net.perr p, 3)]) * 2 ^ (4 * p)) 0

/-- What a CSRR by steward `n` reads at number `c`; write-only registers read zero (R11). -/
def State.csrRead (s : State) (n c : Nat) : Word :=
  let t := s.stew n
  let g := s.gang (s.selGang n)
  let q := s.streamOf (s.selAgent n)
  let w (v : Nat) : Word := BitVec.ofNat 64 v
  match c with
  | 0x000 => w (flagsAt [(t.ie, 0), (t.inh, 1), (t.halt, 2)])
  | 0x001 => t.cause
  | 0x002 => t.epc
  | 0x003 => t.tvec
  | 0x004 => w (s.eventWord n)
  | 0x005 => t.evmask
  | 0x006 => w (n % 4 + s.boot.dev % 2 ^ 18 * 4)
  | 0x007 => w s.wall
  | 0x008 => t.timecmp
  | 0x009 => t.gfault
  | 0x00A => w (s.tick % 2 ^ 32)
  | 0x100 => t.gwSel
  | 0x101 => w g.stateWord
  | 0x102 => w g.frec.flt.faddr
  | 0x103 => w g.frec.flt.finfo
  | 0x104 => w g.frec.flt.faux
  | 0x105 => q.fflags
  | 0x106 => q.pc
  | 0x107 => w (g.frec.fcycle % 2 ^ 32)
  | 0x108 => w g.image
  | 0x206 => 0
  | 0x207 => w (flagsAt [(s.cup.sliceReq.isSome, 0), (s.cup.sliceRefused, 1)])
  | 0x303 => 0
  | 0x306 => w (s.tr.wpos % 2 ^ 16 + flagsAt [(s.tr.wphase, 16)] + s.tr.dropped % 2 ^ 16 * 2 ^ 32)
  | 0x308 => 0
  | 0x309 => 0
  | 0x30A => 0
  | 0x30B => t.migst
  | 0x401 => w (bits (s.csrGet 0x401).toNat 52 48 * 2 ^ 48 + (NMap.keys s.coh.waking).foldl (fun m i => m + 2 ^ (i % 48)) 0)
  | 0x402 => s.coh.dead.setWidth 64
  | 0x403 => 0
  | 0x405 => 0
  | 0x406 => s.haltqHead
  | 0x500 => 0
  | 0x501 => w (flagsAt [(s.hbm.rateBusy.isSome, 0)] + NMap.get 0 s.hbm.rate s.hbm.rateLast * 2)
  | 0x502 => s.retireHead
  | 0x503 => 0
  | 0x504 => w (flagsAt [(s.boot.grade, 0)])
  | 0x505 => w (s.hbm.corrected % 2 ^ 32 + s.hbm.uncorrected % 2 ^ 16 * 2 ^ 32)
  | 0x507 => w (NMap.get 0 s.hbm.pc (s.csrGet 0x506).toNat)
  | 0x508 => 0
  | 0x511 =>
    let i := (s.csrGet 0x510).toNat
    w (NMap.get 0 s.net.tdi i % 4 + (s.net.keys.filter (fun k => k.2.tdi == i && !k.2.destroyed)).length * 4)
  | 0x525 => w (s.net.evw + flagsAt [(!s.net.evphase, 16)])
  | 0x527 => w s.portWord
  | 0x532 => 0
  | 0x533 => w (flagsAt [(s.net.revoking.isSome, 0)])
  | 0x600 => w s.boot.idWord
  | 0x601 => w s.boot.startWord
  | 0x602 => 0
  | 0x603 => 0
  | 0x604 => 0
  | 0x605 => s.boot.pwr
  | c => s.csrGet c

/-- Reads that change what they read: TR_FBPOS, CO_HALTQ, HM_RETIRE. -/
def State.csrReadEffect (s : State) (n c : Nat) : State :=
  match c with
  | 0x306 => { s with tr := { s.tr with dropped := 0 } }
  | 0x406 => resState s (execCoHaltq n s)
  | 0x502 => resState s (execHmRetireRead n s)
  | _ => s

/-- The writable bits of the registers without a meaning of their own; other bits are reserved and keep zero.
Bit 15 of CX_WIN1 to CX_WIN3, which R412 neither names nor reserves, is kept (log entry 31). -/
def csrMask : Nat → Nat
  | 0x200 => 2 ^ 64 - 64
  | 0x201 => 2 ^ 64 - 64
  | 0x300 => 2 ^ 64 - 4096
  | 0x304 => 2 ^ 64 - 64
  | 0x307 => 2 ^ 16 - 1
  | 0x30C => 2 ^ 64 - 16
  | 0x401 => 31 * 2 ^ 48
  | 0x506 => 2 ^ 9 - 1
  | 0x510 => 2 ^ 8 - 1
  | 0x520 => 2 ^ 64 - 2 ^ 16
  | 0x523 => 2 ^ 40 - 1
  | 0x524 => 2 ^ 52 - 64 + 15
  | 0x526 => 2 ^ 16 - 1
  | 0x551 => 2 ^ 31 - 1
  | 0x552 => 2 ^ 31 - 1
  | 0x553 => 2 ^ 31 - 1
  | _ => 2 ^ 64 - 1

/-- A value clamped into a range. -/
def clampTo (lo hi : Nat) (v : Word) : Word := BitVec.ofNat 64 (min (max v.toNat lo) hi)

/-- The effect of a CSRW by steward `n` on its perform cycle; a write to a read-only register is ignored (R11). -/
def State.csrWrite (s : State) (n c : Nat) (v : Word) : State :=
  let t := s.stew n
  let put : State := s.csrPut c (v &&& BitVec.ofNat 64 (csrMask c))
  match c with
  | 0x000 => s.setStew n { t with ie := bitOf v.toNat 0 }
  | 0x001 => s
  | 0x002 => s.setStew n { t with epc := v }
  | 0x003 => s.setStew n { t with tvec := v }
  | 0x004 => s.setStew n { t with event := t.event &&& ~~~ (v.setWidth 8) }
  | 0x005 => s.setStew n { t with evmask := v }
  | 0x006 => s
  | 0x007 => s
  | 0x008 => s.setStew n { t with timecmp := v }
  | 0x009 => s
  | 0x00A => s
  | 0x100 => s.setStew n { t with gwSel := v &&& 0x3FF }
  | 0x105 => resState s (execGwFflags n v s)
  | 0x106 => resState s (execGwPc n v s)
  | 0x101 => s
  | 0x102 => s
  | 0x103 => s
  | 0x104 => s
  | 0x107 => s
  | 0x108 => s
  | 0x203 => s.csrPut c (clampTo (2 ^ 10) (2 ^ 32) v)
  | 0x206 => resState s (execCuSlicereq n v s)
  | 0x207 => s
  | 0x208 => resState s (execCuRingrun n v s)
  | 0x301 => resState s (execTrProbe n v s)
  | 0x302 => s.csrPut c ((s.csrGet c &&& ~~~ 0xFF) ||| (v &&& 0xFF))
  | 0x303 => resState s (execTrInval n v s)
  | 0x306 => s
  | 0x308 => resState s (execTrFpost n v s)
  | 0x309 => resState s (execTrRetry n v s)
  | 0x30A => resState s (execTrMigrate n v s)
  | 0x30B => s
  | 0x400 => s.csrPut c (clampTo 1024 (2 ^ 20) v)
  | 0x402 => s
  | 0x403 => resState s (execCoDeclare n v s)
  | 0x405 => resState s (execCoFlush n v s)
  | 0x406 => s
  | 0x500 => resState s (execHmRate n v s)
  | 0x501 => s
  | 0x502 => resState s (execHmRetireWrite n v s)
  | 0x503 => resState s (execHmChmask n v s)
  | 0x504 => s
  | 0x505 => resState s (execHmEcnt n v s)
  | 0x507 => s
  | 0x508 => resState s (execHmPcclr n v s)
  | 0x511 => s
  | 0x522 => s.csrPut c (clampTo 1 255 v)
  | 0x525 => s
  | 0x527 => s
  | 0x531 => s.csrPut c (clampTo 0 65536 v)
  | 0x532 => resState s (execXrRevoke n v s)
  | 0x533 => s
  | 0x600 => s
  | 0x601 => s.setBoot { s.boot with refused := s.boot.refused && !bitOf v.toNat 11,
                                     clearf := bitOf v.toNat 12 }
  | 0x602 => resState s (execBuLcreq n v s)
  | 0x603 => resState s (execBuReady n v s)
  | 0x604 => resState s (execBuReset n v s)
  | 0x605 => s
  | 0x606 => s.csrPut c (clampTo 200000 2000000 v)
  | _ => put

/-- The checks of CSRR and CSRW (R318, R326): an assigned number; GW_FFLAGS and GW_PC need a held or frozen gang. -/
def State.csrCheck (s : State) (i : Instr) (c : Nat) (k : State → State) : State :=
  s.steward i (fun s =>
    if csrAssigned c = false then s.illegal i 1
    else if (c = 0x105 ∨ c = 0x106) ∧ s.windowOpen s.cur.unit = false then s.illegal i 2
    else k s)

/-- CSRR: the register as it stands, on g + 2 (R318). -/
def execCsrr (g : G4) (d : XR) (c : BitVec 12) (s : State) : Res :=
  .next (s.csrCheck (.csrr g d c) c.toNat (fun s =>
    let v := s.csrRead s.cur.unit c.toNat
    ((s.csrReadEffect s.cur.unit c.toNat).schedX 2 d v).advance))

/-- CSRW: the write performs on g + 1 (R318); a rate point of 3 is an illegal shape (R406). -/
def execCsrw (g : G4) (x : XR) (c : BitVec 12) (s : State) : Res :=
  .next (s.csrCheck (.csrw g x c) c.toNat (fun s =>
    let v := s.rx x
    if c.toNat = 0x500 ∧ bits v.toNat 10 9 = 3 then s.illShape (.csrw g x c) v.toNat
    else (s.sched 1 (.csr c.toNat v)).advance))

/-! ### The handler (R322) -/

/-- TRAP: a synchronous entry with SC_CODE 127, the code in SC_INFO and the return address of the next word. -/
def execTrap (g : G4) (c : BitVec 16) (s : State) : Res :=
  .next (s.steward (.trap g c) (fun s => s.stewFault s.cur.unit (s.me.pc + 4) (127 + c.toNat * 2 ^ 32)))

/-- What ERET changes on g + 1. -/
def Steward.eret (t : Steward) : Steward := { t with inh := false, ie := true }

/-- ERET: the next instruction is fetched at ST_EPC. -/
def execEret (g : G4) (s : State) : Res :=
  .next (s.steward (.eret g) (fun s => (s.sched 1 .eret).branch 0 (s.stew s.cur.unit).epc))

/-- WFE: the stream stops until an enabled event is pending (R322); the end of the wall cycle decides. -/
def execWfe (g : G4) (s : State) : Res :=
  .next (s.steward (.wfe g) (fun s =>
    let s := s.advance
    s.setMe { s.me with wfe := true }))

/-! ### FREEZE, THAW, XINS (R327, R329) -/

def execFreeze (g : G4) (x : XR) (s : State) : Res :=
  .next (s.steward (.freeze g x) (fun s => (s.sched 1 (.freeze ((s.rx x).toNat % 64))).advance))

def execThaw (g : G4) (x : XR) (m : BitVec 2) (s : State) : Res :=
  .next (s.steward (.thaw g x m) (fun s => (s.sched 1 (.thaw ((s.rx x).toNat % 64) m.toNat)).advance))

/-- The field in which an extent record breaks the format of R352. -/
def extBad (r : ExtRec) : Option Nat :=
  let a := exAttr r
  if exVa r % 4096 ≠ 0 ∨ 2 ^ 57 ≤ exVa r then some (exVa r)
  else if exPa r % 4096 ≠ 0 ∨ 2 ^ 52 ≤ exPa r then some (exPa r)
  else if bits a 63 25 ≠ 0 then some a
  else if bitOf a 0 ∧ (exLen r = 0 ∨ exLen r % 4096 ≠ 0) then some (exLen r)
  else if bitOf a 0 ∧ bits a 3 2 = 3 then some a else none

/-- XINS: an extent record enters a slot of a gang's table on g + 5; the steward stalls until then (R329). -/
def execXins (g : G4) (x : XR) (c : BitVec 4) (s : State) : Res :=
  let v := (s.rx x).toNat
  let cap := s.rc c
  let a := cap.addr.toNat
  .next (s.steward (.xins g x c) (fun s =>
    match capCheck cap a 32 1 [.ld, .sy] with
    | some e => s.capFault e a
    | none =>
      let rec' : Except Flt ExtRec := match spaceOf s.cur.scratch a 32 with
        | .scratch => match s.cell.spmFault (spmLines (a - scratchBase) 32) with
          | some f => .error f
          | none => .ok (BitVec.ofNat 256 (ofLE (s.spm s.cur (a - scratchBase) 32)))
        | .global => match s.piecesOf s.cur a 32 false with
          | .error f => .error f
          | .ok ps => match (s.checkLines ps false).2 with
            | some f => .error f
            | none => .ok (BitVec.ofNat 256 (ofLE (s.seen s.cur ps)))
        | .other => .error (capFlt .bounds a)
      match rec' with
      | .error f => s.raise f
      | .ok r => match extBad r with
        | some w => s.illShape (.xins g x c) w
        | none =>
          let s := s.sched 5 (.extent (v % 64) (bits v 13 8) r)
          s.setMe (s.me.issued s.now 4 (s.me.pc + 4) false)))

/-! ### SWEEP and MASKW (R331, R332) -/

/-- Result word of SWEEP: status in [7:0], value in [63:8]. -/
def sweepWord (st v : Nat) : Word := BitVec.ofNat 64 (st % 256 + v * 256)

def execSweepOpen (g : G4) (d : XR) (s : State) : Res :=
  .next (s.steward (.sweepOpen g d) (fun s =>
    if s.tr.epoch.phase ≠ 0 then (s.schedX 2 d (sweepWord 1 s.tr.epoch.num)).advance
    else match s.hullList with
      | .error v => s.illShape (.sweepOpen g d) v
      | .ok (part, base, l) =>
        let s := s.openEpoch part base l
        (s.schedX 2 d (sweepWord 0 s.tr.epoch.num)).advance))

def execSweepStat (g : G4) (d : XR) (s : State) : Res :=
  .next (s.steward (.sweepStat g d) (fun s => (s.schedX 2 d (sweepWord s.tr.epoch.phase s.tr.epoch.num)).advance))

/-- SWEEP FORCE; R331 states no value for its result word: a free value (log entry 3). -/
def execSweepForce (g : G4) (d : XR) (s : State) : Res :=
  .next (s.steward (.sweepForce g d) (fun s =>
    let f := s.freeNat
    if s.tr.epoch.phase = 0 then (f.1.schedX 2 d (sweepWord 1 f.2)).advance
    else (f.1.forceSweeps.schedX 2 d (sweepWord 0 f.2)).advance))

/-- MASKW: the mask changes once every access accepted under the class has completed (R332). -/
def execMaskw (g : G4) (x : XR) (k : BitVec 3) (i : BitVec 4) (s : State) : Res :=
  let v := s.rx x
  let ins := Instr.maskw g x k i
  .next (s.steward ins (fun s =>
    if 9 ≤ i.toNat then s.illegal ins 1
    else if bits v.toNat 7 0 ≠ 0 ∨ bits v.toNat 63 52 ≠ 0 then s.illShape ins v.toNat
    else if s.classBusy k.toNat then
      s.startOp { s.newOp (.maskw k.toNat i.toNat) ins with val := v }
    else (s.setMask k.toNat i.toNat v).advance))

end Sys2Proof.Machine
end

