-- ==== Sys2Proof/Machine/Dispatch.lean ====
section
/-!
DEFINITION. One arm per operation and event of the opcode table: the meaning of each.
-/
namespace Sys2Proof.Machine

def exec (i : Instr) (s : State) : Host.Outcome State Fault Refusal :=
  match i with
  | .nop g => Sys2Proof.Machine.execNop g s
  | .hint g k n => Sys2Proof.Machine.execHint g k n s
  | .idleImm g n => Sys2Proof.Machine.execIdleImm g n s
  | .idleReg g s1 => Sys2Proof.Machine.execIdleReg g s1 s
  | .align g t => Sys2Proof.Machine.execAlign g t s
  | .rdv g => Sys2Proof.Machine.execRdv g s
  | .ffrd g d => Sys2Proof.Machine.execFfrd g d s
  | .ffwr g s1 => Sys2Proof.Machine.execFfwr g s1 s
  | .mbget g d n => Sys2Proof.Machine.execMbget g d n s
  | .mbput g s1 n => Sys2Proof.Machine.execMbput g s1 n s
  | .add g d a b => Sys2Proof.Machine.execAdd g d a b s
  | .sub g d a b => Sys2Proof.Machine.execSub g d a b s
  | .and g d a b => Sys2Proof.Machine.execAnd g d a b s
  | .or g d a b => Sys2Proof.Machine.execOr g d a b s
  | .xor g d a b => Sys2Proof.Machine.execXor g d a b s
  | .sll g d a b => Sys2Proof.Machine.execSll g d a b s
  | .srl g d a b => Sys2Proof.Machine.execSrl g d a b s
  | .sra g d a b => Sys2Proof.Machine.execSra g d a b s
  | .slt g d a b => Sys2Proof.Machine.execSlt g d a b s
  | .sltu g d a b => Sys2Proof.Machine.execSltu g d a b s
  | .min g d a b => Sys2Proof.Machine.execMin g d a b s
  | .max g d a b => Sys2Proof.Machine.execMax g d a b s
  | .minu g d a b => Sys2Proof.Machine.execMinu g d a b s
  | .maxu g d a b => Sys2Proof.Machine.execMaxu g d a b s
  | .mul g d a b => Sys2Proof.Machine.execMul g d a b s
  | .mulh g d a b => Sys2Proof.Machine.execMulh g d a b s
  | .mulhu g d a b => Sys2Proof.Machine.execMulhu g d a b s
  | .mulhsu g d a b => Sys2Proof.Machine.execMulhsu g d a b s
  | .addi g d a imm => Sys2Proof.Machine.execAddi g d a imm s
  | .andi g d a imm => Sys2Proof.Machine.execAndi g d a imm s
  | .ori g d a imm => Sys2Proof.Machine.execOri g d a imm s
  | .xori g d a imm => Sys2Proof.Machine.execXori g d a imm s
  | .slli g d a h => Sys2Proof.Machine.execSlli g d a h s
  | .srli g d a h => Sys2Proof.Machine.execSrli g d a h s
  | .srai g d a h => Sys2Proof.Machine.execSrai g d a h s
  | .slti g d a imm => Sys2Proof.Machine.execSlti g d a imm s
  | .sltiu g d a imm => Sys2Proof.Machine.execSltiu g d a imm s
  | .lil g d imm => Sys2Proof.Machine.execLil g d imm s
  | .lih g d imm => Sys2Proof.Machine.execLih g d imm s
  | .beq g a b o => Sys2Proof.Machine.execBeq g a b o s
  | .bne g a b o => Sys2Proof.Machine.execBne g a b o s
  | .blt g a b o => Sys2Proof.Machine.execBlt g a b o s
  | .bge g a b o => Sys2Proof.Machine.execBge g a b o s
  | .bltu g a b o => Sys2Proof.Machine.execBltu g a b o s
  | .bgeu g a b o => Sys2Proof.Machine.execBgeu g a b o s
  | .jal g d o => Sys2Proof.Machine.execJal g d o s
  | .jr g d a imm => Sys2Proof.Machine.execJr g d a imm s
  | .loop g x o => Sys2Proof.Machine.execLoop g x o s
  | .ldb g d c o s1 f => Sys2Proof.Machine.execLdb g d c o s1 f s
  | .ldbu g d c o s1 f => Sys2Proof.Machine.execLdbu g d c o s1 f s
  | .ldh g d c o s1 f => Sys2Proof.Machine.execLdh g d c o s1 f s
  | .ldhu g d c o s1 f => Sys2Proof.Machine.execLdhu g d c o s1 f s
  | .ldw g d c o s1 f => Sys2Proof.Machine.execLdw g d c o s1 f s
  | .ldwu g d c o s1 f => Sys2Proof.Machine.execLdwu g d c o s1 f s
  | .ldd g d c o s1 f => Sys2Proof.Machine.execLdd g d c o s1 f s
  | .stb g s1 c o e f => Sys2Proof.Machine.execStb g s1 c o e f s
  | .sth g s1 c o e f => Sys2Proof.Machine.execSth g s1 c o e f s
  | .stw g s1 c o e f => Sys2Proof.Machine.execStw g s1 c o e f s
  | .std g s1 c o e f => Sys2Proof.Machine.execStd g s1 c o e f s
  | .aadd g d c w o s1 => Sys2Proof.Machine.execAadd g d c w o s1 s
  | .amin g d c w o s1 => Sys2Proof.Machine.execAmin g d c w o s1 s
  | .amax g d c w o s1 => Sys2Proof.Machine.execAmax g d c w o s1 s
  | .aand g d c w o s1 => Sys2Proof.Machine.execAand g d c w o s1 s
  | .aor g d c w o s1 => Sys2Proof.Machine.execAor g d c w o s1 s
  | .axor g d c w o s1 => Sys2Proof.Machine.execAxor g d c w o s1 s
  | .aswp g d c w o s1 => Sys2Proof.Machine.execAswp g d c w o s1 s
  | .acas g d c s1 w o e => Sys2Proof.Machine.execAcas g d c s1 w o e s
  | .fence g k s1 => Sys2Proof.Machine.execFence g k s1 s
  | .tfence g m => Sys2Proof.Machine.execTfence g m s
  | .binit g b n => Sys2Proof.Machine.execBinit g b n s
  | .barrive g b => Sys2Proof.Machine.execBarrive g b s
  | .bexpect g s1 b => Sys2Proof.Machine.execBexpect g s1 b s
  | .holdWptr g s1 k => Sys2Proof.Machine.execHoldWptr g s1 k s
  | .holdBarrier g n => Sys2Proof.Machine.execHoldBarrier g n s
  | .holdRing g c e => Sys2Proof.Machine.execHoldRing g c e s
  | .send g s1 c d n => Sys2Proof.Machine.execSend g s1 c d n s
  | .recv g s1 c d n => Sys2Proof.Machine.execRecv g s1 c d n s
  | .racq g d c => Sys2Proof.Machine.execRacq g d c s
  | .rpub g s1 c => Sys2Proof.Machine.execRpub g s1 c s
  | .rtake g d c => Sys2Proof.Machine.execRtake g d c s
  | .rfree g s1 c => Sys2Proof.Machine.execRfree g s1 c s
  | .cgeta g d c => Sys2Proof.Machine.execCgeta g d c s
  | .cgetb g d c => Sys2Proof.Machine.execCgetb g d c s
  | .cgetl g d c => Sys2Proof.Machine.execCgetl g d c s
  | .cgetp g d c => Sys2Proof.Machine.execCgetp g d c s
  | .cgett g d c => Sys2Proof.Machine.execCgett g d c s
  | .cgeto g d c => Sys2Proof.Machine.execCgeto g d c s
  | .cseta g d c s1 => Sys2Proof.Machine.execCseta g d c s1 s
  | .cincaReg g d c s1 => Sys2Proof.Machine.execCincaReg g d c s1 s
  | .cincaImm g d c imm => Sys2Proof.Machine.execCincaImm g d c imm s
  | .csetb g d c s1 => Sys2Proof.Machine.execCsetb g d c s1 s
  | .csetbr g d c s1 => Sys2Proof.Machine.execCsetbr g d c s1 s
  | .candp g d c s1 => Sys2Proof.Machine.execCandp g d c s1 s
  | .clock g d c a => Sys2Proof.Machine.execClock g d c a s
  | .cunlock g d c a => Sys2Proof.Machine.execCunlock g d c a s
  | .ctsub g d a b => Sys2Proof.Machine.execCtsub g d a b s
  | .cmov g d c => Sys2Proof.Machine.execCmov g d c s
  | .cldc g d b o => Sys2Proof.Machine.execCldc g d b o s
  | .cstc g s1 b o => Sys2Proof.Machine.execCstc g s1 b o s
  | .cjal g d c => Sys2Proof.Machine.execCjal g d c s
  | .cjr g c => Sys2Proof.Machine.execCjr g c s
  | .yield g l => Sys2Proof.Machine.execYield g l s
  | .kmatch g d a b e => Sys2Proof.Machine.execKmatch g d a b e s
  | .kopen g d a b e => Sys2Proof.Machine.execKopen g d a b e s
  | .kseal g d a b e f => Sys2Proof.Machine.execKseal g d a b e f s
  | .klease g d a => Sys2Proof.Machine.execKlease g d a s
  | .krenew g d a => Sys2Proof.Machine.execKrenew g d a s
  | .kdrop g d a => Sys2Proof.Machine.execKdrop g d a s
  | .kpin g d a b => Sys2Proof.Machine.execKpin g d a b s
  | .kunpin g d a b => Sys2Proof.Machine.execKunpin g d a b s
  | .krepl g d a b e => Sys2Proof.Machine.execKrepl g d a b e s
  | .kstat g d a e => Sys2Proof.Machine.execKstat g d a e s
  | .kclass g d a => Sys2Proof.Machine.execKclass g d a s
  | .kname g d a => Sys2Proof.Machine.execKname g d a s
  | .kdepth g d a => Sys2Proof.Machine.execKdepth g d a s
  | .kanc g d a e => Sys2Proof.Machine.execKanc g d a e s
  | .launch g d a e => Sys2Proof.Machine.execLaunch g d a e s
  | .gcancel g d a => Sys2Proof.Machine.execGcancel g d a s
  | .cwread g d a => Sys2Proof.Machine.execCwread g d a s
  | .eread g d a => Sys2Proof.Machine.execEread g d a s
  | .csrr g d c => Sys2Proof.Machine.execCsrr g d c s
  | .csrw g s1 c => Sys2Proof.Machine.execCsrw g s1 c s
  | .trap g c => Sys2Proof.Machine.execTrap g c s
  | .eret g => Sys2Proof.Machine.execEret g s
  | .wfe g => Sys2Proof.Machine.execWfe g s
  | .sweepOpen g d => Sys2Proof.Machine.execSweepOpen g d s
  | .sweepStat g d => Sys2Proof.Machine.execSweepStat g d s
  | .sweepForce g d => Sys2Proof.Machine.execSweepForce g d s
  | .xins g s1 c => Sys2Proof.Machine.execXins g s1 c s
  | .maskw g s1 k imm => Sys2Proof.Machine.execMaskw g s1 k imm s
  | .freeze g s1 => Sys2Proof.Machine.execFreeze g s1 s
  | .thaw g s1 m => Sys2Proof.Machine.execThaw g s1 m s
  | .cancel g d c => Sys2Proof.Machine.execCancel g d c s
  | .cpy g d s1 x h e => Sys2Proof.Machine.execCpy g d s1 x h e s
  | .cpyn g d s1 x h e => Sys2Proof.Machine.execCpyn g d s1 x h e s
  | .gath g d s1 x h e => Sys2Proof.Machine.execGath g d s1 x h e s
  | .scat g d s1 x h e => Sys2Proof.Machine.execScat g d s1 x h e s
  | .scadd g d s1 x h e => Sys2Proof.Machine.execScadd g d s1 x h e s
  | .mcast g d s1 x h e => Sys2Proof.Machine.execMcast g d s1 x h e s
  | .rread g d s1 x h e => Sys2Proof.Machine.execRread g d s1 x h e s
  | .rwrite g d s1 x h e => Sys2Proof.Machine.execRwrite g d s1 x h e s
  | .kget g d s1 x h e => Sys2Proof.Machine.execKget g d s1 x h e s
  | .kput g d s1 x h e => Sys2Proof.Machine.execKput g d s1 x h e s
  | .sqld g s1 x h => Sys2Proof.Machine.execSqld g s1 x h s
  | .qbind g s1 n => Sys2Proof.Machine.execQbind g s1 n s
  | .qop g s1 n => Sys2Proof.Machine.execQop g s1 n s
  | .qstart g n => Sys2Proof.Machine.execQstart g n s
  | .qstop g n => Sys2Proof.Machine.execQstop g n s
  | .wprd g d k => Sys2Proof.Machine.execWprd g d k s
  | .vshapeWr g x => Sys2Proof.Machine.execVshapeWr g x s
  | .vshapeRd g x => Sys2Proof.Machine.execVshapeRd g x s
  | .vshapeVl g x => Sys2Proof.Machine.execVshapeVl g x s
  | .vadd g d a b p => Sys2Proof.Machine.execVadd g d a b p s
  | .vsub g d a b p => Sys2Proof.Machine.execVsub g d a b p s
  | .vmul g d a b p => Sys2Proof.Machine.execVmul g d a b p s
  | .vfma g d a b p => Sys2Proof.Machine.execVfma g d a b p s
  | .vfms g d a b p => Sys2Proof.Machine.execVfms g d a b p s
  | .vmax g d a b p => Sys2Proof.Machine.execVmax g d a b p s
  | .vmin g d a b p => Sys2Proof.Machine.execVmin g d a b p s
  | .vabs g d s1 p => Sys2Proof.Machine.execVabs g d s1 p s
  | .vneg g d s1 p => Sys2Proof.Machine.execVneg g d s1 p s
  | .vrcp g d s1 p => Sys2Proof.Machine.execVrcp g d s1 p s
  | .vrsq g d s1 p => Sys2Proof.Machine.execVrsq g d s1 p s
  | .vexp2 g d s1 p => Sys2Proof.Machine.execVexp2 g d s1 p s
  | .vlog2 g d s1 p => Sys2Proof.Machine.execVlog2 g d s1 p s
  | .vcvt g d s1 t k r => Sys2Proof.Machine.execVcvt g d s1 t k r s
  | .viadd g d a b p => Sys2Proof.Machine.execViadd g d a b p s
  | .visub g d a b p => Sys2Proof.Machine.execVisub g d a b p s
  | .vimul g d a b p => Sys2Proof.Machine.execVimul g d a b p s
  | .vimin g d a b p => Sys2Proof.Machine.execVimin g d a b p s
  | .vimax g d a b p => Sys2Proof.Machine.execVimax g d a b p s
  | .vand g d a b p => Sys2Proof.Machine.execVand g d a b p s
  | .vor g d a b p => Sys2Proof.Machine.execVor g d a b p s
  | .vxor g d a b p => Sys2Proof.Machine.execVxor g d a b p s
  | .vshl g d a b p => Sys2Proof.Machine.execVshl g d a b p s
  | .vshr g d a b p => Sys2Proof.Machine.execVshr g d a b p s
  | .vsra g d a b p => Sys2Proof.Machine.execVsra g d a b p s
  | .vcmp g p a b c => Sys2Proof.Machine.execVcmp g p a b c s
  | .vicmp g p a b c => Sys2Proof.Machine.execVicmp g p a b c s
  | .vsel g d a b p => Sys2Proof.Machine.execVsel g d a b p s
  | .vrsum g d s1 p r => Sys2Proof.Machine.execVrsum g d s1 p r s
  | .vrmax g d s1 p r => Sys2Proof.Machine.execVrmax g d s1 p r s
  | .vrmin g d s1 p r => Sys2Proof.Machine.execVrmin g d s1 p r s
  | .vrisum g d s1 p r => Sys2Proof.Machine.execVrisum g d s1 p r s
  | .vrimax g d s1 p r => Sys2Proof.Machine.execVrimax g d s1 p r s
  | .vrimin g d s1 p r => Sys2Proof.Machine.execVrimin g d s1 p r s
  | .vscsum g d s1 p r => Sys2Proof.Machine.execVscsum g d s1 p r s
  | .vscmax g d s1 p r => Sys2Proof.Machine.execVscmax g d s1 p r s
  | .vscmin g d s1 p r => Sys2Proof.Machine.execVscmin g d s1 p r s
  | .vscisum g d s1 p r => Sys2Proof.Machine.execVscisum g d s1 p r s
  | .vscimax g d s1 p r => Sys2Proof.Machine.execVscimax g d s1 p r s
  | .vscimin g d s1 p r => Sys2Proof.Machine.execVscimin g d s1 p r s
  | .vperm g d a b p => Sys2Proof.Machine.execVperm g d a b p s
  | .vslide g d s1 e k => Sys2Proof.Machine.execVslide g d s1 e k s
  | .vbcst g d s1 p => Sys2Proof.Machine.execVbcst g d s1 p s
  | .vmovxToX g s1 d l => Sys2Proof.Machine.execVmovxToX g s1 d l s
  | .vmovxToV g d s1 l => Sys2Proof.Machine.execVmovxToV g d s1 l s
  | .vld g v c x p s1 => Sys2Proof.Machine.execVld g v c x p s1 s
  | .vst g v c x p s1 => Sys2Proof.Machine.execVst g v c x p s1 s
  | .vgath g v c x p s1 => Sys2Proof.Machine.execVgath g v c x p s1 s
  | .vscat g v c x p s1 => Sys2Proof.Machine.execVscat g v c x p s1 s
  | .vpop g d n => Sys2Proof.Machine.execVpop g d n s
  | .vlqnt g d s1 p a o => Sys2Proof.Machine.execVlqnt g d s1 p a o s
  | .vldec g d s1 a r => Sys2Proof.Machine.execVldec g d s1 a r s
  | .plog g d a b t => Sys2Proof.Machine.execPlog g d a b t s
  | .pcntCount g a b d => Sys2Proof.Machine.execPcntCount g a b d s
  | .pcntFirst g a b d => Sys2Proof.Machine.execPcntFirst g a b d s
  | .pcntLast g a b d => Sys2Proof.Machine.execPcntLast g a b d s
  | .psetFirst g d x => Sys2Proof.Machine.execPsetFirst g d x s
  | .psetFromx g d x => Sys2Proof.Machine.execPsetFromx g d x s
  | .psetTox g a x => Sys2Proof.Machine.execPsetTox g a x s
  | .mshapeReq g x => Sys2Proof.Machine.execMshapeReq g x s
  | .mshapeGet g x => Sys2Proof.Machine.execMshapeGet g x s
  | .mclaim g o n => Sys2Proof.Machine.execMclaim g o n s
  | .mrelease g o n => Sys2Proof.Machine.execMrelease g o n s
  | .mfillScratch g o c p => Sys2Proof.Machine.execMfillScratch g o c p s
  | .mfillStream g o n p => Sys2Proof.Machine.execMfillStream g o n p s
  | .mma g a b c m z => Sys2Proof.Machine.execMma g a b c m z s
  | .mmal g a b c m z => Sys2Proof.Machine.execMmal g a b c m z s
  | .mzero g a => Sys2Proof.Machine.execMzero g a s
  | .mdrain g a c f p r s1 => Sys2Proof.Machine.execMdrain g a c f p r s1 s
  | .mdrainp g a t p => Sys2Proof.Machine.execMdrainp g a t p s
  | .mmodeSet g v => Sys2Proof.Machine.execMmodeSet g v s
  | .mmodeSetx g x => Sys2Proof.Machine.execMmodeSetx g x s
  | .mmodeGet g x => Sys2Proof.Machine.execMmodeGet g x s
  | .mscale g n => Sys2Proof.Machine.execMscale g n s
  | .pourPlacement p => Sys2Proof.Machine.execPourPlacement p s
  | .contextRestoreComplete g => Sys2Proof.Machine.execContextRestoreComplete g s
  | .pourRetirement g => Sys2Proof.Machine.execPourRetirement g s
  | .globalAccessReturn id => Sys2Proof.Machine.execGlobalAccessReturn id s
  | .globalStorePerform id => Sys2Proof.Machine.execGlobalStorePerform id s
  | .copyLanding id r lo n => Sys2Proof.Machine.execCopyLanding id r lo n s
  | .copyFaultAfterIssue id => Sys2Proof.Machine.execCopyFaultAfterIssue id s
  | .patternDecode g c n => Sys2Proof.Machine.execPatternDecode g c n s
  | .crucibleCompletion id => Sys2Proof.Machine.execCrucibleCompletion id s
  | .cupolaAnswer id => Sys2Proof.Machine.execCupolaAnswer id s
  | .ringReport id => Sys2Proof.Machine.execRingReport id s
  | .homeAtomic id => Sys2Proof.Machine.execHomeAtomic id s
  | .scaddReduction id j => Sys2Proof.Machine.execScaddReduction id j s
  | .drainAddLanding id e => Sys2Proof.Machine.execDrainAddLanding id e s
  | .drainAddRefusal id => Sys2Proof.Machine.execDrainAddRefusal id s
  | .freezeTimeout g => Sys2Proof.Machine.execFreezeTimeout g s
  | .alignmentTimeout g => Sys2Proof.Machine.execAlignmentTimeout g s
  | .yieldDrainComplete g => Sys2Proof.Machine.execYieldDrainComplete g s
  | .contextSaveComplete g => Sys2Proof.Machine.execContextSaveComplete g s
  | .preemptionRequest p => Sys2Proof.Machine.execPreemptionRequest p s
  | .cancelComplete kind id => Sys2Proof.Machine.execCancelComplete kind id s
  | .registerSweepStart g => Sys2Proof.Machine.execRegisterSweepStart g s
  | .registerSweepEnd g => Sys2Proof.Machine.execRegisterSweepEnd g s
  | .epochSettle => Sys2Proof.Machine.execEpochSettle s
  | .epochFettle => Sys2Proof.Machine.execEpochFettle s
  | .fettlerVisit => Sys2Proof.Machine.execFettlerVisit s
  | .epochEnd => Sys2Proof.Machine.execEpochEnd s
  | .leaseTick => Sys2Proof.Machine.execLeaseTick s
  | .timedLeaseExpiry e => Sys2Proof.Machine.execTimedLeaseExpiry e s
  | .transferLeaseExpiry e dev tx => Sys2Proof.Machine.execTransferLeaseExpiry e dev tx s
  | .renewPeriod => Sys2Proof.Machine.execRenewPeriod s
  | .holderTimeout dev => Sys2Proof.Machine.execHolderTimeout dev s
  | .demotionSwitch e => Sys2Proof.Machine.execDemotionSwitch e s
  | .planningInterval charges mw temp => Sys2Proof.Machine.execPlanningInterval charges mw temp s
  | .stewardTimer n => Sys2Proof.Machine.execStewardTimer n s
  | .gfaultNotify g => Sys2Proof.Machine.execGfaultNotify g s
  | .handlerEntry n => Sys2Proof.Machine.execHandlerEntry n s
  | .submissionDoorbell r v => Sys2Proof.Machine.execSubmissionDoorbell r v s
  | .completionAckDoorbell r v => Sys2Proof.Machine.execCompletionAckDoorbell r v s
  | .ringLaunch r => Sys2Proof.Machine.execRingLaunch r s
  | .gopen r => Sys2Proof.Machine.execGopen r s
  | .gclose r => Sys2Proof.Machine.execGclose r s
  | .ringCancel r => Sys2Proof.Machine.execRingCancel r s
  | .ringNop r => Sys2Proof.Machine.execRingNop r s
  | .stewardDoorbell n => Sys2Proof.Machine.execStewardDoorbell n s
  | .hostMigrationStart vareg dst => Sys2Proof.Machine.execHostMigrationStart vareg dst s
  | .lcHostRequest t => Sys2Proof.Machine.execLcHostRequest t s
  | .faultBatchAge => Sys2Proof.Machine.execFaultBatchAge s
  | .faultBatchWrite => Sys2Proof.Machine.execFaultBatchWrite s
  | .migrationComplete k => Sys2Proof.Machine.execMigrationComplete k s
  | .sliceReassignComplete => Sys2Proof.Machine.execSliceReassignComplete s
  | .hmRateSwitchEnd => Sys2Proof.Machine.execHmRateSwitchEnd s
  | .sliceWake imm => Sys2Proof.Machine.execSliceWake imm s
  | .probeTimeout l => Sys2Proof.Machine.execProbeTimeout l s
  | .agentDeath k => Sys2Proof.Machine.execAgentDeath k s
  | .rds l a part => Sys2Proof.Machine.execRds l a part s
  | .rdx l a part => Sys2Proof.Machine.execRdx l a part s
  | .upg l a part => Sys2Proof.Machine.execUpg l a part s
  | .wbd l a => Sys2Proof.Machine.execWbd l a s
  | .wbe l a => Sys2Proof.Machine.execWbe l a s
  | .inv l a => Sys2Proof.Machine.execInv l a s
  | .fwds l o a => Sys2Proof.Machine.execFwds l o a s
  | .fwdx l o a => Sys2Proof.Machine.execFwdx l o a s
  | .coherenceData l a => Sys2Proof.Machine.execCoherenceData l a s
  | .cmp l a => Sys2Proof.Machine.execCmp l a s
  | .invack l a => Sys2Proof.Machine.execInvack l a s
  | .fwdack l o => Sys2Proof.Machine.execFwdack l o s
  | .wback l a => Sys2Proof.Machine.execWback l a s
  | .memrd l own part => Sys2Proof.Machine.execMemrd l own part s
  | .memwr l off data => Sys2Proof.Machine.execMemwr l off data s
  | .bisnpdata l => Sys2Proof.Machine.execBisnpdata l s
  | .bisnpinv l => Sys2Proof.Machine.execBisnpinv l s
  | .birsp l inv => Sys2Proof.Machine.execBirsp l inv s
  | .biconflict l => Sys2Proof.Machine.execBiconflict l s
  | .lookup src tx name => Sys2Proof.Machine.execLookup src tx name s
  | .lookupR src tx st w depth => Sys2Proof.Machine.execLookupR src tx st w depth s
  | .read src tx idx gen off len tag => Sys2Proof.Machine.execRead src tx idx gen off len tag s
  | .data src tx off data => Sys2Proof.Machine.execData src tx off data s
  | .reg src tx name w depth cls => Sys2Proof.Machine.execReg src tx name w depth cls s
  | .regAck src tx st => Sys2Proof.Machine.execRegAck src tx st s
  | .retire src name w => Sys2Proof.Machine.execRetire src name w s
  | .renew src => Sys2Proof.Machine.execRenew src s
  | .lapse src tx off => Sys2Proof.Machine.execLapse src tx off s
  | .nack src tx st code => Sys2Proof.Machine.execNack src tx st code s
  | .stat src tx idx gen j => Sys2Proof.Machine.execStat src tx idx gen j s
  | .statR src tx word name depth anc => Sys2Proof.Machine.execStatR src tx word name depth anc s
  | .remoteAnswerTimeout tx => Sys2Proof.Machine.execRemoteAnswerTimeout tx s
  | .fliranRead src psn apsn exp off len tag => Sys2Proof.Machine.execFliranRead src psn apsn exp off len tag s
  | .fliranRdata src psn apsn off tag body => Sys2Proof.Machine.execFliranRdata src psn apsn off tag body s
  | .fliranWrite src psn apsn exp off tag body => Sys2Proof.Machine.execFliranWrite src psn apsn exp off tag body s
  | .fliranAck src apsn => Sys2Proof.Machine.execFliranAck src apsn s
  | .fliranNack src code psn tag => Sys2Proof.Machine.execFliranNack src code psn tag s
  | .fliranCrucible port src psn apsn body => Sys2Proof.Machine.execFliranCrucible port src psn apsn body s
  | .resendTimeout peer => Sys2Proof.Machine.execResendTimeout peer s
  | .contextFetchComplete peer => Sys2Proof.Machine.execContextFetchComplete peer s
  | .contextFetchTimeout peer => Sys2Proof.Machine.execContextFetchTimeout peer s
  | .rnrWaitExpiry peer => Sys2Proof.Machine.execRnrWaitExpiry peer s
  | .portStateChange cxl p st err => Sys2Proof.Machine.execPortStateChange cxl p st err s
  | .lockInterface imm => Sys2Proof.Machine.execLockInterface imm s
  | .getDeviceInterfaceReport imm => Sys2Proof.Machine.execGetDeviceInterfaceReport imm s
  | .startInterface imm => Sys2Proof.Machine.execStartInterface imm s
  | .stopInterface imm => Sys2Proof.Machine.execStopInterface imm s
  | .exportRevocationComplete => Sys2Proof.Machine.execExportRevocationComplete s
  | .powerOn => Sys2Proof.Machine.execPowerOn s
  | .pcieConventionalReset => Sys2Proof.Machine.execPcieConventionalReset s
  | .readyTimeout => Sys2Proof.Machine.execReadyTimeout s
  | .thermalTrip => Sys2Proof.Machine.execThermalTrip s
  | .gwPc n v => Sys2Proof.Machine.execGwPc n v s
  | .gwFflags n v => Sys2Proof.Machine.execGwFflags n v s
  | .cuSlicereq n v => Sys2Proof.Machine.execCuSlicereq n v s
  | .cuRingrun n v => Sys2Proof.Machine.execCuRingrun n v s
  | .trProbe n v => Sys2Proof.Machine.execTrProbe n v s
  | .trInval n v => Sys2Proof.Machine.execTrInval n v s
  | .trFpost n v => Sys2Proof.Machine.execTrFpost n v s
  | .trRetry n v => Sys2Proof.Machine.execTrRetry n v s
  | .trMigrate n v => Sys2Proof.Machine.execTrMigrate n v s
  | .coDeclare n v => Sys2Proof.Machine.execCoDeclare n v s
  | .coFlush n v => Sys2Proof.Machine.execCoFlush n v s
  | .coHaltq n => Sys2Proof.Machine.execCoHaltq n s
  | .hmRate n v => Sys2Proof.Machine.execHmRate n v s
  | .hmRetireWrite n v => Sys2Proof.Machine.execHmRetireWrite n v s
  | .hmRetireRead n => Sys2Proof.Machine.execHmRetireRead n s
  | .hmChmask n v => Sys2Proof.Machine.execHmChmask n v s
  | .hmEcnt n v => Sys2Proof.Machine.execHmEcnt n v s
  | .hmPcclr n v => Sys2Proof.Machine.execHmPcclr n v s
  | .xrRevoke n v => Sys2Proof.Machine.execXrRevoke n v s
  | .buLcreq n v => Sys2Proof.Machine.execBuLcreq n v s
  | .buReady n v => Sys2Proof.Machine.execBuReady n v s
  | .buReset n v => Sys2Proof.Machine.execBuReset n v s
  | .powerLoss => Sys2Proof.Machine.execPowerLoss s
  | .keyPairInstall key imm => Sys2Proof.Machine.execKeyPairInstall key imm s
  | .tdiError imm => Sys2Proof.Machine.execTdiError imm s
  | .pfcPause p on => Sys2Proof.Machine.execPfcPause p on s
  | .discardedPacket port => Sys2Proof.Machine.execDiscardedPacket port s
  | .sliceRetention imm => Sys2Proof.Machine.execSliceRetention imm s

end Sys2Proof.Machine
end

