-- ==== Sys2Proof/Machine/Interlock.lean ====
section
/-!
DEFINITION. The registers that an instruction of a steward reads: it issues no earlier than their perform cycles (R316).
-/
namespace Sys2Proof.Machine

/-- The x registers that an instruction reads (scalar, system and ladle maps; the vec and mat maps run on no steward). -/
def xReads : Instr → List XR
  | .idleReg _ a | .ffwr _ a | .mbput _ a _ => [a]
  | .add _ _ a b | .sub _ _ a b | .and _ _ a b | .or _ _ a b | .xor _ _ a b | .sll _ _ a b | .srl _ _ a b
  | .sra _ _ a b | .slt _ _ a b | .sltu _ _ a b | .min _ _ a b | .max _ _ a b | .minu _ _ a b | .maxu _ _ a b
  | .mul _ _ a b | .mulh _ _ a b | .mulhu _ _ a b | .mulhsu _ _ a b => [a, b]
  | .addi _ _ a _ | .andi _ _ a _ | .ori _ _ a _ | .xori _ _ a _ | .slli _ _ a _ | .srli _ _ a _ | .srai _ _ a _
  | .slti _ _ a _ | .sltiu _ _ a _ | .jr _ _ a _ => [a]
  | .lih _ d _ => [d]
  | .beq _ a b _ | .bne _ a b _ | .blt _ a b _ | .bge _ a b _ | .bltu _ a b _ | .bgeu _ a b _ => [a, b]
  | .loop _ x _ => [x]
  | .stb _ x _ _ _ _ | .sth _ x _ _ _ _ | .stw _ x _ _ _ _ | .std _ x _ _ _ _ => [x]
  | .aadd _ d _ _ _ _ | .amin _ d _ _ _ _ | .amax _ d _ _ _ _ | .aand _ d _ _ _ _ | .aor _ d _ _ _ _
  | .axor _ d _ _ _ _ | .aswp _ d _ _ _ _ => [d]
  | .acas _ d _ x _ _ _ => [d, x]
  | .bexpect _ x _ | .rpub _ x _ | .rfree _ x _ => [x]
  | .cseta _ _ _ x | .cincaReg _ _ _ x | .csetb _ _ _ x | .csetbr _ _ _ x | .candp _ _ _ x => [x]
  | .kmatch _ d _ _ _ | .kopen _ d _ _ _ | .kseal _ d _ _ _ _ | .klease _ d _ | .krenew _ d _ | .kdrop _ d _
  | .kpin _ d _ _ | .kunpin _ d _ _ | .krepl _ d _ _ _ | .kstat _ d _ _ | .kclass _ d _ | .kname _ d _
  | .kdepth _ d _ | .kanc _ d _ _ => [d]
  | .csrw _ x _ | .xins _ x _ | .maskw _ x _ _ | .freeze _ x | .thaw _ x _ => [x]
  | .cpy _ _ _ x _ _ | .cpyn _ _ _ x _ _ | .mcast _ _ _ x _ _ => [x]
  | .gath _ _ _ x _ _ | .scat _ _ _ x _ _ | .scadd _ _ _ x _ _ | .kput _ _ _ x _ _ => [x]
  | .rread _ _ _ x _ _ | .rwrite _ _ _ x _ _ | .kget _ _ _ x _ _ => [x, x + 1]
  | .sqld _ _ x _ => [x, x + 1]
  | .qbind _ x _ | .qop _ x _ => [x]
  | _ => []

/-- The c registers that an instruction reads. -/
def cReads : Instr → List (BitVec 4)
  | .ldb _ _ c _ _ _ | .ldbu _ _ c _ _ _ | .ldh _ _ c _ _ _ | .ldhu _ _ c _ _ _ | .ldw _ _ c _ _ _
  | .ldwu _ _ c _ _ _ | .ldd _ _ c _ _ _ | .stb _ _ c _ _ _ | .sth _ _ c _ _ _ | .stw _ _ c _ _ _
  | .std _ _ c _ _ _ | .aadd _ _ c _ _ _ | .amin _ _ c _ _ _ | .amax _ _ c _ _ _ | .aand _ _ c _ _ _
  | .aor _ _ c _ _ _ | .axor _ _ c _ _ _ | .aswp _ _ c _ _ _ | .acas _ _ c _ _ _ _ => [c]
  | .racq _ _ c | .rpub _ _ c | .rtake _ _ c | .rfree _ _ c => [c]
  | .cgeta _ _ c | .cgetb _ _ c | .cgetl _ _ c | .cgetp _ _ c | .cgett _ _ c | .cgeto _ _ c => [c]
  | .cseta _ _ c _ | .cincaReg _ _ c _ | .cincaImm _ _ c _ | .csetb _ _ c _ | .csetbr _ _ c _ | .candp _ _ c _ => [c]
  | .clock _ _ c a | .cunlock _ _ c a => [c, a]
  | .ctsub _ _ a b => [a, b]
  | .cmov _ _ c | .cldc _ _ c _ => [c]
  | .cstc _ v c _ => [v, c]
  | .cjal _ _ c | .cjr _ c => [c]
  | .kmatch _ _ a b _ | .kopen _ _ a b _ | .kpin _ _ a b | .kunpin _ _ a b | .krepl _ _ a b _ => [a, b]
  | .kseal _ _ a b _ f => [a, b, f]
  | .klease _ _ a | .krenew _ _ a | .kdrop _ _ a | .kstat _ _ a _ | .kclass _ _ a | .kname _ _ a
  | .kdepth _ _ a | .kanc _ _ a _ => [a]
  | .launch _ _ a _ | .gcancel _ _ a | .cwread _ _ a | .eread _ _ a | .cancel _ _ a => [a]
  | .xins _ _ c => [c]
  | .cpy _ d c _ _ _ | .cpyn _ d c _ _ _ | .mcast _ d c _ _ _ | .gath _ d c _ _ _ | .scat _ d c _ _ _
  | .scadd _ d c _ _ _ | .kput _ d c _ _ _ | .rread _ d c _ _ _ | .rwrite _ d c _ _ _ | .kget _ d c _ _ _ => [d, c]
  | .sqld _ c _ _ => [c]
  | _ => []

/-- The registers that an outstanding operation will write: x and c. -/
def OpK.dest (o : OpK) : List Nat × List Nat :=
  match o with
  | .load _ _ d | .atomic _ _ d | .acas _ d | .ring _ d => ([d], [])
  | .cldc _ d => ([], [d])
  | _ => ([], [])

/-- The result registers of a Crucible or dispatch instruction. -/
def opDest : Instr → List XR × List (BitVec 4)
  | .kmatch _ d _ _ e | .kopen _ d _ _ e | .krepl _ d _ _ e | .kanc _ d _ e => ([d], [e])
  | .kseal _ d _ b e _ => ([d], [b, e])
  | .launch _ d _ e => ([d], [e])
  | .kstat _ d _ e => ([d, e], [])
  | .klease _ d _ | .krenew _ d _ | .kdrop _ d _ | .kpin _ d _ _ | .kunpin _ d _ _ | .kclass _ d _ | .kname _ d _
  | .kdepth _ d _ | .gcancel _ d _ | .cwread _ d _ | .eread _ d _ | .cancel _ d _ => ([d], [])
  | _ => ([], [])

end Sys2Proof.Machine
end

