-- ==== Sys2Proof/Machine/Perform.lean ====
section
/-!
DEFINITION. What issued operations do on their perform and access cycles, and the checks of a gang cycle on them
(R32 to R36).
-/
namespace Sys2Proof.Machine

/-! ### Effects on a cell -/

/-- What an effect does on its cycle: the state after it; or it waits for a pop that is not decoded; or a fault. -/
inductive Done where
  | ok (s : State)
  | keep (s : State)
  | bad (f : Flt)

/-- The named lanes replaced (R242). -/
def mergeLanes (old new : Line256) (m : Word) : Line256 :=
  if m = BitVec.allOnes 64 then new
  else ofLanes ((List.range 64).map (fun i => if m.toNat.testBit i then laneOf new i else laneOf old i))

/-- Masked bytes written to the scratchpad: every granule touched loses its tag, the named ones gain theirs (R108). -/
def Cell.putMasked (c : Cell) (l : List WByte) (tags : List Nat) : Cell :=
  let spm := l.foldl (fun m w => NMap.set 0 m w.off ((NMap.get 0 m w.off &&& ~~~ w.mask) ||| (w.val &&& w.mask))) c.spm
  let t := l.foldl (fun t w => NSet.del t (w.off / 16)) c.tags
  ({ c with spm := spm, tags := tags.foldl NSet.add t }).heal ((WByte.touched l).filter (WByte.fills l))

/-- A pattern stream replaced. -/
def Cell.setQ (c : Cell) (q : Nat) (t : QStream) : Cell := { c with qs := NMap.put c.qs q t }

/-- A pattern stream. -/
def Cell.q (c : Cell) (q : Nat) : QStream := NMap.get QStream.unbound c.qs q

/-- The state that QSTOP or QSTART gives a stream (R127, R306). -/
def QStream.to (t : QStream) (st : Nat) : QStream :=
  match st with
  | 1 => { t with st := 1, buf := [], ahead := [] }
  | _ => { t with st := 2, taken := 0, buf := [], lastPop := none, ahead := [] }

/-- The first slots of a range are claimed, or released with their lines zero (R273). -/
def Cell.claim (c : Cell) (o n : Nat) : Cell := { c with claims := (span o n).foldl NSet.add c.claims }
def Cell.release (c : Cell) (o n : Nat) : Cell :=
  { (c.heal ((span (128 * o) (128 * n)).map eccSlot)) with
           claims := (span o n).foldl NSet.del c.claims,
           slots := c.slots.filter (fun e => decide (e.1 < 128 * o) || decide (128 * (o + n) ≤ e.1)) }

/-- Scale entries move from the queue to the bound set (R276). -/
def Cell.moveScales (c : Cell) (n : Nat) : Cell :=
  { c with bound := c.bound ++ (c.scaleQ.take n).map (·.data), scaleQ := c.scaleQ.drop n }

/-- The accumulator words that a tile operation writes, and reads unless it starts from zero. -/
def Tile.accWords (t : Tile) : List Nat :=
  (List.range t.rows).flatMap (fun m => (span (accKey t.acc m 0) t.cols).map eccAcc)

/-- A tile operation performs: the accumulators and the flags of the mat stream (R278). -/
def Cell.tile (c : Cell) (t : Tile) : Cell :=
  let r := t.apply c.accs
  let m := c.stream .mat
  ({ c with accs := r.1 }.setStream .mat (m.orFlags r.2)).heal t.accWords

/-- The accumulator's elements are zero (R280). -/
def Cell.zeroAcc (c : Cell) (a : Nat) : Cell :=
  { c with accs := c.accs.filter (fun e => decide (e.1 < 16384 * a) || decide (16384 * (a + 1) ≤ e.1)),
           bad := c.bad.filter (fun e => decide (e.1 < eccAcc (16384 * a)) || decide (eccAcc (16384 * (a + 1)) ≤ e.1)) }

/-- A 256-byte image of the scratchpad. -/
def Cell.line256 (c : Cell) (off : Nat) : Line256 := BitVec.ofNat 2048 (c.spmLE off 256)

/-- The image that VLD and VGATH put in their lanes (R258). -/
def Cell.gather (c : Cell) (et : Nat) (desc : BitVec 16) (refs : List LaneRef) : Line256 × Word :=
  let es := elemBits et desc
  let lane (r : LaneRef) : Lane :=
    loadElem et desc (if es = 4 then c.spmLE r.off 1 / (if r.nib then 16 else 1) % 16 else c.spmLE r.off (es / 8))
  (ofLanes ((List.range 64).map (fun i => match refs.find? (fun r => r.lane == i) with
    | some r => lane r
    | none => 0)),
   BitVec.ofNat 64 (refs.foldl (fun m r => m ||| 2 ^ r.lane) 0))

/-- A barrier's arrival (R125, R228): none when its ARR is zero. -/
def Cell.arrive (c : Cell) (b : Nat) : Option Cell :=
  let w := c.bar b
  if barArr w = 0 then none else some (c.setBar b (BitVec.ofNat 48 (w.toNat - 2 ^ 40)))

/-- A line leaves on a link: it arrives on g + 6 + k (R33, R230). -/
def State.sendLine (s : State) (e : Eff) (dst off first : Nat) : State :=
  let c := s.cellOf e.ag
  let tag (i : Nat) : Nat := if NSet.mem c.tags (off / 16 + i) then 2 ^ i else 0
  let l : LinkLine := ⟨e.ag.cell, dst, e.due + 4, first, BitVec.ofNat 512 (c.spmLE off 64),
    BitVec.ofNat 4 (tag 0 + tag 1 + tag 2 + tag 3), e.ag, e.pc⟩
  let g := s.gang e.ag.unit
  s.setGang e.ag.unit { g with arrivals := g.arrivals ++ [l] }

/-- A line after line 0 of a RECV is written as it arrives (R231), its tags unchanged (R108; log entry 73). -/
def State.recvLine (s : State) (e : Eff) (src off : Nat) : Done :=
  let g := s.gang e.ag.unit
  match g.arrival src e.ag.cell with
  | none => .bad (timeFlt .unmatched src e.ag.cell)
  | some l =>
    if l.first ≠ 0 then .bad (timeFlt .unmatched src e.ag.cell)
    else
      let s := s.setGang e.ag.unit { g with arrivals := g.arrivals.erase l }
      .ok (s.setCellOf e.ag ((s.cellOf e.ag).putLine off l.data l.tags))

/-- The descriptor of a CPYN is read on its access cycle (R291, R298); a copy without a free queue entry waits (R292). -/
def State.ndStart (s : State) (e : Eff) (i : Instr) (id off : Nat) : Done :=
  match s.copy? id with
  | none => .ok s
  | some c => match s.ndRead c i off with
    | .error f => .bad f
    | .ok c =>
      let s := s.setCopy id c
      if s.queueUse c.ag ≤ 64 then .ok s
      else
        let s := s.setCopy id { c with queued := true }
        if c.ag.stew then .ok (s.setStreamOf c.ag { s.streamOf c.ag with stall := some id })
        else
          let g := s.gang c.ag.unit
          .ok (s.setGang c.ag.unit { g with conds := g.conds ++ [⟨.queue c.ag.cell id, c.ag, e.pc, s.wall, e.iss⟩] })

/-- A pop is taken on its cycle (R131): `next` what follows; a pop that is not decoded freezes the gang. -/
def State.popNow (s : State) (e : Eff) (q : Nat) (next : Line256 → FFlags → State → State) : Done :=
  let c := s.cellOf e.ag
  if c.popBusy q e.due then .bad (timeFlt .busy q e.ag.cell)
  else match c.popOf q e.due with
    | none =>
      let g := s.gang e.ag.unit
      .keep (s.setGang e.ag.unit { g with conds := g.conds ++ [⟨.pop e.ag.cell q, e.ag, e.pc, s.wall, e.iss⟩] })
    | some (v, f, flt, c) => match flt with
      | some x => .bad x
      | none => .ok (next v f (s.setCellOf e.ag c))

/-- A later effect of the same instruction. -/
def State.follow (s : State) (e : Eff) (lat : Nat) (a : Act) : State := s.pendEff ⟨e.due + lat, e.ag, e.pc, a, e.iss⟩

/-- A tagged capability read from a scratchpad whose base lies in a hull of the open epoch: the gang freezes until its map
bit has been read, as for a scalar global access (R373). -/
def State.readMap (s : State) (e : Eff) (r : Nat) (v : Cap) : State :=
  let id := s.nextId
  let o : Op := { ag := e.ag, pc := e.pc, k := .mapBit r (e.due + 3), i := .nop 0, t0 := e.due, wall := s.wall, addr := 0,
                  pieces := [], val := 0, val2 := 0, caps := [v], relMark := 0, near := [], stage := 0, res := [],
                  cres := [], flt := none }
  let g := s.gang e.ag.unit
  let s := s.setGang e.ag.unit { g with conds := g.conds ++ [⟨.op id, e.ag, e.pc, s.wall, e.iss⟩] }
  { s with ops := NMap.put s.ops id o, nextId := id + 1 }

/-- Flags of the same instruction, set later (R74). -/
def State.followFlags (s : State) (e : Eff) (lat : Nat) (f : FFlags) : State :=
  if f = 0 then s else s.follow e lat (.orFlags f)

/-- One effect on its cycle. -/
def State.act (s : State) (e : Eff) : Done :=
  let c := s.cellOf e.ag
  let t := c.stream e.ag.kind
  let put (c : Cell) : Done := .ok (s.setCellOf e.ag c)
  match e.act with
  | .x r v => .ok (s.setStreamOf e.ag (t.wx r v))
  | .c r v => .ok (s.setStreamOf e.ag (t.wc r v))
  | .orFlags f => .ok (s.orFlagsOf e.ag f)
  | .fflags v => .ok (s.setStreamOf e.ag { t with fflags := v })
  | .mail n v => put { c with mail := NMap.set 0 c.mail n v }
  | .v r m v => put { c with v := NMap.set 0 c.v r (mergeLanes (c.rv r) v m) }
  | .p r v => put (c.wp r v)
  | .vsh v => put { c with vsh := v }
  | .vl n => put { c with vsh := vshWithVl c.vsh n }
  | .msh v => put { c with msh := v }
  | .mmode v => put { c with mmode := v }
  | .claim o n => put (c.claim o n)
  | .release o n => put (c.release o n)
  | .slotLine o l v => put { c.heal [eccSlot (128 * o + l)] with slots := NMap.set 0 c.slots (128 * o + l) v }
  | .mma t => put (c.tile t)
  | .mzero a => put (c.zeroAcc a)
  | .scaleMove n => put (c.moveScales n)
  | .binit b n => put { c.setBar b (BitVec.ofNat 48 (n * 2 ^ 40)) with arr := NMap.erase c.arr b }
  | .barrive b => match c.arrive b with
    | some c => put { c with arr := NMap.put c.arr b s.nextId }
    | none => .bad ⟨15, 0, e.pc.toNat, (s.wordAt e.ag e.pc.toNat).getD 0, 0⟩
  | .bexpect b x => put (c.setBar b (barAdd (c.bar b) (x.toNat : Nat)))
  | .qset q l cap => put (c.setQ q { c.q q with st := 1, desc := l, cap := cap, chain := [], taken := 0, buf := [], ahead := [] })
  | .qstate q st => put (c.setQ q ((c.q q).to st))
  | .qop q w => put (c.setQ q { c.q q with chain := (c.q q).chain ++ [w] })
  | .ld off n signed r => .ok (s.follow e 3 (.x r (extendTo n signed (c.spmLE off n))))
  | .ldc off lc r =>
    let v := Cap.ofNat (c.spmLE off 16) (NSet.mem c.tags (off / 16) && lc)
    if e.ag.stew then .ok (s.follow e 3 (.c r v))
    else if s.inHull (s.partOf e.ag) v then .ok (s.readMap e r v)
    else .ok (s.follow e 3 (.c r v))
  | .st l tags f => .ok ((s.setCellOf e.ag (c.putMasked l tags)).orFlagsOf e.ag f)
  | .scat l f => .ok ((s.setCellOf e.ag (c.putMasked l [])).orFlagsOf e.ag f)
  | .vld r et desc refs late =>
    let g := c.gather et desc refs
    .ok (s.follow e (if late then 10 else 3) (.v r g.2 g.1))
  | .banks => .ok s
  | .mfill o l off => .ok (s.follow e 3 (.slotLine o l (c.line256 off)))
  | .send dst off first => .ok (s.sendLine e dst off first)
  | .recv src off => s.recvLine e src off
  | .cpyn i id off => s.ndStart e i id off
  | .qbind i q off => match s.qbindRead e.ag e.pc i off with
    | .error f => .bad f
    | .ok (l, cap) => .ok (s.follow e 1 (.qset q l cap))
  | .pop q o l => s.popNow e q (fun v f s => (s.follow e 5 (.slotLine o l v)).followFlags e 5 f)
  | .vpop q r => s.popNow e q (fun v f s => (s.follow e 4 (.v r (BitVec.allOnes 64) v)).followFlags e 4 f)
  | .freeze g => .ok (s.doFreeze g)
  | .thaw g mode => .ok (s.doThaw g mode)
  | .csr n v => .ok (s.csrWrite e.ag.unit n v)
  | .eret => .ok (s.setStew e.ag.unit (s.stew e.ag.unit).eret)
  | .extent g slot r => .ok (s.setGang g { s.gang g with extents := NMap.put (s.gang g).extents slot r })

/-! ### The checks of R35 on a gang cycle -/

/-- What a write collides on: class, unit and number; none for effects that are no register or mailbox writes. -/
def Eff.target (e : Eff) : Option (Nat × Nat × Nat) :=
  let strm := 4 * e.ag.cell + e.ag.kind.idx
  match e.act with
  | .x r _ => if r = 0 then none else some (0, strm, r)
  | .c r _ => if r = 0 then none else some (1, strm, r)
  | .mail n _ => some (2, e.ag.cell, n)
  | .v r m _ => if m = 0 then none else some (3, e.ag.cell, r)
  | .p r _ => if r = 0 then none else some (4, e.ag.cell, r)
  | .vsh _ => some (5, e.ag.cell, 0)
  | .vl _ => some (5, e.ag.cell, 0)
  | .msh _ => some (6, e.ag.cell, 0)
  | .mmode _ => some (7, e.ag.cell, 0)
  | _ => none

/-- Lines of `n` bytes from a scratchpad offset. -/
def offLines (off n : Nat) : List Nat := span (off / 64) ((off + n + 63) / 64 - off / 64)

/-- Scratchpad lines that an effect accesses on its cycle (R34); the window of VGATH and VSCAT holds every bank under
line numbers of its own (R260). -/
def Eff.lines (e : Eff) : List Nat :=
  match e.act with
  | .ld off n _ _ => offLines off n
  | .ldc off _ _ => offLines off 16
  | .st l _ _ => (l.map (fun w => w.off / 64)).eraseDups
  | .vld _ et desc refs late =>
    if late then [] else (refs.flatMap (fun r => offLines r.off (elemBytes (elemBits et desc)))).eraseDups
  | .banks => span (2 ^ 20) 64
  | .mfill _ _ off => offLines off 256
  | .send _ off _ => offLines off 64
  | .recv _ off => offLines off 64
  | .cpyn _ _ off => offLines off 128
  | .qbind _ _ off => offLines off 128
  | _ => []

/-- The memory error that an effect meets in its cell: a line that it reads or writes in part, an accumulator element that it adds
to (R405). -/
def Cell.eccFault (c : Cell) (e : Eff) : Option Flt :=
  if c.bad = [] then none
  else match e.act with
    | .st l _ _ => c.spmFault ((WByte.touched l).filter (fun n => !WByte.fills l n))
    | .scat l _ => c.spmFault ((WByte.touched l).filter (fun n => !WByte.fills l n))
    | .vld _ et desc refs _ => c.spmFault (refs.flatMap (fun r => offLines r.off (elemBytes (elemBits et desc))))
    | .banks => none
    | .recv _ _ => none
    | .mma t => if t.zr then none else c.wordFault t.accWords
    | _ => c.spmFault e.lines

/-- Two effects of one instruction. -/
def Eff.same (e f : Eff) : Bool := decide (e.ag = f.ag) && e.pc == f.pc && e.iss == f.iss

/-- The first bank in which two effects conflict: different lines, or different instructions (R35). -/
def Eff.meets (e f : Eff) : Option Nat :=
  if e.ag.cell ≠ f.ag.cell then none
  else (e.lines.find? (fun l => f.lines.any (fun m => m % 64 == l % 64 && (l != m || !e.same f)))).map (· % 64)

/-- The first bank in which the lines of one effect conflict. -/
def Eff.selfMeets (e : Eff) : Option Nat :=
  (e.lines.find? (fun l => e.lines.any (fun m => m % 64 == l % 64 && l != m))).map (· % 64)

/-- The cell and pattern stream of a pop. -/
def Eff.pops (e : Eff) : Option (Nat × Nat) := e.act.popOf.map (fun q => (e.ag.cell, q))

/-- Two pops of one stream on one gang cycle (R131). -/
def Eff.popsWith (e f : Eff) : Bool := e.pops.isSome && e.pops == f.pops && e.due == f.due

/-- The timetable faults of an effect against the effects before it (R35). -/
def Eff.clash (e : Eff) (before : List Eff) : Option Flt :=
  let w := if before.any e.popsWith then some (timeFlt .busy ((e.pops.map (·.2)).getD 0) e.ag.cell) else match e.target with
    | none => none
    | some k => if before.any (fun f => f.target == some k) then some (timeFlt .write k.2.2 e.ag.cell) else none
  let b := match e.selfMeets with
    | some b => some b
    | none => before.findSome? (fun f => e.meets f)
  match w with
  | some f => some f
  | none => b.map (fun b => timeFlt .bank b e.ag.cell)

/-- The effects of a stream that are due, a write of fflags first (R74). -/
def dueOf (l : List Eff) (a : Agent) : List Eff :=
  let ff (e : Eff) : Bool := match e.act with
    | .fflags _ => true
    | _ => false
  let m := l.filter (fun e => decide (e.ag = a))
  m.filter ff ++ m.filter (fun e => !ff e)

/-- The timetable faults of the effects of a gang cycle, each against those before it (R35). -/
def clashes : List Eff → List Eff → List (Eff × Flt)
  | _, [] => []
  | before, e :: l => match e.clash before with
    | some f => (e, f) :: clashes (before ++ [e]) l
    | none => clashes (before ++ [e]) l

/-- A gang cycle's effects carried out in R36's order: the state, the effects that wait or fault, the faults. -/
def State.actAll (s : State) : List Eff → State × List Eff × List (Eff × Flt)
  | [] => (s, [], [])
  | e :: l => match s.act e with
    | .ok s => s.actAll l
    | .keep s =>
      let r := s.actAll l
      (r.1, e :: r.2.1, r.2.2)
    | .bad f =>
      let r := s.actAll l
      (r.1, e :: r.2.1, (e, f) :: r.2.2)

/-- Faults of one wall cycle hold the gang: the first in R36's order is reported, the others go to the pending mask; of
one stream the first counts. -/
def State.holdAll (s : State) (g : Nat) (l : List (Agent × Word × Flt)) : State :=
  ((gangAgents g).filterMap (fun a => l.find? (fun e => decide (e.1 = a)))).foldl (fun s e => s.raiseAt e.1 e.2.1 e.2.2) s

/-- The banks that the due effects of a cell use. -/
def banksOf (l : List Eff) (cell : Nat) : List Nat :=
  ((l.filter (fun e => e.ag.cell == cell)).flatMap (fun e => e.lines.map (· % 64))).eraseDups

/-- The effects of the current gang cycle carried out: the state after them, in which an effect that waits for its pop
stands before all others, and the effects that fault on a check of the timetable or on their own (R32, R35, R36). -/
def State.performGang (s : State) (g : Nat) : State × List (Eff × Flt) :=
  let q := s.gang g
  let due := (gangAgents g).flatMap (dueOf (q.pend.filter (fun e => decide (e.due ≤ q.gc))))
  let rest := q.pend.filter (fun e => !decide (e.due ≤ q.gc))
  let r := (s.setGang g { q with pend := [] }).actAll due
  let q := r.1.gang g
  let cells := q.cells.map (fun (i, c) => (i, { c with banksNow := banksOf due i }))
  let ecc := due.filterMap (fun e => ((s.cellOf e.ag).eccFault e).map (e, ·))
  (r.1.setGang g { q with pend := r.2.1 ++ rest ++ q.pend, done := true, cells := cells }, clashes [] due ++ ecc ++ r.2.2)

/-- The vector and matrix operations in flight in a stopped pour perform, those due first first (R52 step 2). -/
def State.finishOps (s : State) (g : Nat) : Nat → State
  | 0 => s
  | k + 1 =>
    let q := s.gang g
    match q.pend.filter Eff.engine with
    | [] => s
    | e :: l =>
      let d := l.foldl (fun m f => min m f.due) e.due
      let now (f : Eff) : Bool := f.engine && decide (f.due ≤ d)
      let s := s.setGang g { q with pend := q.pend.filter (fun f => !now f) }
      ((q.pend.filter now).foldl (fun s f => match s.act f with
        | .ok s => s
        | _ => s) s).finishOps g k

/-- Every bank of a held gang is free to landings (R34). -/
def State.freeBanks (s : State) (g : Nat) : State :=
  let q := s.gang g
  s.setGang g { q with cells := q.cells.map (fun (i, c) => (i, { c with banksNow := [] })) }

/-! ### Stewards -/

/-- The effects of a steward that are due on the current wall cycle perform, oldest first. -/
def State.performStew (s : State) (n : Nat) : State :=
  let t := s.stew n
  let due := t.pend.filter (fun e => decide (e.due ≤ s.wall))
  if due.isEmpty then s
  else
    let s := s.setStew n { t with pend := t.pend.filter (fun e => !decide (e.due ≤ s.wall)) }
    due.foldl (fun s e => match (s.cellOf e.ag).eccFault e with
      | some f => s.raiseAt e.ag e.pc f
      | none => match s.act e with
        | .ok s => s
        | .keep s => s
        | .bad f => s.raiseAt e.ag e.pc f) s

end Sys2Proof.Machine
end

