-- ==== Sys2Proof/Machine/Fetch.lean ====
section
/-!
DEFINITION. Which stream issues next, the fetch of its word and its decoding (R31, R99, R184, R185, R202, R316).
-/
namespace Sys2Proof.Machine

/-- The map that decodes the words of a stream (R184). -/
def mapOf (a : Agent) : IMap := match a.kind with
  | .seq => .seq a.stew a.cell
  | .vec => .vec
  | .mat => .mat
  | .ladle => .ladle a.stew

/-- The pieces of memory that hold the word at a stream's program counter: a gang's code is translated by the page tables
of its partition, a steward's addresses are physical (R351, R432); a page that is not resident is an extent miss, a frame that is
retired or not backed a translation fault (R365, R399). The counter need not be a multiple of 4 (log entry 26). -/
def State.codePieces (s : State) (a : Agent) (pc : Nat) : Except Flt (List Piece) :=
  if a.stew then match s.physPiece pc 4 4 false with
    | .error f => .error f
    | .ok p => .ok [p]
  else (cutPages pc 4 2).foldr (fun (v, m) acc =>
    let w := s.walkTables (s.partOf a) v
    let pa := leafPa w.leaf w.size v
    if w.resident = false then .error ⟨5, 0, pc, accInfo 4 false, 0⟩
    else if s.frameGone pa then .error ⟨6, 0, pc, accInfo 4 false, 0⟩
    else acc.map (fun l => ⟨v, pa, m, leafAttr w.leaf pa⟩ :: l)) (.ok [])

/-- The word at the program counter of a stream: the fetch check of R99, then the word already fetched, else the bytes. The
bounds are those of pcc as it was loaded: a branch leaves them unchanged (R211). -/
def State.fetchWord (s : State) (a : Agent) : Except Flt Nat :=
  let t := s.streamOf a
  let pc := t.pc.toNat
  match capCheck t.pcc pc 4 1 [.ex], t.word with
  | some e, _ => .error (capFlt e pc)
  | none, some w => .ok w
  | none, none => match s.codePieces a pc with
    | .error f => .error f
    | .ok ps =>
      let c := s.checkLines ps false a.cache
      match c.2 with
      | some f => .error f
      | none => .ok (ofLE (ps.flatMap (fun p => c.1.readBytes p.pa p.len)))

/-- A running stream whose next word has not been fetched fetches it (R202; the time is log entry 26). -/
def State.latchWord (s : State) (a : Agent) : State :=
  let t := s.streamOf a
  if t.run = false ∨ t.word.isSome then s
  else match s.fetchWord a with
    | .ok w => s.setStreamOf a { t with word := some w }
    | .error _ => s

/-- The instruction at the program counter of a stream, or the fault of the first check of R184 that fails. -/
def State.fetch (s : State) (a : Agent) : Except Flt Instr :=
  match s.fetchWord a with
  | .error f => .error f
  | .ok w => match decode (mapOf a) w with
    | .ok i => .ok i
    | .error e => .error ⟨1, e.code, (s.streamOf a).pc.toNat, w, 0⟩

/-- The fetch, with the walk that it takes, as accesses of the stream's die to its L2 (R420). -/
def State.fetchTouch (s : State) (a : Agent) : State :=
  match s.codePieces a (s.streamOf a).pc.toNat with
  | .error _ => s
  | .ok ps =>
    let s := if a.stew then s else s.walkLook a.cache (s.partOf a) (s.streamOf a).pc.toNat
    if s.ready a.cache false ps then (s.checkLines ps false a.cache).1.touchFor a false ps else s

/-- A fetch that fails records what its line has met (R403). -/
def State.fetchFail (s : State) (a : Agent) : State :=
  match s.codePieces a (s.streamOf a).pc.toNat with
  | .error _ => s
  | .ok ps => (s.checkLines ps false a.cache).1

/-! ### Which stream issues (R31, R36, R316) -/

/-- A register write in flight towards x register `r`, or c register `r`, of a stream. -/
def Act.writesX (r : Nat) : Act → Bool
  | .x k _ => k == r
  | .ld _ _ _ k => k == r
  | _ => false
def Act.writesC (r : Nat) : Act → Bool
  | .c k _ => k == r
  | .ldc _ _ k => k == r
  | _ => false

/-- An outstanding operation will write an x register, or a c register, of the stream. -/
def State.opWrites (s : State) (a : Agent) (c : Bool) (r : Nat) : Bool :=
  s.ops.any (fun e => decide (e.2.ag = a) &&
    (if c then e.2.k.dest.2.contains r || (opDest e.2.i).2.any (fun d => d.toNat == r)
     else e.2.k.dest.1.contains r || (opDest e.2.i).1.any (fun d => d.toNat == r)))

/-- The mailbox that an instruction reads has a write of the steward in flight (R119, R316). -/
def State.mailWrites (s : State) (n : Nat) : Instr → Bool
  | .mbget _ _ k => (s.stew n).pend.any (fun e => match e.act with
      | .mail j _ => j == k.toNat
      | _ => false)
  | _ => false

/-- Every register that a steward's next instruction reads has performed (R316). -/
def State.operandsIn (s : State) (a : Agent) : Bool :=
  let p := (s.stew a.unit).pend.filter (fun e => decide (e.ag = a))
  match s.fetch a with
  | .error _ => true
  | .ok i =>
    (xReads i).all (fun r => r == 0 || !(p.any (fun e => e.act.writesX r.toNat) || s.opWrites a false r.toNat))
      && (cReads i).all (fun r => r == 0 || !(p.any (fun e => e.act.writesC r.toNat) || s.opWrites a true r.toNat))
      && !s.mailWrites a.unit i

/-- The streams of the four stewards, in order (R20). -/
def stewAgents : List Agent := stewards.flatMap (fun n => [stewSeq n, ⟨true, n, 0, .ladle⟩])

/-- A stream of a steward issues on this wall cycle (R316, R321, R322). -/
def State.stewDue (s : State) (a : Agent) : Bool :=
  let t := s.streamOf a
  t.run && !(s.stew a.unit).halt && !t.wfe && t.stall.isNone && decide (s.nextIssue a ≤ s.wall) && s.operandsIn a

/-- A stream of a gang issues on the gang's current cycle (R31, R37). -/
def State.gangDue (s : State) (a : Agent) : Bool :=
  let t := s.streamOf a
  t.run && decide (t.wait = .none) && decide (s.nextIssue a ≤ (s.gang a.unit).gc)

/-- The streams of a gang that issue on its current cycle, in R36's order. -/
def State.issuers (s : State) (g : Nat) : List Agent :=
  let q := s.gang g
  if q.live ∧ q.done ∧ q.stage = .none then (gangAgents g).filter s.gangDue else []

/-- The stream of a gang that issues next: the cycle of its gang has begun. -/
def State.gangIssuer (s : State) : Option Agent :=
  (s.gangs.filter (fun e => e.2.live && e.2.done)).findSome? (fun e => (s.issuers e.1).head?)

/-- The steward's stream that issues next on this wall cycle. -/
def State.stewIssuer (s : State) : Option Agent := stewAgents.find? s.stewDue

/-- A steward whose next instruction is SWEEP OPEN issues it before anything else of the wall cycle: the load barrier is in
force for the whole of that cycle (R372, R376). -/
def State.opener (s : State) : Option Agent :=
  stewAgents.find? (fun a => s.stewDue a && (match s.fetch a with
    | .ok (.sweepOpen _ _) => true
    | _ => false))

end Sys2Proof.Machine
end

