-- ==== Sys2Proof/Machine/Turn.lean ====
section
/-!
DEFINITION. What one step does around `exec`: the script of inputs, the checks of a gang cycle, the issue of one
instruction, the events of the package's own units, the end of a wall cycle (R30 to R43, R321, R430; log entries 1, 2).
-/
namespace Sys2Proof.Machine

/-! ### Issue (R31, R36, R184) -/

/-- One stream issues the instruction at its program counter; the word that SKIP names issues as NOP (R327). -/
def State.issue (s : State) (a : Agent) : Res :=
  let s := { s with cur := a }
  let g := s.gang a.unit
  if a.stew = false ∧ g.skip = some a then .next (s.setGang a.unit { g with skip := none }).advance
  else match s.fetch a with
    | .error f => .next ((s.fetchFail a).raise f)
    | .ok i => exec i (s.fetchTouch a)

/-- The issues of a gang cycle tried in order: the state after those that pass and the faults of the others. -/
def State.tryIssues (s : State) : List Agent → State × List (Agent × Word × Flt)
  | [] => (s, [])
  | a :: l =>
    let t := resState s (s.issue a)
    let q := t.gang a.unit
    if q.held then
      let r := s.tryIssues l
      (r.1, (a, (s.streamOf a).pc, q.frec.flt) :: r.2)
    else t.tryIssues l

/-- The stream issues a RECV: its checks of line 0 are made before any instruction issues, and its other faults leave an
arrival without its RECV (R36, R231). -/
def State.recvFault (s : State) (f : Agent × Word × Flt) : Bool :=
  match s.fetch f.1 with
  | .ok (.recv _ _ _ d _) =>
    f.2.2.cause == 4 || ((s.gang f.1.unit).arrival d.toNat f.1.cell).isSome
  | _ => false

/-- Lines that arrive on the current gang cycle and that no RECV has accepted (R45). -/
def State.unmet (s : State) (g : Nat) : List (Agent × Word × Flt) :=
  ((s.gang g).arrivals.filter (fun l => decide (l.due ≤ (s.gang g).gc))).map (fun l =>
    (l.ag, l.pc, timeFlt .unmatched l.src l.dst))

/-- What trying a gang cycle gives: the state after its effects; the effects that fault; the faults of its accesses, writes and
arrivals, line 0 of a RECV among them, and of an alignment wait that is over; the faults of its issues (R35, R36, R38). -/
structure Trial where
  after : State
  bad : List (Eff × Flt)
  early : List (Agent × Word × Flt)
  issues : List (Agent × Word × Flt)

/-- A gang cycle tried: its effects carried out, its issues tried. -/
def State.trial (s : State) (g : Nat) : Trial :=
  let r := s.performGang g
  let i := r.1.tryIssues (r.1.issuers g)
  ⟨r.1, r.2, r.2.map (fun e => (e.1.ag, e.1.pc, e.2)) ++ s.lateFaults g ++ i.2.filter r.1.recvFault ++ i.1.unmet g, i.2⟩

/-- The faults that hold the gang: those of its issues only when it has no other. -/
def Trial.faults (t : Trial) : List (Agent × Word × Flt) := if t.early.isEmpty then t.issues else t.early

/-- Faults hold a gang on the current wall cycle, its gang cycle not begun: it begins anew when the hold ends (R36). -/
def State.holdCycle (s : State) (g : Nat) (e : List (Eff × Flt)) (l : List (Agent × Word × Flt)) : State :=
  let t := (s.freeBanks g).holdAll g l
  let q := t.gang g
  let hit (e : Eff × Flt) : Bool := e.1.ag.rank == 4 * q.frec.cell + q.frec.stream && e.2 == q.frec.flt
  t.setGang g { q with done := false, frec := { q.frec with iss := ((e.find? hit).map (·.1.iss)).or q.frec.iss } }

/-- A gang cycle begins: its effects have performed and its streams may issue, or its faults hold the gang with nothing
performed and nothing issued. -/
def State.beginCycle (s : State) (g : Nat) : State :=
  let t := s.trial g
  match t.faults with
  | [] => t.after
  | l => s.holdCycle g t.bad l

/-! ### Events that are due (log entry 1) -/

/-- An event offered to a step. -/
abbrev Offer := State → Res

/-- The event holds a gang whose cycle has begun: it waits for the next wall cycle, where it comes before that gang's cycle, so
that a fault holds the gang with nothing of the cycle performed or issued (R36; log entry 1). -/
def State.tooLate (s : State) (r : Res) : Bool :=
  s.gangs.any (fun e => e.2.live && e.2.done && ((resState s r).gang e.1).held)

/-- The first offer that changes the state. -/
def State.firstChange (s : State) : List Offer → Option Res
  | [] => none
  | f :: l => match f s with
    | .next t => if t = s ∨ s.tooLate (.next t) then s.firstChange l else some (.next t)
    | r => some r

/-- What a gang's own clocks and engines do when they are due. -/
def State.gangOffers (s : State) (g : Nat) (q : Gang) : List Offer :=
  (if q.held ∧ q.frec.told = false then [execGfaultNotify g] else [])
    ++ (if q.pour.isSome ∧ s.retires g then [execPourRetirement g] else [])
    ++ (match q.stage with
      | .none => []
      | .drain _ _ => [execYieldDrainComplete g]
      | .save _ _ _ => [fun (s : State) => .next (s.saveChunk g), execContextSaveComplete g]
      | .restore _ => [fun (s : State) => .next (s.restoreChunk g), execContextRestoreComplete g])
    ++ (if q.cancelAt.any (fun t => decide (t ≤ s.wall)) then [fun (s : State) => .next (s.finishOps g 4096)] else [])
    ++ (if q.sweeping ∧ q.sweepAt = none then [fun (s : State) => .next (s.sweepLanded g)] else [])
    ++ (if q.sweeping then [execRegisterSweepEnd g] else if s.unswept g then [execRegisterSweepStart g] else [])

/-- What the open epoch does next (R372 to R376). -/
def State.epochOffers (s : State) : List Offer :=
  match s.tr.epoch.phase with
  | 0 => []
  | 1 => [execEpochSettle]
  | 2 => [execEpochFettle]
  | _ => [execFettlerVisit] ++ [execEpochEnd]

/-- Ends of cancelled and faulted levels (R52, R53). -/
def State.endOffers (s : State) : List Offer :=
  (s.cup.launches.filter (fun e => e.2.ending.isSome)).flatMap (fun e => [execCancelComplete 0 e.1])
    ++ (s.cup.graphs.filter (fun e => e.2.ending)).flatMap (fun e => [execCancelComplete 1 e.1])
    ++ (s.cup.sessions.filter (fun e => e.2.ending)).flatMap (fun e => [execCancelComplete 2 e.1])

/-- Partitions with a launch that is not finished. -/
def State.activeParts (s : State) : List Nat :=
  ((s.cup.launches.filter (fun e => !e.2.status.final)).map (·.2.part)).eraseDups

/-- Pre-emption requests, then placements (R348, R350, R355). -/
def State.placeOffers (s : State) : List Offer :=
  s.activeParts.flatMap (fun p => [execPreemptionRequest p, execPourPlacement p])

/-- The planning interval ends with what the sensors give: free values, the temperature below that of the thermal reset (R354,
R434; log entries 3, 58). -/
def State.interval (s : State) : Res :=
  let ss := ((s.cup.launches.filter (fun e => e.2.next ≠ 0)).map (·.2.session)).eraseDups
  let v (i : Nat) : Nat := (Config.freeWord (s.fresh + i)).toNat
  let charges := (ss.zip (List.range ss.length)).map (fun e => (e.1, v (2 + e.2)))
  execPlanningInterval charges (v 0 % 2 ^ 32) (v 1 % 110) { s with fresh := s.fresh + 2 + ss.length }

/-- Leases, ticks and holders (R172, R395 to R397). -/
def State.leaseOffers (s : State) : List Offer :=
  (if s.cru.nodes.any (fun e => !e.2.leases.isEmpty) then [fun (s : State) => .next s.pumpLeases] else [])
    ++ s.cru.nodes.flatMap (fun e =>
      (if e.2.timed.isSome then [execTimedLeaseExpiry e.1] else [])
        ++ e.2.leases.flatMap (fun l => [execTransferLeaseExpiry e.1 l.dev l.tx]))
    ++ (if 4096 ≤ (s.tick + 2 ^ 32 - s.cru.renewed) % 2 ^ 32 then [execRenewPeriod] else [])
    ++ s.holderDevs.map (fun d => execHolderTimeout d)
    ++ s.cru.xacts.flatMap (fun e => [execRemoteAnswerTimeout e.1])

/-- Memory, coherence and slices (R357, R366, R388, R407). -/
def State.memoryOffers (s : State) : List Offer :=
  (if s.tr.gath ≠ [] then [execFaultBatchAge] else [])
    ++ (if s.tr.held.isSome then [execFaultBatchWrite] else [])
    ++ (match s.hbm.rateBusy with
      | some t => if t ≤ s.wall then [execHmRateSwitchEnd] else []
      | none => [])
    ++ (s.coh.waking.filter (fun e => decide (e.2 ≤ s.wall))).flatMap (fun e => [execSliceWake e.1])
    ++ (s.coh.lines.filter (fun e => e.2.txn.isSome)).flatMap (fun e => [execProbeTimeout e.1])
    ++ (if s.cup.sliceReq.isSome then [execSliceReassignComplete] else [])

/-- Timeouts of the transport (R415). -/
def State.linkOffers (s : State) : List Offer :=
  (if s.net.txWait = [] then [] else [fun (s : State) => .next s.drainPorts])
    ++ s.net.ctx.flatMap (fun e =>
      (if e.2.unacked ≠ [] then [execResendTimeout e.1] else [])
        ++ (if e.2.rnrUntil.isSome then [execRnrWaitExpiry e.1] else []))
    ++ ((s.net.heldPkts.map (·.pkt.src)).eraseDups).flatMap (fun d => [execContextFetchTimeout d])
    ++ ((s.net.waitPkts.map (·.pkt.src)).eraseDups).map (fun d => fun (s : State) => .next (s.applyWaiting d))

/-- Submission rings whose doorbell has been written (R343). -/
def State.ringOffers (s : State) : List Offer :=
  (NMap.keys s.cup.rings).flatMap (fun r => [execRingLaunch r, execGopen r, execGclose r, execRingCancel r, execRingNop r])

/-- Copies that wait for a queue entry, and admitted copies whose requests have not been sent (R292, R302). -/
def State.copyOffers (s : State) : List Offer :=
  s.copies.flatMap (fun e =>
    if e.2.queued then [fun (s : State) => .next (s.takeQueue e.2.ag)]
    else if e.2.remote ∧ e.2.stride = 0 ∧ e.2.stopped = false ∧ e.2.ready then [fun (s : State) => .next (s.startRemote e.1 e.2)]
    else if e.2.pushes ∧ s.cancelling e.2.ag = false then [fun (s : State) => .next (s.pushWrite e.1)]
    else [])

/-- Everything that is due on the current wall cycle. -/
def State.dueOffers (s : State) : List Offer :=
  (if s.boot.lcChange then [fun (s : State) => .next s.lifeReset] else [])
    ++ (if s.boot.step = 7 ∧ s.boot.stepAt + readyCycles ≤ s.wall then [execReadyTimeout] else [])
    ++ (if s.wall / intervalCycles ≠ s.cup.interval then [State.interval] else [])
    ++ s.gangs.flatMap (fun e => s.gangOffers e.1 e.2)
    ++ (if s.coh.hostQ = [] then [] else [fun (s : State) => .next s.hostDrain])
    ++ s.epochOffers ++ s.ringOffers ++ s.endOffers
    ++ s.leaseOffers ++ s.memoryOffers ++ s.linkOffers ++ s.copyOffers

/-! ### Completions of variable length (R4, R42) -/

/-- The event that delivers a message of a line. -/
def msgEvent (l : Nat) : CMsg → Offer
  | .req .rds a p => execRds l a p
  | .req .rdx a p => execRdx l a p
  | .req .upg a p => execUpg l a p
  | .req .wbd a _ => execWbd l a
  | .req .wbe a _ => execWbe l a
  | .req .mwr _ _ => fun s => .next s
  | .inv a => execInv l a
  | .fwds o a => execFwds l o a
  | .fwdx o a => execFwdx l o a
  | .data a _ => execCoherenceData l a
  | .dataFrom _ a _ => execCoherenceData l a
  | .cmp a => execCmp l a
  | .invAck a _ _ _ => execInvack l a
  | .fwdAck o _ _ _ => execFwdack l o
  | .wbAck a => execWback l a
  | .bisnp inv false => if inv then execBisnpinv l else execBisnpdata l
  | .bisnp _ true => execBirsp l false

/-- The events that carry an outstanding operation on. -/
def opEvents (s : State) (id : Nat) (o : Op) : List Offer :=
  if s.wall ≤ o.wall then []
  else match o.k with
    | .crucible => [execCrucibleCompletion id]
    | .dispatch => [execCupolaAnswer id]
    | .ringHold _ => [execHomeAtomic id, execRingReport id]
    | .atomic _ _ _ => [execHomeAtomic id, execGlobalAccessReturn id]
    | .acas _ _ => [execHomeAtomic id, execGlobalAccessReturn id]
    | .ring _ _ => [execHomeAtomic id, execGlobalAccessReturn id]
    | _ => [execGlobalAccessReturn id]

/-- The events that carry a copy on: its next gap at each receiver, the next element of a scatter-add, its failure. -/
def copyEvents (s : State) (id : Nat) (c : Copy) : List Offer :=
  if s.wall ≤ c.wall ∨ c.queued ∨ c.stopped ∨ c.ready = false ∨ c.complete then []
  else
    (match c.kind with
    | .scadd _ esz _ =>
      (match (List.range (c.len / 2 ^ esz)).find? (fun j => c.fresh c.ag.cell (j * 2 ^ esz) (2 ^ esz)) with
      | some j => [execScaddReduction id j]
      | none => [])
    | _ => c.receivers.filterMap (fun r => (gapsFrom c.got r c.len 1 0).head?.map (fun e => execCopyLanding id r e.1 e.2)))
    ++ [execCopyFaultAfterIssue id]

/-- The events of a gang's pattern engines. -/
def patternEvents (g : Nat) (q : Gang) : List Offer :=
  if q.pour.isNone then [] else q.cells.flatMap (fun c => (c.2.qs.filter (fun t => t.2.st == 2 && decide (t.2.buf.length < 16))).map (fun t =>
    execPatternDecode g c.1 t.1))

/-- Outstanding operations in the order in which a home or the index takes those of one wall cycle (R149, R183). -/
def State.opsInOrder (s : State) : List (Nat × Op) :=
  s.ops.foldl (fun (acc : List (Nat × Op)) e =>
    acc.filter (fun d => decide (d.2.ag.key ≤ e.2.ag.key)) ++ e :: acc.filter (fun d => !decide (d.2.ag.key ≤ e.2.ag.key))) []

/-- The messages of a line in the order in which they arrive: of requests on one wall cycle that of die 0 comes first (R149,
R398). -/
def Line.arriving (v : Line) : List CMsg :=
  let later (m : CMsg) : Bool := match m with
    | .req _ a _ => a == 1
    | _ => false
  v.msgs.filter (fun m => !later m) ++ v.msgs.filter later

/-- Completions offered when the script of inputs names none (log entry 1). -/
def State.completions (s : State) : List Offer :=
  s.coh.lines.flatMap (fun e => e.2.arriving.map (msgEvent e.1))
    ++ s.opsInOrder.flatMap (fun e => opEvents s e.1 e.2)
    ++ s.wq.map (fun e => execGlobalStorePerform e.1)
    ++ s.copies.flatMap (fun e => copyEvents s e.1 e.2)
    ++ s.gangs.flatMap (fun e => patternEvents e.1 e.2)
    ++ s.drains.flatMap (fun e => if e.2.refused then [execDrainAddRefusal e.1] else match e.2.left with
      | i :: _ => [execDrainAddLanding e.1 i]
      | [] => [])
    ++ (List.range s.tr.mig.length).map execMigrationComplete
    ++ (s.cru.nodes.filter (fun e => e.2.demote.isSome)).map (fun e => execDemotionSwitch e.1)
    ++ (if s.net.revoking.isSome then [execExportRevocationComplete] else [])
    ++ ((s.net.heldPkts.map (·.pkt.src)).eraseDups).map execContextFetchComplete

/-- The answers of the cupola: a cancel that arrives on the wall cycle of a placement comes first (R358). -/
def State.cupolaOffers (s : State) : List Offer :=
  (s.ops.filter (fun e => e.2.k == .dispatch)).flatMap (fun e => opEvents s e.1 e.2)

/-- What the package does by itself now; pours are placed after all else of the wall cycle, so that of the gangs that become
free on it the lowest is taken (R358). -/
def State.offersNow (s : State) : List Offer :=
  (if s.scripted then s.dueOffers else s.cupolaOffers ++ s.dueOffers ++ s.completions)
    ++ s.placeOffers

/-! ### The end of a wall cycle (R41, R43, R321) -/

/-- What a satisfied HOLD on a barrier acquires: what the cell had done before the last BARRIVE counted (R126, R148). -/
def State.acquired (s : State) (e : CondE) : Option Acq :=
  match e.cond with
  | .barrier c b => (NMap.find (s.cellOf { e.ag with cell := c }).arr b).map (fun m => ⟨some c, m, s.nextId⟩)
  | _ => none

/-- The evaluation of a gang's pending set, then its watchdog (R41, R43). -/
def State.endGang (s : State) (g : Nat) : State :=
  let q := s.gang g
  if q.pour.isNone then s
  else
    let n := if q.live then 0 else if q.conds.isEmpty ∨ q.stopped ∨ q.paused then q.wdog else q.wdog + 1
    let acqs := (q.acqs ++ (q.conds.filter s.satisfied).filterMap (fun e => s.acquired e)).filter (fun a =>
      s.wq.any (fun e => e.2.ofGang g && decide (e.1 < a.mark)))
    let s := s.setGang g { q with conds := q.conds.filter (fun e => !s.satisfied e), wdog := n, acqs := acqs }
    resState s (execFreezeTimeout g s)

/-- The gang's clearing has ended (R30): its pour opens, an alignment point from which a sweep still due starts (R114), or its
restore begins (R49). -/
def State.opened (s : State) (g : Nat) : State :=
  let q := s.gang g
  match q.openAt with
  | none => s
  | some t =>
    if s.wall < t then s
    else match q.stage with
      | .restore _ => (s.setGang g { q with openAt := none }).startRestore g
      | _ =>
        let s := s.setGang g { q with openAt := none }
        if s.unswept g then s.startSweep g else s

/-- The banks are free again on a new wall cycle (R19). -/
def Cell.freshBanks (c : Cell) : Cell := if c.banksNow = [] then c else { c with banksNow := [] }

/-- The clock enable of the new wall cycle; a gang cycle that has passed counts (R41), and the streams fetch (R202). Every bank is
free on a wall cycle without clock enable, within the window of a VGATH or VSCAT too, so landings go on there: R34 frees the banks
of a frozen gang, R260 and R267 let landings wait for the window, and none says which holds (DESIGN CHOICE, log entry 86). -/
def State.clockGang (s : State) (g : Nat) : State :=
  let s := s.opened g
  let q := s.gang g
  let ce := q.pour.isSome && q.conds.isEmpty && !q.stopped && q.openAt.isNone
    && q.cancelAt.all (fun t => decide (s.wall < t))
  let q := { q with paused := q.stopped, cells := q.cells.map (fun (e : Nat × Cell) => (e.1, e.2.freshBanks)) }
  let s := s.setGang g (if q.live then { q with gc := q.gc + 1, done := false, live := ce } else { q with live := ce })
  if q.pour.isSome ∧ q.openAt.isNone then (gangAgents g).foldl State.latchWord s else s

/-- One wall cycle ends and the next begins. -/
def State.endWall (s : State) : State :=
  let gs := NMap.keys s.gangs
  let s := gs.foldl State.endGang s
  let s := stewards.foldl State.eventTurn s
  let s := if s.cup.launches = [] then s else s.updateWaits
  let s := s.dropWaits.dropRels
  let s := { s with wall := s.wall + 1, cru := { s.cru with turn := 0, regs := [] }, coh := { s.coh with turn := [] } }
  let s := if s.wall % 2 ^ 16 = 0 then resState s (execLeaseTick s) else s
  let s := s.strikes
  let s := gs.foldl State.clockGang s
  let s := stewards.foldl State.performStew s
  stewAgents.foldl State.latchWord s

/-! ### One step -/

/-- The next input of the script acts; only events of the outside do (log entry 2). -/
def State.takeInput (s : State) (i : Instr) (l : List (Nat × Instr)) : Res :=
  let s := { s with inputs := l }
  if (encode i).isNone then exec i s else .next s

/-- The device has no power: the script is passed over up to a power-on (R428). -/
def State.unpowered (s : State) : Res :=
  match s.inputs with
  | [] => .fault .noPower
  | (_, i) :: l => match i with
    | .powerOn => s.takeInput i l
    | _ => .next { s with inputs := l }

/-- A request of a die that comes before one of the other die, or of the host, for the same line on one wall cycle (R149, R382,
R398). -/
def Instr.comesBefore : Instr → Instr → Bool
  | i, j =>
    let who : Instr → Option (Nat × Nat) := fun
      | .rds l a _ => some (l, a)
      | .rdx l a _ => some (l, a)
      | .upg l a _ => some (l, a)
      | .memrd l _ _ => some (l, 2)
      | .memwr l _ _ => some (l, 2)
      | _ => none
    match who i, who j with
    | some (l, a), some (m, b) => l == m && decide (a < b)
    | _, _ => false

/-- The first input due of which `p` holds, with its wall cycle and the script without it. -/
def State.inputFor (s : State) (p : Instr → Bool) : List (Nat × Instr) → Option (Nat × Instr × List (Nat × Instr))
  | [] => none
  | (t, i) :: l =>
    if s.wall < t then none
    else if p i then some (t, i, l)
    else (s.inputFor p l).map (fun e => (e.1, e.2.1, (t, i) :: e.2.2))

/-- The first input of the script that may act, when its wall cycle has come; requests for one line on one wall cycle are taken in the order
of R149. -/
def State.dueInput (s : State) : Option (Instr × List (Nat × Instr)) :=
  match s.inputFor (fun i => !s.tooLate (s.takeInput i s.inputs)) s.inputs with
  | some (t, i, l) => match l.find? (fun e => e.1 == t && Instr.comesBefore e.2 i) with
    | some e => some (e.2, (t, i) :: l.erase e)
    | none => some (i, l)
  | none => none

/-- A gang's next cycle: an event due that would hold the gang comes first, with the faults that the cycle itself would meet;
otherwise the cycle begins (R36). -/
def State.startCycle (s : State) (g : Nat) : State :=
  let hit (r : Res) : Bool := ((resState s r).gang g).held
  let join (t : State) : State := t.holdCycle g (s.trial g).bad (s.trial g).early
  match s.inputFor (fun i => hit (s.takeInput i s.inputs)) s.inputs, s.offersNow.find? (fun f => hit (f s)) with
  | some (_, i, l), _ => join (resState s (s.takeInput i l))
  | none, some f => join (resState s (f s))
  | none, none => s.beginCycle g

/-- A gang whose current cycle has not begun. -/
def State.toPerform (s : State) : Option Nat := (s.gangs.find? (fun e => e.2.live && !e.2.done)).map (·.1)

/-- The rest of a wall cycle, the gangs' streams issued and its inputs taken: what the package does by itself, the issues of the
stewards one by one, the end of the cycle. -/
def State.goOn (s : State) : Res :=
  match s.firstChange s.offersNow with
  | some r => r
  | none => match s.stewIssuer with
    | some a => s.issue a
    | none => .next s.endWall

/-- One step of the machine. A wall cycle goes through a SWEEP OPEN, the gangs one after the other (the cycle's effects, then its
issues, in R36's order), the inputs, and the rest (log entry 1). -/
def State.turn (s : State) : Res :=
  if s.boot.powered = false then s.unpowered
  else match s.opener.or s.gangIssuer, s.toPerform, s.dueInput with
    | some a, _, _ => s.issue a
    | none, some g, _ => .next (s.startCycle g)
    | none, none, some (i, l) => s.takeInput i l
    | none, none, none =>
      if s.boot.step < 7 then .next s.bootStep
      else if s.boot.step = 9 then .next (if s.boot.lcChange then s.lifeReset else { s with wall := s.wall + 1 })
      else s.goOn

/-! ### A word placed where the next step fetches it (log entry 20) -/

/-- The word stands in memory at the program counter of steward 0's seq stream. -/
def State.withStewardWord (s : State) (w : Nat) : State :=
  let a := stewSeq 0
  let s := s.setStreamOf a { s.streamOf a with word := none }
  { s with cur := a, mem := putBytes 0 s.mem (s.streamOf a).pc.toNat (leBytes w 4) }

/-- Entries that map the first 2 MiB of partition 0's virtual space, by address (R359, R360). -/
def fetchTables : List (Nat × Nat) :=
  [(0x0, 0x1001), (0x1000, 0x2001), (0x2000, 0x3001), (0x3000, 0x4001), (0x4000, 0x200003)]

/-- Memory with those tables and the word at virtual address 0. -/
def fetchMem (m : NMap Byte) (w : Nat) : NMap Byte :=
  putBytes 0 (fetchTables.foldl (fun m e => putBytes 0 m e.1 (leBytes e.2 8)) m) 0x200000 (leBytes w 4)

/-- A cell in which one stream, if any, issues from virtual address 0 now, the others on the next gang cycle. -/
def fetchCell (k : Option Kind) : Cell :=
  { Cell.zero with streams := [Kind.seq, .vec, .mat, .ladle].map (fun j =>
      (j.idx, { Stream.zero with pcc := Cap.root, run := true, ready := if some j = k then 0 else 1 })) }

/-- Gang 0 holds a pour of partition 0 whose stream `k` of cell 0 is about to issue the word. -/
def State.withPourWord (s : State) (k : Kind) (w : Nat) : State :=
  let q : Gang :=
    { Gang.zero with pour := some ⟨0, 0, 0, 0, Cap.root⟩, live := true, done := true,
                     cells := [(0, fetchCell (some k)), (1, fetchCell none), (2, fetchCell none), (3, fetchCell none)] }
  { s with cur := ⟨false, 0, 0, k⟩, gangs := NMap.put s.gangs 0 q, mem := fetchMem s.mem w }

/-- The stream of a gang that a map belongs to; none for a steward's map. -/
def gangKind : IMap → Option Kind
  | .seq st _ => if st then none else some .seq
  | .ladle st => if st then none else some .ladle
  | .vec => some .vec
  | .mat => some .mat

end Sys2Proof.Machine
end

