-- ==== Sys2Proof/Machine/Step.lean ====
section
/-!
DEFINITION. One step of the machine, and the placing of a word where the next step fetches it.
-/
namespace Sys2Proof.Machine

/-- One step: one effect phase, one input, one event, one check phase, one issue, or the end of a wall cycle
(log entry 1). -/
def step (s : State) : Host.Outcome State Fault Refusal := s.turn

/-- The state in which the next step fetches and runs the word: steward 0 issues it where its map decodes it, else a
stream of gang 0 (log entry 20). -/
def State.withFetchWord (s : State) (nbits w : Nat) : State :=
  let v := w % 2 ^ nbits % 2 ^ 32
  match (firstMap v (tableMaps v)).bind (fun e => gangKind e.1) with
  | some k => s.withPourWord k v
  | none => s.withStewardWord v

end Sys2Proof.Machine
end

