-- ==== Sys2Proof/Safety.lean ====
section
/-!
DEFINITION. The terms in which the statements are made: what stands in flight, what the issue of an instruction leaves
alone, the form that memory keeps, and what a safe run is.
-/
namespace Sys2Proof.Machine

/-! ### Memory -/

/-- Memory is in canonical form: addresses rise strictly, and no byte equal to 0 is listed. -/
def Memory.wf (m : NMap Byte) : Bool := NMap.canon 0 m

/-- Every map of bytes and of tags outside the cells is in canonical form: memory, its tags, the slot payloads. -/
def State.memWf (s : State) : Bool := Memory.wf s.mem && NMap.canon false s.tags && Memory.wf s.cru.pay

/-! ### Runs -/

/-- The state after `n` steps, or none where a step stops. -/
def runN : Nat → State → Option State
  | 0, s => some s
  | n + 1, s => match step s with
    | .next t => runN n t
    | .fault _ => none
    | .refused _ => none

/-- A run of `n` steps is safe: no step of it stops, and memory keeps its canonical form at its end. -/
def SafeRun (n : Nat) (s : State) : Prop := ∃ t, runN n s = some t ∧ t.memWf = true

/-! ### Effects in flight and the issue of an instruction -/

/-- The effects in flight of the unit of the issuing stream: its gang, or its steward (R32). -/
def State.pending (s : State) : List Eff := if s.cur.stew then (s.stew s.cur.unit).pend else (s.gang s.cur.unit).pend

/-- The effects that the current instruction places: each with its latency after the issue cycle (R32, R33). -/
def State.effects (s : State) (l : List (Nat × Act)) : List Eff := l.map (fun e => ⟨s.now + e.1, s.cur, s.me.pc, e.2, s.wall⟩)

/-- What only the effects in flight and the issuing stream may differ in. Memory, its tags, the system registers, the
outstanding operations and every other part of the package are as before; so are every other gang and steward; of the
issuing unit only the effects in flight and the issuing cell differ, of that cell only the issuing stream. -/
structure IssueFrame (s t : State) : Prop where
  outside : t = { s with gangs := t.gangs, stews := t.stews }
  memory : ∀ a, t.readByte a = s.readByte a
  gangs : ∀ g, s.cur.stew = true ∨ g ≠ s.cur.unit → t.gang g = s.gang g
  stewards : ∀ n, s.cur.stew = false ∨ n ≠ s.cur.unit → t.stew n = s.stew n
  gang : s.cur.stew = false → t.gang s.cur.unit =
    { s.gang s.cur.unit with pend := (t.gang s.cur.unit).pend, cells := (t.gang s.cur.unit).cells }
  steward : s.cur.stew = true → t.stew s.cur.unit =
    { s.stew s.cur.unit with pend := (t.stew s.cur.unit).pend, cell := (t.stew s.cur.unit).cell }
  cells : ∀ c, c ≠ s.cur.cell →
    NMap.get Cell.zero (t.gang s.cur.unit).cells c = NMap.get Cell.zero (s.gang s.cur.unit).cells c
  cell : t.cell = { s.cell with streams := t.cell.streams }
  streams : ∀ k, k ≠ s.cur.kind → t.cell.stream k = s.cell.stream k

/-- The current instruction has placed effects and nothing else has changed: `t` is `s` with `l` in flight. -/
structure Placed (s t : State) (l : List (Nat × Act)) : Prop extends IssueFrame s t where
  me : t.me = s.me
  pending : t.pending = s.pending ++ s.effects l

/-- The current instruction has issued: its effects `l` are in flight, the stream goes on at `pc`, `cost` cycles later
than the next instruction's gap alone gives (R31, R211), every register still holds its old value, and nothing else has
changed; the next word is to be fetched (R202). -/
structure Issued (s t : State) (l : List (Nat × Act)) (pc : Word) (cost : Nat) (idle : Bool) : Prop
    extends IssueFrame s t where
  me : t.me = { s.me with pc := pc, ready := s.now + 1 + cost, first := false, idling := idle, word := none }
  pending : t.pending = s.pending ++ s.effects l

/-- The instruction completes: it issues with the effects `l` and the stream goes on at the next word. -/
def Completes (i : Instr) (s : State) (l : List (Nat × Act)) : Prop :=
  ∃ t, exec i s = .next t ∧ Issued s t l (s.me.pc + 4) 0 false

/-- The instruction completes into a vector register: on g + lat the lanes of `act` of v[d] take `val`, and the flags
`fl`, if any, are set (R74, R242). -/
def VecCompletes (i : Instr) (s : State) (lat d : Nat) (act : Word) (val : Nat → Lane) (fl : FFlags) : Prop :=
  ∃ img : Line256, (∀ k, k < 64 → act.toNat.testBit k = true → laneOf img k = val k) ∧
    Completes i s ((lat, .v d act img) :: if fl = 0 then [] else [(lat, .orFlags fl)])

/-- The instruction completes lane by lane: active lanes take the results of `f` and set its flags, inactive lanes set
none (R72, R74, R242). -/
def LaneCompletes (i : Instr) (s : State) (lat d : Nat) (act : Word) (f : Nat → Lane × FFlags) : Prop :=
  ∃ fl : FFlags,
    (∀ b, b < 6 → (fl.getLsbD b = true ↔ ∃ k, k < 64 ∧ act.toNat.testBit k = true ∧ (f k).2.getLsbD b = true)) ∧
    VecCompletes i s lat d act (fun k => (f k).1) fl

/-- The instruction completes into a predicate or mask: on g + lat the effect `w` makes of a 64-bit word whose bit k is
`f k`. -/
def MaskCompletes (i : Instr) (s : State) (lat : Nat) (act : Word → Act) (f : Nat → Bool) : Prop :=
  ∃ w : Word, (∀ k, k < 64 → w.toNat.testBit k = f k) ∧ Completes i s [(lat, act w)]

/-- The state in which the issuing stream waits for a new outstanding operation: a gang records the freeze condition, a
steward's stream stalls (R41, R316). What is not a load parts the loads around it (R151). -/
def State.sending (s : State) (o : Op) : State :=
  let s := if o.k.isLoad then s else s.setMe { s.me with snap := none }
  let q := { s with ops := NMap.put s.ops s.nextId o, nextId := s.nextId + 1 }
  if s.cur.stew then q.setMe { s.me with stall := some s.nextId }
  else q.setGang s.cur.unit { s.gang s.cur.unit with
    conds := (s.gang s.cur.unit).conds ++ [⟨.op s.nextId, s.cur, s.me.pc, s.wall, s.wall⟩] }

/-- The instruction completes its issue by sending the operation `o`, for which its stream waits. -/
def Sends (i : Instr) (s : State) (o : Op) : Prop :=
  ∃ t, exec i s = .next t ∧ Issued (s.sending o) t [] (s.me.pc + 4) 0 false

/-- The instruction completes as `Completes` says, from a state in which its other effects have happened at once. -/
def CompletesFrom (i : Instr) (s u : State) (l : List (Nat × Act)) : Prop :=
  ∃ t, exec i s = .next t ∧ Issued u t l (s.me.pc + 4) 0 false

/-- A new copy is listed under the next number at the end of its channel (R121). -/
def State.listed (s : State) (v : Copy) : State :=
  let ch := NMap.get Chan.zero s.cell.chans v.ch
  let q := s.setCell { s.cell with chans := NMap.put s.cell.chans v.ch { ch with copies := ch.copies ++ [s.nextId] } }
  { q with copies := NMap.put s.copies s.nextId v, nextId := s.nextId + 1 }

/-- The instruction does not issue and takes the fault (R36, R321). -/
def Faults (i : Instr) (s : State) (f : Flt) : Prop := exec i s = .next (s.raise f)

/-- The effects in flight of the unit of an agent. -/
def State.pendingOf (s : State) (a : Agent) : List Eff := if a.stew then (s.stew a.unit).pend else (s.gang a.unit).pend

/-- The operation has answered: it is outstanding no longer, and its results `l` are in flight, to perform five cycles
after its issue, for a steward five wall cycles after the answer (R33, R41, R316). -/
def Answered (s t : State) (id : Nat) (o : Op) (l : List Act) : Prop :=
  NMap.find t.ops id = none ∧
  t.pendingOf o.ag =
    s.pendingOf o.ag ++ l.map (fun a => ⟨(if o.ag.stew then s.wall else o.t0) + 5, o.ag, o.pc, a, s.wall⟩)

end Sys2Proof.Machine
end

