-- ==== Sys2Proof/Certificates/Slice0/Obligations.lean ====
section
/-!
DEFINITION. The statements for the provers. `s` is any state, `s.cur` its issuing stream, `g` any gap field; `Completes`,
`LaneCompletes`, `Sends`, `Issued` and `Answered` of Safety.lean say that the instruction issues or answers, with which
effects in flight, and that nothing else changes.
-/

open Sys2Proof Sys2Proof.Machine

/-! ### Integer and control instructions (R37, R194 to R198, R211 to R218, R226) -/

/-- R212, R213: the register form of every integer instruction writes x[d] on g + 1, a multiply on g + 3. R214: the
immediate forms write x[d] on g + 1; the shift amounts are 0 to 63. -/
def Obligations.IntegerResults : Prop :=
  (∀ (s : State) (g : BitVec 4) (d a b : BitVec 5),
     let x := s.rx a
     let y := s.rx b
     ∀ p ∈ ([(.add g d a b, 1, x + y), (.sub g d a b, 1, x - y), (.and g d a b, 1, x &&& y), (.or g d a b, 1, x ||| y),
         (.xor g d a b, 1, x ^^^ y), (.sll g d a b, 1, x <<< (y.toNat % 64)), (.srl g d a b, 1, x >>> (y.toNat % 64)),
         (.sra g d a b, 1, x.sshiftRight (y.toNat % 64)),
         (.slt g d a b, 1, if x.toInt < y.toInt then 1 else 0), (.sltu g d a b, 1, if x.toNat < y.toNat then 1 else 0),
         (.min g d a b, 1, if x.toInt ≤ y.toInt then x else y), (.max g d a b, 1, if x.toInt ≤ y.toInt then y else x),
         (.minu g d a b, 1, if x.toNat ≤ y.toNat then x else y), (.maxu g d a b, 1, if x.toNat ≤ y.toNat then y else x),
         (.mul g d a b, 3, BitVec.ofNat 64 (x.toNat * y.toNat)),
         (.mulh g d a b, 3, BitVec.ofInt 64 (x.toInt * y.toInt / 2 ^ 64)),
         (.mulhu g d a b, 3, BitVec.ofNat 64 (x.toNat * y.toNat / 2 ^ 64)),
         (.mulhsu g d a b, 3, BitVec.ofInt 64 (x.toInt * y.toNat / 2 ^ 64))] : List (Instr × Nat × Word)),
       Completes p.1 s [(p.2.1, .x d.toNat p.2.2)]) ∧
  (∀ (s : State) (g : BitVec 4) (d a : BitVec 5) (i : BitVec 11) (h : BitVec 6) (j : BitVec 16),
     let x := s.rx a
     let v := BitVec.ofInt 64 i.toInt
     ∀ p ∈ ([(.addi g d a i, x + v), (.andi g d a i, x &&& v), (.ori g d a i, x ||| v), (.xori g d a i, x ^^^ v),
         (.slti g d a i, if x.toInt < i.toInt then 1 else 0), (.sltiu g d a i, if x.toNat < v.toNat then 1 else 0),
         (.slli g d a h, x <<< h.toNat), (.srli g d a h, x >>> h.toNat), (.srai g d a h, x.sshiftRight h.toNat),
         (.lil g d j, BitVec.ofInt 64 j.toInt), (.lih g d j, (s.rx d <<< 16) ||| j.setWidth 64)] : List (Instr × Word)),
       Completes p.1 s [(1, .x d.toNat p.2)])

/-- R211, R216: a conditional branch that is taken goes on at its own address plus four times the offset, two cycles
later; one that is not taken goes on at the next word at no cost. Nothing else changes. R217, R218: JAL and JR write
the address of the next word and go on at the target two cycles later; LOOP counts its register down, goes back at no
cost while it was above 1, and leaves 0 behind at the end. -/
def Obligations.ControlTransfers : Prop :=
  (∀ (s : State) (g : BitVec 4) (a b : BitVec 5) (o : BitVec 11),
     let x := s.rx a
     let y := s.rx b
     ∀ p ∈ ([(.beq g a b o, decide (x = y)), (.bne g a b o, decide (x ≠ y)), (.blt g a b o, decide (x.toInt < y.toInt)),
         (.bge g a b o, decide (y.toInt ≤ x.toInt)), (.bltu g a b o, decide (x.toNat < y.toNat)),
         (.bgeu g a b o, decide (y.toNat ≤ x.toNat))] : List (Instr × Bool)),
       ∃ t, exec p.1 s = .next t ∧
         (p.2 = true → Issued s t [] (s.me.pc + BitVec.ofInt 64 (4 * o.toInt)) 2 false) ∧
         (p.2 = false → Issued s t [] (s.me.pc + 4) 0 false)) ∧
  (∀ (s : State) (g : BitVec 4) (d a : BitVec 5) (o : BitVec 16) (i : BitVec 11),
     (∃ t, exec (.jal g d o) s = .next t ∧
       Issued s t [(1, .x d.toNat (s.me.pc + 4))] (s.me.pc + BitVec.ofInt 64 (4 * o.toInt)) 2 false) ∧
     (∃ t, exec (.jr g d a i) s = .next t ∧
       Issued s t [(1, .x d.toNat (s.me.pc + 4))] ((s.rx a + BitVec.ofInt 64 (4 * i.toInt)) &&& ~~~ 3) 2 false) ∧
     (∃ t, exec (.loop g a o) s = .next t ∧
       (1 < (s.rx a).toNat →
         Issued s t [(1, .x a.toNat (s.rx a - 1))] (s.me.pc + BitVec.ofInt 64 (4 * o.toInt)) 0 false) ∧
       ((s.rx a).toNat ≤ 1 → Issued s t [(1, .x a.toNat 0)] (s.me.pc + 4) 0 false)))

/-- R194, R195, R197, R198, R119: NOP and HINT only advance; IDLE delays its successor by n cycles (n = 0 in the
immediate form is illegal); the flag and mailbox registers are read and written; the reserved bits of fflags are
ignored. R75, R226: TFENCE goes on when no selected stream has a flag with its trap enabled, and traps with cause 18
when one has; a mask of 0, and on ladle any mask but 8, is illegal. -/
def Obligations.SimpleInstructions : Prop :=
  (∀ (s : State) (g : BitVec 4) (k : BitVec 2) (z : BitVec 21) (n : BitVec 20) (d x : BitVec 5) (m : BitVec 4),
     Completes (.nop g) s [] ∧ Completes (.hint g k z) s [] ∧
     (n ≠ 0 → ∃ t, exec (.idleImm g n) s = .next t ∧ Issued s t [] (s.me.pc + 4) n.toNat true) ∧
     (n = 0 → ∃ f, f.cause = 1 ∧ f.sub = 1 ∧ f.faddr = s.me.pc.toNat ∧ Faults (.idleImm g n) s f) ∧
     (∃ t, exec (.idleReg g x) s = .next t ∧ Issued s t [] (s.me.pc + 4) ((s.rx x).toNat % 2 ^ 20) true) ∧
     Completes (.ffrd g d) s [(1, .x d.toNat s.me.fflags)] ∧
     Completes (.ffwr g x) s [(1, .fflags (s.rx x &&& 0x3F3F))] ∧
     Completes (.mbget g d m) s [(1, .x d.toNat (NMap.get 0 s.cell.mail m.toNat))] ∧
     (s.me.fencePend = none → Completes (.mbput g x m) s [(3, .mail m.toNat (s.rx x))])) ∧
  (∀ (s : State) (g m : BitVec 4),
     let legal := if s.cur.kind = .ladle then m = 8 else m ≠ 0
     let clear := ∀ k : Kind, m.toNat.testBit k.idx = true → trapped (s.cell.stream k).fflags = 0
     (legal → clear → Completes (.tfence g m) s []) ∧
     (legal → ¬ clear → ∃ f, f.cause = 18 ∧ Faults (.tfence g m) s f) ∧
     (¬ legal → ∃ f, f.cause = 1 ∧ f.sub = 1 ∧ f.faddr = s.me.pc.toNat ∧ Faults (.tfence g m) s f))

/-- R37, R39, R35: a stream of a gang that reaches ALIGN or RDV stops at the point with its next instruction unissued;
the last stream of an ALIGN opens the next window, in which every stream issues on gang cycle 0 with its gap ignored;
a stream whose tag or kind of point disagrees with one that waits already faults; a steward may not fetch either. -/
def Obligations.AlignmentPoints : Prop :=
  ∀ (s : State) (g : BitVec 4) (t : BitVec 8),
    (s.cur.stew = true → ∃ f, f.cause = 1 ∧ f.sub = 2 ∧ f.faddr = s.me.pc.toNat ∧ Faults (.align g t) s f) ∧
    (s.cur.stew = true → ∃ f, f.cause = 1 ∧ f.sub = 2 ∧ f.faddr = s.me.pc.toNat ∧ Faults (.rdv g) s f) ∧
    (s.cur.stew = false → s.cur.cell < 4 → ∀ p ∈ ([(.align g t, .align t.toNat), (.rdv g, .rdv)] : List (Instr × Wait)),
      let q := s.gang s.cur.unit
      let others : List Agent := (gangAgents s.cur.unit).filter (fun a => decide (a ≠ s.cur))
      let at1 := (s.setMe { s.me with wait := p.2 }).setGang s.cur.unit
        { (s.setMe { s.me with wait := p.2 }).gang s.cur.unit with awaitFrom := some (q.awaitFrom.getD q.gc) }
      ((∃ a ∈ others, (s.streamOf a).wait ≠ .none ∧ (s.streamOf a).wait ≠ p.2) → Faults p.1 s (timeFlt .mismatch 0 0)) ∧
      ((∀ a ∈ others, (s.streamOf a).wait = .none ∨ (s.streamOf a).wait = p.2) →
        ((∃ a ∈ others, (s.streamOf a).wait = .none) ∨ p.2 = .rdv → CompletesFrom p.1 s at1 []) ∧
        ((∀ a ∈ others, (s.streamOf a).wait = p.2) → p.2 ≠ .rdv → ∃ u, exec p.1 s = .next u ∧
          (u.gang s.cur.unit).base = q.gc + 1 ∧ (∀ a, u.readByte a = s.readByte a) ∧ u.me.pc = s.me.pc + 4 ∧
          (∀ a ∈ gangAgents s.cur.unit, (u.streamOf a).wait = .none ∧ (u.streamOf a).first = true ∧
            (u.streamOf a).ready = q.gc + 1 ∧ (u.streamOf a).x = (s.streamOf a).x ∧
            (u.streamOf a).c = (s.streamOf a).c))))

/-! ### Capability instructions (R94 to R106) -/

/-- R95, R96: the base and the top of a capability from its exponent, its two bounds fields and its address; with
exponent 0 every base and every length below 2^15 is exact, with a larger one both are multiples of 2^E; an address lies
in the representable region exactly when moving to it leaves the bounds as they are, and the top always does. -/
def Obligations.CapabilityBounds : Prop :=
  ∀ (c : Cap) (a : Word) (l : Nat),
    let e := c.e.toNat
    let b := c.b.toNat
    let lm := (c.t.toNat + 2 ^ 15 - b) % 2 ^ 15
    let g := 2 ^ 15 - lm
    let rb := (b + 2 ^ 15 - g / 2) % 2 ^ 15
    let amid := c.addr.toNat / 2 ^ e % 2 ^ 15
    let cb : Int := (if b < rb then 1 else 0) - (if amid < rb then 1 else 0)
    let moved : Cap := { c with addr := a }
    let exact : Cap := { c with b := BitVec.ofNat 15 a.toNat, t := BitVec.ofNat 15 (a.toNat + l), addr := a }
    (c.base : Int) = (((c.addr.toNat / 2 ^ (e + 15) : Nat) + cb) * 2 ^ 15 + b) * 2 ^ e % 2 ^ 64 ∧
    c.top = c.base + lm * 2 ^ e ∧
    (e ≤ 49 → c.top ≤ 2 ^ 64 + (2 ^ 15 - 1) * 2 ^ 49) ∧
    (e = 0 → l < 2 ^ 15 → exact.base = a.toNat ∧ exact.top = a.toNat + l) ∧
    (0 < e → c.base % 2 ^ e = 0 ∧ c.top % 2 ^ e = 0) ∧
    (c.inRegion a.toNat = true ↔ ((a.toNat : Int) - ((c.base : Int) - (g / 2 : Nat) * 2 ^ e)) % 2 ^ 64 < 2 ^ (e + 15)) ∧
    (moved.base = c.base ∧ moved.top = c.top ↔ c.inRegion a.toNat = true) ∧
    c.inRegion (c.top % 2 ^ 64) = true

/-- R101, R103: the capability queries write x[d] on g + 1. R102: the derivations of a capability write c[d] on g + 1,
or fault in the order of the rule's tests with the address of the source. A moved address keeps the tag inside the
representable region only. -/
def Obligations.CapabilityRegisterOperations : Prop :=
  (∀ (s : State) (g : BitVec 4) (d : BitVec 5) (c k : BitVec 4),
     let v := s.rc c
     ∀ p ∈ ([(.cgeta g d c, v.addr), (.cgetb g d c, BitVec.ofNat 64 v.base),
         (.cgetl g d c, BitVec.ofNat 64 (if v.top - v.base < 2 ^ 64 then v.top - v.base else 2 ^ 64 - 1)),
         (.cgetp g d c, BitVec.ofNat 64 v.perms.toNat), (.cgett g d c, if v.tag then 1 else 0),
         (.cgeto g d c, BitVec.ofNat 64 v.otype.toNat),
         (.ctsub g d c k, if v.tag ∧ (s.rc k).tag ∧ v.base ≤ (s.rc k).base ∧ (s.rc k).top ≤ v.top ∧
           (s.rc k).perms &&& ~~~ v.perms = 0 then 1 else 0)] : List (Instr × Word)),
       Completes p.1 s [(1, .x d.toNat p.2)]) ∧
  (∀ (s : State) (g d k : BitVec 4) (x : BitVec 5) (i : BitVec 12),
     let c := s.rc k
     let locked := c.tag = true ∧ c.otype ≠ 0
     let fault (j : Instr) (e : CapSub) : Prop := Faults j s (capFlt e c.addr.toNat)
     let moved (a : Word) : Cap := { c with addr := a, tag := c.tag && c.inRegion a.toNat }
     (∀ p ∈ ([(.cseta g d k x, moved (s.rx x)), (.cincaReg g d k x, moved (c.addr + s.rx x)),
         (.cincaImm g d k i, moved (c.addr + BitVec.ofInt 64 i.toInt)),
         (.candp g d k x, { c with perms := c.perms &&& (s.rx x).setWidth 16 })] : List (Instr × Cap)),
       (locked → fault p.1 .locked) ∧ (¬ locked → Completes p.1 s [(1, .c d.toNat p.2)])) ∧
     Completes (.cmov g d k) s [(1, .c d.toNat c)] ∧
     (∀ p ∈ ([(.csetb g d k x, encExact), (.csetbr g d k x, encInward)] : List (Instr × (Nat → Nat → Option Bounds))),
       let hi := c.addr.toNat + (s.rx x).toNat
       (c.tag = false → fault p.1 .tag) ∧
       (c.tag = true → c.otype ≠ 0 → fault p.1 .locked) ∧
       (c.tag = true → c.otype = 0 → 2 ^ 64 < hi → fault p.1 .subset) ∧
       (c.tag = true → c.otype = 0 → hi ≤ 2 ^ 64 → p.2 c.addr.toNat hi = none → fault p.1 .represent) ∧
       (∀ n, c.tag = true → c.otype = 0 → hi ≤ 2 ^ 64 → p.2 c.addr.toNat hi = some n →
         ((n.lo < c.base ∨ c.top < n.hi) → fault p.1 .subset) ∧
         (c.base ≤ n.lo → n.hi ≤ c.top → Completes p.1 s [(1, .c d.toNat (c.withBounds n))]))))

/-- R104: CLOCK locks an unlocked capability to the type that the authority's address names, CUNLOCK undoes it; each
checks its authority and, for the types the system reserves, SY. R106: a capability jump takes an unlocked or
return-locked capability that may execute its word; CJAL leaves the return capability, locked to type 3, in c[d]; the
stream goes on at the target two cycles later under the new code capability. -/
def Obligations.CapabilityLocksAndJumps : Prop :=
  (∀ (s : State) (g d k j : BitVec 4),
     let c := s.rc k
     let a := s.rc j
     let ty := a.addr.toNat
     let lock := Instr.clock g d k j
     let unlock := Instr.cunlock g d k j
     (c.tag = false → Faults lock s (capFlt .tag c.addr.toNat) ∧ Faults unlock s (capFlt .tag c.addr.toNat)) ∧
     (c.tag = true → c.otype ≠ 0 → Faults lock s (capFlt .locked c.addr.toNat)) ∧
     (c.tag = true → c.otype = 0 →
       (∀ e, capCheck a ty 1 1 [.lk] = some e → Faults lock s (capFlt e ty)) ∧
       (capCheck a ty 1 1 [.lk] = none →
         (ty = 0 ∨ 5 ≤ ty ∧ ty ≤ 255 ∨ 4095 < ty ∨ ty ≤ 4 ∧ a.has .sy = false → Faults lock s (capFlt .otype ty)) ∧
         (1 ≤ ty ∧ ty ≤ 4 ∧ a.has .sy = true ∨ 256 ≤ ty ∧ ty ≤ 4095 →
           Completes lock s [(1, .c d.toNat { c with otype := BitVec.ofNat 12 ty })]))) ∧
     (c.tag = true →
       (∀ e, capCheck a ty 1 1 [.ul] = some e → Faults unlock s (capFlt e ty)) ∧
       (capCheck a ty 1 1 [.ul] = none →
         (c.otype = 0 ∨ ty ≠ c.otype.toNat → Faults unlock s (capFlt .otype ty)) ∧
         (c.otype ≠ 0 → ty = c.otype.toNat →
           (ty ≤ 255 → a.has .sy = false → Faults unlock s (capFlt .otype ty)) ∧
           (256 ≤ ty ∨ a.has .sy = true → Completes unlock s [(1, .c d.toNat { c with otype := 0 })]))))) ∧
  (∀ (s : State) (g d k : BitVec 4),
     let c := s.rc k
     let u := { c with otype := 0 }
     let bad : Option CapSub := if c.otype ≠ 0 ∧ c.otype ≠ 3 then some .otype else capCheck u c.addr.toNat 4 1 [.ex]
     let link : Cap := { s.me.pcc with addr := s.me.pc + 4, otype := 3,
                                       tag := s.me.pcc.tag && s.me.pcc.inRegion (s.me.pc + 4).toNat }
     (bad = none → ∃ t, exec (.cjal g d k) s = .next t ∧
       Issued (s.setMe { s.me with pcc := u }) t [(1, .c d.toNat link)] c.addr 2 false) ∧
     (bad = none → ∃ t, exec (.cjr g k) s = .next t ∧ Issued (s.setMe { s.me with pcc := u }) t [] c.addr 2 false) ∧
     (∀ e, bad = some e → Faults (.cjal g d k) s (capFlt e c.addr.toNat) ∧ Faults (.cjr g k) s (capFlt e c.addr.toNat)))

/-! ### Loads, stores, atomics, fences and rings (R105, R117, R136, R144, R220 to R225) -/

/-- R220, R117, R98: a load whose bytes lie in the scratch window reads its bank on g + 2; a global one is sent, and
its stream waits; one that fails the access check, or lies in neither space, faults at its address. R221, R222, R117:
a store into the scratch window writes the low bytes of x[s] on g + 2; a global one is sent with its value and the
watermarks of its ordering, one for the package and wider scopes and one for each narrower scope (R139); a page that takes
no such write, and a failed check, fault. -/
def Obligations.LoadsAndStoresIssue : Prop :=
  (∀ (s : State) (g : BitVec 4) (d : BitVec 5) (c : BitVec 4) (o : BitVec 2) (e : BitVec 3) (f : BitVec 4),
     ∀ p ∈ ([(.ldb g d c o e f, 1, true), (.ldbu g d c o e f, 1, false), (.ldh g d c o e f, 2, true),
         (.ldhu g d c o e f, 2, false), (.ldw g d c o e f, 4, true), (.ldwu g d c o e f, 4, false),
         (.ldd g d c o e f, 8, false)] : List (Instr × Nat × Bool)),
       let n := p.2.1
       let a := ((s.rc c).addr + BitVec.ofInt 64 (f.toInt * n)).toNat
       let check := capCheck (s.rc c) a n 1 [.ld]
       (∀ x, check = some x → Faults p.1 s (capFlt x a)) ∧
       (check = none → spaceOf s.cur.scratch a n = .other → Faults p.1 s (capFlt .bounds a)) ∧
       (check = none → spaceOf s.cur.scratch a n = .scratch →
         Completes p.1 s [(2, .ld (a - scratchBase) n p.2.2 d.toNat)]) ∧
       (check = none → spaceOf s.cur.scratch a n = .global →
         (∀ x, s.piecesOf s.cur a n false = .error x → Faults p.1 s x) ∧
         (∀ ps, s.piecesOf s.cur a n false = .ok ps →
           Sends p.1 s { s.newOp (.load n p.2.2 d.toNat) p.1 with addr := a, pieces := ps }))) ∧
  (∀ (s : State) (g : BitVec 4) (x : BitVec 5) (c : BitVec 4) (o : BitVec 2) (e : BitVec 3) (f : BitVec 5),
     ∀ p ∈ ([(.stb g x c o e f, 1), (.sth g x c o e f, 2), (.stw g x c o e f, 4), (.std g x c o e f, 8)] :
         List (Instr × Nat)),
       let n := p.2
       let a := ((s.rc c).addr + BitVec.ofInt 64 (f.toInt * n)).toNat
       let check := capCheck (s.rc c) a n 1 [.st]
       (∀ y, check = some y → Faults p.1 s (capFlt y a)) ∧
       (check = none → spaceOf s.cur.scratch a n = .other → Faults p.1 s (capFlt .bounds a)) ∧
       (check = none → spaceOf s.cur.scratch a n = .scratch → s.me.fencePend = none →
         Completes p.1 s [(2, .st (wholeBytes (a - scratchBase) (leBytes (s.rx x).toNat n)) [] 0)]) ∧
       (check = none → spaceOf s.cur.scratch a n = .global →
         (∀ y, s.storePieces a n n = .error y → Faults p.1 s y) ∧
         (∀ ps, s.storePieces a n n = .ok ps →
           Sends p.1 s { s.newOp .store p.1 with
             addr := a, pieces := ps, val := s.rx x, val2 := BitVec.ofNat 64 n,
             relMark := if 2 ≤ o.toNat ∧ 4 ≤ e.toNat then s.nextId else s.me.relMark,
             near := if 2 ≤ o.toNat ∧ 1 ≤ e.toNat ∧ e.toNat ≤ 3 then NMap.put s.me.near e.toNat s.nextId else s.me.near })))

/-- R105, R110: capability loads and stores, by granule; a tagged store needs SC, and SL for a local capability, and
no tagless page; the vec and mat maps reach the scratchpad only. -/
def Obligations.CapabilityAccesses : Prop :=
  ∀ (s : State) (g r b : BitVec 4) (o : BitVec 13),
    let c := s.rc b
    let v := s.rc r
    let a := (c.addr + BitVec.ofInt 64 (16 * o.toInt)).toNat
    let ld := capCheck c a 16 16 [.ld]
    let st := capCheck c a 16 16 (if v.tag then [.st, .sc] else [.st])
    (∀ x, ld = some x → Faults (.cldc g r b o) s (capFlt x a)) ∧
    (ld = none → spaceOf s.cur.scratch a 16 = .scratch →
      Completes (.cldc g r b o) s [(2, .ldc (a - scratchBase) (c.has .lc) r.toNat)]) ∧
    (ld = none → spaceOf s.cur.scratch a 16 = .other → Faults (.cldc g r b o) s (capFlt .bounds a)) ∧
    (ld = none → spaceOf s.cur.scratch a 16 = .global →
      (s.cur.kind = .vec ∨ s.cur.kind = .mat → Faults (.cldc g r b o) s (capFlt .bounds a)) ∧
      (s.cur.kind = .seq ∨ s.cur.kind = .ladle → ∀ ps, s.piecesOf s.cur a 16 false = .ok ps →
        Sends (.cldc g r b o) s { s.newOp (.cldc (c.has .lc) r.toNat) (.cldc g r b o) with addr := a, pieces := ps })) ∧
    (∀ x, st = some x → Faults (.cstc g r b o) s (capFlt x a)) ∧
    (st = none → spaceOf s.cur.scratch a 16 = .scratch → s.me.fencePend = none →
      Completes (.cstc g r b o) s
        [(2, .st (wholeBytes (a - scratchBase) (leBytes v.toNat 16)) (if v.tag then [(a - scratchBase) / 16] else []) 0)]) ∧
    (st = none → spaceOf s.cur.scratch a 16 = .other → Faults (.cstc g r b o) s (capFlt .bounds a)) ∧
    (st = none → spaceOf s.cur.scratch a 16 = .global →
      (v.tag = true → v.has .gl = false → c.has .sl = false → Faults (.cstc g r b o) s (capFlt .local a)) ∧
      (v.tag = false ∨ v.has .gl = true ∨ c.has .sl = true → ∀ ps, s.storePieces a 16 0 = .ok ps →
        (v.tag = true → (∃ q ∈ ps, q.attr.tagless = true) → Faults (.cstc g r b o) s (capFlt .tagless a)) ∧
        (v.tag = false ∨ (∀ q ∈ ps, q.attr.tagless = false) →
          Sends (.cstc g r b o) s { s.newOp .cstc (.cstc g r b o) with
            addr := a, pieces := ps, caps := [v], relMark := s.me.relMark, near := s.me.near })))

/-- R223, R224: an atomic over 4 or 8 bytes of an aligned global granule is sent to its home with its operands; LD, ST
and AT are needed, and the scratchpad takes none. R223: what an atomic leaves at its granule, over n bytes, from the
old value and the operand. -/
def Obligations.Atomics : Prop :=
  (∀ (s : State) (g : BitVec 4) (d x : BitVec 5) (c : BitVec 4) (w : BitVec 1) (o : BitVec 2) (e : BitVec 3),
     let n := 4 * (1 + w.toNat)
     let a := (s.rc c).addr.toNat - (s.rc c).addr.toNat % n
     let check := capCheck (s.rc c) a n 1 [.ld, .st, .at]
     ∀ p ∈ ([(.aadd g d c w o e, .atomic .add n d.toNat, 0), (.amin g d c w o e, .atomic .min n d.toNat, 0),
         (.amax g d c w o e, .atomic .max n d.toNat, 0), (.aand g d c w o e, .atomic .and n d.toNat, 0),
         (.aor g d c w o e, .atomic .or n d.toNat, 0), (.axor g d c w o e, .atomic .xor n d.toNat, 0),
         (.aswp g d c w o e, .atomic .swp n d.toNat, 0), (.acas g d c x w o e, .acas n d.toNat, s.rx x)] :
         List (Instr × OpK × Word)),
       (∀ y, check = some y → Faults p.1 s (capFlt y a)) ∧
       (check = none → spaceOf s.cur.scratch a n ≠ .global → Faults p.1 s (capFlt .bounds a)) ∧
       (check = none → spaceOf s.cur.scratch a n = .global →
         (∀ y, s.storePieces a n 0 = .error y → Faults p.1 s y) ∧
         (∀ ps, s.storePieces a n 0 = .ok ps →
           Sends p.1 s { s.newOp p.2.1 p.1 with
             addr := a, pieces := ps, val := s.rx d, val2 := p.2.2,
             relMark := if 2 ≤ o.toNat ∧ 4 ≤ e.toNat then s.nextId else s.me.relMark,
             near := if 2 ≤ o.toNat ∧ 1 ≤ e.toNat ∧ e.toNat ≤ 3 then NMap.put s.me.near e.toNat s.nextId else s.me.near }))) ∧
  (∀ (n old a : Nat), n = 4 ∨ n = 8 → old < 2 ^ (8 * n) → a < 2 ^ (8 * n) →
     Amo.eval .add n old a = (old + a) % 2 ^ (8 * n) ∧
     Amo.eval .and n old a = old &&& a ∧ Amo.eval .or n old a = old ||| a ∧ Amo.eval .xor n old a = old ^^^ a ∧
     Amo.eval .swp n old a = a ∧
     sx (8 * n) (Amo.eval .min n old a) = min (sx (8 * n) old) (sx (8 * n) a) ∧
     sx (8 * n) (Amo.eval .max n old a) = max (sx (8 * n) old) (sx (8 * n) a) ∧
     Amo.eval .min n old a < 2 ^ (8 * n) ∧ Amo.eval .max n old a < 2 ^ (8 * n))

/-- R225, R144: an ACQ fence, and any fence at stream scope, where there is nobody to order for, only advances; REL and AR
fences set the watermark of their scope that later stores wait for, and the next write into the cycle domain; FULL waits
until every posted store of the stream has performed. R136, R137, R229: the ring instructions, and HOLD on a ring, send
their operation to the home of an aligned record in global memory, where every check passes. -/
def Obligations.FencesAndRingsIssue : Prop :=
  (∀ (s : State) (g : BitVec 4) (k : BitVec 2) (c : BitVec 3),
     let plain : Stream := { s.me with snap := none }
     let released : Stream := if c.toNat < 4 then { plain with near := NMap.put s.me.near c.toNat s.nextId }
       else { plain with relMark := s.nextId }
     let marked (p : Option Nat) : State := s.setMe { released with fencePend := p }
     (k = 0 ∨ c = 0 → CompletesFrom (.fence g k c) s (s.setMe plain) []) ∧
     (c ≠ 0 →
       CompletesFrom (.fence g 1 c) s (marked (some s.nextId)) [] ∧
       CompletesFrom (.fence g 2 c) s (marked (some s.nextId)) [] ∧
       ((∀ e ∈ s.wq, e.2.ag = s.cur → e.2.park = none → s.nextId ≤ e.1) → CompletesFrom (.fence g 3 c) s (marked none) []) ∧
       ((∃ e ∈ s.wq, e.2.ag = s.cur ∧ e.2.park = none ∧ e.1 < s.nextId) → ∃ t, exec (.fence g 3 c) s = .next t ∧
         Issued ((marked none).sending { s.newOp .fence (.fence g 3 c) with val := BitVec.ofNat 64 s.nextId, val2 := 1 }) t []
           (s.me.pc + 4) 0 false))) ∧
  (∀ (s : State) (g c : BitVec 4) (d : BitVec 5) (e : BitVec 1) (ps : List Piece),
     let cap := s.rc c
     let a := cap.addr.toNat
     a % 64 = 0 → spaceOf s.cur.scratch a 64 = .global →
     (capCheck cap a 64 1 [.ld, .st, .at] = none → s.storePieces a 64 0 = .ok ps →
       ∀ p ∈ ([(.racq g d c, .ring .acq d.toNat, 0), (.rpub g d c, .ring .pub 0, s.rx d),
           (.rtake g d c, .ring .take d.toNat, 0), (.rfree g d c, .ring .free 0, s.rx d)] : List (Instr × OpK × Word)),
         Sends p.1 s { s.newOp p.2.1 p.1 with
           addr := a, pieces := ps, val := p.2.2, relMark := s.me.relMark, near := s.me.near }) ∧
     (s.cur.stew = false → capCheck cap a 64 1 [.ld] = none → s.piecesOf s.cur a 64 false = .ok ps →
       Sends (.holdRing g c e) s
         { s.newOp (.ringHold (e == 1)) (.holdRing g c e) with addr := a, pieces := ps }))

/-! ### Barriers, HOLD and gang links (R124 to R126, R227 to R231) -/

/-- R227 to R229, R41: the barrier instructions act on the barrier on g + 1; HOLD records its condition for the gang.
-/
def Obligations.BarriersAndHold : Prop :=
  ∀ (s : State) (g : BitVec 4) (b : BitVec 5) (n : BitVec 6) (x : BitVec 5) (k : BitVec 3),
    let u := s.setMe { s.me with snap := none }
    let q := u.gang s.cur.unit
    let waits (c : Cond) : State := u.setGang s.cur.unit { q with conds := q.conds ++ [⟨c, s.cur, s.me.pc, s.wall, s.wall⟩] }
    Completes (.binit g b n) s [(1, .binit b.toNat n.toNat)] ∧
    Completes (.barrive g b) s [(1, .barrive b.toNat)] ∧
    Completes (.bexpect g x b) s [(1, .bexpect b.toNat (s.rx x))] ∧
    (s.cur.stew = false →
      CompletesFrom (.holdWptr g x k) s (waits (.wptr s.cur.cell k.toNat (s.rx x))) [] ∧
      CompletesFrom (.holdBarrier g b) s (waits (.barrier s.cur.cell b.toNat)) []) ∧
    (s.cur.stew = true → ∀ i ∈ ([.holdWptr g x k, .holdBarrier g b] : List Instr),
      ∃ f, f.cause = 1 ∧ f.sub = 2 ∧ f.faddr = s.me.pc.toNat ∧ Faults i s f)

/-- R230, R231: SEND takes its link for its lines and reads line k on g + 2 + k; RECV writes line 0, which must arrive
on its issue cycle, at once, and line k on g + k. -/
def Obligations.GangLinks : Prop :=
  ∀ (s : State) (g : BitVec 4) (x : BitVec 5) (c : BitVec 4) (d : BitVec 2) (n : BitVec 4),
    let a := (((s.rc c).addr + s.rx x) &&& ~~~ 63).toNat
    let k := n.toNat + 1
    let off := a - scratchBase
    (∀ i ∈ ([.send g x c d n, .recv g x c d n] : List Instr),
      (s.cur.stew = true → ∃ f, f.cause = 1 ∧ f.sub = 2 ∧ f.faddr = s.me.pc.toNat ∧ Faults i s f) ∧
      (s.cur.stew = false → d.toNat = s.cur.cell →
        ∃ f, f.cause = 1 ∧ f.sub = 1 ∧ f.faddr = s.me.pc.toNat ∧ Faults i s f)) ∧
    (s.cur.stew = false → d.toNat ≠ s.cur.cell → spaceOf s.cur.scratch a (64 * k) = .scratch →
    (capCheck (s.rc c) a (64 * k) 1 [.ld] = none → s.me.fencePend = none →
      (∀ l ∈ s.cell.links, l.key = d.toNat → l.hi < s.now + 1 ∨ s.now + k < l.lo) →
      CompletesFrom (.send g x c d n) s
        (s.setCell { s.cell with links := ⟨d.toNat, s.now + 1, s.now + k⟩ :: s.cell.links })
        ((List.range k).map (fun j => (2 + j, .send d.toNat (off + 64 * j) (if j = 0 then k else 0))))) ∧
    (capCheck (s.rc c) a (64 * k) 1 [.st] = none → ∀ l, (s.gang s.cur.unit).arrival d.toNat s.cur.cell = some l →
      l.first = k → (off / 64) % 64 ∉ s.cell.banksNow →
      let q := s.gang s.cur.unit
      let s1 := s.setGang s.cur.unit { q with arrivals := q.arrivals.erase l }
      let cl := s1.cell.putLine off l.data l.tags
      CompletesFrom (.recv g x c d n) s (s1.setCell { cl with banksNow := (off / 64) % 64 :: cl.banksNow })
        ((List.range (k - 1)).map (fun j => (j + 1, .recv d.toNat (off + 64 * (j + 1)))))))

/-! ### Vector instructions (R71, R72, R240 to R266) -/

/-- R240, R241: a legal value becomes vsh on g + 1, an illegal one faults with cause 2; vsh is read on g + 2; VL is
set to at most 64. R246 to R248: the floating lane operations write the active lanes of v[d] on g + 4, the
approximations on g + 8. -/
def Obligations.VectorShapeAndFloat : Prop :=
  (∀ (s : State) (g : BitVec 4) (x : BitVec 5),
     (vshLegal (s.rx x) = true → Completes (.vshapeWr g x) s [(1, .vsh (s.rx x))]) ∧
     (vshLegal (s.rx x) = false → ∃ f, f.cause = 2 ∧ f.faux = (s.rx x).toNat ∧ Faults (.vshapeWr g x) s f) ∧
     Completes (.vshapeRd g x) s [(2, .x x.toNat s.cell.vsh)] ∧
     Completes (.vshapeVl g x) s [(1, .vl (if (s.rx x).toNat ≤ 64 then (s.rx x).toNat else 64))]) ∧
  (∀ (s : State) (g : BitVec 4) (d a b : BitVec 6) (p : BitVec 3),
     let x (k : Nat) : Lane := laneOf (s.cell.rv a.toNat) k
     let y (k : Nat) : Lane := laneOf (s.cell.rv b.toNat) k
     let z (k : Nat) : Lane := laneOf (s.cell.rv d.toNat) k
     ∀ q ∈ ([(.vadd g d a b p, 4, fun k => addF32 s.vrm (x k) (y k)), (.vsub g d a b p, 4, fun k => subF32 s.vrm (x k) (y k)),
         (.vmul g d a b p, 4, fun k => mulF32 s.vrm (x k) (y k)),
         (.vfma g d a b p, 4, fun k => fmaF32 s.vrm false (z k) (x k) (y k)),
         (.vfms g d a b p, 4, fun k => fmaF32 s.vrm true (z k) (x k) (y k)),
         (.vmax g d a b p, 4, fun k => (maxF32 (x k) (y k), 0)), (.vmin g d a b p, 4, fun k => (minF32 (x k) (y k), 0)),
         (.vabs g d a p, 4, fun k => (if (laneNum (x k)).isNan then canonNaN32 else x k &&& 0x7FFFFFFF, 0)),
         (.vneg g d a p, 4, fun k => (if (laneNum (x k)).isNan then canonNaN32 else x k ^^^ 0x80000000, 0)),
         (.vrcp g d a p, 8, fun k => approxLane .rcp (x k)), (.vrsq g d a p, 8, fun k => approxLane .rsq (x k)),
         (.vexp2 g d a p, 8, fun k => approxLane .exp2 (x k)), (.vlog2 g d a p, 8, fun k => approxLane .log2 (x k))] :
         List (Instr × Nat × (Nat → Lane × FFlags))),
       LaneCompletes q.1 s q.2.1 d.toNat (s.active p) q.2.2)

/-- R250, R252, R254 to R256: the integer, logic, selection, permute, slide and broadcast operations, which set no
flag. -/
def Obligations.VectorIntegerAndMoves : Prop :=
  ∀ (s : State) (g : BitVec 4) (d a b : BitVec 6) (p : BitVec 3) (k : BitVec 6) (r : BitVec 5),
    let x (k : Nat) : Lane := laneOf (s.cell.rv a.toNat) k
    let y (k : Nat) : Lane := laneOf (s.cell.rv b.toNat) k
    (∀ q ∈ ([(.viadd g d a b p, fun k => x k + y k), (.visub g d a b p, fun k => x k - y k),
        (.vimul g d a b p, fun k => x k * y k),
        (.vimin g d a b p, fun k => if (x k).toInt ≤ (y k).toInt then x k else y k),
        (.vimax g d a b p, fun k => if (x k).toInt ≤ (y k).toInt then y k else x k),
        (.vand g d a b p, fun k => x k &&& y k), (.vor g d a b p, fun k => x k ||| y k),
        (.vxor g d a b p, fun k => x k ^^^ y k), (.vshl g d a b p, fun k => x k <<< ((y k).toNat % 32)),
        (.vshr g d a b p, fun k => x k >>> ((y k).toNat % 32)),
        (.vsra g d a b p, fun k => (x k).sshiftRight ((y k).toNat % 32)),
        (.vbcst g d r p, fun _ => (s.rx r).setWidth 32)] : List (Instr × (Nat → Lane))),
      VecCompletes q.1 s 2 d.toNat (s.active p) q.2 0) ∧
    VecCompletes (.vsel g d a b p) s 2 d.toNat s.below
      (fun k => if (s.cell.rp p.toNat).toNat.testBit k then x k else y k) 0 ∧
    VecCompletes (.vperm g d a b p) s 3 d.toNat (s.active p) (fun k => x ((y k).toNat % 64)) 0 ∧
    VecCompletes (.vslide g d a 0 k) s 3 d.toNat s.below (fun i => if k.toNat ≤ i then x (i - k.toNat) else 0) 0 ∧
    VecCompletes (.vslide g d a 1 k) s 3 d.toNat s.below (fun i => if i + k.toNat ≤ 63 then x (i + k.toNat) else 0) 0 ∧
    Completes (.vmovxToX g a r k) s [(2, .x r.toNat (BitVec.ofNat 64 (x k.toNat).toNat))] ∧
    VecCompletes (.vmovxToV g d r k) s 2 d.toNat (BitVec.ofNat 64 (2 ^ k.toNat)) (fun _ => (s.rx r).setWidth 32) 0

/-- R249: VCVT converts the lanes below VL on g + 4 under its own or the dynamic rounding mode; a minifloat target
whose descriptor is illegal faults with cause 2. R262, R263: VLQNT writes its codewords to the lanes of its part and
the delivered scales beside them; VLDEC decodes the lanes below VL; both fault with cause 2 where vsh names no lattice
type, and are illegal where a register is missing or overlaps. -/
def Obligations.VectorConversions : Prop :=
  (∀ (s : State) (g : BitVec 4) (d a : BitVec 6) (t : BitVec 4) (k : BitVec 2) (r : BitVec 3),
     let w := s.cell.vsh
     let bad := t = 7 ∧ descLegal (vshDesc w) = false
     (bad → ∃ f, f.cause = 2 ∧ f.faux = (vshDesc w).toNat ∧ Faults (.vcvt g d a t k r) s f) ∧
     (¬ bad → LaneCompletes (.vcvt g d a t k r) s 4 d.toNat s.below
       (fun i => cvtLane w t.toNat k.toNat (modeOf (vshRm w) r.toNat) (laneOf (s.cell.rv a.toNat) i)))) ∧
  (∀ (s : State) (g : BitVec 4) (d a : BitVec 6) (p : BitVec 3) (part : BitVec 4) (o : BitVec 1) (r : BitVec 3),
     let w := s.cell.vsh
     (∀ i ∈ ([.vlqnt g d a p part o, .vldec g d a part r] : List Instr),
       (latEt w part.toNat = none → ∃ f, f.cause = 2 ∧ Faults i s f) ∧
       (latEt w part.toNat ≠ none → a.toNat = 63 → ∃ f, f.cause = 1 ∧ f.sub = 1 ∧ Faults i s f)) ∧
     (∀ wide, latEt w part.toNat = some wide → a.toNat ≠ 63 →
       LaneCompletes (.vldec g d a part r) s 4 d.toNat s.below (fun k =>
         vldecLane wide w (modeOf (vshRm w) r.toNat) (s.cell.rv a.toNat).toNat (s.lanes (a + 1)) part.toNat k) ∧
       (d.toNat = a.toNat + 1 → ∃ f, f.cause = 1 ∧ f.sub = 1 ∧ Faults (.vlqnt g d a p part o) s f) ∧
       (d.toNat ≠ a.toNat + 1 →
         let bl := vlqntBlocks wide (o == 1) w (s.active p) (s.lanes a) (s.lanes (a + 1))
         let n := 2 * cwBytes wide
         ∃ (img sc : Line256) (sm cm : Word) (fl : FFlags),
           img.toNat = packCw (cwBytes wide) (bl.flatMap (·.1)) * 2 ^ (32 * (n * part.toNat)) % 2 ^ 2048 ∧
           (∀ k, k < 64 → cm.toNat.testBit k = (decide (n * part.toNat ≤ k) && decide (k < n * part.toNat + n))) ∧
           (∀ k, k < 64 → (sm.toNat.testBit k = true ↔ ∃ q, bl[k]? = some q ∧ q.2.1 ≠ none)) ∧
           (∀ k q v, bl[k]? = some q → q.2.1 = some v → laneOf sc k = BitVec.ofNat 32 v) ∧
           fl = bl.foldl (fun f q => f ||| q.2.2) 0 ∧
           Completes (.vlqnt g d a p part o) s ((8, .v d.toNat cm img) ::
             ((if sm = 0 then [] else [(8, .v (a.toNat + 1) sm sc)]) ++ if fl = 0 then [] else [(8, .orFlags fl)])))))

/-- R77 to R79: the eight exact values of a codeword: lane j holds (n_j + c/2) × s, that is (2·n_j + c) × s in units of 1/2, where n_0 to n_6 are the signed
fields of the layout, bit 0 of n_7 is the parity of their low bits and c is the top bit; the sum of the eight integers is
even, no two codewords have the same integers and coset, and a NaN scale makes every lane NaN. -/
def Obligations.LatticeDecoding : Prop :=
  ∀ (wide : Bool) (w v : Nat) (s : Machine.Num),
    let k := if wide then 4 else 2
    let n := cwCoords wide w
    let c := w / 2 ^ (8 * k - 1) % 2
    let low := (List.range 7).map (fun j => w / 2 ^ (k * j) % 2)
    n.length = 8 ∧
    (∀ j, j < 7 → n.getD j 0 = sx k (w / 2 ^ (k * j) % 2 ^ k)) ∧
    n.getD 7 0 = sx k (w / 2 ^ (7 * k) % 2 ^ (k - 1) * 2 + low.sum % 2) ∧
    cwCoset wide w = c ∧
    n.sum % 2 = 0 ∧
    (w < 2 ^ (8 * k) → v < 2 ^ (8 * k) → cwCoords wide v = n → cwCoset wide v = c → v = w) ∧
    (decE8 wide w s).length = 8 ∧
    (∀ j, j < 8 → (s.isNan = true → ((decE8 wide w s).getD j Num.nan).isNan = true) ∧
      (∀ neg m x, s = .fin neg m x → ∃ sg mag, (decE8 wide w s).getD j Num.nan = .fin sg mag (x - 1) ∧
        (if sg then -(mag : Int) else mag) = (2 * n.getD j 0 + c) * (if neg then -(m : Int) else m)))

/-- R251, R264 to R266: compares write all 64 bits of a predicate on g + 2, zero from VL on; PLOG, PCNT and PSET. -/
def Obligations.PredicateOperations : Prop :=
  ∀ (s : State) (g d a b t : BitVec 4) (va vb : BitVec 6) (c : BitVec 3) (r : BitVec 5),
    let x (k : Nat) : Lane := laneOf (s.cell.rv va.toNat) k
    let y (k : Nat) : Lane := laneOf (s.cell.rv vb.toNat) k
    let pa (k : Nat) : Bool := (s.cell.rp a.toNat).toNat.testBit k
    let pb (k : Nat) : Bool := (s.cell.rp b.toNat).toNat.testBit k
    let vl := vshVl s.cell.vsh
    let m (k : Nat) : Bool := pa k && pb k && decide (k < vl)
    MaskCompletes (.vcmp g d va vb c) s 2 (.p d.toNat) (fun k => decide (k < vl) && fcond c.toNat (x k) (y k)) ∧
    MaskCompletes (.vicmp g d va vb c) s 2 (.p d.toNat) (fun k => decide (k < vl) && icond c.toNat (x k) (y k)) ∧
    MaskCompletes (.plog g d a b t) s 1 (.p d.toNat) (fun k => t.toNat.testBit (2 * (pa k).toNat + (pb k).toNat)) ∧
    (∃ n, n = ((List.range 64).filter m).length ∧ Completes (.pcntCount g a b r) s [(2, .x r.toNat (BitVec.ofNat 64 n))]) ∧
    (∃ n, (n < 64 ∧ m n = true ∨ n = 64) ∧ (∀ k, k < n → k < 64 → m k = false) ∧
      Completes (.pcntFirst g a b r) s [(2, .x r.toNat (BitVec.ofNat 64 n))]) ∧
    (∃ n, (n < 64 ∧ m n = true ∧ (∀ k, n < k → k < 64 → m k = false) ∨ n = 64 ∧ ∀ k, k < 64 → m k = false) ∧
      Completes (.pcntLast g a b r) s [(2, .x r.toNat (BitVec.ofNat 64 n))]) ∧
    MaskCompletes (.psetFirst g d r) s 1 (.p d.toNat) (fun k => decide (k < (s.rx r).toNat)) ∧
    Completes (.psetFromx g d r) s [(1, .p d.toNat (s.rx r))] ∧
    Completes (.psetTox g a r) s [(2, .x r.toNat (s.cell.rp a.toNat))]

/-- R253, R71, R72: a reduction combines the active lanes in the balanced tree and puts the result in all 64 lanes on
g + 8; a scan puts the running combination from lane 0 upwards in the active lanes on g + 10. R253: with integers the
order of the tree does not show: VRISUM leaves the sum of the active lanes modulo 2^32 in every lane. -/
def Obligations.VectorReductions : Prop :=
  (∀ (s : State) (g : BitVec 4) (d a : BitVec 6) (p r : BitVec 3),
     let m := modeOf (vshRm s.cell.vsh) r.toNat
     let act := s.active p
     let ins (o : RedOp) : List (Option Lane) := (List.range 64).map (fun k =>
       if act.toNat.testBit k then some (laneOf (s.cell.rv a.toNat) k) else if o = .max ∨ o = .min then none else some o.unit)
     (∀ q ∈ ([(.vrsum g d a p r, .sum), (.vrmax g d a p r, .max), (.vrmin g d a p r, .min), (.vrisum g d a p r, .isum),
         (.vrimax g d a p r, .imax), (.vrimin g d a p r, .imin)] : List (Instr × RedOp)),
       let v := q.2.tree m 6 (ins q.2) 0
       VecCompletes q.1 s 8 d.toNat (BitVec.allOnes 64) (fun _ => v.1) v.2) ∧
     (∀ q ∈ ([(.vscsum g d a p r, .sum), (.vscmax g d a p r, .max), (.vscmin g d a p r, .min), (.vscisum g d a p r, .isum),
         (.vscimax g d a p r, .imax), (.vscimin g d a p r, .imin)] : List (Instr × RedOp)),
       let v := q.2.scan m act 0 (s.lanes a) (if q.2 = .max ∨ q.2 = .min then none else some q.2.unit)
       VecCompletes q.1 s 10 d.toNat act (fun k => v.1.getD k 0) v.2)) ∧
  (∀ (s : State) (g : BitVec 4) (d a : BitVec 6) (p r : BitVec 3),
     VecCompletes (.vrisum g d a p r) s 8 d.toNat (BitVec.allOnes 64)
       (fun _ => BitVec.ofNat 32 (((List.range 64).filter (fun k => (s.active p).toNat.testBit k)).map
         (fun k => (laneOf (s.cell.rv a.toNat) k).toNat)).sum) 0)

/-- R257 to R260, R111: the vector accesses check every active lane against the capability and the scratch window,
then read or write on g + 2, or hold the banks for their window; a shape or element type they refuse faults with cause
2. -/
def Obligations.VectorMemoryIssue : Prop :=
  ∀ (s : State) (g : BitVec 4) (v : BitVec 6) (c : BitVec 4) (x : BitVec 5) (p k : BitVec 3),
    let w := s.cell.vsh
    let et := vshEt w
    let es := elemBits et (vshDesc w)
    let n := elemBytes es
    let lin := s.velems c x p k
    let gat := s.gelems c x p k v
    let sct := s.gelems c x p k (v + 1)
    let banks : List (Nat × Act) := (List.range 8).map (fun j => (2 + j, .banks))
    let shape (i : Instr) : Prop := ∃ f, f.cause = 2 ∧ f.faux = et ∧ Faults i s f
    let lattice := et = 8 ∨ et = 9
    (lattice → k ≠ 0 → shape (.vld g v c x p k) ∧ shape (.vst g v c x p k)) ∧
    (es = 4 → shape (.vgath g v c x p k)) ∧ (es = 4 ∨ lattice → shape (.vscat g v c x p k)) ∧
    (¬ lattice ∨ k = 0 →
      (∀ f, laneFault (s.rc c) n [.ld] lin = some f → Faults (.vld g v c x p k) s f) ∧
      (laneFault (s.rc c) n [.ld] lin = none →
        Completes (.vld g v c x p k) s [(2, .vld v.toNat et (vshDesc w) (lin.map ElemAt.ref) false)]) ∧
      (∀ f, laneFault (s.rc c) n [.st] lin = some f → Faults (.vst g v c x p k) s f) ∧
      (laneFault (s.rc c) n [.st] lin = none →
        Completes (.vst g v c x p k) s [(2, .st (s.laneWrites v lin).1 [] (s.laneWrites v lin).2)])) ∧
    (es ≠ 4 →
      (∀ f, laneFault (s.rc c) n [.ld] gat = some f → Faults (.vgath g v c x p k) s f) ∧
      (laneFault (s.rc c) n [.ld] gat = none →
        (∀ b, overBank n gat = some b → Faults (.vgath g v c x p k) s (timeFlt .bank b s.cur.cell)) ∧
        (overBank n gat = none → Completes (.vgath g v c x p k) s
          (banks ++ [(2, .vld v.toNat et (vshDesc w) (gat.map ElemAt.ref) true)])))) ∧
    (es ≠ 4 → ¬ lattice → v.toNat ≠ 63 →
      (∀ f, laneFault (s.rc c) n [.st] sct = some f → Faults (.vscat g v c x p k) s f) ∧
      (laneFault (s.rc c) n [.st] sct = none →
        (∀ b, overBank n sct = some b → Faults (.vscat g v c x p k) s (timeFlt .bank b s.cur.cell)) ∧
        (overBank n sct = none → Completes (.vscat g v c x p k) s
          (banks ++ [(9, .scat (s.laneWrites v sct).1 (s.laneWrites v sct).2)])))) ∧
    (es ≠ 4 → ¬ lattice → v.toNat = 63 → ∃ f, f.cause = 1 ∧ f.sub = 1 ∧ Faults (.vscat g v c x p k) s f)

/-! ### Effects in flight perform (R32 to R34, R124, R227) -/

/-- R8, R74, R242, R251: a register effect changes its register and no other; x0, c0 and p0 discard what is written;
flags are ORed in; only the lanes of the mask change in a vector register. Memory is as before. R107, R118, R220,
R221: a scratchpad write changes exactly its bytes and clears the tags of the granules it touches; a scratchpad read
hands its bytes, lowest first, to x[d] three cycles later. R124, R125, R228: BINIT leaves ARR = n and PEND = 0; an
arrival takes 1 from ARR, or raises the stream-state fault where ARR is 0; an expectation adds its bytes to PEND
modulo 2^40 and leaves ARR. -/
def Obligations.EffectsPerform : Prop :=
  (∀ (s : State) (due iss : Nat) (a : Agent) (pc : Word) (r : Nat) (v m : Word) (k : Cap) (f : FFlags) (l : Line256),
     let c := s.cellOf a
     let t := s.streamOf a
     let run (x : Act) (after : State → Prop) : Prop := ∃ u, s.act ⟨due, a, pc, x, iss⟩ = .ok u ∧ after u ∧
       (∀ b, u.readByte b = s.readByte b) ∧ u.ops = s.ops ∧ u.csr = s.csr ∧ (u.cellOf a).spm = c.spm
     run (.x r v) (fun u => (∀ j, (u.streamOf a).rx j = if j = r ∧ r ≠ 0 then v else t.rx j) ∧
       u.streamOf a = { t with x := (u.streamOf a).x }) ∧
     run (.c r k) (fun u => (∀ j, (u.streamOf a).rc j = if j = r ∧ r ≠ 0 then k else t.rc j) ∧
       u.streamOf a = { t with c := (u.streamOf a).c }) ∧
     run (.orFlags f) (fun u => u.streamOf a = { t with fflags := t.fflags ||| f.setWidth 64 }) ∧
     run (.fflags v) (fun u => u.streamOf a = { t with fflags := v }) ∧
     run (.p r v) (fun u => (∀ j, (u.cellOf a).rp j = if j = r ∧ r ≠ 0 then v else c.rp j) ∧
       u.cellOf a = { c with p := (u.cellOf a).p }) ∧
     run (.mail r v) (fun u => (∀ j, NMap.get 0 (u.cellOf a).mail j = if j = r then v else NMap.get 0 c.mail j) ∧
       u.cellOf a = { c with mail := (u.cellOf a).mail }) ∧
     run (.v r m l) (fun u => (∀ j i, i < 64 → laneOf ((u.cellOf a).rv j) i =
         if j = r ∧ m.toNat.testBit i = true then laneOf l i else laneOf (c.rv j) i) ∧
       u.cellOf a = { c with v := (u.cellOf a).v }) ∧
     run (.vsh v) (fun u => u.cellOf a = { c with vsh := v }) ∧
     run (.msh v) (fun u => u.cellOf a = { c with msh := v })) ∧
  (∀ (s : State) (due iss off : Nat) (a : Agent) (pc : Word) (l : List Byte) (n r : Nat) (sg : Bool),
     let c := s.cellOf a
     (∃ t, s.act ⟨due, a, pc, .st (wholeBytes off l) [] 0, iss⟩ = .ok t ∧
       (∀ i (h : i < l.length), NMap.get 0 (t.cellOf a).spm (off + i) = l[i]) ∧
       (∀ b, b < off ∨ off + l.length ≤ b → NMap.get 0 (t.cellOf a).spm b = NMap.get 0 c.spm b) ∧
       (∀ j, NSet.mem (t.cellOf a).tags j = true ↔
         NSet.mem c.tags j = true ∧ ∀ i, i < l.length → (off + i) / 16 ≠ j) ∧
       (∀ b, t.readByte b = s.readByte b) ∧ t.streamOf a = s.streamOf a) ∧
     (∃ t, s.act ⟨due, a, pc, .ld off n sg r, iss⟩ = .ok t ∧
       t = s.pendEff ⟨due + 3, a, pc, .x r (extendTo n sg (leRead (fun b => NMap.get 0 c.spm b) off n)), iss⟩)) ∧
  (∀ (s : State) (due iss b n : Nat) (a : Agent) (pc v : Word), n < 64 →
     let c := s.cellOf a
     let w := c.bar b
     (∃ t, s.act ⟨due, a, pc, .binit b n, iss⟩ = .ok t ∧ barArr ((t.cellOf a).bar b) = n ∧ barPend ((t.cellOf a).bar b) = 0 ∧
       (∀ j, j ≠ b → (t.cellOf a).bar j = c.bar j)) ∧
     (barArr w ≠ 0 → ∃ t, s.act ⟨due, a, pc, .barrive b, iss⟩ = .ok t ∧ barArr ((t.cellOf a).bar b) = barArr w - 1 ∧
       barPend ((t.cellOf a).bar b) = barPend w ∧ (∀ j, j ≠ b → (t.cellOf a).bar j = c.bar j)) ∧
     (barArr w = 0 → ∃ f, f.cause = 15 ∧ f.faddr = pc.toNat ∧ s.act ⟨due, a, pc, .barrive b, iss⟩ = .bad f) ∧
     (∃ t, s.act ⟨due, a, pc, .bexpect b v, iss⟩ = .ok t ∧
       barPend ((t.cellOf a).bar b) = (barPend w + v.toNat) % 2 ^ 40 ∧ barArr ((t.cellOf a).bar b) = barArr w ∧
       (∀ j, j ≠ b → (t.cellOf a).bar j = c.bar j)))

/-! ### Matrix and pattern-stream instructions (R127, R261, R268 to R287, R306) -/

/-- R268 to R270, R281: a legal request becomes msh, cut to the grant, and is answered in x; an illegal one faults
with cause 2; the rounding state is set and read. -/
def Obligations.MatrixShapeAndMode : Prop :=
  ∀ (s : State) (g : BitVec 4) (x : BitVec 5) (v : BitVec 4),
    let r := s.rx x
    (mshLegal r = true → Completes (.mshapeReq g x) s [(1, .msh (mshGrant r)), (2, .x x.toNat (mshGrant r))]) ∧
    (mshLegal r = false → ∃ f, f.cause = 2 ∧ f.faux = r.toNat ∧ Faults (.mshapeReq g x) s f) ∧
    (mshLegal r = true → mshBm (mshGrant r) = mshBm r ∧ mshBn (mshGrant r) = mshBn r ∧ mshSp (mshGrant r) = mshSp r ∧
      mshBk (mshGrant r) = if mshSp r = 1 then min (mshBk r) 4 else mshBk r) ∧
    Completes (.mshapeGet g x) s [(2, .x x.toNat s.cell.msh)] ∧
    Completes (.mmodeSet g v) s [(1, .mmode v)] ∧
    (r.toNat % 8 ≤ 4 → Completes (.mmodeSetx g x) s [(1, .mmode (BitVec.ofNat 4 (r.toNat % 16)))]) ∧
    (4 < r.toNat % 8 → ∃ f, f.cause = 2 ∧ f.faux = r.toNat ∧ Faults (.mmodeSetx g x) s f) ∧
    Completes (.mmodeGet g x) s [(2, .x x.toNat (BitVec.ofNat 64 s.cell.mmode.toNat))]

/-- R273, R286: slots are claimed where none of the range is claimed, and released where all are, none held and no
line of them pending; a range past slot 15 is illegal. R274, R286: a fill of a claimed slot whose port is free and
whose lines pass the check reads line j on g + 2 + j. -/
def Obligations.OperandSlots : Prop :=
  (∀ (s : State) (g o n : BitVec 4),
     let hi := o.toNat + n.toNat
     let claimed (k : Nat) : Prop := NSet.mem s.cell.claims k = true
     let busy (k : Nat) : Prop := spanAt s.cell.slotHold k s.now = true ∨ linePending s.cell.linePend k 128 s.now = true
     let each (P : Nat → Prop) : Prop := ∀ k, o.toNat ≤ k → k ≤ hi → P k
     (15 < hi → ∀ i ∈ ([.mclaim g o n, .mrelease g o n] : List Instr), ∃ f, f.cause = 1 ∧ f.sub = 1 ∧ Faults i s f) ∧
     (hi ≤ 15 → each (fun k => ¬ claimed k) → Completes (.mclaim g o n) s [(1, .claim o.toNat (n.toNat + 1))]) ∧
     (hi ≤ 15 → ¬ each (fun k => ¬ claimed k) → ∃ f, f.cause = 15 ∧ Faults (.mclaim g o n) s f) ∧
     (hi ≤ 15 → each claimed → each (fun k => ¬ busy k) →
       Completes (.mrelease g o n) s [(1, .release o.toNat (n.toNat + 1))]) ∧
     (hi ≤ 15 → ¬ each claimed → ∃ f, f.cause = 15 ∧ Faults (.mrelease g o n) s f) ∧
     (hi ≤ 15 → each claimed → ¬ each (fun k => ¬ busy k) →
       ∃ k, o.toNat ≤ k ∧ k ≤ hi ∧ busy k ∧ Faults (.mrelease g o n) s (timeFlt .busy k s.cur.cell))) ∧
  (∀ (s : State) (g o c : BitVec 4) (p : BitVec 5),
     let w := s.rx p
     let l0 := bits w.toNat 6 0
     let n := bits w.toNat 13 7 + 1
     let i : Instr := .mfillScratch g o c p
     (128 < l0 + n → ∃ f, f.cause = 2 ∧ f.faux = w.toNat ∧ Faults i s f) ∧
     (l0 + n ≤ 128 →
       (∀ f, fillLines (s.rc c) w n = .error f → Faults i s f) ∧
       (∀ offs, fillLines (s.rc c) w n = .ok offs →
         (NSet.mem s.cell.claims o.toNat = false → Faults i s (timeFlt .unclaimed o.toNat s.cur.cell)) ∧
         (NSet.mem s.cell.claims o.toNat = true →
           (spanAt s.cell.ports 0 s.now = true ∨ fillMeetsHold s.cell.slotHold o.toNat s.now n = true →
             Faults i s (timeFlt .busy o.toNat s.cur.cell)) ∧
           (spanAt s.cell.ports 0 s.now = false → fillMeetsHold s.cell.slotHold o.toNat s.now n = false →
             CompletesFrom i s (s.setCell (s.cell.fillBusy s.now o.toNat l0 n))
               ((List.range n).map (fun j => (2 + j, .mfill o.toNat (l0 + j) (offs.getD j 0)))))) )))

/-- R276 to R280, R286: a tile operation whose format fits, whose slots are claimed and landed, whose scales are bound
and whose engine and accumulator are free samples its operands and performs T + 8 cycles later; MZERO performs on g +
1. R276, R63: MSCALE moves its entries from the queue to the bound set on g + 1; the queue-imbalance faults come in
the order of the rule. R405: an operand line with an uncorrectable error is a memory error. -/
def Obligations.MatrixMultiply : Prop :=
  (∀ (s : State) (g : BitVec 4) (a : BitVec 3) (oa ob : BitVec 4) (xm : BitVec 5) (z : BitVec 1),
     let c := s.cell
     let w := c.msh
     let t := mmaCycles w
     let need := mmaEntries w
     let now := s.now
     let mk := (s.rx xm).toNat
     let lim (v n : Nat) : Nat := if xm = 0 then n else if v < n then v else n
     let tile : Tile :=
       { acc := a.toNat, msh := w, flush := c.mmode.toNat.testBit 3, zr := decide (z = 1),
         rows := lim (bits mk 7 0) (16 * mshBm w), cols := lim (bits mk 15 8) (16 * mshBn w),
         depth := lim (bits mk 25 16) (mshDepth w * mshBk w),
         a := c.slotLines oa.toNat (16 * mshBm w), b := c.slotLines ob.toNat (16 * mshBn w), scales := c.bound.take need }
     let lattice := mshAf w = 8 ∨ mshAf w = 9
     let free := NSet.mem c.claims oa.toNat = true ∧ NSet.mem c.claims ob.toNat = true ∧ need ≤ c.bound.length ∧
       linePending c.linePend oa.toNat (16 * mshBm w) now = false ∧ linePending c.linePend ob.toNat (16 * mshBn w) now = false ∧
       spanAt c.ports 1 now = false ∧ spanAt c.accRead a.toNat now = false
     let error := c.wordFault (slotWords oa.toNat (16 * mshBm w) ++ slotWords ob.toNat (16 * mshBn w))
     let hold (l : List Busy) (o : Nat) : List Busy := spanAdd l now ⟨o, now, now + t - 1⟩
     let u := s.setCell
       { c with
         bound := c.bound.drop need
         ports := spanAdd c.ports now ⟨1, now, now + t - 1⟩
         slotHold := hold (hold c.slotHold oa.toNat) ob.toNat
         accPend := spanAdd c.accPend now ⟨a.toNat, now, now + t + 7⟩ }
     (¬ lattice → free → error = none → CompletesFrom (.mma g a oa ob xm z) s u [(t + 8, .mma tile)]) ∧
     (lattice → free → error = none → CompletesFrom (.mmal g a oa ob xm z) s u [(t + 8, .mma tile)]) ∧
     (lattice → ∃ f, f.cause = 2 ∧ f.faux = mshAf w ∧ Faults (.mma g a oa ob xm z) s f) ∧
     (¬ lattice → ∃ f, f.cause = 2 ∧ f.faux = mshAf w ∧ Faults (.mmal g a oa ob xm z) s f) ∧
     (∀ p ∈ ([(.mma g a oa ob xm z, ¬ lattice), (.mmal g a oa ob xm z, lattice)] : List (Instr × Prop)), p.2 →
       (NSet.mem c.claims oa.toNat = false → Faults p.1 s (timeFlt .unclaimed oa.toNat s.cur.cell)) ∧
       (free → ∀ f, error = some f → Faults p.1 s f)) ∧
     (spanAt c.accRead a.toNat now = true ∨ spanAt c.accPend a.toNat now = true →
       Faults (.mzero g a) s (timeFlt .busy a.toNat s.cur.cell)) ∧
     (spanAt c.accRead a.toNat now = false → spanAt c.accPend a.toNat now = false →
       CompletesFrom (.mzero g a) s (s.setCell { c with accPend := spanAdd c.accPend now ⟨a.toNat, now, now⟩ })
         [(1, .mzero a.toNat)])) ∧
  (∀ (s : State) (g : BitVec 4) (n : BitVec 7),
     let c := s.cell
     let k := n.toNat
     let landed := ∀ e ∈ c.scaleQ.take k, e.landed = true
     let imbalance (sub : Nat) : Prop := ∃ f, f.cause = 12 ∧ f.sub = sub ∧ Faults (.mscale g n) s f
     (k = 0 ∨ 64 < k → ∃ f, f.cause = 1 ∧ f.sub = 1 ∧ Faults (.mscale g n) s f) ∧
     (1 ≤ k → k ≤ 64 →
       (c.scaleQ.length < k → imbalance 0) ∧
       (k ≤ c.scaleQ.length → ¬ landed → imbalance 1) ∧
       (k ≤ c.scaleQ.length → landed → 64 < c.bound.length + k → imbalance 2) ∧
       (k ≤ c.scaleQ.length → landed → c.bound.length + k ≤ 64 → Completes (.mscale g n) s [(1, .scaleMove k)])))

/-- R282, R283, R286: a drain of a landed accumulator through a free port writes row m on g + 3 + m, and MDRAINP sends
its elements to the target; a shape past 128 faults with cause 2, an element with an uncorrectable error as a memory error
(R405). -/
def Obligations.MatrixDrains : Prop :=
  ∀ (s : State) (g : BitVec 4) (a : BitVec 3) (c f : BitVec 4) (p t : BitVec 5) (r : BitVec 3) (o : BitVec 1),
    let w := (s.rx p).toNat
    let nr := bits w 29 22
    let nc := bits w 37 30
    let b := ((s.rc c).addr + BitVec.ofNat 64 (bits w 21 0)).toNat
    let size := (nr - 1) * bits w 55 38 + nc * drainBytes f.toNat
    let row (m : Nat) : List WByte × FFlags := drainRow f.toNat (modeOf (s.cell.mmode.toNat % 8) r.toNat) (o == 1)
      (b - scratchBase + m * bits w 55 38) (s.cell.accRow a.toNat m nc)
    let free := spanAt s.cell.accPend a.toNat s.now = false ∧ spanAt s.cell.ports 2 s.now = false
    let error (k n : Nat) : Option Flt :=
      s.cell.wordFault ((List.range k).flatMap (fun m => (span (accKey a.toNat m 0) n).map eccAcc))
    (128 < nr ∨ 128 < nc → ∃ e, e.cause = 2 ∧ e.faux = w ∧ Faults (.mdrain g a c f p r o) s e) ∧
    (1 ≤ nr → nr ≤ 128 → 1 ≤ nc → nc ≤ 128 → capCheck (s.rc c) b size 1 [.st] = none →
      spaceOf scratchSize b size = .scratch →
      (free → error nr nc = none →
        CompletesFrom (.mdrain g a c f p r o) s (s.setCell (s.cell.drainBusy s.now a.toNat nr))
          ((List.range nr).map (fun m => (3 + m, .st (row m).1 [] (row m).2)))) ∧
      (free → ∀ e, error nr nc = some e → Faults (.mdrain g a c f p r o) s e) ∧
      (spanAt s.cell.accPend a.toNat s.now = true →
        Faults (.mdrain g a c f p r o) s (timeFlt .missed a.toNat s.cur.cell)) ∧
      (spanAt s.cell.accPend a.toNat s.now = false → spanAt s.cell.ports 2 s.now = true →
        Faults (.mdrain g a c f p r o) s (timeFlt .busy a.toNat s.cur.cell))) ∧
    (nr ≤ 128 → nc ≤ 128 → nr = 0 ∨ nc = 0 → free →
      CompletesFrom (.mdrain g a c f p r o) s (s.setCell (s.cell.drainBusy s.now a.toNat nr)) []) ∧
    (let mr := bits w 7 0
     let mc := bits w 15 8
     let u := s.setCell (s.cell.drainBusy s.now a.toNat mr)
     (128 < mr ∨ 128 < mc → ∃ e, e.cause = 2 ∧ e.faux = w ∧ Faults (.mdrainp g a t p) s e) ∧
     (mr ≤ 128 → mc ≤ 128 → free → mr * mc = 0 → CompletesFrom (.mdrainp g a t p) s u []) ∧
     (mr ≤ 128 → mc ≤ 128 → free → ∀ e, error mr mc = some e → Faults (.mdrainp g a t p) s e) ∧
     (mr ≤ 128 → mc ≤ 128 → free → error mr mc = none → mr * mc ≠ 0 → ∃ d : Drain, d.ag = s.cur ∧ d.target = s.rx t ∧ d.rows = mr ∧
       d.cols = mc ∧ d.left = List.range (mr * mc) ∧
       (∀ m n, m < mr → n < mc → d.vals.getD (m * mc + n) 0 = NMap.get 0 s.cell.accs (accKey a.toNat m n)) ∧
       CompletesFrom (.mdrainp g a t p) s
         { u with drains := NMap.put s.drains s.nextId d, nextId := s.nextId + 1 } []))

/-- R306, R127: QBIND reads its descriptor on g + 2 unless the stream runs; QOP adds an operator, or faults on one with a
reserved rounding mode or a format that is reserved or not accepted (R55, R59, R64), and QSTART starts a BOUND stream on
g + 1; QSTOP stops a running one and else only advances. A steward may fetch none of them. R131, R261, R274: a pop of a running stream takes the oldest decoded pop on its cycle: VPOP puts it in v[d] on g + 4, MFILL in its
first slot line on g + 5 and pops again on every later cycle; where nothing is decoded the gang freezes on the pop; a
second pop of the stream on one cycle faults as busy. -/
def Obligations.PatternStreams : Prop :=
  (∀ (s : State) (g n : BitVec 4) (x : BitVec 5),
     let t := NMap.get QStream.unbound s.cell.qs n.toNat
     let off := bits (s.rx x).toNat 21 0
     (s.cur.stew = true → ∀ i ∈ ([.qbind g x n, .qop g x n, .qstart g n, .qstop g n] : List Instr),
       ∃ f, f.cause = 1 ∧ f.sub = 2 ∧ f.faddr = s.me.pc.toNat ∧ Faults i s f) ∧
     (s.cur.stew = false →
       (off % 128 = 0 → off + 128 ≤ scratchSize → t.st ≠ 2 →
         Completes (.qbind g x n) s [(2, .qbind (.qbind g x n) n.toNat off)]) ∧
       (off % 128 = 0 → off + 128 ≤ scratchSize → t.st = 2 → ∃ f, f.cause = 15 ∧ Faults (.qbind g x n) s f) ∧
       (off % 128 ≠ 0 ∨ scratchSize < off + 128 → Faults (.qbind g x n) s (capFlt .bounds (scratchBase + off))) ∧
       (t.st = 1 → qoRm (s.rx x) ≠ 5 → qoRm (s.rx x) ≠ 6 →
         (t.chain.length < 4 → qoFmtOk (s.rx x) = true → Completes (.qop g x n) s [(1, .qop n.toNat (s.rx x))]) ∧
         (4 ≤ t.chain.length ∨ qoFmtOk (s.rx x) = false → ∃ f, f.cause = 2 ∧ Faults (.qop g x n) s f)) ∧
       (t.st = 1 → qoRm (s.rx x) = 5 ∨ qoRm (s.rx x) = 6 → ∃ f, f.cause = 1 ∧ f.sub = 1 ∧ Faults (.qop g x n) s f) ∧
       (t.st = 1 → chainOk (QDesc.ofBytes t.desc) t.chain = true → Completes (.qstart g n) s [(1, .qstate n.toNat 2)]) ∧
       (t.st ≠ 1 → ∀ i ∈ ([.qop g x n, .qstart g n] : List Instr), ∃ f, f.cause = 15 ∧ Faults i s f) ∧
       (t.st = 2 → Completes (.qstop g n) s [(1, .qstate n.toNat 1)]) ∧
       (t.st ≠ 2 → Completes (.qstop g n) s []))) ∧
  (∀ (s : State) (g n o : BitVec 4) (d : BitVec 6) (p : BitVec 5),
     let c := s.cell
     let q := NMap.get QStream.unbound c.qs n.toNat
     let w := s.rx p
     let l0 := bits w.toNat 6 0
     let k := bits w.toNat 13 7 + 1
     let i : Instr := .mfillStream g o n p
     let later : List (Nat × Act) := (List.range (k - 1)).map (fun j => (j + 1, .pop n.toNat o.toNat (l0 + j + 1)))
     let waits (s : State) : State := s.setGang s.cur.unit
       { s.gang s.cur.unit with conds := (s.gang s.cur.unit).conds ++ [⟨.pop s.cur.cell n.toNat, s.cur, s.me.pc, s.wall, s.wall⟩] }
     let second := q.lastPop = some s.now ∨ ∃ e ∈ (s.gang s.cur.unit).pend,
       e.ag.cell = s.cur.cell ∧ e.due = s.now ∧ e.act.popOf = some n.toNat
     (q.st ≠ 2 → ∃ f, f.cause = 15 ∧ Faults (.vpop g d n) s f) ∧
     (s.cur.stew = false → (s.gang s.cur.unit).held = false → q.st = 2 →
       (second → Faults (.vpop g d n) s (timeFlt .busy n.toNat s.cur.cell)) ∧
       (¬ second →
         (q.buf = [] → CompletesFrom (.vpop g d n) s (waits s) [(0, .vpop n.toNat d.toNat)]) ∧
         (∀ v f rest, q.buf = (v, f, none) :: rest →
           CompletesFrom (.vpop g d n) s
             (s.setCell { c with qs := NMap.put c.qs n.toNat { q with buf := rest, taken := q.taken + 1, lastPop := some s.now } })
             ((4, .v d.toNat (BitVec.allOnes 64) v) :: if f = 0 then [] else [(4, .orFlags f)])) ∧
         (∀ v f e rest, q.buf = (v, f, some e) :: rest → Faults (.vpop g d n) s e))) ∧
     (128 < l0 + k → ∃ f, f.cause = 2 ∧ f.faux = w.toNat ∧ Faults i s f) ∧
     (l0 + k ≤ 128 → q.st ≠ 2 → ∃ f, f.cause = 15 ∧ Faults i s f) ∧
     (l0 + k ≤ 128 → q.st = 2 → NSet.mem c.claims o.toNat = true → spanAt c.ports 0 s.now = false →
       fillMeetsHold c.slotHold o.toNat s.now k = false → s.cur.stew = false → (s.gang s.cur.unit).held = false →
       ¬ second →
         (q.buf = [] → CompletesFrom i s (waits (s.setCell (c.fillBusy s.now o.toNat l0 k)))
           ((0, .pop n.toNat o.toNat l0) :: later)) ∧
         (∀ v f rest, q.buf = (v, f, none) :: rest →
           let c1 := { c with qs := NMap.put c.qs n.toNat { q with buf := rest, taken := q.taken + 1, lastPop := some s.now } }
           CompletesFrom i s (s.setCell (c1.fillBusy s.now o.toNat l0 k))
             ((5, .slotLine o.toNat l0 v) :: ((if f = 0 then [] else [(5, .orFlags f)]) ++ later)))))

/-! ### Copies (R289 to R307) -/

/-- R291, R296, R297, R299 to R301: a copy inside the package whose checks pass, while its cell's copy queue has an
entry free, is listed at the end of its channel under the next number, and its stream goes on at once; a copy of no
bytes only advances; the first check that fails faults. R298, R302, R303, R305, R307: the other ladle instructions.
CPYN is listed and reads its descriptor on g + 2; RREAD, RWRITE and KGET are listed and their requests leave; SQLD
reserves its scale entries and is listed; WPRD reads a write pointer. -/
def Obligations.CopiesIssue : Prop :=
  (∀ (s : State) (g d c : BitVec 4) (x : BitVec 5) (h e : BitVec 3),
     let dst := s.rc d
     let src := s.rc c
     let w := s.rx x
     let n := bits w.toNat 31 0
     let m := gpCnt w * 2 ^ gpEsz w
     let bar := if bitOf w.toNat 37 then some (bits w.toNat 36 32) else none
     let red := gpRed w
     let out (k : Nat) := s.sideFault dst dst.addr.toNat k [.st, .cp]
     let inn (k : Nat) := s.sideFault src src.addr.toNat k [.ld, .cp]
     let writes (keep : Bool) (k : Nat) := s.rangeFault s.cur true keep dst.addr.toNat k
     let reads (k : Nat) := s.rangeFault s.cur false false src.addr.toNat k
     let within (b : Bool) (a : Nat) : Option Flt := if b then none else some (capFlt .bounds a)
     let issues (i : Instr) (checks : List (Option Flt)) (v : Copy) : Prop :=
       ((∀ y ∈ checks, y = none) → s.queueUse s.cur < 64 → CompletesFrom i s (s.listed v) []) ∧
       (∀ (k : Nat) (f : Flt), checks[k]? = some (some f) → (∀ j, j < k → checks[j]? = some none) → Faults i s f)
     let gang := s.cur.stew = false
     (n = 0 → Completes (.cpy g d c x h e) s [] ∧ (gang → Completes (.kput g d c x h e) s [] ∧
       Completes (.mcast g d c x h e) s [])) ∧
     (gpCnt w = 0 → ∀ i ∈ ([.gath g d c x h e, .scat g d c x h e, .scadd g d c x h e] : List Instr), Completes i s []) ∧
     (n ≠ 0 → issues (.cpy g d c x h e) [out n, inn n, writes (src.has .lc && dst.has .sc) n, reads n]
       (s.newCopy h e .lin src dst n bar (src.has .lc && dst.has .sc))) ∧
     (n ≠ 0 → gang → issues (.kput g d c x h e)
       [out n, inn n, writes false n, reads n]
       (s.newCopy h e .kput src dst n bar false)) ∧
     (n ≠ 0 → gang → bits w.toNat 41 38 ≠ 0 → issues (.mcast g d c x h e)
       [out n, within (decide (spaceOf scratchSize dst.addr.toNat n = .scratch)) dst.addr.toNat, inn n, reads n]
       (s.newCopy h e (.mcast (bits w.toNat 41 38)) src dst n bar
         (decide (spaceOf scratchSize src.addr.toNat n = .scratch) || (src.has .lc && dst.has .sc)))) ∧
     (gpCnt w ≠ 0 → gpIdx w % 4 = 0 → gpEsz w ≤ 12 →
       issues (.gath g d c x h e) [out m, tableFault src [.ld, .cp], s.idxFault w, writes (src.has .lc && dst.has .sc) m]
         (s.newCopy h e (.gath (gpIdx w) (gpEsz w)) src dst m (gpBar w) false) ∧
       issues (.scat g d c x h e) [tableFault dst [.st, .cp], globalTable dst, inn m, s.idxFault w, reads m, s.tablePages dst]
         (s.newCopy h e (.scat (gpIdx w) (gpEsz w)) src dst m (gpBar w) false) ∧
       (red ≠ 3 → (if red = 1 then 3 else 2) ≤ gpEsz w → gpEsz w ≤ 6 → dst.addr.toNat % 2 ^ gpEsz w = 0 →
         issues (.scadd g d c x h e)
           [tableFault dst [.ld, .st, .at, .cp], globalTable dst, inn m, s.idxFault w, reads m, s.tablePages dst]
           (s.newCopy h e (.scadd (gpIdx w) (gpEsz w) red) src dst m (gpBar w) false)))) ∧
  (∀ (s : State) (g d c : BitVec 4) (x : BitVec 5) (h e : BitVec 3),
     let dst := s.rc d
     let src := s.rc c
     let w := s.rx x
     let n := bits w.toNat 31 0
     let bar := if bitOf w.toNat 37 then some (bits w.toNat 36 32) else none
     let off := bits w.toNat 21 0
     (off % 128 = 0 → off + 128 ≤ s.cur.scratch → CompletesFrom (.cpyn g d c x h e) s
       (s.listed { s.newCopy h e .lin src dst 0 none (src.has .lc && dst.has .sc) with ready := false })
       [(2, .cpyn (.cpyn g d c x h e) s.nextId off)]) ∧
     (off % 128 ≠ 0 ∨ s.cur.scratch < off + 128 →
       Faults (.cpyn g d c x h e) s (capFlt .bounds (scratchBase + off))) ∧
     (x.toNat = 31 → ∀ i ∈ ([.rread g d c x h e, .rwrite g d c x h e, .kget g d c x h e] : List Instr),
       ∃ f, f.cause = 1 ∧ f.sub = 1 ∧ Faults i s f) ∧
     (x.toNat ≠ 31 → n = 0 → ∀ i ∈ ([.rread g d c x h e, .rwrite g d c x h e, .kget g d c x h e] : List Instr),
       Completes i s []) ∧
     (x.toNat ≠ 31 → n ≠ 0 → s.cur.stew = false → s.queueUse s.cur < 64 →
       ∀ p ∈ ([(.rread g d c x h e, [s.sideFault dst dst.addr.toNat n [.st, .cp], handleChk src 2 [.ld],
             s.rangeFault s.cur true false dst.addr.toNat n], .rread (s.rx (x + 1))),
           (.rwrite g d c x h e, [handleChk dst 2 [.st], s.sideFault src src.addr.toNat n [.ld, .cp],
             s.rangeFault s.cur false false src.addr.toNat n], .rwrite (s.rx (x + 1))),
           (.kget g d c x h e, [s.sideFault dst dst.addr.toNat n [.st, .cp], handleChk src 1 [],
             s.rangeFault s.cur true false dst.addr.toNat n], .kget (s.rx (x + 1)))] :
           List (Instr × List (Option Flt) × CopyKind)),
         (∀ y ∈ p.2.1, y = none) →
         let v := s.newCopy h e p.2.2 src dst n bar false
         CompletesFrom p.1 s ((s.listed v).startRemote s.nextId v) []) ∧
     (let k := bits w.toNat 6 0
      let str := bits w.toNat 31 8
      let a := src.addr.toNat
      1 ≤ k → k ≤ 64 → s.cur.stew = false → s.cell.scaleQ.length + k ≤ 64 → s.queueUse s.cur < 64 →
       s.sideFault src a ((k - 1) * str + 128) [.ld, .cp] = none →
       s.rangesFault s.cur false false ((List.range k).map (fun j => (a + j * str, 128))) = none →
       CompletesFrom (.sqld g c x h) s
         ((s.setCell
             { s.cell with scaleQ := s.cell.scaleQ ++ (List.range k).map (fun j => ⟨s.nextId, j, false, 0⟩) }).listed
           { s.newCopy h 0 (.sqld 0) src Cap.null (128 * k) bar false with stride := str }) []) ∧
     Completes (.wprd g x h) s [(1, .x x.toNat (BitVec.ofNat 64 (s.cell.wptr h.toNat)))])

/-! ### Stewards and faults (R36, R185, R315 to R332) -/

/-- R185, R315: in a stream of a gang the system opcodes count as unassigned: each raises an illegal-instruction fault
with sub-cause 0 at its own address. R318, R326: CSRR answers on g + 2 with the register as it stands, CSRW acts on g
+ 1; an unassigned number is illegal with sub-cause 1, and GW_FFLAGS and GW_PC with sub-cause 2 while the selected
gang runs freely. -/
def Obligations.SystemInstructions : Prop :=
  (∀ (s : State) (g c k : BitVec 4) (d : BitVec 5) (n : BitVec 12) (h : BitVec 16) (b : BitVec 3) (m : BitVec 2),
     s.cur.stew = false →
     ∀ i ∈ ([.csrr g d n, .csrw g d n, .trap g h, .eret g, .wfe g, .sweepOpen g d, .sweepStat g d, .sweepForce g d,
         .xins g d c, .maskw g d b k, .freeze g d, .thaw g d m, .cancel g d c] : List Instr),
       ∃ f, f.cause = 1 ∧ f.sub = 0 ∧ f.faddr = s.me.pc.toNat ∧ Faults i s f) ∧
  (∀ (s : State) (g : BitVec 4) (d : BitVec 5) (c : BitVec 12), s.cur.stew = true →
     let n := c.toNat
     let u := s.cur.unit
     let shut := (n = 0x105 ∨ n = 0x106) ∧ s.windowOpen u = false
     let rate := n = 0x500 ∧ bits (s.rx d).toNat 10 9 = 3
     (csrAssigned n = false → ∀ i ∈ ([.csrr g d c, .csrw g d c] : List Instr),
       ∃ f, f.cause = 1 ∧ f.sub = 1 ∧ f.faddr = s.me.pc.toNat ∧ Faults i s f) ∧
     (csrAssigned n = true → shut → ∀ i ∈ ([.csrr g d c, .csrw g d c] : List Instr),
       ∃ f, f.cause = 1 ∧ f.sub = 2 ∧ f.faddr = s.me.pc.toNat ∧ Faults i s f) ∧
     (csrAssigned n = true → ¬ shut →
       (n ∉ [0x306, 0x406, 0x502] → Completes (.csrr g d c) s [(2, .x d.toNat (s.csrRead u n))]) ∧
       (n = 0x306 → CompletesFrom (.csrr g d c) s { s with tr := { s.tr with dropped := 0 } }
         [(2, .x d.toNat (s.csrRead u n))]) ∧
       (n = 0x406 → CompletesFrom (.csrr g d c) s { s with coh := { s.coh with haltQ := s.coh.haltQ.drop 1 } }
         [(2, .x d.toNat (s.csrRead u n))]) ∧
       (n = 0x502 → CompletesFrom (.csrr g d c) s { s with hbm := { s.hbm with retireQ := s.hbm.retireQ.drop 1 } }
         [(2, .x d.toNat (s.csrRead u n))]) ∧
       (¬ rate → Completes (.csrw g d c) s [(1, .csr n (s.rx d))]) ∧
       (rate → ∃ f, f.cause = 2 ∧ Faults (.csrw g d c) s f)))

/-- R319, R320, R325: what every register of a steward's own file and GW_SEL read, ST_EVENT with its level bits GFAULT
(bit 0) and TIMER (bit 4), which no latch holds, beside the latched ones; and what a write to each leaves there. -/
def Obligations.StewardRegisterFile : Prop :=
  ∀ (s : State) (n : Nat) (v : Word),
    let t := s.stew n
    let after (c : Nat) (u : Steward) : Prop := (s.csrWrite n c v).stew n = u ∧
      (∀ m, m ≠ n → (s.csrWrite n c v).stew m = s.stew m) ∧ (∀ k, (s.csrWrite n c v).gang k = s.gang k) ∧
      (∀ a, (s.csrWrite n c v).readByte a = s.readByte a)
    s.csrRead n 0x000 = BitVec.ofNat 64 (t.ie.toNat + 2 * t.inh.toNat + 4 * t.halt.toNat) ∧
    s.csrRead n 0x001 = t.cause ∧ s.csrRead n 0x002 = t.epc ∧ s.csrRead n 0x003 = t.tvec ∧
    s.csrRead n 0x005 = t.evmask ∧ s.csrRead n 0x007 = BitVec.ofNat 64 s.wall ∧ s.csrRead n 0x008 = t.timecmp ∧
    s.csrRead n 0x009 = t.gfault ∧ s.csrRead n 0x100 = t.gwSel ∧
    (s.csrRead n 0x006).toNat = n % 4 + s.boot.dev % 2 ^ 18 * 4 ∧ (s.csrRead n 0x00A).toNat = s.tick % 2 ^ 32 ∧
    (t.event.getLsbD 0 = false → t.event.getLsbD 4 = false → (s.csrRead n 0x004).toNat < 256 ∧
      ∀ e, e < 8 → (s.csrRead n 0x004).getLsbD e =
        if e = 0 then t.gfault != 0 else if e = 4 then decide (t.timecmp.toNat ≤ s.wall) else t.event.getLsbD e) ∧
    after 0x000 { t with ie := v.toNat.testBit 0 } ∧ after 0x001 t ∧ after 0x002 { t with epc := v } ∧
    after 0x003 { t with tvec := v } ∧ after 0x004 { t with event := t.event &&& ~~~ (v.setWidth 8) } ∧
    after 0x005 { t with evmask := v } ∧ after 0x006 t ∧ after 0x007 t ∧ after 0x008 { t with timecmp := v } ∧
    after 0x009 t ∧ after 0x00A t ∧ after 0x100 { t with gwSel := v &&& 0x3FF }

/-- R321, R322: TRAP outside the handler enters it: ST_EPC names the next word, ST_CAUSE holds code 127, IE falls, INH
rises, and the first handler instruction, at ST_TVEC with its two low bits clear, issues three wall cycles later;
inside the handler it is a double fault. R321, R323: a double fault stops the steward: HALT rises, PEER is latched in
the other steward of the die, and the gang faults it had pending pass to that steward; nothing else changes. R322:
ERET leaves the handler for ST_EPC at no cost, IE rising and INH falling on g + 1; WFE stops its stream. (That TRAP's code,
[31:16] of SC_INFO, stands in bits 47 to 32 of ST_CAUSE is the model's reading of R319: log entry 27.) -/
def Obligations.HandlerEntryAndReturn : Prop :=
  (∀ (s : State) (g : BitVec 4) (c : BitVec 16), s.cur.stew = true → s.cur.kind = .seq →
     let n := s.cur.unit
     let t := s.stew n
     (t.inh = false → ∃ u, exec (.trap g c) s = .next u ∧
       (u.stew n).epc = s.me.pc + 4 ∧ (u.stew n).cause.toNat % 256 = 127 ∧ (u.stew n).cause.toNat / 2 ^ 32 = c.toNat ∧
       (u.stew n).ie = false ∧ (u.stew n).inh = true ∧ (u.stew n).halt = t.halt ∧ (u.stew n).pend = t.pend ∧
       u.me = { s.me with pc := t.tvec &&& ~~~ 3, ready := s.wall + 3, first := true, idling := false, wfe := false,
                          stall := none, word := none } ∧
       (∀ m, m ≠ n → u.stew m = s.stew m) ∧ (∀ k, u.gang k = s.gang k) ∧ (∀ a, u.readByte a = s.readByte a)) ∧
     (t.inh = true → exec (.trap g c) s = .next (s.haltSteward n))) ∧
  (∀ (s : State) (n : Nat), n < 4 →
     let p := peerOf n
     let u := s.haltSteward n
     p ≠ n ∧ p / 2 = n / 2 ∧
     u.stew n = { s.stew n with halt := true, gfault := 0 } ∧
     u.stew p = { s.stew p with gfault := (s.stew p).gfault ||| (s.stew n).gfault, event := (s.stew p).event ||| 128 } ∧
     (∀ m, m ≠ n → m ≠ p → u.stew m = s.stew m) ∧ (∀ k, u.gang k = s.gang k) ∧ (∀ a, u.readByte a = s.readByte a)) ∧
  (∀ (s : State) (g : BitVec 4) (due iss : Nat) (pc : Word), s.cur.stew = true →
     let n := s.cur.unit
     (∃ t, exec (.eret g) s = .next t ∧ Issued s t [(1, .eret)] (s.stew n).epc 0 false) ∧
     (∃ t, s.act ⟨due, s.cur, pc, .eret, iss⟩ = .ok t ∧ t.stew n = { s.stew n with ie := true, inh := false } ∧
       (∀ m, m ≠ n → t.stew m = s.stew m) ∧ (∀ k, t.gang k = s.gang k) ∧ (∀ a, t.readByte a = s.readByte a)) ∧
     (∃ t, exec (.wfe g) s = .next t ∧ Issued (s.setMe { s.me with wfe := true }) t [] (s.me.pc + 4) 0 false))

/-- R319, R321: a fault of a steward's stream outside the handler saves the address and the cause of the fault and
enters the handler; the faulting instruction changes no other register, no gang and no byte of memory. R36, R323 to
R325: a fault of a gang that is not held holds it on the current wall cycle, with the record of the fault, its stream,
its instruction and its gang cycle; no stream, register or byte of memory changes; one of a gang that is held goes to the
pending mask, unless it has come on the wall cycle of the hold and stands before the recorded one in the order of cells and
streams, when the two change places. A contained error (cause 19, sub-cause 1) also halts the pour's session and stands
apart. (R36 marks the other faults of one wall cycle; that a fault on a later wall cycle of the hold is marked too is the
model's choice: log entry 59.) -/
def Obligations.FaultsAreTaken : Prop :=
  (∀ (s : State) (f : Flt), s.cur.stew = true → s.cur.kind = .seq → (s.stew s.cur.unit).inh = false →
     let n := s.cur.unit
     let t := s.stew n
     let u := s.raise f
     (u.stew n).epc = s.me.pc ∧ (u.stew n).cause.toNat % 256 = f.cause % 256 ∧
     (u.stew n).cause.toNat / 2 ^ 8 % 2 ^ 8 = f.sub % 2 ^ 8 ∧ (u.stew n).cause.toNat / 2 ^ 16 = f.faddr % 2 ^ 48 ∧
     (u.stew n).ie = false ∧ (u.stew n).inh = true ∧ (u.stew n).pend = t.pend ∧ (u.stew n).tvec = t.tvec ∧
     u.me = { s.me with pc := t.tvec &&& ~~~ 3, ready := s.wall + 3, first := true, idling := false, wfe := false,
                        stall := none, word := none } ∧
     (∀ m, m ≠ n → u.stew m = s.stew m) ∧ (∀ k, u.gang k = s.gang k) ∧ (∀ a, u.readByte a = s.readByte a)) ∧
  (∀ (s : State) (f : Flt), s.cur.stew = false → ¬ (f.cause = 19 ∧ f.sub = 1) →
     let k := s.cur.unit
     let q := s.gang k
     let u := s.raise f
     (q.held = false → (u.gang k).held = true ∧ (u.gang k).live = false ∧ (u.gang k).frec.flt = f ∧
       (u.gang k).frec.cell = s.cur.cell ∧ (u.gang k).frec.stream = s.cur.kind.idx ∧ (u.gang k).frec.pc = s.me.pc ∧
       (u.gang k).frec.wall = s.wall ∧ (u.gang k).frec.told = false ∧ (u.gang k).pendMask = q.pendMask ∧
       (q.live = true → (u.gang k).frec.fcycle = q.gc - q.base)) ∧
     let rank := 4 * s.cur.cell + s.cur.kind.idx
     let old := 4 * q.frec.cell + q.frec.stream
     let mask (n : Nat) : BitVec 16 := q.pendMask ||| BitVec.ofNat 16 (2 ^ n)
     (q.held = true → ¬ (q.frec.wall = s.wall ∧ rank < old) → (u.gang k).frec = q.frec ∧ (u.gang k).pendMask = mask rank) ∧
     (q.held = true → q.frec.wall = s.wall → rank < old → (u.gang k).frec.flt = f ∧ (u.gang k).frec.cell = s.cur.cell ∧
       (u.gang k).frec.stream = s.cur.kind.idx ∧ (u.gang k).frec.pc = s.me.pc ∧ (u.gang k).frec.wall = s.wall ∧
       (u.gang k).frec.fcycle = q.frec.fcycle ∧ (u.gang k).pendMask = mask old) ∧
     (u.gang k).cells = q.cells ∧ (u.gang k).pend = q.pend ∧ (∀ h, h ≠ k → u.gang h = s.gang h) ∧
     (∀ n, u.stew n = s.stew n) ∧ (∀ a, u.readByte a = s.readByte a) ∧ u.csr = s.csr)

/-- R327 to R329, R332: FREEZE and THAW act on the gang of x[s] on g + 1; XINS puts a well-formed record into its slot
on g + 5 while the steward waits; MASKW changes its mask at once when no access of the class is in flight, and waits
for them otherwise. -/
def Obligations.FreezeThawExtentsMasks : Prop :=
  ∀ (s : State) (g c : BitVec 4) (x : BitVec 5) (m : BitVec 2) (b : BitVec 3) (j : BitVec 4), s.cur.stew = true →
    let v := s.rx x
    let a := (s.rc c).addr.toNat
    let k := v.toNat % 64
    Completes (.freeze g x) s [(1, .freeze k)] ∧
    Completes (.thaw g x m) s [(1, .thaw k m.toNat)] ∧
    (∀ e, capCheck (s.rc c) a 32 1 [.ld, .sy] = some e → Faults (.xins g x c) s (capFlt e a)) ∧
    (capCheck (s.rc c) a 32 1 [.ld, .sy] = none → spaceOf s.cur.scratch a 32 = .scratch →
      s.cell.spmFault (spmLines (a - scratchBase) 32) = none →
      let r : ExtRec := BitVec.ofNat 256 (ofLE (s.spm s.cur (a - scratchBase) 32))
      (extBad r = none → ∃ t, exec (.xins g x c) s = .next t ∧
        Issued s t [(5, .extent k (v.toNat / 2 ^ 8 % 2 ^ 6) r)] (s.me.pc + 4) 4 false) ∧
      (∀ w, extBad r = some w → ∃ f, f.cause = 2 ∧ f.faux = w ∧ Faults (.xins g x c) s f)) ∧
    (9 ≤ j.toNat → ∃ f, f.cause = 1 ∧ f.sub = 1 ∧ Faults (.maskw g x b j) s f) ∧
    (j.toNat ≤ 8 → v.toNat % 2 ^ 8 ≠ 0 ∨ 2 ^ 52 ≤ v.toNat → ∃ f, f.cause = 2 ∧ Faults (.maskw g x b j) s f) ∧
    (j.toNat ≤ 8 → v.toNat % 2 ^ 8 = 0 → v.toNat < 2 ^ 52 →
      (s.classBusy b.toNat = false → CompletesFrom (.maskw g x b j) s (s.setMask b.toNat j.toNat v) [] ∧
        (s.setMask b.toNat j.toNat v).hbm.mask b.toNat j.toNat = v.toNat) ∧
      (s.classBusy b.toNat = true →
        Sends (.maskw g x b j) s { s.newOp (.maskw b.toNat j.toNat) (.maskw g x b j) with val := v }))

/-- R331, R370: SWEEP opens an epoch where none is open and its hulls are well formed, reports its phase and number,
and presses the unswept gangs of an open one on; OPEN in an open epoch answers status 1, FORCE without one too. The
value of FORCE's word is free (log entry 3). -/
def Obligations.RevocationInstructions : Prop :=
  ∀ (s : State) (g : BitVec 4) (d : BitVec 5), s.cur.stew = true →
    let e := s.tr.epoch
    let word (st v : Nat) : Word := BitVec.ofNat 64 (st % 256 + v * 256)
    (e.phase ≠ 0 → Completes (.sweepOpen g d) s [(2, .x d.toNat (word 1 e.num))]) ∧
    (∀ v, e.phase = 0 → s.hullList = .error v → ∃ f, f.cause = 2 ∧ f.faux = v ∧ Faults (.sweepOpen g d) s f) ∧
    (∀ p b l, e.phase = 0 → s.hullList = .ok (p, b, l) →
      CompletesFrom (.sweepOpen g d) s (s.openEpoch p b l) [(2, .x d.toNat (word 0 (s.openEpoch p b l).tr.epoch.num))] ∧
      (s.openEpoch p b l).tr.epoch.part = p ∧ (s.openEpoch p b l).tr.epoch.hulls = l ∧
      (s.openEpoch p b l).tr.epoch.phase ≠ 0) ∧
    Completes (.sweepStat g d) s [(2, .x d.toNat (word e.phase e.num))] ∧
    let u : State := { s with fresh := s.fresh + 1 }
    let v := (Config.freeWord s.fresh).toNat
    (e.phase = 0 → CompletesFrom (.sweepForce g d) s u [(2, .x d.toNat (word 1 v))]) ∧
    (e.phase ≠ 0 → CompletesFrom (.sweepForce g d) s u.forceSweeps [(2, .x d.toNat (word 0 v))])

/-! ### Crucible and dispatch instructions (R164, R165, R234 to R238, R346) -/

/-- R164, R165, R234, R235: a Crucible instruction whose operands pass its checks at issue is sent to the index with
its operands, and its stream waits; a handle of the wrong kind, untagged or of the wrong device faults at its address.
-/
def Obligations.CrucibleInstructionsIssue : Prop :=
  ∀ (s : State) (g a b e f : BitVec 4) (d x : BitVec 5) (k : Nat),
    let h := s.rc a
    let h2 := s.rc b
    let op (i : Instr) (caps : List Cap) (cls : Nat) : Op :=
      { s.newOp .crucible i with val := s.rx d, val2 := BitVec.ofNat 64 cls, caps := caps }
    let isHandle (c : Cap) := c.tag = true ∧ c.otype = 1
    let near (c : Cap) := isHandle c ∧ c.nhDev = s.boot.dev
    let offOk (n : Nat) := (s.rx d).toNat % n = 0 ∧ (s.rx d).toNat + n ≤ s.cur.scratch
    (near h → ∀ i ∈ ([.klease g d a, .krenew g d a, .kdrop g d a] : List Instr), Sends i s (op i [h] 0)) ∧
    (isHandle h → ∀ i ∈ ([.kstat g d a x, .kdepth g d a, .kanc g d a e] : List Instr), Sends i s (op i [h] 0)) ∧
    (isHandle h → offOk 16 → Sends (.kname g d a) s (op (.kname g d a) [h] 0)) ∧
    (s.classOf s.cur h .ld = .ok k → offOk 64 → Sends (.kclass g d a) s (op (.kclass g d a) [] k)) ∧
    (s.classOf s.cur h .sm = .ok k → near h2 → (∀ n, s.nodeOf h2 = some n → (s.node n).cls = k) →
      ∀ i ∈ ([.kpin g d a b, .kunpin g d a b] : List Instr), Sends i s (op i [h2] k)) ∧
    (s.classOf s.cur h .sm = .ok k → h2 = Cap.null ∨ near h2 → Sends (.kopen g d a b e) s (op (.kopen g d a b e) [h2] k)) ∧
    (s.classOf s.cur h .sm = .ok k → isHandle h2 → h2.nhDev ≠ s.boot.dev →
      Sends (.krepl g d a b e) s (op (.krepl g d a b e) [h2] k)) ∧
    (∀ off, s.classOf s.cur h .ld = .ok k → s.placeOf h2 h2.addr (4 * bits (s.rx d).toNat 31 0) 1 [.ld] = .scr off →
      Sends (.kmatch g d a b e) s { op (.kmatch g d a b e) [h2] k with addr := h2.addr.toNat }) ∧
    (∀ n off, s.classOf s.cur h .sm = .ok k → h2.tag = true → h2.otype = 0 → s.blockOf s.cur h2 = some n →
      (s.node n).cls = k → s.placeOf (s.rc f) (s.rc f).addr 128 1 [.ld] = .scr off →
      Sends (.kseal g d a b e f) s { op (.kseal g d a b e f) [s.rc f, h2] k with
        val := 0, addr := (s.rc f).addr.toNat, relMark := s.nextId }) ∧
    (∀ i ∈ ([.klease g d a, .krenew g d a, .kdrop g d a, .kstat g d a x, .kname g d a, .kdepth g d a, .kanc g d a e] :
        List Instr),
      (h.tag = false → Faults i s (capFlt .tag h.addr.toNat)) ∧
      (h.tag = true → h.otype ≠ 1 → Faults i s (capFlt .otype h.addr.toNat))) ∧
    (isHandle h → h.nhDev ≠ s.boot.dev → ∀ i ∈ ([.klease g d a, .krenew g d a, .kdrop g d a] : List Instr),
      Faults i s (capFlt .otype h.addr.toNat))

/-- R236 to R238, R330, R346: the dispatch instructions check their handle, or the block that LAUNCH names, and are
sent to the cupola; LAUNCH takes an entry of its die's queue of 64 where one is free. -/
def Obligations.DispatchInstructionsIssue : Prop :=
  ∀ (s : State) (g a e : BitVec 4) (d : BitVec 5),
    let h := s.rc a
    let die := s.cur.die
    let n := NMap.get 0 s.cup.devQ die
    let level : List Instr := [.gcancel g d a, .cwread g d a, .eread g d a]
    (h.tag = true → h.otype = 4 → ∀ i ∈ level, Sends i s { s.newOp .dispatch i with caps := [h] }) ∧
    (h.tag = true → h.otype = 4 → s.cur.stew = true →
      Sends (.cancel g d a) s { s.newOp .dispatch (.cancel g d a) with caps := [h] }) ∧
    (h.tag = false → ∀ i ∈ level, Faults i s (capFlt .tag h.addr.toNat)) ∧
    (h.tag = true → h.otype ≠ 4 → ∀ i ∈ level, Faults i s (capFlt .otype h.addr.toNat)) ∧
    (∀ va, s.placeOf h h.addr 384 1 [.ld] = .glob va →
      (64 ≤ n → Sends (.launch g d a e) s { s.newOp .dispatch (.launch g d a e) with caps := [h], val := 1 }) ∧
      (n < 64 → ∃ t, exec (.launch g d a e) s = .next t ∧
        Issued (({ s with cup := { s.cup with devQ := NMap.set 0 s.cup.devQ die (n + 1) } } : State).sending
          { s.newOp .dispatch (.launch g d a e) with caps := [h] }) t [] (s.me.pc + 4) 0 false))

/-! ### Events: start, ports, keys, timers (R320 to R323, R409 to R416, R428 to R434) -/

/-- R428 to R431, R433, R434: a reset keeps the fuses only and begins at step 1; a requested one in step 7 is a failed
start with cause 9, a thermal one has cause 10 and counts as none, BU_READY ends step 7, its absence is cause 8; a step whose
test finds a failure ends the start with its cause; a legal life-cycle request writes its fuse, any other one is marked as
refused. (R430 writes zeros to HBM only: that memory outside HBM is clear after a reset too is the model's choice, log entry
6, and the script of the failures that a start meets is log entry 40.) -/
def Obligations.ResetsAndLifeCycle : Prop :=
  ∀ (s : State) (n : Nat) (v : Word) (k : Nat),
    let b := s.boot
    let kept (f : Nat) : Nat := if b.minimal = true ∧ b.clearf = true then 0 else f
    let worse : Nat := if b.minimal then 3 else min 3 (b.fails + 1)
    let resets (e : Instr) (f c : Nat) : Prop := ∃ t, exec e s = .next t ∧
      t.boot = { Boot.reset with step := 1, minimal := decide (f = 3), lc := b.lc, grade := b.grade, dev := b.dev,
                                 rev := b.rev, fails := f, cause := c, trouble := s.troubles.headD 0 } ∧
      t.wall = 0 ∧ t.tick = 0 ∧ t.csr = [] ∧ t.mem = [] ∧ t.tags = [] ∧ t.gangs = [] ∧ t.ops = [] ∧ t.copies = [] ∧
      NMap.keys t.stews = (if f = 3 then [0, 1] else [0, 1, 2, 3])
    let asks (e : Instr) (ok : Prop) (lc : Nat) : Prop :=
      (ok → b.lcChange = false → exec e s = .next { s with boot := { b with lc := lc, lcChange := true } }) ∧
      (¬ ok ∨ b.lcChange = true → exec e s = .next { s with boot := { b with refused := true } })
    (b.powered = false → resets .powerOn (kept b.fails) b.cause) ∧
    (b.powered = true → resets .thermalTrip (kept b.fails) 10) ∧
    (b.powered = true → ∀ e ∈ ([.pcieConventionalReset, .buReset n 0x0D1E] : List Instr),
      (8 ≤ b.step → resets e (kept b.fails) b.cause) ∧ (b.step = 7 → resets e (kept worse) 9) ∧
      (b.step < 7 → exec e s = .next s)) ∧
    exec .powerLoss s = .next { s with boot := { b with powered := false } } ∧
    (b.step = 7 → b.stepAt + 2 ^ 30 ≤ s.wall →
      exec .readyTimeout s = .next { s with boot := { b with step := 9, cause := 8, fails := worse } }) ∧
    (∀ c ∈ ([(1, 1), (2, 2), (5, 3), (6, 4), (7, 5)] : List (Nat × Nat)), b.powered = true → b.trouble = c.1 → b.step = c.2 →
      s.opener = none → s.gangIssuer = none → s.toPerform = none → s.dueInput = none →
      step s = .next { s with boot := { b with step := 9, cause := c.1, fails := worse } }) ∧
    (b.step = 7 → exec (.buReady n v) s =
      .next { s with boot := { b with step := 8, fails := if b.minimal then b.fails else 0 } }) ∧
    asks (.buLcreq n v) (v.toNat % 4 = 1 ∧ b.lc = 2 ∨ v.toNat % 4 = 3) (v.toNat % 4) ∧
    asks (.lcHostRequest k) (k = 1 ∧ b.lc = 0 ∨ k = 2 ∧ b.lc = 1) k

/-- R390, R409 to R412, R414 to R416: a port takes its state, an event of it latches LINK, a CXL port that goes down
kills its agent; below four lanes it is down, and in minimal mode all but port 0 stay down (R431), as in RETIRED, which is
the model's reading of the table of R428 (log entry 82); PFC frames pause a port; a trusted interface is locked, started, stopped or in error, and on leaving
RUN its keys are destroyed; a key pair is installed in life-cycle state RUN. -/
def Obligations.PortsInterfacesAndKeys : Prop :=
  ∀ (s : State) (p st i key : Nat) (err on : Bool),
    let link (t : State) (d : Nat) : Prop := (t.stew (2 * d)).event.getLsbD 6 = true
    let tdi (e : Instr) (v : Nat) : Prop := ∃ t, exec e s = .next t ∧ NMap.get 0 t.net.tdi i = v ∧
      (NMap.get 0 s.net.tdi i = 2 → v ≠ 2 → ∀ k e, NMap.find t.net.keys k = some e → e.tdi = i → e.destroyed = true) ∧
      (NMap.get 0 s.net.tdi i ≠ 2 ∨ v = 2 ∨ s.coh.below = [] → t.mem = s.mem) ∧ t.csr = s.csr
    (s.boot.minimal = true ∨ s.boot.lc = 3 → exec (.portStateChange false p st err) s = .next s ∧
      (p ≠ 0 → exec (.portStateChange true p st err) s = .next s)) ∧
    (p < 16 → st < 4 → s.boot.minimal = false → s.boot.lc ≠ 3 → ∃ t, exec (.portStateChange false p st err) s = .next t ∧
      NMap.get 0 t.net.fports p = st ∧ NSet.mem t.net.perr p = err ∧ (NMap.get 0 s.net.fports p ≠ st → link t (p / 8))) ∧
    (let w := if st < 4 then 0 else st
     p < 4 → NMap.get 16 s.net.cports p ≠ w → (s.boot.minimal = false ∧ s.boot.lc ≠ 3) ∨ p = 0 → ∃ t, exec (.portStateChange true p st err) s = .next t ∧
      NMap.get 16 t.net.cports p = w ∧ link t (portDie p) ∧ (st < 4 → t.coh.dead.getLsbD (2 + p) = true)) ∧
    (p < 16 → exec (.pfcPause p on) s = .next { s with net := { s.net with
      paused := if on then NSet.add s.net.paused p else NSet.del s.net.paused p } }) ∧
    (i < 256 →
      (NMap.get 0 s.net.tdi i = 0 → tdi (.lockInterface i) 1) ∧ (NMap.get 0 s.net.tdi i = 1 → tdi (.startInterface i) 2) ∧
      tdi (.stopInterface i) 0 ∧ tdi (.tdiError i) 3 ∧
      (∃ t r l, exec (.getDeviceInterfaceReport i) s = .next t ∧ t.net.out = s.net.out ++ [.report i r l]) ∧
      (0 < key → key < 4096 → s.boot.lc = 2 → ∃ t e, exec (.keyPairInstall key i) s = .next t ∧
        NMap.find t.net.keys key = some e ∧ e.tdi = i ∧ e.destroyed = false))

/-- R38, R43, R323: the freeze watchdog holds its gang with the record of the earliest condition, the alignment wait
one that is late; four wall cycles after a hold the serving steward is told. R284: an element of a drain-add that its
target takes is added to its accumulator and lowers the barrier by 4; a refusal faults the sender with cause 19, and the
elements that have not arrived stay. (What becomes of the drain after a refusal, the refused element gone and the others
kept, is the model's choice: log entry 54.) -/
def Obligations.GangTimeoutsAndDrains : Prop :=
  (∀ (s : State) (g : Nat),
     let q := s.gang g
     (∀ c, q.live = false → q.held = false → q.sfrozen = false → q.sweeping = false → q.saving = false →
       q.paused = false → c ∈ q.conds → q.conds.all (fun e => e = c || decide (c.wall < e.wall)) = true →
       2 ^ q.wdogK ≤ q.wdog → ∃ t, exec (.freezeTimeout g) s = .next t ∧ (t.gang g).held = true ∧
         (t.gang g).frec.flt = ⟨17, 0, 0, q.wdogK, 0⟩ ∧ (t.gang g).frec.cell = c.ag.cell ∧
         (t.gang g).frec.stream = c.ag.kind.idx ∧ (t.gang g).frec.pc = c.pc ∧ (∀ a, t.readByte a = s.readByte a)) ∧
     (q.live = true → q.held = false → q.stage = .none → q.awaitFrom.isSome = true → 2 ^ q.wdogK ≤ q.awaitCount q.gc →
       ∃ t, exec (.alignmentTimeout g) s = .next t ∧ (t.gang g).held = true ∧ (t.gang g).live = false ∧
         (t.gang g).frec.flt = ⟨17, 1, 0, q.wdogK, 0⟩ ∧ (∀ a, t.readByte a = s.readByte a)) ∧
     (q.held = true → q.frec.told = false → q.frec.wall + 4 ≤ s.wall → ∃ t, exec (.gfaultNotify g) s = .next t ∧
       (t.gang g).frec = { q.frec with told := true } ∧
       (∀ n, s.serving g = some n → g < 64 → (t.stew n).gfault = (s.stew n).gfault ||| BitVec.ofNat 64 (2 ^ g)))) ∧
  (∀ (s : State) (id e : Nat) (d : Drain), NMap.find s.drains id = some d →
     let c := s.cellOf d.to
     let r := accSum (c.mmode.toNat.testBit 3) false
       [laneNum (NMap.get 0 c.accs (accKey d.acc (e / d.cols) (e % d.cols))), laneNum (d.vals.getD e 0)]
     (e ∈ d.left → s.rowRead d e = true → s.takesDrain d = true → s.accBusy d = false →
       c.wordFault [eccAcc (accKey d.acc (e / d.cols) (e % d.cols))] = none →
       ∃ t, exec (.drainAddLanding id e) s = .next t ∧
         NMap.get 0 (t.cellOf d.to).accs (accKey d.acc (e / d.cols) (e % d.cols)) = r.1 ∧
         (t.cellOf d.to).bar d.bar = barAdd (c.bar d.bar) (-4) ∧ (∀ a, t.readByte a = s.readByte a)) ∧
     (d.refused = true → d.ag.stew = false → (s.gang d.ag.unit).held = false → (s.gang d.ag.unit).cancelAt = none →
       ∃ t, exec (.drainAddRefusal id) s = .next t ∧
         NMap.find t.drains id = (if d.left = [] then none else some { d with refused := false }) ∧ (t.gang d.ag.unit).held = true ∧
         (t.gang d.ag.unit).frec.flt = ⟨19, 3, 0, s.boot.dev, 0⟩ ∧ (t.gang d.ag.unit).frec.pc = d.pc))

/-- R320 to R322, R413: a doorbell latches its event; at the end of a wall cycle a steward that is not halted enters
its handler for the lowest event pending and enabled, when IE is set and INH is not. -/
def Obligations.StewardEvents : Prop :=
  ∀ (s : State) (n : Nat), n < 4 →
    let q := s.stew n
    let enters (e : Instr) (b : Nat) : Prop := ∃ t, exec e s = .next t ∧
      (t.stew n).epc = (q.cell.stream .seq).pc ∧ (t.stew n).cause = BitVec.ofNat 64 (128 + b) ∧ (t.stew n).ie = false ∧
      (t.stew n).inh = true ∧ ((t.stew n).cell.stream .seq).pc = q.tvec &&& ~~~ 3 ∧
      ((t.stew n).cell.stream .seq).ready = s.wall + 3 ∧ (∀ a, t.readByte a = s.readByte a)
    exec (.stewardDoorbell n) s = .next (s.setStew n { q with event := q.event ||| 2 }) ∧
    (∀ b, b < 8 → q.halt = false → q.ie = true → q.inh = false → bitOf (s.enabled n) b = true →
      (∀ j, j < b → bitOf (s.enabled n) j = false) → enters (.handlerEntry n) b ∧
      (q.timecmp.toNat ≤ s.wall → enters (.stewardTimer n) b))

/-! ### Events: the cupola (R46 to R53, R333 to R358) -/

/-- R46, R47, R232, R35: YIELD only advances while no request stands on its gang; with a request it takes the gang
into the drain, or faults where a stream is not quiescent; elsewhere than in the seq stream of cell 0, or with an
index without a valid record, it is illegal. R48, R49, R333 to R337: the drain ends in the save, which lasts a wall
cycle per 256 bytes of image; its end leaves the gang free and its pour suspended; the restore of a good image ends with
the pour running from gang cycle 0, or in its register sweep when one is due. -/
def Obligations.YieldSaveAndRestore : Prop :=
  (∀ (s : State) (g : BitVec 4) (i : BitVec 8),
     let u := s.cur.unit
     let ill (sub : Nat) : Prop := ∃ f, f.cause = 1 ∧ f.sub = sub ∧ f.faddr = s.me.pc.toNat ∧ Faults (.yield g i) s f
     (s.cur.stew = true ∨ s.cur.cell ≠ 0 ∨ s.cur.kind ≠ .seq → ill 2) ∧
     (s.cur.stew = false → s.cur.cell = 0 → s.cur.kind = .seq →
       ((∀ l, s.launchOf u = some l → NMap.find l.2.live i.toNat = none) → ill 3) ∧
       (∀ l b, s.launchOf u = some l → NMap.find l.2.live i.toNat = some b →
         (s.requested u = false → Completes (.yield g i) s []) ∧
         (s.requested u = true → s.quiescent s.cur = false → Faults (.yield g i) s (timeFlt .yield 0 0)) ∧
         (s.requested u = true → s.quiescent s.cur = true → ∃ t, exec (.yield g i) s = .next t ∧
           (t.gang u).stage = .drain i.toNat (s.gang u).gc ∧ (t.gang u).preempt = false ∧ t.me.pc = s.me.pc + 4 ∧
           (∀ e ∈ t.cup.preempts, e.2.1 ≠ u) ∧ (∀ a, t.readByte a = s.readByte a))))) ∧
  (∀ (s : State) (g : Nat) (p : PourRef) (l : Launch), s.launchOf g = some (p, l) →
     let q := s.gang g
     (∀ i gc, q.stage = .drain i gc → q.held = false → s.drained g = true → exec (.yieldDrainComplete g) s =
       .next (s.setGang g { q with
         saving := true,
         stage := .save i gc (s.wall + ((s.imageOf g ((NMap.find l.live i).getD [])).2.2 + 255) / 256) })) ∧
     (∀ i gc stop, q.stage = .save i gc stop → stop ≤ s.wall → q.held = false → q.cancelAt = none →
       ∃ t, exec (.contextSaveComplete g) s = .next t ∧ (t.gang g).pour = none ∧ (t.gang g).stage = .none ∧
         NMap.find t.cup.launches p.launch = some { l with susp := l.susp ++ [⟨p.index, q.image, g / 32, q.keptMarks⟩] } ∧
         (∀ a, t.readByte a = s.readByte a)) ∧
     (∀ stop, q.stage = .restore stop → stop ≤ s.wall → q.cancelAt = none → q.openAt = none →
       ((s.seenImage g).imageAt q.image l).isSome = true → ∃ t, exec (.contextRestoreComplete g) s = .next t ∧
         (t.gang g).stage = .none ∧ (t.gang g).saving = false ∧ (t.gang g).gc = 0 ∧
         (t.gang g).live = (!q.sfrozen && !s.unswept g) ∧ (t.gang g).sweeping = (q.sweeping || s.unswept g) ∧
         (t.gang g).pour = q.pour ∧ (∀ a, t.readByte a = s.readByte a)))

/-- R348, R353, R355: the first pour of a partition in rank order that nothing holds takes its lowest free gang; without
a free gang, or a pour, nothing is placed. R30, R351, R49: the gang opens 768 wall cycles later with the extents of the
grants; a new pour's sixteen streams hold their start registers, its scratchpads the grants; a suspended pour goes to its
restore; a missing page or a lost node leaves the gang free. R350: a request for pre-emption stands on its victim. R354,
R433, R434, R357, R340: the end of a planning interval clears its sum and its refusals and records power and temperature, or at 110 °C resets;
a slice reassignment is recorded, and ends with the new role in force. R377: one that would leave a die fewer than four
slices in the L2 role is refused. (That the gang opens exactly 768 wall cycles after its placement is log entry 24, DEDUCED;
the roles that a reassignment leaves rest on log entry 65, a choice of the model.) -/
def Obligations.PlacingAndIntervals : Prop :=
  (∀ (s : State) (p g : Nat),
     let r := s.pick (s.candidates p)
     let gives (f : State → Prop) : Prop := ∃ t, exec (.pourPlacement p) s = .next t ∧ f t
     (s.poursRun p = false ∨ s.ptValid p = false ∨ s.freeGang p = none → exec (.pourPlacement p) s = .next s) ∧
     (s.poursRun p = true → s.ptValid p = true → s.freeGang p = some g →
       (r.2 = none → exec (.pourPlacement p) s = .next r.1) ∧
       (∀ (c : Cand) (l : Launch), r.2 = some c → NMap.find r.1.cup.launches c.launch = some l →
         let im := r.1.barrier (g / 32) p l.image
         let grants := l.grants.map (r.1.barrier (g / 32) p)
         let b := r.1.buildExtents (g / 32) p grants
         let opens (t : State) : Prop := (t.gang g).pour = some ⟨c.launch, c.idx, p, l.session, l.image⟩ ∧
           (t.gang g).openAt = some (s.wall + 768) ∧ (t.gang g).extents = extTable b.2.runs
         (b.2.missing ≠ [] → gives (fun t => NSet.mem t.cup.resident c.key = true ∧ (t.gang g).pour = none)) ∧
         (b.2.missing = [] → ∀ at0, c.image = some at0 → gives (fun t => opens t ∧ (t.gang g).stage = .restore 0 ∧
           (t.gang g).image = at0)) ∧
         (b.2.missing = [] → c.image = none → b.1.nodeSet l.nodes = none → gives (fun t => (t.gang g).pour = none)) ∧
         (b.2.missing = [] → c.image = none → b.1.nodeSet l.nodes ≠ none → gives (fun t => opens t ∧
           (t.gang g).stage = .none ∧ (∀ k, k < 4 →
             (∀ i, i < 16 → ∀ v, grants[i]? = some v →
               (∀ j, j < 16 → NMap.get 0 (t.cellOf ⟨false, g, k, .seq⟩).spm (16 * i + j) = (leBytes v.toNat 16).getD j 0) ∧
               NSet.mem (t.cellOf ⟨false, g, k, .seq⟩).tags i = v.tag) ∧
             ∀ d : Kind, let q := t.streamOf ⟨false, g, k, d⟩
               q.run = true ∧ q.ready = 0 ∧ q.pcc = im ∧
               q.pc = im.addr + BitVec.ofNat 64 (l.entries.getD (4 * k + d.idx) 0) ∧
               q.rx 10 = BitVec.ofNat 64 c.idx ∧ q.rx 11 = BitVec.ofNat 64 l.n ∧ q.rx 12 = BitVec.ofNat 64 k ∧
               q.rx 13 = BitVec.ofNat 64 g ∧ (∀ i, i < 10 ∨ 13 < i → q.rx i = 0) ∧ q.rc 1 = Cap.scratchC1 ∧
               q.rc 2 = grants.headD Cap.null ∧ (∀ i, i ≠ 1 → i ≠ 2 → q.rc i = Cap.null)))))) ∧
     (s.preemptDue p = none ∨ s.victim p = none → exec (.preemptionRequest p) s = .next s) ∧
     (∀ key, s.preemptDue p = some key → s.victim p = some g → ∃ t, exec (.preemptionRequest p) s = .next t ∧
       t.gang g = { s.gang g with preempt := true } ∧ NMap.find t.cup.preempts p = some (g, key) ∧
       (∀ a, t.readByte a = s.readByte a))) ∧
  (∀ (s : State) (n : Nat) (v : Word) (charges : List (Nat × Nat)) (mw temp r : Nat),
     (110 ≤ temp % 2 ^ 8 → ∃ t, exec (.planningInterval charges mw temp) s = .next t ∧ t.boot.step = 1 ∧ t.boot.cause = 10) ∧
     (temp % 2 ^ 8 < 110 → ∃ t, exec (.planningInterval charges mw temp) s = .next t ∧ t.cup.sum = 0 ∧ t.cup.placed = false ∧
       t.cup.refused = [] ∧ t.cup.limited = decide (s.powerLimit < mw) ∧
       t.boot.pwr.toNat = mw % 2 ^ 32 + temp % 2 ^ 8 * 2 ^ 32 + if s.powerLimit < mw then 2 ^ 40 else 0) ∧
     let short := bitOf v.toNat 6 = true ∧
       ((List.range 24).filter (fun i => i ≠ v.toNat % 32 ∧ NMap.get 0 s.cup.slices (24 * bits v.toNat 5 5 + i) = 0)).length < 4
     (s.cup.sliceReq = none → v.toNat % 32 < 24 → ¬ short → ∃ t, exec (.cuSlicereq n v) s = .next t ∧
       t.cup.sliceReq = some (v.toNat % 2 ^ 15) ∧ t.cup.sliceRefused = false) ∧
     (s.cup.sliceReq ≠ none ∨ 24 ≤ v.toNat % 32 ∨ short →
       exec (.cuSlicereq n v) s = .next { s with cup := { s.cup with sliceRefused := true } }) ∧
     (s.cup.sliceReq = some r → (bitOf r 6 = true ∨ s.sliceHeld (24 * bits r 5 5 + bits r 4 0) = false) →
       (∀ l ∈ NMap.keys s.coh.lines, ∀ c < 8, s.homeMoves c (l * 64) = true → (s.line l).quiet = true ∧ (s.line l).of 2 = .i) →
       (s.l2Held (bits r 5 5) (2 ^ 60)).length ≤ l2Lines s.rolesNext (bits r 5 5) →
       ∃ t, exec .sliceReassignComplete s = .next t ∧ t.cup.sliceReq = none ∧ t.cup.slices = s.rolesNext))

/-- R39, R51, R52: the retirement of a pour frees its gang and counts it, the last one completes its launch; the end
of a cancelled or faulted level gives it its status, its pours leaving their gangs. -/
def Obligations.PoursAndLevelsEnd : Prop :=
  ∀ (s : State) (g id : Nat),
    (∀ p l, s.retires g = true → (s.gang g).pour = some p → NMap.find s.cup.launches p.launch = some l →
      ∃ t k, exec (.pourRetirement g) s = .next t ∧ (t.gang g).pour = none ∧
        NMap.find t.cup.launches p.launch = some k ∧ k.retired = l.retired + 1 ∧
        (l.retired + 1 = l.n → k.status = .complete) ∧ (l.retired + 1 ≠ l.n → k.status = l.status)) ∧
    (∀ l st, NMap.find s.cup.launches id = some l → l.ending = some st → st = .cancelled ∨ st = .faulted →
      (∀ h ∈ s.gangsOf id, s.atRest h = true) → (∀ e ∈ s.wq, ∀ k ∈ e.2.park, k.1 ≠ id) →
      ∃ t k, exec (.cancelComplete 0 id) s = .next t ∧
        NMap.find t.cup.launches id = some k ∧ k.status = st ∧ k.ending = none ∧
        (∀ h ∈ s.gangsOf id, (t.gang h).pour = none)) ∧
    (∀ q, NMap.find s.cup.graphs id = some q → q.ending = true → q.status.final = false →
      s.allFinal (fun l => l.graph = some id) = true → ∃ t k, exec (.cancelComplete 1 id) s = .next t ∧
        NMap.find t.cup.graphs id = some k ∧ k.status = .cancelled ∧ k.ending = false) ∧
    (∀ r, NMap.find s.cup.sessions id = some r → r.ending = true → s.allFinal (fun l => l.session = id) = true →
      (∀ e ∈ s.cup.graphs, e.2.session = id → e.2.status.final = true) → ∃ t, exec (.cancelComplete 2 id) s = .next t ∧
        NMap.find t.cup.sessions id = some { r with status := .cancelled, ending := false })

/-- R236 to R238, R51: the cupola's answers end their operation and write x[d] on g + 5; LAUNCH also writes c[e], the
handle of the launch or null. -/
def Obligations.CupolaAnswers : Prop :=
  ∀ (s : State) (id : Nat) (o : Op) (g : BitVec 4) (d : BitVec 5) (a e : BitVec 4),
    NMap.find s.ops id = some o → o.k = .dispatch → o.stage = 0 →
    let c := o.caps.headD Cap.null
    let gives (w : Nat) (k : Option Cap) : Prop := ∃ t, exec (.cupolaAnswer id) s = .next t ∧
      Answered s t id o (.x d.toNat (BitVec.ofNat 64 w) :: k.toList.map (.c e.toNat))
    (o.i = .launch g d a e →
      (o.val = 1 → gives 2 (some Cap.null)) ∧
      (o.val ≠ 1 → s.before o.ag id = [] →
        let q := { s with cup := { s.cup with devQ := NMap.set 0 s.cup.devQ o.ag.die (NMap.get 0 s.cup.devQ o.ag.die - 1) } }
        let who := if o.ag.stew then Submitter.stew else .pour (s.partOf o.ag)
        (∀ u i, q.submit who c.addr.toNat = (u, .ok i) → gives 0 (some (Cap.handle (launchAddr i)))) ∧
        (∀ u r, q.submit who c.addr.toNat = (u, .error r) → gives (1 + r * 256) (some Cap.null)))) ∧
    (o.i = .cwread g d a → ∀ v, s.levelOf c = some v → gives (s.completionWord v) none) ∧
    (o.i = .eread g d a → ∀ i, (s.levelOf c).bind s.levelSession = some i → gives (wrap 64 (s.ssBalance i / 1000)) none) ∧
    (o.i = .gcancel g d a ∨ o.i = .cancel g d a → ∀ v, s.levelOf c = some v →
      (s.inLevel o.ag v = false → gives 0 none) ∧
      (s.inLevel o.ag v = true → bits (s.completionWord v) 42 40 < 2 → ∃ t, exec (.cupolaAnswer id) s = .next t ∧
        NMap.find t.ops id = some { o with stage := 2 }))

/-- R340 to R344: an entry of the kind of its event at the head of a ring with completion room is consumed: read
index, phase and sequence number advance; doorbells are recorded; CU_RINGRUN starts a halted ring anew. -/
def Obligations.RingsConsume : Prop :=
  ∀ (s : State) (r n : Nat) (v : Word), r < 16 →
    (∀ e p, p ∈ ([(.ringLaunch r, 1), (.gopen r, 2), (.gclose r, 3), (.ringCancel r, 4), (.ringNop r, 0), (.ringNop r, 5)] :
        List (Instr × Nat)) → (s.ringHead r).2 = some e → heKind e = p.2 → s.ringRoom r = true →
      let q := s.ring r
      let last := decide (s.rdN r ≤ q.rd + 1)
      ∃ t, exec p.1 s = .next t ∧ (t.ring r).rd = (if last then 0 else q.rd + 1) ∧ (t.ring r).rphase = (q.rphase != last) ∧
        (t.ring r).seq = (q.seq + 1) % 2 ^ 32) ∧
    (∃ t, exec (.submissionDoorbell r v) s = .next t ∧ (t.ring r).door = v.toNat % 2 ^ 17 ∧
      (t.ring r).rd = (s.ring r).rd ∧ t.gangs = s.gangs) ∧
    (∃ t, exec (.completionAckDoorbell r v) s = .next t ∧ (t.ring r).ack = v.toNat % 2 ^ 17 ∧
      (t.ring r).rd = (s.ring r).rd ∧ t.gangs = s.gangs) ∧
    (s.ringHalted r = true → v.toNat.testBit r = true → ∃ t, exec (.cuRingrun n v) s = .next t ∧ t.ringHalted r = false ∧
      t.ring r = { Ring.zero with door := (s.ring r).door })

/-! ### Events: memory, copies, the Crucible, translation (R145, R166 to R181, R291 to R303, R359 to R376) -/

/-- R33, R41, R145, R220, R224: a load that waits for nothing returns the bytes its stream sees, an atomic and RACQ or
RTAKE what the home found, each on g + 5; an accepted store is posted, all its parts at once; a fence ends when what it
waits for has performed, TR_INVAL and a mask write when no access holds them. Memory is as before where no bit error waits in
HBM, no copy that another partition has filled stands in the way, and no slot keeps an older content. R373: a capability read from a scratchpad
goes on to its register after the test of its map bit. -/
def Obligations.GlobalAccessesReturn : Prop :=
  ∀ (s : State) (id : Nat) (o : Op), NMap.find s.ops id = some o → o.stage ≠ 3 → o.wall < s.wall →
    let answers (l : List Act) : Prop := ∃ t, exec (.globalAccessReturn id) s = .next t ∧ Answered s t id o l ∧
      (s.undisturbed (s.partOf o.ag) = true → s.hbm.old = [] → ∀ a, t.readByte a = s.readByte a)
    let c := (s.serve id o.ag o.pieces).checkLines o.pieces false o.ag.cache
    let u := c.1.touchFor o.ag false o.pieces
    (o.flt = none → s.loadWaits id o = false → s.ready o.ag.cache false o.pieces = true →
      s.mayServe id o.ag o.pieces = true → s.slotFault o.ag o.pieces = none → c.2 = none →
      (∀ n x d, o.k = .load n x d →
        answers [.x d (extendTo n x (ofLE ((u.streamOf o.ag).snapBytes o.pa (u.seen o.ag o.pieces))))]) ∧
      (∀ lc d, o.k = .cldc lc d →
        let v := Cap.ofNat (ofLE (u.seen o.ag o.pieces))
          (seenTag (u.tagAt o.pa) (o.pa / 16 * 16) (u.ownStores o.ag) && lc && o.pieces.all (fun p => !p.attr.tagless))
        answers [.c d (if o.ag.stew then v else u.barrier o.ag.die (u.partOf o.ag) v)])) ∧
    (let so := soPieces o.pieces
      let posts (ps : List Piece) (b : List Byte) (cap tag : Bool) : PStore :=
        ⟨o.ag, o.pc, ps, b, cap, tag, o.relMark, o.near, if so then some id else none, none⟩
      let accepted (t : State) : Prop := exec (.globalAccessReturn id) s = .next t ∧
        (so = false → Answered s t id o []) ∧ (so = true → NMap.find t.ops id = some { o with stage := 1 })
      o.flt = none → o.stage = 0 → (s.checkLines o.pieces true o.ag.cache).2 = none →
      (o.k = .cstc → let v := o.caps.headD Cap.null
        ∃ t, accepted t ∧ NMap.find t.wq s.nextId = some (posts o.pieces (leBytes v.toNat 16) true v.tag)) ∧
      (o.k = .store → ∃ t, accepted t ∧
        ∀ i q, (storeParts o.pieces (leBytes o.val.toNat o.val2.toNat))[i]? = some q →
          NMap.find t.wq (s.nextId + i) = some (posts [q.1] q.2 false false))) ∧
    (∀ v, o.k = .inval v → s.invalWaits v = false → answers []) ∧
    (∀ k i, o.k = .maskw k i → s.classBusy k = false → answers []) ∧
    (∀ d due, o.k = .mapBit d due → ∃ t, exec (.globalAccessReturn id) s = .next t ∧ NMap.find t.ops id = none ∧
      t.pendingOf o.ag = s.pendingOf o.ag ++
        [⟨due, o.ag, o.pc, .c d (s.barrier o.ag.die (s.partOf o.ag) (o.caps.headD Cap.null)), s.wall⟩]) ∧
    (o.k = .fence → s.covers o.ag o.val.toNat (o.val2 != 0) = false → answers []) ∧
    (∀ v, o.stage = 1 → o.flt = none → o.res = [v] →
      (∀ f n d, o.k = .atomic f n d → answers [.x d (extendTo n true v.toNat)]) ∧
      (∀ n d, o.k = .acas n d → answers [.x d (extendTo n true v.toNat)]) ∧
      (∀ d, o.k = .ring .acq d ∨ o.k = .ring .take d → answers [.x d v]) ∧
      (∀ d, o.k = .ring .pub d ∨ o.k = .ring .free d → answers []))

/-- R145, R150, R223, R385, R137: a posted store that nothing holds back writes its bytes and no others; an atomic is
applied to its bytes at their home; a HOLD on a ring that the home has reported ends. (A bit error in HBM, and a copy that
another partition has filled, may change other bytes as they are met: R403, R387, log entry 88.) -/
def Obligations.StoresAndAtomicsPerform : Prop :=
  ∀ (s : State) (id : Nat),
    (∀ p q, NMap.find s.wq id = some p → p.pieces = [q] → p.data.length = q.len → 0 < q.len → p.op = none →
      (p.cap = false ∨ p.tag = false) → s.backing q.pa = .hbm → (∀ i, i < q.len → inSlotWindow (q.pa + i) = false) →
      q.attr.zrl = false → s.held p.ag id p.relMark p.pieces p.park = false → s.ready p.ag.cache true p.pieces = true →
      s.mayServe id p.ag p.pieces = true → (s.checkLines p.pieces true p.ag.cache).2 = none → ∃ t, exec (.globalStorePerform id) s = .next t ∧
        NMap.find t.wq id = none ∧ (∀ i, i < q.len → t.readByte (q.pa + i) = p.data.getD i 0) ∧
        (s.undisturbed (s.storePart p) = true → ∀ a, a < q.pa ∨ q.pa + q.len ≤ a → t.readByte a = s.readByte a)) ∧
    (∀ o f n d, NMap.find s.ops id = some o → o.k = .atomic f n d → o.stage = 0 → (n = 4 ∨ n = 8) →
      s.atomicWaits id o = false → s.homeReady o.pieces = true → s.mayServe id o.ag o.pieces = true →
      let c := (s.serve id o.ag o.pieces).checkLines o.pieces true
      c.2 = none → (s.serve id o.ag o.pieces).blockFault (s.holderOf o.ag) o.pieces = none →
      s.backing o.pa = .hbm → (∀ i, i < n → inSlotWindow (o.pa + i) = false) →
      let u := c.1.takeLines (s.partOf o.ag) o.pieces
      let old := u.readLE o.pa n
      ∃ t, exec (.homeAtomic id) s = .next t ∧ NMap.find t.ops id = some { o with stage := 1, res := [BitVec.ofNat 64 old] } ∧
        t.readLE o.pa n = f.eval n old (o.val.toNat % 2 ^ (8 * n)) % 2 ^ (8 * n) ∧
        (∀ a, a < o.pa ∨ o.pa + n ≤ a → t.readByte a = u.readByte a) ∧
        (s.undisturbed (s.partOf o.ag) = true → ∀ a, u.readByte a = s.readByte a)) ∧
    (∀ o c, NMap.find s.ops id = some o → o.k = .ringHold c → o.stage = 2 → o.flt = none →
      ∃ t, exec (.ringReport id) s = .next t ∧ Answered s t id o [])

/-- R121, R122, R293, R294, R300: bytes of a copy that may land within one run of its scratchpads arrive as they stand
at the source; a failure found after the issue stops the copy and holds its gang; an element of a scatter-add reaches
memory. R131: a running pattern stream with room decodes its next pop into its buffer. -/
def Obligations.CopiesAndPatternsLand : Prop :=
  (∀ (s : State) (id r lo n : Nat) (c : Copy), s.copy? id = some c → c.queued = false → c.stopped = false →
     c.ready = true → c.inbox = [] →
     let run := s.runAt c lo
     (∀ a b, c.kind = .lin → 0 < n → lo + n ≤ c.len → s.chunk c lo n = n → s.srcRuns c n lo n = [(lo, n)] →
       c.keep = false → r = c.ag.cell → c.receivers.contains r = true → c.fresh r lo n = true →
       prefixFrom c.got r (c.got.length + 1) 0 = lo → s.landWhole c r lo n = true →
       run.src % 8 = 0 → ((run.src + n) % 8 = 0 ∨ lo + n = c.len) → s.readsAhead c r lo n = false →
       (c.performed + n ≠ c.len ∨ s.copyFloor c ≤ s.wall) → s.srcSide c run n = .spm a → s.dstSide c run n = .spm b →
       (s.cellOf c.ag).spmFault (partLines b n) = none →
       s.landFree c r lo n (.spm b) ((Side.spm a).lines n) = true → s.earlierWrites id c run.dst n = false →
       ∃ t, exec (.copyLanding id r lo n) s = .next t ∧
         (∀ i, i < n → NMap.get 0 (t.cellOf c.ag).spm (b + i) = NMap.get 0 (s.cellOf c.ag).spm (a + i)) ∧
         (∀ k, k < b ∨ b + n ≤ k → NMap.get 0 (t.cellOf c.ag).spm k = NMap.get 0 (s.cellOf c.ag).spm k) ∧
         (∀ k, t.readByte k = s.readByte k)) ∧
     (∀ f, s.copyFailure c = some f → c.ag.stew = false → (s.gang c.ag.unit).held = false →
       ∃ t, exec (.copyFaultAfterIssue id) s = .next t ∧ (t.gang c.ag.unit).held = true ∧
         (t.gang c.ag.unit).frec.copy = some id ∧ (t.gang c.ag.unit).frec.flt.cause = f.cause ∧
         (t.gang c.ag.unit).frec.flt.sub = f.sub ∧ (t.gang c.ag.unit).frec.pc = c.pc) ∧
     (∀ idx e red a p j, c.kind = .scadd idx e red → lo = j * 2 ^ e → n = 2 ^ e → lo + n ≤ c.len →
       c.fresh c.ag.cell lo n = true →
       (∀ i, i < j → c.fresh c.ag.cell (i * n) n = true → s.index c.ag idx i ≠ s.index c.ag idx j) →
       s.srcSide c run n = .spm a → s.dstSide c run n = .mem [p] → p.len = n → p.attr.zrl = false →
       s.landFree c c.ag.cell lo n .none ((Side.spm a).lines n) = true → s.earlierWrites id c run.dst n = false →
       s.storeFirst id c (.mem [p]) = false → (soPieces [p] = true → prefixFrom c.got c.ag.cell (c.got.length + 1) 0 = lo) →
       s.mayServe id c.ag [p] = true → s.homeReady [p] = true → s.backing p.pa = .hbm → (∀ i, i < n → inSlotWindow (p.pa + i) = false) →
       let u := s.takeLines (s.partOf c.ag) [p]
       let out := (scaddLanes red (n / (if red = 1 then 8 else 4)) (u.readBytes p.pa n) (s.spm c.ag a n)).1
       ∃ t, exec (.scaddReduction id j) s = .next t ∧
         (out.length = n → ∀ i, i < n → t.readByte (p.pa + i) = out.getD i 0) ∧
         (∀ k, k < p.pa ∨ p.pa + n ≤ k → t.readByte k = u.readByte k) ∧
         (s.undisturbed (s.partOf c.ag) = true → ∀ k, u.readByte k = s.readByte k))) ∧
  (∀ (s : State) (g c n : Nat),
     let a : Agent := ⟨false, g, c, .ladle⟩
     let q := NMap.get QStream.unbound (s.cellOf a).qs n
     let k := q.taken + q.buf.length
     q.st = 2 → q.buf.length < 16 → q.ahead = [] → (s.cellOf a).linesNow (s.qlines a q k) = s.qlines a q k →
     s.ready a.cache false (s.qtouch a q k) = true → s.readMay s.nextId a (s.qtouch a q k) = true →
     let u := (s.checkLines (s.qtouch a q k) false a.cache).1.touchFor a false (s.qtouch a q k)
     ∃ t, exec (.patternDecode g c n) s = .next t ∧
       NMap.get QStream.unbound (t.cellOf a).qs n = { q with buf := q.buf ++ [u.qpop a q k] } ∧
       (s.undisturbed (s.partOf a) = true → ∀ b, t.readByte b = s.readByte b))

/-- R164, R165, R166, R168, R170 to R174, R182: every Crucible instruction ends at the index with its status in bits 7 to 0
and its value above, five cycles after its issue: on a handle without its node with status 3; a timed lease with its
expiry, a pin with the references, or with the status of the rule; KCLASS, KSTAT, KNAME, KDEPTH and KANC with what the
index holds; KOPEN with a capability, or status 6 or 2; KSEAL with 0 or 1, a new ingot sealed; a local KMATCH with a depth
that the number of its names bounds and a handle; KREPL, its ancestors done, with the best handle so far. R172, R178, R396,
R397: a tick counts; leases that the tick count has reached are dropped, a transfer lease with LAPSE; a demotion switches
the tier; RENEW is sent to every home of the map; a holder silent for 16,384 ticks is dead to the directory. -/
def Obligations.CrucibleGoesOn : Prop :=
  (∀ (s : State) (id : Nat) (o : Op) (g : BitVec 4) (d y : BitVec 5) (a b e f : BitVec 4),
     NMap.find s.ops id = some o → o.k = .crucible → o.stage ≠ 3 → o.flt = none → s.cru.turn ≤ o.ag.key →
     let u : State := { s with cru := { s.cru with turn := o.ag.key } }
     let h := o.caps.headD Cap.null
     let k := s.pinnerOf o.ag
     let cls := o.val2.toNat
     let tier := o.val.toNat % 4
     let gives (st v : Nat) (l : List Act) (p : State → Prop) : Prop := ∃ t, exec (.crucibleCompletion id) s = .next t ∧
       Answered s t id o (.x d.toNat (BitVec.ofNat 64 (st + v % 2 ^ 56 * 256)) :: l) ∧ p t
     let ends (st : Nat) (l : List Act) : Prop := ∃ v, gives st v l (fun _ => True)
     (s.nodeOf h = none →
       (o.i = .klease g d a ∨ o.i = .krenew g d a ∨ o.i = .kdrop g d a ∨ o.i = .kpin g d a b ∨ o.i = .kunpin g d a b → ends 3 []) ∧
       (h.nhDev = s.boot.dev → o.i = .kstat g d a y ∨ o.i = .kname g d a ∨ o.i = .kdepth g d a ∨ o.i = .kanc g d a e →
         ends 3 [])) ∧
     (∀ n0, s.nodeOf h = some n0 →
       let n := s.node n0
       let x := (s.tick + max 1 (o.val.toNat % 2 ^ 16) + 1) % 2 ^ 32
       let till := match n.timed with
         | some z => if inForce z s.tick ∧ 2 ^ 31 ≤ (x + 2 ^ 32 - z) % 2 ^ 32 then z else x
         | none => x
       (o.i = .klease g d a ∨ o.i = .krenew g d a ∧ n.timedIn s.tick = true →
         gives 0 till [] (fun t => (t.node n0).timed = some till)) ∧
       (o.i = .krenew g d a → n.timedIn s.tick = false → ends 4 []) ∧
       (o.i = .kdrop g d a →
         (n.lifetime.contains (s.holderOf o.ag) = true →
           gives 0 0 [] (fun t => (t.node n0).lifetime.contains (s.holderOf o.ag) = false)) ∧
         (n.lifetime.contains (s.holderOf o.ag) = false → ends 5 [])) ∧
       (o.i = .kpin g d a b →
         (n.refs < 2 ^ 32 - 1 →
           gives 0 (n.refs + 1) [] (fun t => NMap.get 0 (t.node n0).pins k = NMap.get 0 n.pins k + 1)) ∧
         (2 ^ 32 - 1 ≤ n.refs → ends 2 [])) ∧
       (o.i = .kunpin g d a b →
         (NMap.get 0 n.pins k ≠ 0 →
           gives 0 (n.refs - 1) [] (fun t => NMap.get 0 (t.node n0).pins k = NMap.get 0 n.pins k - 1)) ∧
         (NMap.get 0 n.pins k = 0 → ends 5 [])) ∧
       (h.nhDev = s.boot.dev →
         (o.i = .kstat g d a y → ends 0 [.x y.toNat (BitVec.ofNat 64 (s.nodeWord n0 (s.holderOf o.ag)))]) ∧
         (o.i = .kname g d a → gives 0 n.depth [.st (wholeBytes o.val.toNat (leBytes n.name 16)) [] 0] (fun _ => True)) ∧
         (o.i = .kdepth g d a → gives 0 n.depth [] (fun _ => True)) ∧
         (∀ m, o.i = .kanc g d a e → 1 ≤ o.val.toNat → o.val.toNat ≤ n.depth → s.anc n0 o.val.toNat = some m →
           gives 0 o.val.toNat [.c e.toNat (s.handleOf m)] (fun _ => True)))) ∧
     (o.i = .kclass g d a →
       gives 0 0 [.st (wholeBytes o.val.toNat (s.readBytes (s.crAddr cls) 64)) [] 0] (fun _ => True)) ∧
     (o.i = .kopen g d a b e → h = Cap.null →
       let full := s.crTier cls tier = false ∨ s.crQuota cls ≠ 0 ∧ s.crQuota cls ≤ s.classUse cls
       (full → ends 6 []) ∧
       (¬ full → (u.room (s.crPart cls) tier (s.crSize cls)).2 = false → ends 2 []) ∧
       (¬ full → (u.room (s.crPart cls) tier (s.crSize cls)).2 = true → ∃ c, ends 0 [.c e.toNat c])) ∧
     (∀ e0, o.i = .kseal g d a b e f → s.held o.ag id o.relMark o.pieces = false → s.owes o.ag id true = false →
       s.blockOf o.ag (o.caps.getD 1 Cap.null) = some e0 → o.pieces = [] →
       (s.cellOf o.ag).spmFault (spmLines (o.addr - scratchBase) 128) = none →
       ∃ st v l, st ≤ 1 ∧ gives st v l (fun t => st = 0 → (t.node e0).st = 2 ∧ (t.node e0).owner = none)) ∧
     (let n := min (o.val.toNat % 2 ^ 32 / 32) 4096;
       o.i = .kmatch g d a b e → bitOf o.val.toNat 48 = false → o.res = [] → o.pieces = [] →
       (s.cellOf o.ag).spmFault (spmLines (o.addr - scratchBase) (128 * n)) = none →
       ∃ v c, v ≤ n ∧ gives 0 v [.c e.toNat c] (fun _ => True)) ∧
     (o.i = .krepl g d a b e → o.prog.phase = 2 → o.prog.depth < o.prog.j → (s.nodeOf o.best).isSome →
       ends (if s.crTier cls tier then 0 else 6) [.c e.toNat o.best])) ∧
  (∀ (s : State) (e dev tx : Nat),
     let n := s.node e
     exec .leaseTick s = .next { s with tick := (s.tick + 1) % 2 ^ 32 } ∧
     (∀ x, n.timed = some x → inForce x s.tick = false → ∃ t, exec (.timedLeaseExpiry e) s = .next t ∧
       t.node e = { n with timed := none }) ∧
     (∀ l, n.leases.find? (XLease.sameRead dev tx) = some l → inForce l.expiry s.tick = false →
       ∃ t, exec (.transferLeaseExpiry e dev tx) s = .next t ∧ (∀ i, ∀ r ∈ (t.node i).leases, r.sameRead dev tx = false) ∧
         (l.left ≠ 0 → (s.ctx dev).dead = false → ∃ k, (t.ctx dev).unacked = (s.ctx dev).unacked ++ [k] ∧ k.ty = 6 ∧
           k.body.getD 0 0 = 9)) ∧
     (∀ x, n.demote = some x → ∃ t, exec (.demotionSwitch e) s = .next t ∧
       t.node e = { n with tier := x, slice := 0, demote := none }) ∧
     (∃ t, exec .renewPeriod s = .next t ∧ t.cru.renewed = s.tick ∧ t.cru.nodes = s.cru.nodes ∧ t.gangs = s.gangs ∧
       ∀ i, i < 4096 →
         let w := s.readLE ((s.csrGet 0x540).toNat + 4 * i) 4
         bitOf w 31 = true → w % 2 ^ 18 ≠ s.boot.dev → (s.ctx (w % 2 ^ 18)).dead = false →
         ∃ k ∈ (t.ctx (w % 2 ^ 18)).unacked, k.ty = 6 ∧ k.body.getD 0 0 = 8) ∧
     (s.holderDevs.contains dev = true → 16384 ≤ (s.tick + 2 ^ 32 - NMap.get 0 s.cru.heard dev) % 2 ^ 32 → ∃ t, exec (.holderTimeout dev) s = .next t ∧
       NSet.mem t.cru.gone dev = true ∧ (∀ r ∈ t.cru.dir, ∀ w ∈ r.holders, w % 2 ^ 18 ≠ dev)))

/-- R363 to R367: TR_PROBE answers with the leaf or the word that stops the walk, and with the outcome in TR_PROBEX;
TR_INVAL removes the TLB entries of its scope, or waits with its steward stalled; TR_FPOST gathers one fault; TR_RETRY
releases the pours held for residency; gathered faults of sufficient age form a batch, and a held one that fits is written,
FBATCH latched. R368, R369, R413: a migration request starts and stalls its steward, or reads the status of a page that
migrates already, NOTAG for a CS page to a place without tags, or FIELD for a bad field; the host's request reads
RUNNING, BUSY or FIELD, and is listed when it starts; the end of a migration that no open transaction delays reads DONE. -/
def Obligations.TranslationRegistersAndMigrations : Prop :=
  (∀ (s : State) (n : Nat) (v : Word),
     (let part := (s.csrGet 0x302).toNat % 2 ^ 8
       let va := v.toNat % 2 ^ 57
       let w := (s.walk (n / 2) part va).1
       ∃ t, exec (.trProbe n v) s = .next t ∧
         (w.resident = false → t.csrGet 0x301 = BitVec.ofNat 64 w.leaf ∧ t.csrGet 0x302 =
           BitVec.ofNat 64 (part + 2 ^ 10 + (if w.malformed then 2 ^ 11 else 0) + w.level * 2 ^ 12)) ∧
         (w.resident = true → w.malformed = false → t.csrGet 0x301 =
             BitVec.ofNat 64 (w.leaf - w.leaf / 2 ^ 12 % 2 ^ 40 * 4096 + leafPa w.leaf w.size va / 4096 * 4096) ∧
           t.csrGet 0x302 =
             BitVec.ofNat 64 (part + w.size * 2 ^ 8 + (if w.size = 3 then 2 else if w.size = 2 then 1 else 0) * 2 ^ 12)) ∧
         (∀ a, t.readByte a = s.readByte a)) ∧
     (let r := s.invalScope v.toNat;
       s.invalWaits v.toNat = false → ∃ t, exec (.trInval n v) s = .next t ∧
         (∀ e, e ∈ t.tr.tlb ↔ e ∈ s.tr.tlb ∧
           ¬ ((∀ p, r.1 = some p → p = e.part) ∧ e.va < r.2.1 + r.2.2 ∧ r.2.1 < e.va + pageBytes e.size)) ∧
         (∀ a, t.readByte a = s.readByte a)) ∧
     (s.invalWaits v.toNat = true → ∃ t, exec (.trInval n v) s = .next t ∧
       (t.streamOf (stewSeq n)).stall = some s.nextId ∧ t.tr.tlb = s.tr.tlb) ∧
     (s.tr.gath.length + (s.tr.held.map List.length).getD 0 < 256 →
       s.tr.gath.length + 1 < (s.csrGet 0x305).toNat / 2 ^ 16 % 2 ^ 16 → exec (.trFpost n v) s = .next { s with
         tr := { s.tr with gath := s.tr.gath ++ [⟨v.toNat / 2 ^ 4 % 2 ^ 8, v.toNat / 2 ^ 12 % 2 ^ 45 * 4096,
           bitOf v.toNat 0, false, s.wall⟩] } }) ∧
     exec (.trRetry n v) s = .next (if bitOf v.toNat 0 then { s with cup := { s.cup with resident := [] } } else s) ∧
     (∀ f l, s.tr.gath = f :: l → s.tr.held = none → f.at0 + (s.csrGet 0x305).toNat / 2 ^ 32 ≤ s.wall →
       ∃ t, exec .faultBatchAge s = .next t ∧ t.tr.gath = [] ∧
         (t.tr.held = some (f :: l) ∨ t.tr.held = none ∧ t.tr.batch = (s.tr.batch + 1) % 2 ^ 64)) ∧
     (∀ l, s.tr.held = some l → s.batchFits l = true → ∃ t, exec .faultBatchWrite s = .next t ∧ t.tr.held = none ∧
       t.tr.batch = (s.tr.batch + 1) % 2 ^ 64 ∧ (t.stew 0).event.getLsbD 3 = true)) ∧
  (∀ (s : State) (n k : Nat) (v dst : Word) (m : Migration),
     let d := v.toNat / 64 * 64
     let ctl := s.readLE (d + 0x18) 8
     let size := pageBytes (ctl % 4)
     let part := ctl / 2 ^ 8 % 2 ^ 8
     let pte := s.readLE (d + 0x20) 8
     let tgt := s.readLE (d + 8) 8
     let good := ctl % 4 ≠ 3 ∧ ctl / 4 % 2 ^ 6 = 0 ∧ ctl / 2 ^ 16 % 2 ^ 48 = 0 ∧ s.readLE (d + 0x28) 24 = 0 ∧
       s.readLE d 8 % size = 0 ∧ tgt % size = 0
     let noTag := s.tagless tgt = true ∧ ∃ p ∈ groupPtes size pte, bitOf (s.readLE p 8) 11 = true
     let reads (st : Nat) : Prop := ∃ t, exec (.trMigrate n v) s = .next t ∧ (t.stew n).migst = BitVec.ofNat 64 st ∧ t.tr = s.tr
     (good → s.migBusy false part (s.readLE (d + 0x10) 8) = none → ¬ noTag →
       ∃ t, exec (.trMigrate n v) s = .next t ∧ (t.streamOf (stewSeq n)).stall = some s.nextId ∧
         t.tr.mig = s.tr.mig ++ [⟨false, n, s.readLE d 8, tgt, s.readLE (d + 0x10) 8, size, part, pte, s.wall⟩]) ∧
     (good → s.migBusy false part (s.readLE (d + 0x10) 8) = none → noTag → reads 3) ∧
     (∀ st, good → s.migBusy false part (s.readLE (d + 0x10) 8) = some st → reads st) ∧
     (¬ good → reads 4) ∧
     (let va := v.toNat
       let pt := dst.toNat % 2 ^ 8
       let asks := s.hostMigration va pt (0x2000_0000_0000 + dst.toNat / 2 ^ 12 % 2 ^ 36 * 4096)
       let host (st : Nat) (l : List Migration) : Prop := ∃ t, exec (.hostMigrationStart v dst) s = .next t ∧
         t.bar0 0x1110 = BitVec.ofNat 64 st ∧ t.tr.hostMigSt = st ∧ t.tr.hostMigVa = v ∧ t.tr.hostMigDst = dst ∧ t.tr.mig = l
       s.migBusy true pt va = none → (asks = none → host 4 s.tr.mig) ∧ (∀ q, asks = some q → host 7 (s.tr.mig ++ [q]))) ∧
     (s.migBusy true (dst.toNat % 2 ^ 8) v.toNat = some 2 → (∀ q ∈ s.tr.mig, q.host = true) →
       ∃ t, exec (.hostMigrationStart v dst) s = .next t ∧ t.tr.hostMigSt = 2 ∧ t.tr.mig = s.tr.mig) ∧
     (s.tr.mig[k]? = some m → (∀ l ∈ s.migLines m, (s.line l).quiet = true ∧ (s.line l).of 2 = .i) →
       ∃ t, exec (.migrationComplete k) s = .next t ∧ t.tr.mig = s.tr.mig.erase m ∧
         (m.host = true → t.tr.hostMigSt = 0) ∧ (m.host = false → (t.stew m.stew).migst = 0)))

/-- R114, R372, R374: a sweep that has not begun 2^16 wall cycles after the epoch opened begins, with the tag-keeping copies
out of the gang's scratchpads recorded; 64 wall cycles after its start the gang's registers, pcc values, scratchpads and
capabilities in flight hold no tag of a marked base. R372: the phases follow one another on their conditions, SWEEP latched
in steward 0 of each die. R375: the fettler visits the first entry of its list that it can: in a resident page, and in an
image, no marked capability keeps its tag; a page that it cannot walk is posted and comes again. What is not due changes
nothing. (That the fettler's list is fixed at the entry of its phase is log entry 44, and that capabilities in flight are
swept with their gang is log entry 47: both DEDUCED.) -/
def Obligations.RevocationEpochs : Prop :=
  (∀ (s : State) (g : Nat),
     let e := s.tr.epoch
     let q := s.gang g
     let moves (i : Instr) (p : Nat) (l : List Fettle) : Prop := ∃ t, exec i s = .next t ∧ t.tr.epoch.phase = p ∧
       t.tr.epoch.fettle = l ∧ (t.stew 0).event.getLsbD 2 = true ∧ (t.stew 2).event.getLsbD 2 = true ∧
       (∀ a, t.readByte a = s.readByte a)
     (e.phase = 1 → q.pour.map (·.part) = some e.part → q.swept = false → q.sweeping = false → e.opened + 2 ^ 16 ≤ s.wall →
       ∃ t, exec (.registerSweepStart g) s = .next t ∧ t.gang g = { q with sweeping := true, sweepAt := none } ∧
         (∀ i c, (i, c) ∈ s.copies → c.ag.stew = false → c.ag.unit = g → c.keep = true → c.toScratch = false →
           i ∈ t.tr.epoch.settle) ∧ (∀ a, t.readByte a = s.readByte a)) ∧
     (e.phase ≠ 1 ∨ q.pour.map (·.part) ≠ some e.part ∨ q.swept = true ∨ q.sweeping = true ∨ s.wall < e.opened + 2 ^ 16 →
       exec (.registerSweepStart g) s = .next s) ∧
     (∀ t0, q.sweepAt = some t0 → q.sweeping = true → t0 + 64 ≤ s.wall →
       ∃ t, exec (.registerSweepEnd g) s = .next t ∧ (t.gang g).swept = true ∧ (t.gang g).sweeping = false ∧
         (∀ k d r, let a := t.streamOf ⟨false, g, k, d⟩
           ((a.rc r).tag = true → s.marked (g / 32) (a.rc r).base = false) ∧
           (a.pcc.tag = true → s.marked (g / 32) a.pcc.base = false)) ∧
         (∀ k i, let c := t.cellOf ⟨false, g, k, .seq⟩
           NSet.mem c.tags i = true → s.marked (g / 32) (Cap.ofNat (leRead (NMap.get 0 c.spm) (16 * i) 16) true).base = false) ∧
         (∀ f ∈ (t.gang g).pend, ∀ r c, f.act = .c r c → c.tag = true → s.marked (g / 32) c.base = false) ∧
         (∀ a, t.readByte a = s.readByte a)) ∧
     (q.sweepAt = none ∨ q.sweeping = false → exec (.registerSweepEnd g) s = .next s) ∧
     (e.phase = 1 → s.allSwept = true → moves .epochSettle 2 e.fettle) ∧
     (e.phase ≠ 1 ∨ s.allSwept = false → exec .epochSettle s = .next s) ∧
     (e.phase = 2 → s.settled = true → moves .epochFettle 3 (s.phase 3).fettleList) ∧
     (e.phase ≠ 2 ∨ s.settled = false → exec .epochFettle s = .next s) ∧
     (e.phase = 3 → e.fettle = [] → moves .epochEnd 0 []) ∧
     (e.phase ≠ 3 ∨ e.fettle ≠ [] → exec .epochEnd s = .next s)) ∧
  (∀ (s : State) (va i j : Nat) (f : Fettle),
     let e := s.tr.epoch
     let q : State := { s with tr := { s.tr with epoch := { e with fettle := e.fettle.erase f } } }
     let w := s.walkTables e.part va
     let visits (p : State → Prop) : Prop := ∃ t, exec .fettlerVisit s = .next t ∧ p t
     let clean (t u : State) (pa n : Nat) : Prop := t.tr.epoch.fettle = e.fettle.erase f ∧
       ∀ k, pa ≤ 16 * k → 16 * k < pa + n → NSet.mem t.tags k = true →
         NSet.mem s.tags k = true ∧ u.marked 0 (u.readCap (16 * k)).base = false
     (e.phase ≠ 3 ∨ e.fettle.find? s.canFettle = none → exec .fettlerVisit s = .next s) ∧
     (e.phase = 3 → e.fettle.find? s.canFettle = some f →
       (f = .page va ∨ f = .posted va →
         (w.resident = true → visits (fun t =>
           let r := q.walk 0 e.part va
           clean t r.2 (leafRange r.1.leaf r.1.size).1 (leafRange r.1.leaf r.1.size).2)) ∧
         (w.resident = false → visits (fun t => t.tr.epoch.fettle = e.fettle.erase f ++ [.posted va]))) ∧
       (∀ l p, f = .image i j → NMap.find s.cup.launches i = some l → l.susp.any (fun x => x.idx == j) = true →
         NMap.find l.areas j = some p → visits (fun t => clean t q p.1 p.2))))

/-! ### Events: coherence, the host and the network (R377 to R420) -/

/-- R379, R380: a die sends its request from a state that allows it and waits in the transient state of the rule. R381: what
the home does with the one request in flight on a line on which no transaction is open, row by row: the next state with the
grant, or a transaction with its probes (a probe of the host is its snoop; the request of another partition than the entry's
sends none; that, a line with waiting requests, a full set of the directory, and a copy that another partition has filled,
whose data a probe does not find (log entry 88), are no cases here). Sharers that the entry names for other lines of the sector only are probed too and are
no sharers afterwards: R386 gives the sector one vector, and what it does is the model's choice (log entry 76). R382: with a transaction open, requests queue, an upgrade from a copy that it invalidates
queues as RdX, the owner that answers is noted as leaving. R380: what an agent in each state does on Inv, FwdS, FwdX, Data,
Cmp and WBAck. R381, R382: an acknowledgement that is not the last is counted; the last, or the owner's answer, ends the
transaction on which nothing is queued, with the next state and the grant of the rule. R383: an answer out of a write-back
buffer waits at the home for the write-back, which then ends the transaction. None of it changes a byte of memory. -/
def Obligations.CoherenceProtocol : Prop :=
  ∀ (s : State) (l a o part : Nat),
    let v := s.line l
    let lands (i : Instr) (p : Line → Prop) : Prop :=
      ∃ t, exec i s = .next t ∧ p (t.line l) ∧ (∀ b, t.readByte b = s.readByte b)
    let asks : List (Instr × CReq × Nat × List Moesi × Moesi) := [(.rds l a part, .rds, part, [.i], .isD),
      (.rdx l a part, .rdx, part, [.i], .imD), (.upg l a part, .upg, part, [.s, .o], .smA),
      (.wbd l a, .wbd, 256, [.m, .o], .miA), (.wbe l a, .wbe, 256, [.e], .eiA)]
    (s.coherent (l * 64) = true → a ≤ 1 → s.agentDead a = false →
      (∀ p ∈ asks, (∀ m ∈ v.msgs, ∀ q, m ≠ .req p.2.1 a q) → v.of a ∈ p.2.2.2.1 → ∃ t, exec p.1 s = .next t ∧
        t.line l = { v.put a p.2.2.2.2 with
          msgs := v.msgs ++ [.req p.2.1 a p.2.2.1],
          fill := if p.2.1 = .rds ∨ p.2.1 = .rdx then NMap.put v.fill a part else v.fill } ∧
        (∀ k, k ≠ l → t.line k = s.line k) ∧ (∀ b, t.readByte b = s.readByte b)) ∧
      (v.queue = [] → s.dirFull l = false → ∀ p ∈ asks, v.msgs = [.req p.2.1 a part] → s.arrives l (.req p.2.1 a part) = true →
        let r := p.2.1
        let goes (h : HomeSt) (m : CMsg) : Prop := lands p.1 (fun x => x.home = h ∧ x.txn = none ∧ x.msgs = [m])
        let x := s.named l a
        let wide (h k : List Nat) : List Nat := k ++ x.filter (fun b => !h.contains b && !k.contains b)
        let probes (acks : List Nat) (fwd : Option Nat) (cmp : Bool) (ms : List CMsg) : Prop :=
          (v.entryPart (s.sectorPart l) part = part ∨ ∀ m ∈ ms, m.toHost = false) → lands p.1 (fun x => x.home = v.home ∧ x.msgs = ms ∧
            ∃ y, x.txn = some y ∧ y.req = r ∧ y.a = a ∧ y.acks = acks ∧ y.fwd = fwd ∧ y.cmp = cmp)
        let others (k : List Nat) : List Nat := k.filter (· ≠ a)
        let invs (k : List Nat) : List CMsg := (others k).map (fun b => probe true (.inv b) b)
        (v.txn = none →
          (v.home = .hi →
            (x = [] → (r = .rds → goes (.he a) (.data a .e)) ∧ (r = .rdx ∨ r = .upg → goes (.he a) (.data a .m))) ∧
            (x ≠ [] → (r = .rds → goes (.hs [a]) (.data a .s)) ∧ (r = .rdx ∨ r = .upg → probes x none false (invs x)))) ∧
          (∀ k, v.home = .hs k →
            (r = .rds → goes (.hs (a :: others k)) (.data a .s)) ∧
            (r = .upg → a ∈ k → (others (wide [] k) = [] → goes (.he a) (.cmp a)) ∧
              (others (wide [] k) ≠ [] → probes (others (wide [] k)) none true (invs (wide [] k)))) ∧
            (r = .rdx ∨ (r = .upg ∧ a ∉ k) → (others (wide [] k) = [] → goes (.he a) (.data a .m)) ∧
              (others (wide [] k) ≠ [] → probes (others (wide [] k)) none false (invs (wide [] k))))) ∧
          (v.home = .he o →
            (r = .rds → probes [] (some o) false [probe false (.fwds o a) o]) ∧
            (r = .rdx ∨ r = .upg → probes [] (some o) false [probe true (.fwdx o a) o]) ∧
            (r = .wbd ∨ r = .wbe → goes (if o = a then .hi else .he o) (.wbAck a))) ∧
          (∀ k, v.home = .ho o k →
            (r = .rds → probes [] (some o) false [probe false (.fwds o a) o]) ∧
            (r = .upg → a = o ∨ a ∈ k → (others (o :: wide [o] k) = [] → goes (.he a) (.cmp a)) ∧
              (others (o :: wide [o] k) ≠ [] → probes (others (o :: wide [o] k)) none true (invs (o :: wide [o] k)))) ∧
            (r = .rdx ∨ (r = .upg ∧ a ≠ o ∧ a ∉ k) →
              probes (others (wide [o] k)) (some o) false (invs (wide [o] k) ++ [probe true (.fwdx o a) o])) ∧
            (o = a → r = .wbd → goes (if k = [] then .hi else .hs k) (.wbAck a)))) ∧
        (∀ y, v.txn = some y →
          (r = .rds ∨ r = .rdx → lands p.1 (fun x => x.txn = v.txn ∧ x.queue = [(r, a, part)] ∧ x.msgs = [])) ∧
          (r = .upg → lands p.1 (fun x => x.txn = v.txn ∧
            x.queue = [(if a ∈ y.hit then .rdx else .upg, a, part)] ∧ x.msgs = [])) ∧
          (r = .wbd ∨ r = .wbe → y.fwd ≠ some a → lands p.1 (fun x => x.txn = v.txn ∧
            x.queue = (if y.recalled then [] else [(r, a, part)]) ∧ x.msgs = if y.recalled then [.wbAck a] else [])) ∧
          (r = .wbd ∨ r = .wbe → y.fwd = some a →
            (y.answer = none → lands p.1 (fun x => x.txn = some { y with leaving := true } ∧ x.queue = [] ∧ x.msgs = [])) ∧
            (∀ h, y.answer = some h → y.recalled = false → y.cmp = false → v.home = .he a →
              lands p.1 (fun x => x.home = (if y.req = .rds then .hs [y.a] else .he y.a) ∧ x.txn = none ∧
                x.msgs = [.wbAck a])))))) ∧
    (let does (i : Instr) (k : Nat) (m : Moesi) (gone : CMsg) (sent : List CMsg) : Prop :=
        gone ∈ v.msgs → s.arrives l gone = true →
        lands i (fun x => x.of k = m ∧ x.msgs = v.msgs.erase gone ++ sent ∧ x.home = v.home)
      let owns (b : Nat) : Bool := v.home.owner == some b
      let full : Bool := !v.txn.any (·.cmp);
      (v.cross a v.probePart = false →
        ∀ p ∈ ([(.s, .i, false, false, false), (.e, .i, false, false, false), (.m, .i, false, full, false),
          (.o, .i, false, full, false), (.smA, .imD, false, owns a && full, false), (.miA, .miA, false, true, true),
          (.eiA, .eiA, false, false, true), (.i, .i, true, false, false), (.isD, .isD, true, false, false),
          (.imD, .imD, true, false, false)] : List (Moesi × Moesi × Bool × Bool × Bool)), v.of a = p.1 →
        does (.inv l a) a p.2.1 (.inv a) [.invAck a p.2.2.1 p.2.2.2.1 p.2.2.2.2]) ∧
      (v.cross o v.probePart = false →
        (∀ p ∈ ([(.e, .s, .i, false, .e), (.m, .o, .i, false, .m), (.o, .o, .i, false, .o), (.miA, .miA, .miA, true, .m),
          (.eiA, .eiA, .eiA, true, .e)] ++ (if owns o then [(.smA, .smA, .imD, false, .o)] else []) :
            List (Moesi × Moesi × Moesi × Bool × Moesi)), v.of o = p.1 →
          does (.fwds l o a) o p.2.1 (.fwds o a) [.dataFrom o a .s, .fwdAck o false p.2.2.2.1 p.2.2.2.2] ∧
          does (.fwdx l o a) o p.2.2.1 (.fwdx o a) [.dataFrom o a .m, .fwdAck o false p.2.2.2.1 p.2.2.2.2]) ∧
        (v.of o = .i → does (.fwds l o a) o .i (.fwds o a) [.fwdAck o true false .i] ∧
          does (.fwdx l o a) o .i (.fwdx o a) [.fwdAck o true false .i])) ∧
      (a ≤ 1 → s.agentDead a = false → v.queue = [] → s.hbm.flips = [] →
        (∀ m, ∀ g ∈ [CMsg.data a m, .dataFrom o a m],
          (∀ q ∈ v.msgs, q.isGrant = true → q.lane.2.1 = a → q = g) → does (.coherenceData l a) a m g []) ∧
        does (.cmp l a) a .m (.cmp a) []) ∧
      does (.wback l a) a .i (.wbAck a) []) ∧
    (∀ y, v.txn = some y →
      let ends (i : Instr) (h : HomeSt) (ms : List CMsg) : Prop :=
        lands i (fun x => x.home = h ∧ x.txn = none ∧ x.msgs = ms);
      (∀ miss dirty wb, v.msgs = [.invAck a miss dirty wb] → s.arrives l (.invAck a miss dirty wb) = true → a ∈ y.acks →
        ((y.acks.filter (· ≠ a) ≠ [] ∨ y.fwd ≠ none) → lands (.invack l a) (fun x => x.home = v.home ∧
          (∃ d, x.txn = some { y with acks := y.acks.filter (· ≠ a), due := d }) ∧ x.msgs = [])) ∧
        (y.acks.filter (· ≠ a) = [] → y.fwd = none → v.queue = [] → y.recalled = false → y.req ≠ .rds →
          ends (.invack l a) (.he y.a) [if y.cmp then .cmp y.a else .data y.a .m])) ∧
      (y.acks = [] → y.fwd = some o → v.queue = [] → y.recalled = false → y.cmp = false → (∀ q ∈ v.msgs, s.arrives l q = true) →
        (∀ held, held ∈ [Moesi.e, .m, .o] →
          (v.msgs = [.fwdAck o false false held] → y.leaving = false →
            (y.req = .rds → (v.home = .he o → held ≠ .o →
                ends (.fwdack l o) (if held = .m then .ho o [y.a] else .hs [o, y.a]) []) ∧
              (∀ k, v.home = .ho o k → ends (.fwdack l o) (.ho o (y.a :: k)) [])) ∧
            (y.req = .rdx ∨ y.req = .upg → ends (.fwdack l o) (.he y.a) [])) ∧
          (v.msgs = [.fwdAck o false true held] → y.leaving = false →
            lands (.fwdack l o) (fun x => x.home = v.home ∧ x.txn = some { y with answer := some held } ∧ x.msgs = [])) ∧
          (v.msgs = [.fwdAck o false true held] → y.leaving = true → v.home = .he o →
            (y.req = .rds → ends (.fwdack l o) (.hs [y.a]) [.wbAck o]) ∧
            (y.req = .rdx ∨ y.req = .upg → ends (.fwdack l o) (.he y.a) [.wbAck o]))) ∧
        (v.msgs = [.fwdAck o true false .i] → v.home = .he o → y.leaving = false →
          (y.req = .rds → ends (.fwdack l o) (.hs [y.a]) [.data y.a .s]) ∧
          (y.req = .rdx ∨ y.req = .upg → ends (.fwdack l o) (.he y.a) [.data y.a .m]))))

/-- R153, R384: an access of the host that nothing precedes in the order of the port and of the line is served: a MemRd of a
line without copies becomes a grant of E or M, of S where the entry of its sector names another sharer (the model's
choice: log entry 76), a MemWr to a line that no other agent holds writes its bytes and leaves the line
without copies; at a closed home it waits. The data of a MemRd become its answer. A snoop is sent and keeps awaiting the
host; BIRsp invalidates or keeps the host's copy and serves the requester from memory, acknowledges the invalidation or ends
the recall; a conflict is acknowledged. R388: slices enter and leave retention. R390: an agent declared dead, or one that
does not answer a probe in time, has its bit set, and CONTAIN is latched in every steward. -/
def Obligations.HostSlicesAndDeath : Prop :=
  ∀ (s : State) (l off i k part : Nat) (own inv snp : Bool) (data : List Byte),
    let v := s.line l
    let dead (e : Instr) (b : Nat) : Prop := ∃ t, exec e s = .next t ∧ t.coh.dead.getLsbD b = true ∧
      (s.coh.dead.getLsbD b = false → ∀ n, n < 4 → (t.stew n).event.getLsbD 5 = true)
    let rd : HostReq := .rd l own part
    let wr : HostReq := .wr l off data
    let next (r : HostReq) : Prop := s.coherent (l * 64) = true ∧ s.coh.hostQ = [] ∧ s.firstAt s.nextId (s.hostPieces r) = true ∧
      s.inTurn hostKey (s.hostPieces r) = true
    let answered (h : HomeSt) (ms : List CMsg) : Prop := ∃ t, exec (.birsp l inv) s = .next t ∧
      (t.line l).of 2 = (if snp || inv then .i else .s) ∧ (t.line l).home = h ∧ (t.line l).txn = none ∧
      (t.line l).msgs = ms
    (next rd → s.lineOpen l = true → s.dirFull l = false → s.lineErr (s.physAttr (l * 64)) (l * 64) false false = .fine →
      v.home = .hi → v.quiet = true → (s.named l 2 = [] ∨ own = false) → ∃ t, exec (.memrd l own part) s = .next t ∧
        (t.line l).home = (if s.named l 2 = [] then .he 2 else .hs [2]) ∧
        (t.line l).msgs = [.data 2 (if own then .m else if s.named l 2 = [] then .e else .s)]) ∧
    (next rd → s.lineOpen l = false → ∃ t, exec (.memrd l own part) s = .next t ∧
      t.coh.hostQ = [(s.nextId, rd)] ∧ t.coh.lines = s.coh.lines) ∧
    (∀ g, v.msgs = [.data 2 g] → v.queue = [] → s.arrives l (.data 2 g) = true → s.agentDead 2 = false → s.hbm.flips = [] →
      s.lineErrAt (s.physAttr (l * 64)) (l * 64) false false true = .fine →
      ∃ t, exec (.coherenceData l 2) s = .next t ∧ (t.line l).of 2 = g ∧
        t.net.out = s.net.out ++ [.memResp l (if g = .m then 1 else 0) (s.readBytes (l * 64) 64) false]) ∧
    (off + data.length ≤ 64 → next wr →
      (s.lineOpen l = true → s.copiesAwake noL2 l = true → v.quiet = true → (v.home = .hi ∧ v.st = []) ∨ v.home = .he 2 →
        (s.checkLines (s.hostPieces wr) true).2 = none → s.backing (l * 64 + off) = .hbm →
        (∀ j, j < data.length → inSlotWindow (l * 64 + off + j) = false) →
        ∃ t, exec (.memwr l off data) s = .next t ∧ (t.line l).home = .hi ∧ (t.line l).of 2 = .i ∧
          (∀ j, j < data.length → t.readByte (l * 64 + off + j) = data.getD j 0) ∧
          (s.hbm.flips = [] → ∀ a, a < l * 64 + off ∨ l * 64 + off + data.length ≤ a → t.readByte a = s.readByte a)) ∧
      (s.lineOpen l = false → ∃ t, exec (.memwr l off data) s = .next t ∧ t.coh.hostQ = [(s.nextId, wr)] ∧
        (∀ a, t.readByte a = s.readByte a))) ∧
    (∀ p ∈ ([(.bisnpdata l, false), (.bisnpinv l, true)] : List (Instr × Bool)), .bisnp p.2 false ∈ v.msgs →
      ∃ t, exec p.1 s = .next t ∧ t.net.out = s.net.out ++ [.snoop l p.2] ∧ .bisnp p.2 true ∈ (t.line l).msgs) ∧
    (v.msgs = [.bisnp snp true] → v.queue = [] → (∀ e ∈ s.coh.hostQ, e.2.line = l → ∃ o q, e.2 = .rd l o q) →
      (v.txn = none → answered v.home []) ∧
      (∀ x, v.txn = some x → x.leaving = false →
        (x.recalled = true → (x.fwd = some 2 ∧ x.acks = []) ∨ (x.fwd = none ∧ x.acks = [2]) → answered .hi []) ∧
        (x.recalled = false → x.fwd = none → x.acks = [2] → x.req = .rdx ∨ x.req = .upg →
          answered (.he x.a) [if x.cmp then .cmp x.a else .data x.a .m]) ∧
        (x.recalled = false → x.fwd = some 2 → x.acks = [] → v.home = .he 2 → x.a ≠ 2 → (∀ b ∈ s.named l x.a, b = 2) →
          ((snp || inv) = true → x.req = .rds → answered (.he x.a) [.data x.a .e]) ∧
          ((snp || inv) = true → x.req = .rdx ∨ x.req = .upg → answered (.he x.a) [.data x.a .m]) ∧
          ((snp || inv) = false → x.req = .rds → answered (.hs [x.a, 2]) [.data x.a .s])))) ∧
    (.bisnp own true ∈ v.msgs → exec (.biconflict l) s =
      .next { s with net := { s.net with out := s.net.out ++ [.conflictAck l] } }) ∧
    (i < 48 → NSet.mem s.coh.retention i = false → exec (.sliceRetention i) s =
      .next { s with coh := { s.coh with retention := NSet.add s.coh.retention i } }) ∧
    (∀ t, NMap.find s.coh.waking i = some t → exec (.sliceWake i) s = .next { s with
        coh := { s.coh with retention := NSet.del s.coh.retention i, waking := NMap.erase s.coh.waking i } }) ∧
    (k < 7 → dead (.agentDeath k) k) ∧
    (∀ x a, v.txn = some x → a ≤ 2 →
      (x.acks ++ x.fwd.toList).find? (fun b => (NMap.find x.due b).any (fun d => decide (d ≤ s.wall))) = some a →
      dead (.probeTimeout l) (if a = 2 then 6 else a))

/-- R325, R326: GW_PC and GW_FFLAGS write the selected stream of a gang that is held or frozen. R389: CO_DECLARE sets the bits of
agents; CO_FLUSH leaves the lines of its frames at their home, or its steward waits; CO_HALTQ gives up its head. R406 to R408,
R420: a rate change of one channel starts and its stall ends; HM_RETIRE retires a frame and gives up its oldest, HM_CHMASK
masks a channel, HM_ECNT and HM_PCCLR clear their counts. -/
def Obligations.RegisterWritesAct : Prop :=
  ∀ (s : State) (n : Nat) (v : Word),
    let sel := (s.stew n).gwSel.toNat
    let a : Agent := ⟨false, sel % 2 ^ 6, sel / 2 ^ 6 % 2 ^ 2, Kind.ofIdx (sel / 2 ^ 8 % 2 ^ 2)⟩
    let h := s.hbm
    let ch := v.toNat % 2 ^ 8
    let opened := (s.gang a.unit).held = true ∨ (s.gang a.unit).sfrozen = true
    (opened → exec (.gwPc n v) s = .next (s.setStreamOf a { s.streamOf a with pc := v, word := none }) ∧
      exec (.gwFflags n v) s = .next (s.setStreamOf a { s.streamOf a with fflags := v &&& 0x3F3F })) ∧
    (∀ k, k < 7 → v.getLsbD k = true → ∃ t, exec (.coDeclare n v) s = .next t ∧ t.coh.dead.getLsbD k = true) ∧
    (let f := v.toNat / 2 ^ 12 % 2 ^ 40
      let c := v.toNat % 2 ^ 12 + 1
      ∃ t, exec (.coFlush n v) s = .next t ∧
        ((∀ k ∈ NMap.keys t.coh.lines, f * 64 ≤ k → k < (f + c) * 64 → t.atHome k = true) ∨
          (t.streamOf (stewSeq n)).stall = some s.nextId) ∧ (∀ b, t.readByte b = s.readByte b)) ∧
    exec (.coHaltq n) s = .next { s with coh := { s.coh with haltQ := s.coh.haltQ.drop 1 } } ∧
    (h.rateBusy = none → v.toNat / 2 ^ 9 % 2 ^ 2 ≠ 3 → bitOf v.toNat 8 = false → exec (.hmRate n v) s =
      (let r := NMap.set 0 h.rate ch (v.toNat / 2 ^ 9 % 2 ^ 2)
      .next { s with hbm := { h with rate := r, rateBusy := some (s.wall + 1880), rateLast := ch, rateSet := some ch } })) ∧
    exec .hmRateSwitchEnd s = .next { s with hbm := { h with rateBusy := none, rateSet := none } } ∧
    exec (.hmRetireWrite n v) s =
      .next { s with hbm := { h with retired := NSet.add h.retired (v.toNat / 2 ^ 12 % 2 ^ 40) } } ∧
    exec (.hmRetireRead n) s = .next { s with hbm := { h with retireQ := h.retireQ.drop 1 } } ∧
    (bitOf v.toNat 8 = true → NMap.find h.chMasked ch = none → exec (.hmChmask n v) s =
      .next { s with hbm := { h with chMasked := NMap.put h.chMasked ch h.masks } }) ∧
    exec (.hmEcnt n v) s = .next { s with hbm := { h with corrected := 0, uncorrected := 0 } } ∧
    exec (.hmPcclr n v) s = .next { s with hbm := { h with pc := [] } }

/-- R395, R397: a reply closes the transaction it names and its device is heard; DATA moves it on; no reply in time
ends it. R394 to R397: the home and holder roles answer with the message of the rule, record and remove holders; a new record stands in the table at
CD_RECTAB (its place there is log entry 77). R181, R397: a
READ opens a transfer lease on every ingot that it reads, with the part of the range in it. -/
def Obligations.RepliesAndDirectory : Prop :=
  (∀ (s : State) (src tx st w d n p h off : Nat) (x : Xact) (data : List Byte),
     NMap.find s.cru.xacts tx = some x →
     let closes (e : Instr) : Prop := ∃ t, exec e s = .next t ∧ NMap.find t.cru.xacts tx = none ∧
       NMap.get 0 t.cru.heard src = s.tick
     (x.dev = src →
       closes (.lookupR src tx st w d) ∧ closes (.statR src tx w n p h) ∧ closes (.lapse src tx off) ∧
       closes (.nack src tx st d) ∧
       (st ≤ 5 → (∃ e, x.kind = .reg e) → closes (.regAck src tx st)) ∧
       (off = x.off → data ≠ [] → data.length ≤ x.len →
         (data.length = x.len → closes (.data src tx off data)) ∧
         (data.length < x.len → ∃ t, exec (.data src tx off data) s = .next t ∧ NMap.find t.cru.xacts tx =
           some { x with off := x.off + data.length, len := x.len - data.length, sent := s.wall }))) ∧
     (x.sent + 64 * min (max (s.csrGet 0x400).toNat 1024) (2 ^ 20) ≤ s.wall →
       ∃ t, exec (.remoteAnswerTimeout tx) s = .next t ∧ NMap.find t.cru.xacts tx = none)) ∧
  (∀ (s : State) (src tx name w depth cls idx j off len tag : Nat), (s.ctx src).dead = false →
     let answers (e : Instr) (ty st : Nat) : Prop := ∃ t k, exec e s = .next t ∧
       (t.ctx src).unacked = (s.ctx src).unacked ++ [k] ∧ k.ty = 6 ∧ k.body.getD 0 0 = BitVec.ofNat 8 ty ∧
       k.body.getD 1 0 = BitVec.ofNat 8 st
     let n := s.node idx
     (s.dirFind name src = none → answers (.lookup src tx name) 2 1) ∧
     (∀ q, s.dirFind name src = some q → NSet.mem s.cru.gone (q.1 % 2 ^ 18) = false → answers (.lookup src tx name) 2 0) ∧
     (NSet.mem s.cru.gone src = true → answers (.reg src tx name w depth cls) 6 5) ∧
     (NSet.mem s.cru.gone src = false → s.cru.dir.find? (fun r => r.name == name) = none →
       answers (.reg src tx name w depth cls) 6 0 ∧ ∃ t k, exec (.reg src tx name w depth cls) s = .next t ∧
         let r : DirRec := ⟨name, depth, cls, [w], k⟩
         let b := (s.csrGet 0x541).toNat + 64 * k
         t.cru.dir = s.cru.dir ++ [r] ∧ (s.backing b = .hbm → (∀ i, i < 64 → inSlotWindow (b + i) = false) →
           ∀ i, i < 64 → t.readByte (b + i) = r.bytes.getD i 0)) ∧
     (∃ t, exec (.retire src name w) s = .next t ∧ ∀ r ∈ t.cru.dir, r.name = name → w ∉ r.holders) ∧
     exec (.renew src) s = .next { s with cru := { s.cru with heard := NMap.put s.cru.heard src s.tick } } ∧
     (n.st = 2 → answers (.stat src tx idx n.gen j) 12 0) ∧
     (n.st ≠ 2 → answers (.stat src tx idx depth j) 10 (if n.gen = (depth + 1) % 2 ^ 22 then 1 else 0)) ∧
     (n.st = 2 → n.size ≠ 0 → off < n.depth * n.size → off + len ≤ n.depth * n.size →
       s.ingotsDead idx n.size off (off + len) = false → (∀ i, 1 ≤ i → i ≤ n.depth → s.anc idx i ≠ none) →
       ∃ t, exec (.read src tx idx n.gen off len tag) s = .next t ∧
         ∀ i a, s.anc idx (i + 1) = some a → off < (i + 1) * n.size → i * n.size < off + len → off < off + len →
           (t.node a).lastUse = s.tick ∧ (t.node a).leases = (s.node a).leases ++ [⟨src, tx, tag, max off (i * n.size),
             min (off + len) ((i + 1) * n.size), (s.tick + s.crLease (s.node a).cls + 1) % 2 ^ 32, false, none⟩]))

/-- R302, R414, R415, R417: an in-order packet of a cached context is carried out: a read is answered with the bytes
of the export up to the next 4,096-byte boundary, a write reaches memory, read data waits for its landing, a message is
heard, an acknowledgement clears what it covers, a sequence nack sends it again. R414 to R416, R418: the timeouts of the transport, the fetch of contexts, discarded
packets, and the revocation of an export, which clears its valid bit and moves its generation on. (What FP_LEN of a READ or WRITE
counts and how far one packet is answered is log entry 70, that the base of an export is physical is log entry 38: both
DEDUCED.) -/
def Obligations.PacketsTransportAndExports : Prop :=
  (∀ (s : State) (src psn apsn exp off len tag port : Nat) (body : List Byte),
     NSet.mem s.net.cached src = true → (s.ctx src).dead = false →
     let c := s.ctx src
     (c.unacked = [] → psn = c.expected → (∀ w ∈ s.net.waitPkts, w.pkt.src ≠ src) →
       (∀ pa, s.exportReady (s.mkPacket 1 0 src psn apsn exp off len tag []) = true →
         let n := min len (4096 - off % 4096)
         s.exportAt src exp off len n false = some pa → (s.checkLines (s.physPieces pa n) false).2 = none →
         ∃ t k, exec (.fliranRead src psn apsn exp off len tag) s = .next t ∧ (t.ctx src).unacked = [k] ∧ k.ty = 2 ∧
           k.body = (s.checkLines (s.physPieces pa n) false).1.readBytes pa n ∧ k.tag = tag ∧ (t.ctx src).expected = (psn + 1) % 2 ^ 24) ∧
       (∀ pa, s.exportReady (s.mkPacket 3 0 src psn apsn exp off (body.length + tag / 2 ^ 32) (tag % 2 ^ 32) body) = true →
         s.exportAt src exp off (body.length + tag / 2 ^ 32) body.length true = some pa →
         (s.checkLines (s.physPieces pa body.length) true).2 = none →
         (∀ i, i < body.length → s.backing (pa + i) = .hbm ∧ inSlotWindow (pa + i) = false) →
         ∃ t, exec (.fliranWrite src psn apsn exp off tag body) s = .next t ∧
           (∀ i, i < body.length → t.readByte (pa + i) = body.getD i 0) ∧
           (s.hbm.flips = [] → ∀ a, a < pa ∨ pa + body.length ≤ a → t.readByte a = s.readByte a)) ∧
       (∀ v o, s.copy? tag = some v → v.kind = .rread o → v.stopped = false → v.queued = false → v.fails = none →
         (off - o.toNat) + body.length ≤ v.len → v.fresh v.ag.cell (off - o.toNat) body.length = true →
         ∃ t x, exec (.fliranRdata src psn apsn off tag body) s = .next t ∧ t.copy? tag = some x ∧ x.got = v.got ∧
           (∀ i, i < body.length → NMap.find x.inbox (off - o.toNat + i) = some (body.getD i 0))) ∧
       (body.getD 0 0 = 8 → ∃ t, exec (.fliranCrucible port src psn apsn body) s = .next t ∧
         NMap.get 0 t.cru.heard src = s.tick ∧ (t.ctx src).expected = (psn + 1) % 2 ^ 24)) ∧
     (∀ k, c.unacked = [k] → psnGe apsn k.psn = true → ∃ t, exec (.fliranAck src apsn) s = .next t ∧
       (t.ctx src).unacked = []) ∧
     (∀ k, c.unacked = [k] → psnGe ((psn + 2 ^ 24 - 1) % 2 ^ 24) k.psn = false →
       s.linksOpen = true → s.net.txWait = [] →
       ∃ t, exec (.fliranNack src 1 psn tag) s = .next t ∧ t.net.out = s.net.out ++ [.packet k])) ∧
  (∀ (s : State) (d n port : Nat) (v : Word),
     let c := s.ctx d
     let e (i : Nat) : Nat := (s.csrGet 0x530).toNat + 64 * i + 0x10
     (c.unacked ≠ [] → c.dead = false → c.since + (s.csrGet 0x521).toNat ≤ s.wall →
       ∃ t, exec (.resendTimeout d) s = .next t ∧
         (c.resends < (s.csrGet 0x522).toNat % 2 ^ 8 → (t.ctx d).resends = c.resends + 1 ∧ (t.ctx d).dead = false) ∧
         ((s.csrGet 0x522).toNat % 2 ^ 8 ≤ c.resends → (t.ctx d).dead = true)) ∧
     (∃ t, exec (.contextFetchComplete d) s = .next t ∧ (∀ h ∈ t.net.heldPkts, h.pkt.src ≠ d) ∧
       ((∀ h ∈ s.net.heldPkts, h.pkt.src ≠ d) → NSet.mem t.net.cached d = true)) ∧
     (∀ h, s.net.heldPkts = [h] → h.pkt.src = d → h.since + 3760 < s.wall → s.linksOpen = true → s.net.txWait = [] → ∃ t k,
       exec (.contextFetchTimeout d) s = .next t ∧ t.net.heldPkts = [] ∧ t.net.out = s.net.out ++ [.packet k] ∧ k.ty = 5 ∧
         k.code = 2 ∧ k.dst = d) ∧
     (∀ w, c.rnrUntil = some w → w ≤ s.wall → ∃ t, exec (.rnrWaitExpiry d) s = .next t ∧ (t.ctx d).rnrUntil = none) ∧
     (∃ t, exec (.discardedPacket port) s = .next t ∧
       NMap.get 0 t.net.discarded port = NMap.get 0 s.net.discarded port + 1) ∧
     (s.net.revoking = none →
       exec (.xrRevoke n v) s = .next { s with net := { s.net with revoking := some (v.toNat % 2 ^ 16, s.wall) } }) ∧
     (∀ i w0, s.net.revoking = some (i, w0) → (∃ w ∈ s.net.waitPkts, w.pieces.isSome ∧ w.pkt.exp / 2 ^ 18 % 2 ^ 16 = i) →
       exec .exportRevocationComplete s = .next s) ∧
     (∀ i w0, s.net.revoking = some (i, w0) → w0 < s.wall → (∀ w ∈ s.net.waitPkts, w.pieces.isSome → w.pkt.exp / 2 ^ 18 % 2 ^ 16 ≠ i) →
       ∃ t, exec .exportRevocationComplete s = .next t ∧ t.net.revoking = none ∧
       (s.backing (e i) = .hbm → (∀ j, j < 8 → inSlotWindow (e i + j) = false) → bitOf (t.readLE (e i) 8) 0 = false ∧
         t.readLE (e i) 8 / 2 ^ 20 % 2 ^ 30 = (s.readLE (e i) 8 / 2 ^ 20 % 2 ^ 30 + 1) % 2 ^ 30)))

/-! ### Reset, one step, encodings (R184, R185, R427 to R433) -/

/-- R317, R430, R432, R433: right after reset step 7 runs on an idle package: memory, tags and scratchpads are clear,
no gang holds a pour, and each of the four stewards stands at the boot image with the root capability in c1, the type
authority in c2 and every other register null; the maps of memory are in canonical form. (The place of the ROM is log
entry 5, the life-cycle state log entry 4, memory clear outside HBM log entry 6, wall cycle 0 at step 7 log entry 33: choices
of the model.) -/
def Obligations.ResetState : Prop :=
  let s := State.reset
  s.memWf = true ∧ s.wall = 0 ∧ s.tick = 0 ∧ s.mem = [] ∧ s.tags = [] ∧ s.gangs = [] ∧ s.ops = [] ∧ s.copies = [] ∧
  s.tr.epoch.phase = 0 ∧ s.boot.step = 7 ∧ s.boot.minimal = false ∧ s.csrGet 0x606 = 2000000 ∧
  ∀ n, n < 4 →
    let q := s.stew n
    let t := q.cell.stream .seq
    q.ie = false ∧ q.inh = false ∧ q.halt = false ∧ q.pend = [] ∧ q.cell.spm = [] ∧ q.cell.tags = [] ∧
    t.run = true ∧ t.pc = BitVec.ofNat 64 Config.romBase ∧ t.fflags = 0 ∧
    t.pcc.tag = true ∧ t.pcc.otype = 0 ∧ t.pcc.perms = 0x0005 ∧ t.pcc.base = Config.romBase ∧
    (t.rc 1).tag = true ∧ (t.rc 1).otype = 0 ∧ (t.rc 1).perms = 0x3FFF ∧ (t.rc 1).base = 0 ∧
    (t.rc 1).top = 2 ^ 64 - 2 ^ 49 ∧ (t.rc 1).addr = 0 ∧
    (t.rc 2).tag = true ∧ (t.rc 2).otype = 0 ∧ (t.rc 2).perms = 0x2180 ∧ (t.rc 2).base = 0 ∧ (t.rc 2).top = 4096 ∧
    (∀ r, t.rx r = 0) ∧ (∀ r, r ≠ 1 → r ≠ 2 → t.rc r = Cap.null)

/-- R31, R36, R99, R184, R327, R432: a step runs the instruction that the word at the program counter of the next issuing
stream decodes to: of a gang whose cycle has begun at once, of a steward when nothing else is left on the wall cycle; a fetch or decoding that fails is a fault of that
stream; a word that SKIP names issues as NOP. A steward's word is the one already fetched, else the four bytes at its
physical address. (That a word may be latched before its issue is log entry 26, and that a fetch is checked against the
bounds that pcc had when it was loaded is log entry 43: both DEDUCED.) -/
def Obligations.StepRunsTheInstruction : Prop :=
  ∀ (s : State) (a : Agent), s.boot.powered = true →
    s.opener.or s.gangIssuer = some a ∨
      s.opener = none ∧ s.gangIssuer = none ∧ s.toPerform = none ∧ s.dueInput = none ∧ 7 ≤ s.boot.step ∧ s.boot.step ≠ 9 ∧
        s.firstChange s.offersNow = none ∧ s.stewIssuer = some a →
    let u := { s with cur := a }
    let skipped := a.stew = false ∧ (s.gang a.unit).skip = some a
    (∀ w i, ¬ skipped → u.fetchWord a = .ok w → decode (mapOf a) w = .ok i → step s = exec i (u.fetchTouch a)) ∧
    (∀ f, ¬ skipped → u.fetchWord a = .error f → step s = .next ((u.fetchFail a).raise f)) ∧
    (∀ w e, ¬ skipped → u.fetchWord a = .ok w → decode (mapOf a) w = .error e →
      step s = .next ((u.fetchFail a).raise ⟨1, e.code, (s.streamOf a).pc.toNat, w, 0⟩)) ∧
    (skipped → step s = .next (u.setGang a.unit { s.gang a.unit with skip := none }).advance) ∧
    (a.stew = true →
      let t := s.streamOf a
      let pc := t.pc.toNat
      (∀ e, capCheck t.pcc pc 4 1 [.ex] = some e → u.fetchWord a = .error (capFlt e pc)) ∧
      (∀ w, capCheck t.pcc pc 4 1 [.ex] = none → t.word = some w → u.fetchWord a = .ok w) ∧
      (capCheck t.pcc pc 4 1 [.ex] = none → t.word = none → s.backing pc ≠ .unbacked →
        let c := u.checkLines [⟨pc, pc, 4, s.physAttr pc⟩] false a.cache
        c.2 = none → u.fetchWord a = .ok (c.1.readLE pc 4)))

/-- R186 to R193, R194, R212, R216, R220, R241, R246, R280, R296, R318: words written out from the encoding tables,
with gap 5, decode to the instructions they stand for; a word of zeros and a nonzero reserved field do not decode. -/
def Obligations.WordsDecode : Prop :=
  decode (.seq false 1) 0b0101_0000001_000000000000000000000 = .ok (.nop 5) ∧
  decode (.seq false 1) 0b0101_0001001_00011_00100_00101_000001 = .ok (.sub 5 3 4 5) ∧
  decode .vec 0b0101_0001001_00011_00100_00101_000000 = .ok (.add 5 3 4 5) ∧
  decode (.ladle true) 0b0101_0001011_00011_00100_11111111111 = .ok (.addi 5 3 4 (-1)) ∧
  decode .mat 0b0101_0010100_00011_00100_00000000010 = .ok (.beq 5 3 4 2) ∧
  decode (.seq true 0) 0b0101_0011101_00011_0010_110_00_001_1111 = .ok (.ldd 5 3 2 0 1 (-1)) ∧
  decode (.seq false 2) 0b0101_0110000_00011_0010_000000000000 = .ok (.cgeta 5 3 2) ∧
  decode (.seq true 0) 0b0101_1110000_00011_000000000111_0000 = .ok (.csrr 5 3 7) ∧
  decode (.seq false 0) 0b0101_1110000_00011_000000000111_0000 = .error .unassigned ∧
  decode .vec 0b0101_1000001_000011_000100_000101_001 = .ok (.vadd 5 3 4 5 1) ∧
  decode .mat 0b0101_1000110_101_000000000000000000 = .ok (.mzero 5 5) ∧
  decode (.ladle false) 0b0101_1000000_0011_0100_00101_110_001_00 = .ok (.cpy 5 3 4 5 6 1) ∧
  decode .mat 0b0101_1111110_000000000000000000111 = .ok (.hint 5 2 7) ∧
  decode (.seq true 0) 0b0101_0000000_000000000000000000000 = .error .unassigned ∧
  decode (.seq true 0) 0b0101_0001001_00011_00100_00101_111111 = .error .reserved

/-- R184, R186 to R193: decoding the word of a well-formed instruction in its own map gives the instruction back, and
a word that decodes in any map is the word of a well-formed instruction: no bit of a word is dropped. -/
def Obligations.EncodeAndDecodeAgree : Prop :=
  (∀ i w, i.wf = true → encode i = some w → w < 2 ^ 32 ∧ decode (homeMap i) w = .ok i) ∧
  (∀ m w i, w < 2 ^ 32 → decode m w = .ok i → i.wf = true ∧ encode i = some w)

/-- Every step keeps memory, its tags and the payload bytes of the Crucible in canonical form: addresses rise strictly
and nothing equal to what an unlisted address reads as is listed. -/
def Obligations.StepKeepsMemoryCanonical : Prop := ∀ s t : State, s.memWf = true → step s = .next t → t.memWf = true
end

