-- ==== Sys2Proof/Laws/Map.lean ====
section
/-!
SUPPORT. Laws of the finite maps: what a read gives after a write, and that a write keeps the canonical form.
-/
namespace Sys2Proof.Machine

section
variable {α : Type}

/-! ### Reads after writes -/

theorem NMap.get_erase_self (d : α) (m : NMap α) (k : Nat) : NMap.get d (NMap.erase m k) k = d := by
  induction m with
  | nil => rfl
  | cons e m ih =>
    obtain ⟨j, v⟩ := e
    by_cases h : j = k <;> simp [NMap.erase, NMap.get, h, ih]

theorem NMap.get_erase_ne (d : α) (m : NMap α) {k j : Nat} (h : j ≠ k) :
    NMap.get d (NMap.erase m k) j = NMap.get d m j := by
  induction m with
  | nil => rfl
  | cons e m ih =>
    obtain ⟨i, v⟩ := e
    by_cases hi : i = k
    · subst hi
      simp [NMap.erase, NMap.get, ih, Ne.symm h]
    · by_cases hj : i = j
      · subst hj
        simp [NMap.erase, NMap.get, h]
      · simp [NMap.erase, NMap.get, hi, hj, ih]

theorem NMap.get_insert_self (d : α) (m : NMap α) (k : Nat) (v : α) (h : ∀ e ∈ m, e.1 ≠ k) :
    NMap.get d (NMap.insert k v m) k = v := by
  induction m with
  | nil => simp [NMap.insert, NMap.get]
  | cons e m ih =>
    obtain ⟨j, u⟩ := e
    have hj : j ≠ k := h (j, u) (by simp)
    by_cases hk : k < j
    · simp [NMap.insert, NMap.get, hk]
    · simp [NMap.insert, NMap.get, hk, hj, ih (fun e he => h e (by simp [he]))]

theorem NMap.get_insert_ne (d : α) (m : NMap α) {k j : Nat} (v : α) (h : j ≠ k) :
    NMap.get d (NMap.insert k v m) j = NMap.get d m j := by
  induction m with
  | nil => simp [NMap.insert, NMap.get, Ne.symm h]
  | cons e m ih =>
    obtain ⟨i, u⟩ := e
    by_cases hk : k < i
    · simp [NMap.insert, NMap.get, hk, Ne.symm h]
    · by_cases hi : i = j
      · subst hi
        simp [NMap.insert, NMap.get, hk]
      · simp [NMap.insert, NMap.get, hk, hi, ih]

theorem NMap.keys_erase (m : NMap α) (k : Nat) : ∀ e ∈ NMap.erase m k, e.1 ≠ k := by
  induction m with
  | nil => simp [NMap.erase]
  | cons e m ih =>
    obtain ⟨j, v⟩ := e
    by_cases h : j = k <;> simp [NMap.erase, h]
    · simpa using ih
    · simpa using ih

@[simp] theorem NMap.get_put_self (d : α) (m : NMap α) (k : Nat) (v : α) : NMap.get d (NMap.put m k v) k = v :=
  NMap.get_insert_self d _ k v (NMap.keys_erase m k)

theorem NMap.get_put_ne (d : α) (m : NMap α) {k j : Nat} (v : α) (h : j ≠ k) :
    NMap.get d (NMap.put m k v) j = NMap.get d m j := by
  rw [NMap.put, NMap.get_insert_ne d _ v h, NMap.get_erase_ne d m h]

theorem NMap.get_put (d : α) (m : NMap α) (k j : Nat) (v : α) :
    NMap.get d (NMap.put m k v) j = if j = k then v else NMap.get d m j := by
  by_cases h : j = k
  · simp [h]
  · simp [h, NMap.get_put_ne d m v h]

theorem NMap.get_set [DecidableEq α] (d : α) (m : NMap α) (k j : Nat) (v : α) :
    NMap.get d (NMap.set d m k v) j = if j = k then v else NMap.get d m j := by
  by_cases hv : v = d
  · by_cases h : j = k
    · simp [NMap.set, hv, h, NMap.get_erase_self]
    · simp [NMap.set, hv, h, NMap.get_erase_ne d m h]
  · simp [NMap.set, hv, NMap.get_put]

/-! ### The canonical form -/

/-- Every key is greater than a bound. -/
def NMap.above (k : Nat) (m : NMap α) : Prop := ∀ e ∈ m, k < e.1

theorem NMap.sorted_cons (e : Nat × α) (m : NMap α) :
    NMap.sorted (e :: m) = true ↔ NMap.above e.1 m ∧ NMap.sorted m = true := by
  induction m generalizing e with
  | nil => simp [NMap.sorted, NMap.above]
  | cons f m ih =>
    obtain ⟨j, u⟩ := e
    obtain ⟨k, v⟩ := f
    simp only [NMap.sorted, Bool.and_eq_true, decide_eq_true_eq, ih]
    constructor
    · rintro ⟨hjk, ha, hs⟩
      refine ⟨?_, ha, hs⟩
      intro e he
      rcases List.mem_cons.1 he with rfl | he
      · exact hjk
      · exact Nat.lt_trans hjk (ha e he)
    · rintro ⟨ha, ha', hs⟩
      exact ⟨ha (k, v) (by simp), ha', hs⟩

theorem NMap.mem_erase {m : NMap α} {k : Nat} {e : Nat × α} (h : e ∈ NMap.erase m k) : e ∈ m := by
  induction m with
  | nil => simp [NMap.erase] at h
  | cons f m ih =>
    obtain ⟨j, v⟩ := f
    by_cases hj : j = k
    · simp only [NMap.erase, hj, if_true] at h
      exact List.mem_cons_of_mem _ (ih h)
    · simp only [NMap.erase, hj, if_false, List.mem_cons] at h
      rcases h with rfl | h
      · simp
      · exact List.mem_cons_of_mem _ (ih h)

theorem NMap.mem_insert {m : NMap α} {k : Nat} {v : α} {e : Nat × α} (h : e ∈ NMap.insert k v m) :
    e = (k, v) ∨ e ∈ m := by
  induction m with
  | nil => simpa [NMap.insert] using h
  | cons f m ih =>
    obtain ⟨j, u⟩ := f
    by_cases hk : k < j
    · simpa [NMap.insert, hk] using h
    · simp only [NMap.insert, hk, if_false, List.mem_cons] at h
      rcases h with rfl | h
      · simp
      · rcases ih h with h | h <;> simp [h]

theorem NMap.sorted_erase {m : NMap α} (k : Nat) (h : NMap.sorted m = true) : NMap.sorted (NMap.erase m k) = true := by
  induction m with
  | nil => rfl
  | cons e m ih =>
    have hs := (NMap.sorted_cons e m).1 h
    obtain ⟨j, v⟩ := e
    by_cases hj : j = k
    · simpa [NMap.erase, hj] using ih hs.2
    · simp only [NMap.erase, hj, if_false, NMap.sorted_cons]
      exact ⟨fun f hf => hs.1 f (NMap.mem_erase hf), ih hs.2⟩

theorem NMap.sorted_insert {m : NMap α} (k : Nat) (v : α) (h : NMap.sorted m = true) (hk : ∀ e ∈ m, e.1 ≠ k) :
    NMap.sorted (NMap.insert k v m) = true := by
  induction m with
  | nil => rfl
  | cons e m ih =>
    have hs := (NMap.sorted_cons e m).1 h
    obtain ⟨j, u⟩ := e
    have hj : j ≠ k := hk (j, u) (by simp)
    by_cases hlt : k < j
    · simp only [NMap.insert, hlt, if_true, NMap.sorted_cons]
      refine ⟨?_, hs⟩
      intro f hf
      rcases List.mem_cons.1 hf with rfl | hf
      · exact hlt
      · exact Nat.lt_trans hlt (hs.1 f hf)
    · simp only [NMap.insert, hlt, if_false, NMap.sorted_cons]
      refine ⟨?_, ih hs.2 (fun f hf => hk f (by simp [hf]))⟩
      intro f hf
      rcases NMap.mem_insert hf with rfl | hf
      · show j < k
        omega
      · exact hs.1 f hf

theorem NMap.sorted_put {m : NMap α} (k : Nat) (v : α) (h : NMap.sorted m = true) : NMap.sorted (NMap.put m k v) = true :=
  NMap.sorted_insert k v (NMap.sorted_erase k h) (NMap.keys_erase m k)

theorem NMap.sorted_filter {m : NMap α} (p : Nat × α → Bool) (h : NMap.sorted m = true) :
    NMap.sorted (m.filter p) = true := by
  induction m with
  | nil => rfl
  | cons e m ih =>
    have hs := (NMap.sorted_cons e m).1 h
    by_cases hp : p e
    · simp only [List.filter_cons, hp, if_true, NMap.sorted_cons]
      exact ⟨fun f hf => hs.1 f (List.mem_filter.1 hf).1, ih hs.2⟩
    · simpa [List.filter_cons, hp] using ih hs.2

theorem NMap.canon_iff [DecidableEq α] (d : α) (m : NMap α) :
    NMap.canon d m = true ↔ NMap.sorted m = true ∧ ∀ e ∈ m, e.2 ≠ d := by
  simp [NMap.canon]

theorem NMap.canon_set [DecidableEq α] {d : α} {m : NMap α} (k : Nat) (v : α) (h : NMap.canon d m = true) :
    NMap.canon d (NMap.set d m k v) = true := by
  rw [NMap.canon_iff] at h ⊢
  by_cases hv : v = d
  · simp only [NMap.set, hv, if_true]
    exact ⟨NMap.sorted_erase k h.1, fun e he => h.2 e (NMap.mem_erase he)⟩
  · simp only [NMap.set, hv, if_false]
    refine ⟨NMap.sorted_put k v h.1, fun e he => ?_⟩
    rcases NMap.mem_insert he with rfl | he
    · exact hv
    · exact h.2 e (NMap.mem_erase he)

theorem NMap.canon_filter [DecidableEq α] {d : α} {m : NMap α} (p : Nat × α → Bool) (h : NMap.canon d m = true) :
    NMap.canon d (m.filter p) = true := by
  rw [NMap.canon_iff] at h ⊢
  exact ⟨NMap.sorted_filter p h.1, fun e he => h.2 e (List.mem_filter.1 he).1⟩

/-- Folding writes keeps the canonical form. -/
theorem NMap.canon_foldl [DecidableEq α] {β : Type} {d : α} (f : NMap α → β → NMap α)
    (hf : ∀ m b, NMap.canon d m = true → NMap.canon d (f m b) = true) (l : List β) (m : NMap α)
    (h : NMap.canon d m = true) : NMap.canon d (l.foldl f m) = true := by
  induction l generalizing m with
  | nil => exact h
  | cons b l ih => exact ih _ (hf m b h)

theorem NSet.canon_add {m : NSet} (k : Nat) (h : NMap.canon false m = true) : NMap.canon false (NSet.add m k) = true :=
  NMap.canon_set k true h

theorem NSet.canon_del {m : NSet} (k : Nat) (h : NMap.canon false m = true) : NMap.canon false (NSet.del m k) = true :=
  NMap.canon_set k false h

theorem NSet.mem_add (m : NSet) (k j : Nat) : NSet.mem (NSet.add m k) j = (decide (j = k) || NSet.mem m j) := by
  by_cases h : j = k <;> simp [NSet.mem, NSet.add, NMap.get_set, h]

theorem NSet.mem_del (m : NSet) (k j : Nat) : NSet.mem (NSet.del m k) j = (!decide (j = k) && NSet.mem m j) := by
  by_cases h : j = k <;> simp [NSet.mem, NSet.del, NMap.get_set, h]

end

/-! ### Runs of bytes -/

theorem putBytes_canon {m : NMap Byte} (a : Nat) (l : List Byte) (h : NMap.canon 0 m = true) :
    NMap.canon 0 (putBytes 0 m a l) = true := by
  induction l generalizing m a with
  | nil => exact h
  | cons b l ih => exact ih (a + 1) (NMap.canon_set a b h)

/-- A byte outside the written run reads as before. -/
theorem get_putBytes_outside (m : NMap Byte) (a : Nat) (l : List Byte) {k : Nat} (h : k < a ∨ a + l.length ≤ k) :
    NMap.get 0 (putBytes 0 m a l) k = NMap.get 0 m k := by
  induction l generalizing m a with
  | nil => rfl
  | cons b l ih =>
    simp only [List.length_cons] at h
    rw [putBytes, ih _ _ (by omega), NMap.get_set, if_neg (by omega)]

/-- A byte of the written run reads as written. -/
theorem get_putBytes_inside (m : NMap Byte) (a : Nat) (l : List Byte) (i : Nat) (h : i < l.length) :
    NMap.get 0 (putBytes 0 m a l) (a + i) = l[i] := by
  induction l generalizing m a i with
  | nil => simp at h
  | cons b l ih =>
    cases i with
    | zero =>
      rw [putBytes, get_putBytes_outside _ _ _ (by omega), NMap.get_set]
      simp
    | succ i =>
      simp only [List.length_cons] at h
      have : a + (i + 1) = a + 1 + i := by omega
      rw [putBytes, this, ih _ _ _ (by omega)]
      simp

end Sys2Proof.Machine
end

