-- ==== Sys2Proof/Laws/State.lean ====
section
/-!
SUPPORT. Laws of the state: what each named operation changes and what it leaves alone.
-/
namespace Sys2Proof.Machine

/-! ### Units -/

@[simp] theorem State.gang_setGang_self (s : State) (g : Nat) (v : Gang) : (s.setGang g v).gang g = v := by
  simp [State.gang, State.setGang]

theorem State.gang_setGang_ne (s : State) {g h : Nat} (v : Gang) (hg : h ≠ g) : (s.setGang g v).gang h = s.gang h := by
  simp [State.gang, State.setGang, NMap.get_put_ne _ _ _ hg]

@[simp] theorem State.stew_setGang (s : State) (g : Nat) (v : Gang) (n : Nat) : (s.setGang g v).stew n = s.stew n := rfl
@[simp] theorem State.cur_setGang (s : State) (g : Nat) (v : Gang) : (s.setGang g v).cur = s.cur := rfl
@[simp] theorem State.wall_setGang (s : State) (g : Nat) (v : Gang) : (s.setGang g v).wall = s.wall := rfl
@[simp] theorem State.mem_setGang (s : State) (g : Nat) (v : Gang) : (s.setGang g v).mem = s.mem := rfl
@[simp] theorem State.tags_setGang (s : State) (g : Nat) (v : Gang) : (s.setGang g v).tags = s.tags := rfl
@[simp] theorem State.csr_setGang (s : State) (g : Nat) (v : Gang) : (s.setGang g v).csr = s.csr := rfl
@[simp] theorem State.cru_setGang (s : State) (g : Nat) (v : Gang) : (s.setGang g v).cru = s.cru := rfl
@[simp] theorem State.ops_setGang (s : State) (g : Nat) (v : Gang) : (s.setGang g v).ops = s.ops := rfl
@[simp] theorem State.nextId_setGang (s : State) (g : Nat) (v : Gang) : (s.setGang g v).nextId = s.nextId := rfl

@[simp] theorem State.stew_setStew_self (s : State) (n : Nat) (v : Steward) : (s.setStew n v).stew n = v := by
  simp [State.stew, State.setStew]

theorem State.stew_setStew_ne (s : State) {n m : Nat} (v : Steward) (h : m ≠ n) :
    (s.setStew n v).stew m = s.stew m := by
  simp [State.stew, State.setStew, NMap.get_put_ne _ _ _ h]

@[simp] theorem State.gang_setStew (s : State) (n : Nat) (v : Steward) (g : Nat) : (s.setStew n v).gang g = s.gang g := rfl
@[simp] theorem State.cur_setStew (s : State) (n : Nat) (v : Steward) : (s.setStew n v).cur = s.cur := rfl
@[simp] theorem State.wall_setStew (s : State) (n : Nat) (v : Steward) : (s.setStew n v).wall = s.wall := rfl
@[simp] theorem State.mem_setStew (s : State) (n : Nat) (v : Steward) : (s.setStew n v).mem = s.mem := rfl
@[simp] theorem State.tags_setStew (s : State) (n : Nat) (v : Steward) : (s.setStew n v).tags = s.tags := rfl
@[simp] theorem State.csr_setStew (s : State) (n : Nat) (v : Steward) : (s.setStew n v).csr = s.csr := rfl
@[simp] theorem State.cru_setStew (s : State) (n : Nat) (v : Steward) : (s.setStew n v).cru = s.cru := rfl
@[simp] theorem State.ops_setStew (s : State) (n : Nat) (v : Steward) : (s.setStew n v).ops = s.ops := rfl
@[simp] theorem State.nextId_setStew (s : State) (n : Nat) (v : Steward) : (s.setStew n v).nextId = s.nextId := rfl

/-! ### Streams and registers -/

theorem Kind.idx_inj {k j : Kind} (h : k.idx = j.idx) : k = j := by
  cases k <;> cases j <;> first | rfl | exact absurd h (by decide)

@[simp] theorem Cell.stream_setStream_self (c : Cell) (k : Kind) (t : Stream) : (c.setStream k t).stream k = t := by
  simp [Cell.stream, Cell.setStream]

theorem Cell.stream_setStream_ne (c : Cell) {k j : Kind} (t : Stream) (h : j ≠ k) :
    (c.setStream k t).stream j = c.stream j := by
  have : j.idx ≠ k.idx := fun e => h (Kind.idx_inj e)
  simp [Cell.stream, Cell.setStream, NMap.get_put_ne _ _ _ this]

@[simp] theorem State.cellOf_setCellOf_self (s : State) (a : Agent) (c : Cell) : (s.setCellOf a c).cellOf a = c := by
  by_cases h : a.stew <;> simp [State.cellOf, State.setCellOf, h]

@[simp] theorem State.streamOf_setStreamOf_self (s : State) (a : Agent) (t : Stream) :
    (s.setStreamOf a t).streamOf a = t := by
  simp [State.streamOf, State.setStreamOf]

@[simp] theorem State.cur_setCellOf (s : State) (a : Agent) (c : Cell) : (s.setCellOf a c).cur = s.cur := by
  by_cases h : a.stew <;> simp [State.setCellOf, h]

@[simp] theorem State.cur_setMe (s : State) (t : Stream) : (s.setMe t).cur = s.cur := by
  simp [State.setMe, State.setStreamOf]

@[simp] theorem State.cell_setCell (s : State) (c : Cell) : (s.setCell c).cell = c := by
  simp [State.cell, State.setCell]

@[simp] theorem State.me_setMe (s : State) (t : Stream) : (s.setMe t).me = t := by
  simp [State.me, State.setMe, State.setStreamOf, State.streamOf]

theorem Stream.rx_wx (t : Stream) (r k : Nat) (v : Word) :
    (t.wx r v).rx k = if k = r ∧ r ≠ 0 then v else t.rx k := by
  by_cases hr : r = 0
  · simp [Stream.wx, hr]
  · by_cases hk : k = r
    · simp [Stream.wx, Stream.rx, hr, hk, NMap.get_set]
    · simp [Stream.wx, Stream.rx, hr, hk, NMap.get_set]

theorem Stream.rc_wc (t : Stream) (r k : Nat) (v : Cap) :
    (t.wc r v).rc k = if k = r ∧ r ≠ 0 then v else t.rc k := by
  by_cases hr : r = 0
  · simp [Stream.wc, hr]
  · by_cases hk : k = r
    · simp [Stream.wc, Stream.rc, hr, hk, NMap.get_set]
    · simp [Stream.wc, Stream.rc, hr, hk, NMap.get_set]

theorem Cell.rp_wp (c : Cell) (r k : Nat) (v : Word) :
    (c.wp r v).rp k = if k = r ∧ r ≠ 0 then v else c.rp k := by
  by_cases hr : r = 0
  · simp [Cell.wp, hr]
  · by_cases hk : k = r
    · simp [Cell.wp, Cell.rp, hr, hk, NMap.get_set]
    · simp [Cell.wp, Cell.rp, hr, hk, NMap.get_set]

end Sys2Proof.Machine
end

