-- ==== Sys2Proof/Laws/Issue.lean ====
section
/-!
SUPPORT. What the shared operations of issue change: an effect placed in flight, the advance of the issuing stream.
A meaning made of `sched` and `advance` completes by `Placed.nil`, one `Placed.sched` for each effect, and one of
`Placed.advance`, `Placed.branch`.
-/
namespace Sys2Proof.Machine

theorem IssueFrame.refl (s : State) : IssueFrame s s where
  outside := rfl
  memory _ := rfl
  gangs _ _ := rfl
  stewards _ _ := rfl
  gang _ := rfl
  steward _ := rfl
  cells _ _ := rfl
  cell := rfl
  streams _ _ := rfl

theorem Placed.nil (s : State) : Placed s s [] where
  toIssueFrame := IssueFrame.refl s
  me := rfl
  pending := by simp [State.effects]

theorem IssueFrame.cur {s t : State} (h : IssueFrame s t) : t.cur = s.cur := by rw [h.outside]

theorem IssueFrame.wall {s t : State} (h : IssueFrame s t) : t.wall = s.wall := by rw [h.outside]

theorem IssueFrame.now {s t : State} (h : IssueFrame s t) : t.now = s.now := by
  unfold State.now State.timeOf
  rw [h.cur]
  by_cases hs : s.cur.stew
  · simp [hs, h.wall]
  · simp only [Bool.not_eq_true] at hs
    rw [h.gang hs]
    simp [hs]

theorem State.readByte_outside {s t : State} (h : t = { s with gangs := t.gangs, stews := t.stews }) (a : Nat) :
    t.readByte a = s.readByte a := by rw [h]; rfl

/-- An effect placed in flight. -/
theorem State.placed_sched (s : State) (lat : Nat) (act : Act) : Placed s (s.sched lat act) [(lat, act)] := by
  unfold State.sched State.pendAt State.pendEff
  by_cases hs : s.cur.stew
  · simp only [hs, if_true]
    refine ⟨⟨rfl, fun _ => rfl, fun _ _ => rfl, ?_, ?_, ?_, fun _ _ => rfl, ?_, ?_⟩, ?_, ?_⟩
    · intro n hn
      exact State.stew_setStew_ne _ _ (by simpa [hs] using hn)
    · simp [hs]
    · simp
    · simp [State.cell, State.cellOf, hs]
    · intro k _; simp [State.cell, State.cellOf, hs]
    · simp [State.me, State.streamOf, State.cellOf, hs]
    · simp [State.pending, State.effects, hs]
  · simp only [Bool.not_eq_true] at hs
    simp only [hs, Bool.false_eq_true, if_false]
    refine ⟨⟨rfl, fun _ => rfl, ?_, fun _ _ => rfl, ?_, ?_, ?_, ?_, ?_⟩, ?_, ?_⟩
    · intro g hg
      exact State.gang_setGang_ne _ _ (by simpa [hs] using hg)
    · simp
    · simp [hs]
    · simp
    · simp [State.cell, State.cellOf, hs]
    · intro k _; simp [State.cell, State.cellOf, hs]
    · simp [State.me, State.streamOf, State.cellOf, hs]
    · simp [State.pending, State.effects, hs]

/-- The issuing stream replaced. -/
theorem State.frame_setMe (s : State) (t : Stream) : IssueFrame s (s.setMe t) ∧ (s.setMe t).pending = s.pending := by
  unfold State.setMe State.setStreamOf State.setCellOf
  by_cases hs : s.cur.stew
  · simp only [hs, if_true]
    refine ⟨⟨rfl, fun _ => rfl, fun _ _ => rfl, ?_, ?_, ?_, fun _ _ => rfl, ?_, ?_⟩, ?_⟩
    · intro n hn
      exact State.stew_setStew_ne _ _ (by simpa [hs] using hn)
    · simp [hs]
    · simp
    · simp [State.cell, State.cellOf, hs, Cell.setStream]
    · intro k hk
      simp only [State.cell, State.cellOf, State.cur_setStew, hs, if_true, State.stew_setStew_self]
      exact Cell.stream_setStream_ne _ _ hk
    · simp [State.pending, hs]
  · simp only [Bool.not_eq_true] at hs
    simp only [hs, Bool.false_eq_true, if_false]
    refine ⟨⟨rfl, fun _ => rfl, ?_, fun _ _ => rfl, ?_, ?_, ?_, ?_, ?_⟩, ?_⟩
    · intro g hg
      exact State.gang_setGang_ne _ _ (by simpa [hs] using hg)
    · simp
    · simp [hs]
    · intro c hc
      simp [NMap.get_put_ne _ _ _ hc]
    · simp [State.cell, State.cellOf, hs, Cell.setStream]
    · intro k hk
      simp only [State.cell, State.cellOf, State.cur_setGang, hs, Bool.false_eq_true, if_false, State.gang_setGang_self,
        NMap.get_put_self]
      exact Cell.stream_setStream_ne _ _ hk
    · simp [State.pending, hs]

theorem IssueFrame.trans {s t u : State} (h : IssueFrame s t) (k : IssueFrame t u) : IssueFrame s u := by
  have hc := h.cur
  refine ⟨?_, ?_, ?_, ?_, ?_, ?_, ?_, ?_, ?_⟩
  · rw [k.outside, h.outside]
  · intro a; rw [k.memory, h.memory]
  · intro g hg; rw [k.gangs g (by rwa [hc]), h.gangs g hg]
  · intro n hn; rw [k.stewards n (by rwa [hc]), h.stewards n hn]
  · intro hs
    have := k.gang (by rwa [hc])
    rw [hc] at this
    rw [this, h.gang hs]
  · intro hs
    have := k.steward (by rwa [hc])
    rw [hc] at this
    rw [this, h.steward hs]
  · intro c hh
    have := k.cells c (by rwa [hc])
    rw [hc] at this
    rw [this, h.cells c hh]
  · rw [k.cell, h.cell]
  · intro j hj
    rw [k.streams j (by rwa [hc]), h.streams j hj]

theorem Placed.trans {s t u : State} {l m : List (Nat × Act)} (h : Placed s t l) (k : Placed t u m) :
    Placed s u (l ++ m) := by
  refine ⟨h.toIssueFrame.trans k.toIssueFrame, k.me.trans h.me, ?_⟩
  rw [k.pending, h.pending]
  simp [State.effects, h.now, h.cur, h.me, h.wall]

/-- One more effect. -/
theorem Placed.sched {s t : State} {l : List (Nat × Act)} (h : Placed s t l) (lat : Nat) (act : Act) :
    Placed s (t.sched lat act) (l ++ [(lat, act)]) := h.trans (t.placed_sched lat act)

/-- The stream issues: the effects in flight stay, the stream goes on. -/
theorem Placed.issue {s t : State} {l : List (Nat × Act)} (h : Placed s t l) (pc : Word) (cost : Nat) (idle : Bool) :
    Issued s (t.setMe (t.me.issued t.now cost pc idle)) l pc cost idle := by
  obtain ⟨hf, hp⟩ := t.frame_setMe (t.me.issued t.now cost pc idle)
  refine ⟨h.toIssueFrame.trans hf, ?_, hp.trans h.pending⟩
  rw [State.me_setMe, Stream.issued, h.me, h.now]

theorem Placed.advance {s t : State} {l : List (Nat × Act)} (h : Placed s t l) :
    Issued s t.advance l (s.me.pc + 4) 0 false := by
  have := h.issue (t.me.pc + 4) 0 false
  rw [h.me] at this
  rw [State.advance, h.me]
  exact this

theorem Placed.branch {s t : State} {l : List (Nat × Act)} (h : Placed s t l) (cost : Nat) (pc : Word) :
    Issued s (t.branch cost pc) l pc cost false := h.issue pc cost false

/-- Sticky flags in flight: none where there are none to set. -/
theorem Placed.schedFlags {s t : State} {l : List (Nat × Act)} (h : Placed s t l) (lat : Nat) (f : FFlags) :
    Placed s (t.schedFlags lat f) (l ++ if f = 0 then [] else [(lat, .orFlags f)]) := by
  unfold State.schedFlags
  by_cases hf : f = 0
  · rw [if_pos hf, if_pos hf, List.append_nil]
    exact h
  · rw [if_neg hf, if_neg hf]
    exact h.sched lat (.orFlags f)

/-! ### The shared shapes of the scalar and capability instructions -/

theorem issued_one (s : State) (lat : Nat) (act : Act) :
    Issued s (s.sched lat act).advance [(lat, act)] (s.me.pc + 4) 0 false := (s.placed_sched lat act).advance

theorem issued_none (s : State) : Issued s s.advance [] (s.me.pc + 4) 0 false := (Placed.nil s).advance

end Sys2Proof.Machine
end

