-- ==== Sys2Proof/Laws/Scalar.lean ====
section
/-!
SUPPORT. What the shared shapes of the scalar and capability instructions do: each completes with its one effect.
-/
namespace Sys2Proof.Machine

/-- The integer register form. -/
theorem completes_aluRR {i : Instr} {s : State} {o : Alu} {d a b : BitVec 5} {v : Word}
    (h : exec i s = s.aluRR o d a b) (hv : o.eval (s.rx a) (s.rx b) = v) : Completes i s [(o.lat, .x d.toNat v)] :=
  ⟨_, h, hv ▸ issued_one s o.lat _⟩

/-- The integer immediate form. -/
theorem completes_aluRI {i : Instr} {s : State} {o : Alu} {d a : BitVec 5} {v w : Word}
    (h : exec i s = s.aluRI o d a v) (hv : o.eval (s.rx a) v = w) : Completes i s [(o.lat, .x d.toNat w)] :=
  ⟨_, h, hv ▸ issued_one s o.lat _⟩

theorem imm_eq {n : Nat} (v : BitVec n) : imm v = BitVec.ofInt 64 v.toInt := by
  simp [imm, BitVec.signExtend]

theorem four_imm {n : Nat} (o : BitVec n) : 4 * imm o = BitVec.ofInt 64 (4 * o.toInt) := by
  rw [imm_eq]
  apply BitVec.eq_of_toInt_eq
  simp

theorem State.target_eq {n : Nat} (s : State) (o : BitVec n) : s.target o = s.me.pc + BitVec.ofInt 64 (4 * o.toInt) := by
  rw [State.target, four_imm]

theorem toInt_imm {n : Nat} (i : BitVec n) (h : n ≤ 64) : (imm i).toInt = i.toInt := by
  unfold imm
  rw [BitVec.toInt_signExtend_of_le h]

/-- A conditional branch. -/
theorem condBranch_issued {i : Instr} {s : State} {o : Br} {a b : BitVec 5} {f : BitVec 11} {v : Bool}
    (hi : exec i s = s.condBranch o a b f) (hv : o.holds (s.rx a) (s.rx b) = v) :
    ∃ t, exec i s = .next t ∧
      (v = true → Issued s t [] (s.me.pc + BitVec.ofInt 64 (4 * f.toInt)) 2 false) ∧
      (v = false → Issued s t [] (s.me.pc + 4) 0 false) := by
  rw [hi, State.condBranch, hv]
  cases v
  · exact ⟨_, rfl, by simp, fun _ => issued_none s⟩
  · refine ⟨_, rfl, fun _ => ?_, by simp⟩
    rw [State.target_eq]
    exact (Placed.nil s).branch 2 _

/-- A capability query. -/
theorem completes_query {i : Instr} {s : State} {d : BitVec 5} {v : Word} (h : exec i s = s.query d v) :
    Completes i s [(1, .x d.toNat v)] := ⟨_, h, issued_one s 1 _⟩

/-- A derivation that succeeds, and one that faults. -/
theorem completes_derive {i : Instr} {s : State} {d : BitVec 4} {a : Word} {r : Except CapSub Cap} {v : Cap}
    (h : exec i s = s.derive d a r) (hr : r = .ok v) : Completes i s [(1, .c d.toNat v)] := by
  refine ⟨_, ?_, issued_one s 1 _⟩
  rw [h, hr]
  rfl

theorem faults_derive {i : Instr} {s : State} {d : BitVec 4} {a : Word} {r : Except CapSub Cap} {e : CapSub}
    (h : exec i s = s.derive d a r) (hr : r = .error e) : Faults i s (capFlt e a.toNat) := by
  rw [Faults, h, hr]
  rfl

end Sys2Proof.Machine
end

