-- ==== Sys2Proof/Laws/Lanes.lean ====
section
/-!
SUPPORT. Laws of the vector engine's shapes: lanes of a register image, masks, and the completion of each shape.
-/
namespace Sys2Proof.Machine

/-! ### Lanes and masks -/

theorem packLanes_lane (l : List Lane) (i : Nat) : packLanes l / 2 ^ (32 * i) % 2 ^ 32 = (l.getD i 0).toNat := by
  induction l generalizing i with
  | nil => simp [packLanes]
  | cons a l ih =>
    have ha := a.isLt
    cases i with
    | zero => simp only [packLanes, Nat.mul_zero, Nat.pow_zero, Nat.div_one, List.getD_cons_zero]; omega
    | succ i =>
      have h : 32 * (i + 1) = 32 + 32 * i := by omega
      rw [packLanes, h, Nat.pow_add, ← Nat.div_div_eq_div_mul, List.getD_cons_succ]
      have : (a.toNat + 2 ^ 32 * packLanes l) / 2 ^ 32 = packLanes l := by omega
      rw [this, ih]

/-- Lane i of the image of a list of lanes. -/
theorem laneOf_ofLanes (l : List Lane) {i : Nat} (h : i < 64) : laneOf (ofLanes l) i = l.getD i 0 := by
  apply BitVec.eq_of_toNat_eq
  rw [← packLanes_lane l i]
  simp only [laneOf, ofLanes, BitVec.extractLsb'_toNat, BitVec.toNat_ofNat, Nat.shiftRight_eq_div_pow]
  have h2 : 2048 = 32 * i + (2048 - 32 * i) := by omega
  rw [h2, Nat.pow_add, Nat.mod_mul_right_div_self]
  have h3 : 2048 - 32 * i = 32 + (2016 - 32 * i) := by omega
  rw [h3, Nat.pow_add, Nat.mod_mul_right_mod]

/-- Lanes read back as they were. -/
theorem getD_lanesOf (v : Line256) {i : Nat} (h : i < 64) : (lanesOf v).getD i 0 = laneOf v i := by
  simp [lanesOf, h]

theorem maskSum_lt (f : Nat → Bool) (n : Nat) :
    (List.range n).foldl (fun a i => if f i then a + 2 ^ i else a) 0 < 2 ^ n := by
  induction n with
  | zero => simp
  | succ n ih =>
    rw [List.range_succ, List.foldl_append]
    simp only [List.foldl_cons, List.foldl_nil]
    split <;> omega

theorem maskSum_testBit (f : Nat → Bool) (n k : Nat) :
    ((List.range n).foldl (fun a i => if f i then a + 2 ^ i else a) 0).testBit k = (decide (k < n) && f k) := by
  induction n with
  | zero => simp
  | succ n ih =>
    have hb := maskSum_lt f n
    rw [List.range_succ, List.foldl_append]
    simp only [List.foldl_cons, List.foldl_nil]
    by_cases hk : k = n
    · subst hk
      by_cases hf : f k
      · rw [if_pos hf, Nat.add_comm, Nat.testBit_two_pow_add_eq, ih]
        simp [hf]
      · simp [hf, ih]
    · by_cases hf : f n
      · rw [if_pos hf]
        by_cases hlt : k < n
        · rw [Nat.add_comm, Nat.testBit_two_pow_add_gt hlt, ih]
          simp [hlt, Nat.lt_succ_of_lt hlt]
        · have : (List.range n).foldl (fun a i => if f i then a + 2 ^ i else a) 0 + 2 ^ n < 2 ^ k := by
            have : 2 ^ (n + 1) ≤ 2 ^ k := Nat.pow_le_pow_right (by decide) (by omega)
            omega
          rw [Nat.testBit_lt_two_pow this]
          have : ¬ k < n + 1 := by omega
          simp [this]
      · rw [if_neg hf, ih]
        have : (k < n) ↔ (k < n + 1) := by omega
        simp [this]

/-- Bit k of the mask of a test. -/
theorem maskOf_testBit (f : Nat → Bool) {k : Nat} (h : k < 64) : (maskOf f).toNat.testBit k = f k := by
  rw [maskOf, BitVec.toNat_ofNat, Nat.mod_eq_of_lt (maskSum_lt f 64), maskSum_testBit]
  simp [h]

/-! ### Completion of the shapes -/

/-- A write of vector lanes with flags. -/
theorem vwrite_completes {i : Instr} {s : State} {lat : Nat} {d : BitVec 6} {act : Word} {r : List Lane × FFlags}
    {val : Nat → Lane} (h : exec i s = s.vwrite lat d act r)
    (hv : ∀ k, k < 64 → act.toNat.testBit k = true → r.1.getD k 0 = val k) :
    VecCompletes i s lat d.toNat act val r.2 := by
  refine ⟨ofLanes r.1, ?_, _, h, ?_⟩
  · intro k hk ha
    rw [laneOf_ofLanes _ hk, hv k hk ha]
  · exact ((s.placed_sched lat _).schedFlags lat r.2).advance

theorem mapActive_lane (act : Word) (f : Nat → Lane × FFlags) {k : Nat} (hk : k < 64) (ha : act.toNat.testBit k = true) :
    (mapActive act f).1.getD k 0 = (f k).1 := by
  simp [mapActive, hk, ha]

theorem foldl_or_getLsbD (l : List (Lane × FFlags)) (a : FFlags) (b : Nat) :
    (l.foldl (fun a x => a ||| x.2) a).getLsbD b = true ↔ a.getLsbD b = true ∨ ∃ x ∈ l, x.2.getLsbD b = true := by
  induction l generalizing a with
  | nil => simp
  | cons x l ih => simp [ih, BitVec.getLsbD_or, or_assoc]

theorem mapActive_flags (act : Word) (f : Nat → Lane × FFlags) (b : Nat) :
    (mapActive act f).2.getLsbD b = true ↔ ∃ k, k < 64 ∧ act.toNat.testBit k = true ∧ (f k).2.getLsbD b = true := by
  simp only [mapActive, foldl_or_getLsbD]
  constructor
  · rintro (h | ⟨x, hx, hb⟩)
    · simp at h
    · rw [List.mem_map] at hx
      obtain ⟨k, hk, rfl⟩ := hx
      rw [List.mem_range] at hk
      by_cases ha : act.toNat.testBit k = true
      · rw [if_pos ha] at hb
        exact ⟨k, hk, ha, hb⟩
      · rw [if_neg ha] at hb
        simp at hb
  · rintro ⟨k, hk, ha, hb⟩
    refine Or.inr ⟨f k, List.mem_map.2 ⟨k, List.mem_range.2 hk, by rw [if_pos ha]⟩, hb⟩

/-- A lane operation. -/
theorem mapActive_completes {i : Instr} {s : State} {lat : Nat} {d : BitVec 6} {act : Word}
    {f h : Nat → Lane × FFlags} (he : exec i s = s.vwrite lat d act (mapActive act f)) (hf : ∀ k, k < 64 → f k = h k) :
    LaneCompletes i s lat d.toNat act h := by
  refine ⟨(mapActive act f).2, ?_, vwrite_completes he ?_⟩
  · intro b _
    rw [mapActive_flags]
    constructor
    · rintro ⟨k, hk, ha, hb⟩
      exact ⟨k, hk, ha, hf k hk ▸ hb⟩
    · rintro ⟨k, hk, ha, hb⟩
      exact ⟨k, hk, ha, (hf k hk).symm ▸ hb⟩
  · intro k hk ha
    rw [mapActive_lane _ _ hk ha, hf k hk]

/-- Lane i of a register, as a meaning samples it. -/
theorem State.lanes_getD (s : State) (r : BitVec 6) {i : Nat} (h : i < 64) :
    (s.lanes r).getD i 0 = laneOf (s.cell.rv r.toNat) i := getD_lanesOf _ h

/-- A lane operation without flags. -/
theorem mapActive_noFlags {i : Instr} {s : State} {lat : Nat} {d : BitVec 6} {act : Word}
    {f : Nat → Lane × FFlags} {val : Nat → Lane} (he : exec i s = s.vwrite lat d act (mapActive act f))
    (hf : ∀ k, k < 64 → f k = (val k, 0)) : VecCompletes i s lat d.toNat act val 0 := by
  have h0 : (mapActive act f).2 = 0 := by
    apply BitVec.eq_of_getLsbD_eq
    intro b _
    rw [Bool.eq_iff_iff, mapActive_flags]
    constructor
    · rintro ⟨k, hk, _, hb⟩
      rw [hf k hk] at hb
      exact hb
    · intro hb
      simp at hb
  rw [← h0]
  refine vwrite_completes he ?_
  intro k hk ha
  rw [mapActive_lane _ _ hk ha, hf k hk]

/-- A mask written by one effect. -/
theorem maskOf_completes {i : Instr} {s : State} {lat : Nat} {act : Word → Act} {f h : Nat → Bool}
    (he : exec i s = .next (s.sched lat (act (maskOf f))).advance) (hf : ∀ k, k < 64 → f k = h k) :
    MaskCompletes i s lat act h :=
  ⟨_, fun k hk => by rw [maskOf_testBit _ hk, hf k hk], _, he, issued_one s lat _⟩

end Sys2Proof.Machine
end

