-- ==== Sys2Proof/Tests/Slice0.lean ====
section
/-!
SUPPORT. Small tests: fields that no well-formed instruction holds, words written out from the encoding tables, one
result for each instruction worth one, and for every statement of Obligations.lean states and operands that meet the
hypotheses of each of its clauses (`witness_…`). Expected values come from the rules and examples of the manual.
-/
namespace Sys2Proof.Tests

open Sys2Proof Sys2Proof.Machine

/-! ### States -/

/-- A stream with given registers. -/
def regs (x : NMap Word) (c : NMap Cap) : Stream :=
  { Stream.zero with x := x, c := c, run := true, pcc := Cap.root, pc := 0x200000 }

/-- Gang 0 runs a pour; stream `k` of its cell 0 issues. -/
def inGang (k : Kind) (cell : Cell) : State :=
  { State.reset with
    cur := ⟨false, 0, 0, k⟩
    gangs := [(0, { Gang.zero with pour := some ⟨0, 0, 0, 0, Cap.root⟩, live := true, done := true, cells := [(0, cell)] })] }

/-- The same with registers of that stream. -/
def gangRegs (k : Kind) (x : NMap Word) (c : NMap Cap) : State := inGang k (Cell.zero.setStream k (regs x c))

/-- Steward 0 issues with given registers. -/
def stewRegs (x : NMap Word) (c : NMap Cap) : State :=
  ({ State.reset with cur := ⟨true, 0, 0, .seq⟩ } : State).setMe (regs x c)

/-- An unlocked capability over the first 2^15 - 1 bytes with every permission. -/
def lowCap (a : Nat) : Cap := { Cap.root with e := 0, b := 0, t := 0x7FFF, addr := BitVec.ofNat 64 a }

/-- The same over the 2^15 - 1 bytes from `base`, whose low 15 bits are 0. -/
def atBase (base a : Nat) : Cap := { Cap.root with e := 0, b := BitVec.ofNat 15 base, t := BitVec.ofNat 15 (base + 0x7FFF), addr := BitVec.ofNat 64 a }

/-! ### Fields that no well-formed instruction holds (R184, R185) -/

theorem test_wf_idle_zero : (Instr.idleImm 0 0).wf = false := by decide
theorem test_wf_load_order : (Instr.ldd 0 1 2 2 0 0).wf = false := by decide
theorem test_wf_load_scope : (Instr.ldd 0 1 2 0 6 0).wf = false := by decide
theorem test_wf_store_order : (Instr.stw 0 1 2 1 0 0).wf = false := by decide
theorem test_wf_store_scope : (Instr.stw 0 1 2 0 7 0).wf = false := by decide
theorem test_wf_atomic_scope : (Instr.aadd 0 1 2 0 0 6).wf = false := by decide
theorem test_wf_acas_scope : (Instr.acas 0 1 2 3 0 0 7).wf = false := by decide
theorem test_wf_fence_scope : (Instr.fence 0 1 6).wf = false := by decide
theorem test_wf_maskw_index : (Instr.maskw 0 1 2 9).wf = false := by decide
theorem test_wf_copy_scope : (Instr.cpy 0 1 2 3 0 7).wf = false := by decide
theorem test_wf_rread_pair : (Instr.rread 0 1 2 31 0 0).wf = false := by decide
theorem test_wf_vcvt_target : (Instr.vcvt 0 1 2 8 0 0).wf = false := by decide
theorem test_wf_vcvt_part : (Instr.vcvt 0 1 2 0 3 0).wf = false := by decide
theorem test_wf_vcvt_round : (Instr.vcvt 0 1 2 0 0 5).wf = false := by decide
theorem test_wf_vicmp_condition : (Instr.vicmp 0 1 2 3 6).wf = false := by decide
theorem test_wf_reduction_round : (Instr.vrsum 0 1 2 3 6).wf = false := by decide
theorem test_wf_vldec_round : (Instr.vldec 0 1 2 3 5).wf = false := by decide
theorem test_wf_claim_range : (Instr.mclaim 0 15 1).wf = false := by decide
theorem test_wf_drain_format : (Instr.mdrain 0 1 2 6 3 0 0).wf = false := by decide
theorem test_wf_drain_round : (Instr.mdrain 0 1 2 0 3 6 0).wf = false := by decide
theorem test_wf_mmode_round : (Instr.mmodeSet 0 5).wf = false := by decide
theorem test_wf_mscale_zero : (Instr.mscale 0 0).wf = false := by decide
theorem test_wf_mscale_over : (Instr.mscale 0 65).wf = false := by decide

/-! ### Words written out from the encoding tables (R184 to R193), those of chapters 13, 15 and 21 among them, with the
example of R192 and the counted loop after R218 -/

theorem test_decode_lil : decode (.seq false 0) 0x02460003 = .ok (.lil 0 6 3) := rfl
theorem test_decode_addi : decode (.seq false 0) 0x01673805 = .ok (.addi 0 7 7 5) := rfl
theorem test_decode_loop : decode (.seq false 0) 0x0386FFFF = .ok (.loop 0 6 (-1)) := rfl
theorem test_decode_bne : decode (.seq false 0) 0x02A70002 = .ok (.bne 0 7 0 2) := rfl
theorem test_decode_std : decode (.seq false 0) 0x13C71C00 = .ok (.std 1 7 1 0 0 0) := rfl
theorem test_decode_rdv : decode (.seq false 0) 0x10800000 = .ok (.rdv 1) := rfl
theorem test_decode_cstc : decode (.seq false 0) 0x07712000 = .ok (.cstc 0 8 9 0) := rfl
theorem test_decode_cldc : decode (.ladle false) 0x07482001 = .ok (.cldc 0 4 1 1) := rfl
theorem test_decode_hold : decode (.seq false 0) 0x04C00420 = .ok (.holdBarrier 0 1) := rfl
theorem test_decode_yield : decode (.seq false 0) 0x08000000 = .ok (.yield 0 0) := rfl
theorem test_decode_kmatch : decode (.seq false 0) 0x08254380 = .ok (.kmatch 0 5 4 3 8) := rfl
theorem test_decode_maskw : decode (.seq true 0) 0x0EE72200 = .ok (.maskw 0 7 1 1) := rfl
theorem test_decode_kget : decode (.ladle false) 0x090A6E04 = .ok (.kget 0 5 3 14 0 1) := rfl
theorem test_decode_sqld : decode (.ladle false) 0x09411820 = .ok (.sqld 0 8 24 1) := rfl
theorem test_decode_vadd : decode .vec 0x38220A32 = .ok (.vadd 3 4 5 6 2) := rfl
theorem test_decode_vrmax : decode .vec 0x3BC10008 = .ok (.vrmax 3 2 0 0 0) := rfl
theorem test_decode_vpop : decode .vec 0x0D008001 = .ok (.vpop 0 1 1) := rfl
theorem test_decode_mmal : decode .mat 0x08A40501 = .ok (.mmal 0 1 0 1 8 1) := rfl
theorem test_decode_mdrainp : decode .mat 0x99040251 = .ok (.mdrainp 9 1 18 17) := rfl
theorem test_decode_map_decides : decode .vec 0x08254380 ≠ .ok (.kmatch 0 5 4 3 8) := by
  intro h
  cases h

/-! ### Results, from the rules and examples of the manual -/

/-- The effects that an instruction leaves in flight, each with its latency. -/
def effOf (i : Instr) (s : State) : List (Nat × Act) :=
  match exec i s with
  | .next t => t.pending.map (fun e => (e.due - s.now, e.act))
  | _ => []

/-- The cause and sub-cause of the fault that an instruction of a gang raises. -/
def faultOf (i : Instr) (s : State) : Option (Nat × Nat) :=
  match exec i s with
  | .next t => if (t.gang s.cur.unit).held then some ((t.gang s.cur.unit).frec.flt.cause, (t.gang s.cur.unit).frec.flt.sub) else none
  | _ => none

theorem test_add_wraps : effOf (.add 0 3 1 2) (gangRegs .seq [(1, BitVec.allOnes 64), (2, 2)] []) = [(1, .x 3 1)] := by decide
theorem test_sra_sign : effOf (.sra 0 3 1 2) (gangRegs .seq [(1, 0x8000000000000000), (2, 68)] []) =
    [(1, .x 3 0xF800000000000000)] := by decide
theorem test_slt_signed : effOf (.slt 0 3 1 2) (gangRegs .seq [(1, BitVec.allOnes 64), (2, 1)] []) = [(1, .x 3 1)] := by decide
theorem test_mulhsu : effOf (.mulhsu 0 3 1 2) (gangRegs .seq [(1, BitVec.allOnes 64), (2, BitVec.allOnes 64)] []) =
    [(3, .x 3 (BitVec.allOnes 64))] := by decide
theorem test_lih : effOf (.lih 0 9 0x5678) (gangRegs .seq [(9, 0x00401234)] []) = [(1, .x 9 0x4012345678)] := by decide
theorem test_loop_ends : effOf (.loop 0 6 (-1)) (gangRegs .seq [(6, 1)] []) = [(1, .x 6 0)] := by decide
theorem test_cinca_leaves_region :
    effOf (.cincaImm 0 4 1 (-2048)) (gangRegs .seq [] [(1, atBase 0x100000 0x100000)]) =
      [(1, .c 4 { atBase 0x100000 (0x100000 - 2048) with tag := false })] := by decide
theorem test_candp_locked : faultOf (.candp 0 4 1 2) (gangRegs .seq [] [(1, { Cap.root with otype := 5 })]) = some (3, 1) := by
  decide
theorem test_csetb_root : effOf (.csetb 0 4 1 2) (gangRegs .seq [(2, 0x300000)] [(1, { Cap.root with addr := BitVec.ofNat 64 scratchBase })]) =
    [(1, .c 4 { Cap.scratchC1 with perms := 0x3FFF })] := by decide

/-! ### Witnesses: scalar and capability instructions -/

theorem witness_ControlTransfers :
    decide (State.reset.rx 0 = State.reset.rx 1) = true ∧ decide (State.reset.rx 0 ≠ State.reset.rx 1) = false ∧
    1 < ((gangRegs .seq [(6, 2)] []).rx 6).toNat ∧ ((gangRegs .seq [(6, 1)] []).rx 6).toNat ≤ 1 := by decide

theorem witness_SimpleInstructions :
    (1 : BitVec 20) ≠ 0 ∧ (gangRegs .seq [] []).me.fencePend = none ∧
    (∀ k : Kind, (15 : Nat).testBit k.idx = true → trapped ((gangRegs .seq [] []).cell.stream k).fflags = 0) ∧
    trapped (((inGang .seq (Cell.zero.setStream .vec { regs [] [] with fflags := 0x101 })).cell.stream .vec).fflags) ≠ 0 := by
  refine ⟨by decide, by decide, fun k _ => ?_, by decide⟩
  cases k <;> decide

/-- Sixteen streams of gang 0, of which the listed ones wait as `w`. -/
def waiting (w : Wait) (l : List (Nat × Kind)) : State :=
  let cell (c : Nat) : Cell := { Cell.zero with streams := [Kind.seq, .vec, .mat, .ladle].map (fun k =>
    (k.idx, { regs [] [] with wait := if (c, k) ∈ l then w else .none })) }
  { State.reset with
    cur := ⟨false, 0, 0, .seq⟩
    gangs := [(0, { Gang.zero with pour := some ⟨0, 0, 0, 0, Cap.root⟩, live := true, done := true,
                                   cells := [(0, cell 0), (1, cell 1), (2, cell 2), (3, cell 3)] })] }

/-- Every stream of the gang but the issuing one. -/
def allOthers : List (Nat × Kind) :=
  [(0, .vec), (0, .mat), (0, .ladle), (1, .seq), (1, .vec), (1, .mat), (1, .ladle), (2, .seq), (2, .vec), (2, .mat),
    (2, .ladle), (3, .seq), (3, .vec), (3, .mat), (3, .ladle)]

theorem witness_AlignmentPoints :
    (stewRegs [] []).cur.stew = true ∧ (waiting .rdv []).cur.stew = false ∧ (waiting .rdv []).cur.cell < 4 ∧
    (let s := waiting .rdv [(0, .vec)]
     ∃ a ∈ (gangAgents 0).filter (fun a => decide (a ≠ s.cur)), (s.streamOf a).wait ≠ .none ∧ (s.streamOf a).wait ≠ .align 1) ∧
    (let s := waiting (.align 1) [(0, .vec)]
     (∀ a ∈ (gangAgents 0).filter (fun a => decide (a ≠ s.cur)), (s.streamOf a).wait = .none ∨ (s.streamOf a).wait = .align 1) ∧
     ∃ a ∈ (gangAgents 0).filter (fun a => decide (a ≠ s.cur)), (s.streamOf a).wait = .none) ∧
    (let s := waiting (.align 1) allOthers
     ∀ a ∈ (gangAgents 0).filter (fun a => decide (a ≠ s.cur)), (s.streamOf a).wait = .align 1) ∧
    (let s := waiting .rdv allOthers
     ∀ a ∈ (gangAgents 0).filter (fun a => decide (a ≠ s.cur)), (s.streamOf a).wait = .none ∨ (s.streamOf a).wait = .rdv) := by
  decide

theorem witness_CapabilityBounds :
    Cap.typeAuth.e.toNat = 0 ∧ 0 < Cap.scratchC1.e.toNat ∧ Cap.root.e.toNat ≤ 49 ∧
    Cap.scratchC1.inRegion (scratchBase + 0x300000) = true ∧ Cap.typeAuth.inRegion (2 ^ 40) = false := by decide

theorem witness_CapabilityRegisterOperations :
    (let c := { Cap.root with otype := 5 }
     c.tag = true ∧ c.otype ≠ 0) ∧ Cap.null.tag = false ∧ Cap.root.tag = true ∧ Cap.root.otype = 0 ∧
    2 ^ 64 < 2 + (BitVec.allOnes 64).toNat ∧ encExact 1 0x10000 = none ∧ encInward 0 (2 ^ 64) = none ∧
    encExact 0 0x8000 = some ⟨1, 0, 0x8000⟩ ∧ (let c := lowCap 0; c.top < (⟨1, 0, 0x8000⟩ : Bounds).hi) ∧
    (let c := Cap.root; c.base ≤ 0 ∧ 0x8000 ≤ c.top) := by decide

theorem witness_CapabilityLocksAndJumps :
    (let a := { Cap.typeAuth with addr := 256 }
     capCheck a 256 1 1 [.lk] = none ∧ capCheck a 256 1 1 [.ul] = none) ∧
    (let a := { Cap.typeAuth with addr := 4 }
     capCheck a 4 1 1 [.lk] = none ∧ a.has .sy = true) ∧
    (let a := { Cap.typeAuth with addr := 5 }
     capCheck a 5 1 1 [.lk] = none ∧ capCheck a 5 1 1 [.ul] = none) ∧
    (let a := { Cap.typeAuth with addr := 4, perms := 0x0180 }
     capCheck a 4 1 1 [.lk] = none ∧ capCheck a 4 1 1 [.ul] = none ∧ a.has .sy = false) ∧
    (let a := { Cap.typeAuth with addr := 4096 }
     capCheck a 4096 1 1 [.lk] = some .bounds ∧ capCheck a 4096 1 1 [.ul] = some .bounds) ∧
    capCheck { romCap with otype := 0 } romCap.addr.toNat 4 1 [.ex] = none ∧ (3 : BitVec 12) ≠ 5 := by decide

/-! ### Witnesses: loads, stores, atomics, fences, rings -/

/-- A posted store of steward 0. -/
def storeOf (ps : List Piece) (d : List Byte) : PStore := ⟨⟨true, 0, 0, .seq⟩, 0, ps, d, false, false, 0, [], none, none⟩

theorem witness_LoadsAndStoresIssue :
    (let c := Cap.scratchC1; let a := scratchBase
     capCheck c a 8 1 [.ld] = none ∧ capCheck c a 8 1 [.st] = none ∧ spaceOf 0x300000 a 8 = .scratch ∧
     capCheck c (a + 0x300000) 8 1 [.ld] = some .bounds) ∧
    (let c := Cap.root; let a := 2 ^ 57
     capCheck c a 8 1 [.ld] = none ∧ capCheck c a 8 1 [.st] = none ∧ spaceOf 0x300000 a 8 = .other) ∧
    (let s := stewRegs [] [(2, lowCap 0x100)]
     capCheck (s.rc 2) 0x100 8 1 [.ld] = none ∧ spaceOf s.cur.scratch 0x100 8 = .global ∧
     (s.piecesOf s.cur 0x100 8 false).toOption = some [⟨0x100, 0x100, 8, Attr.phys false⟩] ∧
     (s.storePieces 0x100 8 8).toOption = some [⟨0x100, 0x100, 8, Attr.phys false⟩]) ∧
    (let s := gangRegs .seq [] [(2, lowCap 0x100)]
     (s.piecesOf s.cur 0x100 8 false).isOk = false ∧ (s.storePieces 0x100 8 8).isOk = false) := by decide

theorem witness_CapabilityAccesses :
    (let c := Cap.root; let a := scratchBase
     capCheck c a 16 16 [.ld] = none ∧ capCheck c a 16 16 [.st, .sc] = none ∧ spaceOf 0x300000 a 16 = .scratch ∧
     capCheck c (a + 8) 16 16 [.ld] = some .align) ∧
    (let c := Cap.root; let a := 2 ^ 57
     capCheck c a 16 16 [.ld] = none ∧ capCheck c a 16 16 [.st] = none ∧ spaceOf 0x300000 a 16 = .other) ∧
    (let s := stewRegs [] [(2, lowCap 0x100), (3, Cap.root)]
     capCheck (s.rc 2) 0x100 16 16 [.st, .sc] = none ∧ spaceOf s.cur.scratch 0x100 16 = .global ∧
     (s.piecesOf s.cur 0x100 16 false).toOption = some [⟨0x100, 0x100, 16, Attr.phys false⟩] ∧
     (s.storePieces 0x100 16 0).toOption = some [⟨0x100, 0x100, 16, Attr.phys false⟩] ∧ (s.rc 3).has .gl = true) ∧
    (let v := { Cap.root with perms := 0x001F }; let c := { Cap.root with perms := 0x001F }
     v.tag = true ∧ v.has .gl = false ∧ c.has .sl = false ∧ capCheck c 0x100 16 16 [.st, .sc] = none) ∧
    (let s := stewRegs [] [(2, { Cap.root with addr := 0x200000000000 }), (3, Cap.root)]
     ∃ q ∈ (s.storePieces 0x200000000000 16 0).toOption.getD [], q.attr.tagless = true) ∧
    (gangRegs .vec [] [(2, lowCap 0x100)]).cur.kind = .vec ∧ spaceOf 0x300000 0x100 16 = .global := by decide

theorem witness_Atomics :
    (let s := stewRegs [] [(2, lowCap 0x100)]
     capCheck (s.rc 2) 0x100 8 1 [.ld, .st, .at] = none ∧ spaceOf s.cur.scratch 0x100 8 = .global ∧
     (s.storePieces 0x100 8 0).toOption = some [⟨0x100, 0x100, 8, Attr.phys false⟩]) ∧
    (let c := Cap.root
     capCheck c scratchBase 8 1 [.ld, .st, .at] = none ∧ spaceOf 0x300000 scratchBase 8 ≠ .global) ∧
    capCheck Cap.null 0 4 1 [.ld, .st, .at] = some .tag ∧
    ((gangRegs .seq [] []).storePieces 0x100 8 0).isOk = false ∧ 0xFFFFFFFF < 2 ^ (8 * 4) := by decide

theorem witness_FencesAndRingsIssue :
    (∀ e ∈ (stewRegs [] []).wq, e.2.ag = (stewRegs [] []).cur → e.2.park = none → (stewRegs [] []).nextId ≤ e.1) ∧
    (1 : BitVec 3) ≠ 0 ∧
    (let s := { stewRegs [] [] with wq := [(0, storeOf [] [])], nextId := 1 }
     ∃ e ∈ s.wq, e.2.ag = s.cur ∧ e.2.park = none ∧ e.1 < s.nextId) ∧
    (let s := gangRegs .seq [] [(2, lowCap 0x140)]
     s.cur.stew = false ∧ capCheck (s.rc 2) 0x140 64 1 [.ld] = none) ∧
    (let s := stewRegs [] [(2, lowCap 0x140)]
     0x140 % 64 = 0 ∧ spaceOf s.cur.scratch 0x140 64 = .global ∧ capCheck (s.rc 2) 0x140 64 1 [.ld, .st, .at] = none ∧
     (s.storePieces 0x140 64 0).toOption = some [⟨0x140, 0x140, 64, Attr.phys false⟩]) := by decide

/-! ### Witnesses: barriers, links, vector and matrix instructions, effects -/

theorem witness_BarriersAndHold : (gangRegs .seq [] []).cur.stew = false ∧ (stewRegs [] []).cur.stew = true := by decide

/-- A gang whose cell 0 receives a line from cell 1 on this cycle. -/
def arriving : State :=
  let s := gangRegs .ladle [] [(1, Cap.scratchC1)]
  s.setGang 0 { s.gang 0 with arrivals := [⟨1, 0, 0, 1, 7, 0, ⟨false, 0, 1, .ladle⟩, 0⟩] }

theorem witness_GangLinks :
    (let s := arriving
     s.cur.stew = false ∧ 1 ≠ s.cur.cell ∧ (0 : BitVec 2).toNat = s.cur.cell ∧
     spaceOf s.cur.scratch scratchBase 64 = .scratch ∧ capCheck (s.rc 1) scratchBase 64 1 [.ld] = none ∧
     capCheck (s.rc 1) scratchBase 64 1 [.st] = none ∧ s.me.fencePend = none ∧
     (∀ l ∈ s.cell.links, l.key = 1 → l.hi < s.now + 1 ∨ s.now + 1 < l.lo) ∧
     ((s.gang 0).arrival 1 0).map (·.first) = some 1 ∧ 0 / 64 % 64 ∉ s.cell.banksNow) ∧
    (stewRegs [] []).cur.stew = true := by decide

/-- The vec stream of a cell with a shape, registers and vector register 0. -/
def inVec (vsh : Word) (x : NMap Word) (c : NMap Cap) (v0 : Line256) : State :=
  inGang .vec { Cell.zero.setStream .vec (regs x c) with vsh := vsh, v := [(0, v0)] }

theorem witness_VectorShapeAndFloat :
    vshLegal vshReset = true ∧ vshLegal 65 = false ∧ (65 : Word).toNat > 64 ∧ (laneNum 0x7FC00000).isNan = true ∧
    (laneNum 0).isNan = false := by decide

theorem witness_VectorConversions :
    (7 : BitVec 4) = 7 ∧ descLegal (vshDesc vshReset) = false ∧ (0 : BitVec 4) ≠ 7 ∧ latEt vshReset 0 = none ∧
    latEt 0x440 15 = some false ∧ latEt 0x4C0 7 = some true ∧ latEt 0x4C0 8 = none ∧ (63 : BitVec 6).toNat = 63 ∧
    (5 : BitVec 6).toNat = (4 : BitVec 6).toNat + 1 := by decide

/-- Nine lanes that name the same bank. -/
def sameBank : Line256 := BitVec.ofNat 2048 ((List.range 9).foldl (fun a i => a + i * 4096 * 2 ^ (32 * i)) 0)

set_option exponentiation.threshold 2100 in
set_option maxRecDepth 20000 in
theorem witness_VectorMemoryIssue :
    (vshEt 0x441 = 8 ∧ elemBits (vshEt 0x341) (vshDesc 0x341) = 4 ∧ vshEt 0x41 = 0 ∧ elemBits (vshEt 1) (vshDesc 1) = 32) ∧
    (let s := inVec 1 [] [(1, Cap.scratchC1)] 0
     laneFault (s.rc 1) 4 [.ld] (s.velems 1 0 0 0) = none ∧ laneFault (s.rc 1) 4 [.st] (s.velems 1 0 0 0) = none ∧
     laneFault (s.rc 1) 4 [.ld] (s.gelems 1 0 0 0 0) = none ∧ overBank 4 (s.gelems 1 0 0 0 0) = none ∧
     laneFault (s.rc 2) 4 [.ld] (s.velems 2 0 0 0) ≠ none ∧ laneFault (s.rc 2) 4 [.st] (s.gelems 2 0 0 0 0) ≠ none) ∧
    (let s := inVec 9 [] [(1, Cap.scratchC1)] sameBank
     laneFault (s.rc 1) 4 [.ld] (s.gelems 1 0 0 0 0) = none ∧ overBank 4 (s.gelems 1 0 0 0 0) = some 0) := by decide

theorem witness_EffectsPerform :
    barArr ((Cell.zero).bar 0) = 0 ∧ (let c := { Cell.zero with bars := [(0, 0x050000000000)] }; barArr (c.bar 0) ≠ 0) ∧
    63 < 64 := by decide

theorem witness_MatrixShapeAndMode :
    mshLegal 0x23FF = true ∧ mshLegal 0 = false ∧ mshLegal 0x223FF = true ∧ mshSp 0x223FF = 1 ∧ 4 < mshBk 0x223FF ∧
    (4 : Word).toNat % 8 ≤ 4 ∧ 4 < (5 : Word).toNat % 8 := by decide

/-- The mat stream of a cell that holds the given claims. -/
def inMat (claims : List Nat) (c : Cell) : State := inGang .mat { c with claims := claims.map (fun o => (o, true)) }

theorem witness_OperandSlots :
    15 < (15 : BitVec 4).toNat + (1 : BitVec 4).toNat ∧
    (let s := inMat [] Cell.zero; NSet.mem s.cell.claims 15 = false) ∧
    (let s := inMat [0] Cell.zero
     NSet.mem s.cell.claims 0 = true ∧ spanAt s.cell.slotHold 0 s.now = false ∧ linePending s.cell.linePend 0 128 s.now = false) ∧
    (let s := inMat [0] { Cell.zero with slotHold := [⟨0, 0, 3⟩], ports := [⟨0, 0, 3⟩] }
     NSet.mem s.cell.claims 0 = true ∧ spanAt s.cell.slotHold 0 s.now = true ∧ spanAt s.cell.ports 0 s.now = true) ∧
    (let w : Word := 0x3FFF
     128 < bits w.toNat 6 0 + (bits w.toNat 13 7 + 1)) ∧
    (fillLines Cap.scratchC1 0 1).toOption = some [0] ∧ (fillLines Cap.null 0 1).isOk = false ∧
    (let s := inMat [0] Cell.zero
     spanAt s.cell.ports 0 s.now = false ∧ fillMeetsHold s.cell.slotHold 0 s.now 1 = false) := by decide

theorem witness_MatrixMultiply :
    (let s := inMat [0, 1] Cell.zero
     ¬ (mshAf s.cell.msh = 8 ∨ mshAf s.cell.msh = 9) ∧ NSet.mem s.cell.claims 0 = true ∧ NSet.mem s.cell.claims 1 = true ∧
     mmaEntries s.cell.msh ≤ s.cell.bound.length ∧ linePending s.cell.linePend 0 128 s.now = false ∧
     linePending s.cell.linePend 1 128 s.now = false ∧ spanAt s.cell.ports 1 s.now = false ∧
     spanAt s.cell.accRead 0 s.now = false ∧ spanAt s.cell.accPend 0 s.now = false ∧ s.cell.wordFault (slotWords 0 16) = none ∧
     ({ s.cell with bad := [(eccSlot 3, true)] } : Cell).wordFault (slotWords 0 16) = some (memFlt 0)) ∧
    (let s := inMat [0, 1] { Cell.zero with msh := 0x8F000, bound := [0, 0, 0, 0] }
     mshAf s.cell.msh = 8 ∧ mmaEntries s.cell.msh ≤ s.cell.bound.length) ∧
    (let s := inMat [] { Cell.zero with accRead := [⟨0, 0, 5⟩] }
     NSet.mem s.cell.claims 0 = false ∧ spanAt s.cell.accRead 0 s.now = true) ∧
    (let s := inMat [] { Cell.zero with scaleQ := [⟨0, 0, true, 0⟩, ⟨1, 0, false, 0⟩] }
     (∀ e ∈ s.cell.scaleQ.take 1, e.landed = true) ∧ ¬ (∀ e ∈ s.cell.scaleQ.take 2, e.landed = true) ∧
     s.cell.scaleQ.length < 3 ∧ s.cell.bound.length + 1 ≤ 64) ∧
    (let s := inMat [] { Cell.zero with scaleQ := [⟨0, 0, true, 0⟩], bound := List.replicate 64 0 }
     64 < s.cell.bound.length + 1) ∧ 64 < (65 : BitVec 7).toNat := by decide

theorem witness_MatrixDrains :
    (let s := inGang .mat (Cell.zero.setStream .mat (regs [(1, 0x40400000)] [(1, Cap.scratchC1)]))
     let w := (s.rx 1).toNat
     let b := ((s.rc 1).addr + BitVec.ofNat 64 (bits w 21 0)).toNat
     1 ≤ bits w 29 22 ∧ bits w 29 22 ≤ 128 ∧ 1 ≤ bits w 37 30 ∧ bits w 37 30 ≤ 128 ∧
     capCheck (s.rc 1) b 4 1 [.st] = none ∧ spaceOf scratchSize b 4 = .scratch ∧
     spanAt s.cell.accPend 0 s.now = false ∧ spanAt s.cell.ports 2 s.now = false ∧
     s.cell.wordFault [eccAcc (accKey 0 0 0)] = none ∧
     ({ s.cell with bad := [(eccAcc (accKey 0 0 0), true)] } : Cell).wordFault [eccAcc (accKey 0 0 0)] = some (memFlt 0)) ∧
    (let s := inMat [] { Cell.zero with accPend := [⟨0, 0, 9⟩] }; spanAt s.cell.accPend 0 s.now = true) ∧
    (let s := inMat [] { Cell.zero with ports := [⟨2, 0, 9⟩] }
     spanAt s.cell.accPend 0 s.now = false ∧ spanAt s.cell.ports 2 s.now = true) ∧
    128 < bits 0x20400000 29 22 ∧ bits 0 29 22 = 0 ∧ 128 < bits 0x81 7 0 ∧ bits 0x0101 7 0 * bits 0x0101 15 8 ≠ 0 := by decide

/-- The ladle stream of a cell that holds a pattern stream 0. -/
def inQs (k : Kind) (t : QStream) (c : Cell) : State := inGang k { c with qs := [(0, t)] }

set_option exponentiation.threshold 2100 in
set_option maxRecDepth 20000 in
theorem witness_PatternStreams :
    (stewRegs [] []).cur.stew = true ∧
    (let s := inQs .ladle { QStream.unbound with st := 2 } Cell.zero
     s.cur.stew = false ∧ (NMap.get QStream.unbound s.cell.qs 0).st = 2) ∧
    128 % 128 = 0 ∧ 0x2FFF80 + 128 ≤ scratchSize ∧ scratchSize < 0x300000 + 128 ∧
    (let t := { QStream.unbound with st := 1, desc := List.replicate 128 0 }
     t.st = 1 ∧ t.chain.length < 4 ∧ chainOk (QDesc.ofBytes t.desc) t.chain = true) ∧
    (let t := { QStream.unbound with st := 1, chain := [0, 0, 0, 0] }; 4 ≤ t.chain.length) ∧
    qoRm 0 ≠ 5 ∧ qoRm 0 ≠ 6 ∧ qoFmtOk 0 = true ∧ qoFmtOk 0xF0 = false ∧ qoRm 0x500 = 5 ∧ qoRm 0x600 = 6 ∧
    (let s := inQs .mat { QStream.unbound with st := 2 } Cell.zero
     let t := s.setGang 0 { s.gang 0 with pend := [⟨s.now, ⟨false, 0, 0, .vec⟩, 0, .vpop 0 1, 0⟩] }
     ∃ e ∈ (t.gang t.cur.unit).pend, e.ag.cell = t.cur.cell ∧ e.due = t.now ∧ e.act.popOf = some 0) ∧
    (let s := inQs .mat { QStream.unbound with st := 2, buf := [(0, 0, none)] } { Cell.zero with claims := [(0, true)] }
     let q := NMap.get QStream.unbound s.cell.qs 0
     q.st = 2 ∧ q.lastPop ≠ some s.now ∧ q.buf = (0, 0, none) :: [] ∧ NSet.mem s.cell.claims 0 = true ∧
     spanAt s.cell.ports 0 s.now = false ∧ fillMeetsHold s.cell.slotHold 0 s.now 1 = false ∧ s.cur.stew = false ∧
     (s.gang s.cur.unit).held = false) ∧
    (let s := inQs .vec { QStream.unbound with st := 2, lastPop := some 0, buf := [(0, 0, some (capFlt .bounds 0))] } Cell.zero
     let q := NMap.get QStream.unbound s.cell.qs 0
     q.lastPop = some s.now ∧ q.buf = (0, 0, some (capFlt .bounds 0)) :: []) := by decide

/-! ### Witnesses: copies, stewards, faults, dispatch -/

theorem witness_CopiesIssue :
    (let s := gangRegs .ladle [(1, 64)] [(1, { Cap.scratchC1 with perms := 0x041B })]
     let c := s.rc 1
     bits (s.rx 1).toNat 31 0 ≠ 0 ∧ s.cur.stew = false ∧ s.queueUse s.cur < 64 ∧
     s.sideFault c c.addr.toNat 64 [.st, .cp] = none ∧ s.sideFault c c.addr.toNat 64 [.ld, .cp] = none ∧
     s.rangeFault s.cur true true c.addr.toNat 64 = none ∧ s.rangeFault s.cur false false c.addr.toNat 64 = none ∧
     spaceOf scratchSize c.addr.toNat 64 = .scratch ∧ inSlotWindow c.addr.toNat = false ∧ inSlotWindow slotBase = true ∧
     s.sideFault (s.rc 2) 0 64 [.st, .cp] = some (capFlt .tag 0)) ∧
    bits (0 : Word).toNat 31 0 = 0 ∧ bits (0x4000000040 : Word).toNat 41 38 ≠ 0 ∧
    (let w : Word := 0x0020080001000400
     gpIdx w = 0x400 ∧ gpCnt w = 4 ∧ gpEsz w = 2 ∧ gpRed w = 2 ∧ gpIdx w % 4 = 0 ∧ gpEsz w ≤ 6) ∧ gpCnt 0 = 0 ∧
    (let s := gangRegs .ladle [] []
     s.idxFault 0x0020080001000400 = none ∧ tableFault { Cap.root with addr := 0x1000 } [.ld, .st, .at, .cp] = none ∧
     globalTable { Cap.root with addr := 0x1000 } = none ∧ s.tablePages { Cap.root with addr := 0x1000 } = none) ∧
    (let s := gangRegs .ladle [] []
     128 % 128 = 0 ∧ 128 + 128 ≤ s.cur.scratch ∧ s.cur.scratch < 0x300000 + 128) ∧
    (5 : BitVec 5).toNat ≠ 31 ∧
    handleChk { Cap.root with otype := 2 } 2 [.st] = none ∧ handleChk { Cap.root with otype := 1 } 1 [] = none ∧
    (let s := gangRegs .ladle [] [(1, { Cap.scratchC1 with perms := 0x041B })]
     s.cell.scaleQ.length + 2 ≤ 64 ∧ s.sideFault (s.rc 1) scratchBase 256 [.ld, .cp] = none ∧
     s.rangesFault s.cur false false [(scratchBase, 128), (scratchBase + 128, 128)] = none) := by decide

theorem witness_SystemInstructions :
    csrAssigned 0x0FF = false ∧ csrAssigned 0x007 = true ∧ csrAssigned 0x306 = true ∧ csrAssigned 0x406 = true ∧
    csrAssigned 0x502 = true ∧ csrAssigned 0x500 = true ∧ csrAssigned 0x105 = true ∧ csrAssigned 0x106 = true ∧
    (stewRegs [] []).windowOpen 0 = false ∧
    (let s := stewRegs [] []; (s.setGang 0 { s.gang 0 with sfrozen := true }).windowOpen 0 = true) ∧
    bits (0x600 : Word).toNat 10 9 = 3 := by decide

theorem witness_HandlerEntryAndReturn :
    (let s := stewRegs [] []
     s.cur.stew = true ∧ s.cur.kind = .seq ∧ (s.stew 0).inh = false) ∧
    (let s := stewRegs [] []; ((s.setStew 0 { s.stew 0 with inh := true }).stew 0).inh = true) ∧ 3 < 4 := by decide

theorem witness_FaultsAreTaken :
    ¬ ((3 : Nat) = 19 ∧ (0 : Nat) = 1) ∧ (gangRegs .seq [] []).cur.stew = false ∧
    ((gangRegs .seq [] []).gang 0).held = false ∧ ((gangRegs .seq [] []).gang 0).live = true ∧
    (let s := gangRegs .seq [] []; ((s.setGang 0 { s.gang 0 with held := true }).gang 0).held = true) := by decide

theorem witness_FreezeThawExtentsMasks :
    (let s := stewRegs [] [(1, { Cap.root with addr := BitVec.ofNat 64 scratchBase })]
     capCheck (s.rc 1) scratchBase 32 1 [.ld, .sy] = none ∧ spaceOf s.cur.scratch scratchBase 32 = .scratch ∧
     extBad (BitVec.ofNat 256 (ofLE (s.spm s.cur 0 32))) = none ∧ extBad 1 ≠ none ∧ s.classBusy 0 = false) ∧
    capCheck Cap.null 0 32 1 [.ld, .sy] = some .tag ∧ 9 ≤ (9 : BitVec 4).toNat ∧ (8 : BitVec 4).toNat ≤ 8 ∧
    (0x100 : Word).toNat % 2 ^ 8 = 0 ∧ (1 : Word).toNat % 2 ^ 8 ≠ 0 ∧
    (let o : Op := { ({ State.reset with cur := ⟨true, 0, 0, .seq⟩ } : State).newOp .store (.nop 0) with
       pieces := [⟨0, 0, 8, Attr.phys false⟩] }
     ({ stewRegs [] [] with ops := [(0, o)] } : State).classBusy 0 = true) := by decide

/-- Memory that holds a little-endian word. -/
def memAt (a v n : Nat) (s : State) : State := { s with mem := putBytes 0 s.mem a (leBytes v n) }

theorem witness_RevocationInstructions :
    (stewRegs [] []).tr.epoch.phase = 0 ∧
    (let s := stewRegs [] []; ({ s with tr := { s.tr with epoch := { s.tr.epoch with phase := 1 } } } : State).tr.epoch.phase ≠ 0) ∧
    (stewRegs [] []).hullList.isOk = false ∧
    (let s := memAt 0 0x100 8 (memAt 24 16 8 (stewRegs [] [])); s.hullList.isOk = true) := by decide

/-- A handle of node 0 on this device. -/
def node0 : Cap := { Cap.node 0 0 0 with addr := 0 }

theorem witness_CrucibleInstructionsIssue :
    (let s := memAt 0x18 1 8 (stewRegs [(1, 0)] [(1, node0), (2, { Cap.root with addr := 0 })])
     (s.rc 1).tag = true ∧ (s.rc 1).otype = 1 ∧ (s.rc 1).nhDev = s.boot.dev ∧
     (s.rx 1).toNat % 64 = 0 ∧ (s.rx 1).toNat + 64 ≤ s.cur.scratch ∧
     (s.classOf s.cur (s.rc 2) .ld).toOption = some 0 ∧ (s.classOf s.cur (s.rc 2) .sm).toOption = some 0 ∧
     s.nodeOf (s.rc 1) = none) ∧
    (let h2 := Cap.node 0 9 0
     h2.tag = true ∧ h2.otype = 1 ∧ h2.nhDev ≠ State.reset.boot.dev) ∧
    (let s := stewRegs [] [(3, { Cap.root with addr := BitVec.ofNat 64 scratchBase })]
     s.placeOf (s.rc 3) (s.rc 3).addr (4 * bits (32 : Word).toNat 31 0) 1 [.ld] = .scr 0) ∧
    (let s := memAt 0x18 1 8 (stewRegs [] [(2, { Cap.root with addr := 0 }), (3, { Cap.root with addr := BitVec.ofNat 64 (slotAddr 5) })])
     let t := { s with cru := { s.cru with nodes := [(5, { Node.free with st := 1, owner := some (s.holderOf s.cur) })] } }
     (t.rc 3).tag = true ∧ (t.rc 3).otype = 0 ∧ t.blockOf t.cur (t.rc 3) = some 5 ∧ (t.node 5).cls = 0) ∧
    Cap.null.tag = false ∧ Cap.root.tag = true ∧ Cap.root.otype ≠ 1 := by decide

/-- A launch of one pour in partition 0, session 0. -/
def launch0 : Launch :=
  { session := 0, part := 0, graph := none, gslot := 0, n := 1, prio := 0, wdog := 20, energy := 0, image := Cap.root,
    entries := List.replicate 16 0, live := [(0, [])], grants := [], nodes := [], deps := [], te := some 0, seq := 0, next := 1,
    retired := 0, status := .running, susp := [], ring := none, ending := none, areas := [] }

/-- The same state with that launch listed as number 0. -/
def launched (s : State) : State := { s with cup := { s.cup with launches := [(0, launch0)] } }

theorem witness_DispatchInstructionsIssue :
    (Cap.handle 0).tag = true ∧ (Cap.handle 0).otype = 4 ∧ Cap.root.otype ≠ 4 ∧ Cap.null.tag = false ∧
    (let s := stewRegs [] [(1, { Cap.root with addr := 0x1000 })]
     s.placeOf (s.rc 1) (s.rc 1).addr 384 1 [.ld] = .glob 0x1000 ∧ NMap.get 0 s.cup.devQ s.cur.die < 64) ∧
    (let s := stewRegs [] []
     64 ≤ NMap.get 0 ({ s with cup := { s.cup with devQ := [(0, 64)] } } : State).cup.devQ s.cur.die) := by decide

/-! ### Protection of HBM (R400 to R403) -/

set_option maxRecDepth 20000 in
/-- R400's worked line, and the place of its sideband word (R401). -/
theorem test_line_index :
    lineIndex 0x12_3456_7840 = 0x2468AD ∧ sidebandPlace 0x12_3456_7840 = (0x2468A, 13) ∧
    State.reset.hbm.pch 0 0x12_3456_7840 = 64 * 4 + 2 * 30 + 1 := by decide

set_option maxRecDepth 20000 in
/-- The CRC of R402 is that of OpenPGP, whose check value over the digits 1 to 9 is 0x21CF02. -/
theorem test_crc24 : crc24 ((List.range 9).map (fun i => BitVec.ofNat 8 (0x31 + i))) = 0x21CF02 := by decide

set_option maxRecDepth 1000000 in
/-- R403: two wrong symbols of a codeword, one of them a check byte, are corrected. -/
theorem test_two_symbols_corrected :
    (let l : List Byte := [1, 2, 3] ++ List.replicate 61 0
     let w := l ++ rsCheck l
     rsCorrect (xorAt (xorAt w 3 0x5A) 66 1) = some w) := by decide

/-! ### Witnesses: events -/

theorem witness_StewardRegisterFile :
    (State.reset.stew 3).event.getLsbD 0 = false ∧ (State.reset.stew 3).event.getLsbD 4 = false := by decide

/-- R387, R403: the premise under which an access leaves every other byte as it is, after reset and where a die holds a copy of
the access's partition; another partition's copy breaks it. -/
theorem witness_Undisturbed :
    State.reset.undisturbed 0 = true ∧ State.reset.hbm.old = [] ∧
    (let v : Line := { Line.fresh with st := [(1, .m)], home := .he 1, fill := [(1, 3)] }
     let s := { State.reset with coh := { State.reset.coh with lines := [(5, v)] } }
     s.undisturbed 3 = true ∧ s.undisturbed 256 = true ∧ s.undisturbed 4 = false) := by decide

theorem witness_ResetsAndLifeCycle :
    Boot.reset.powered = true ∧ Boot.reset.step = 7 ∧ Boot.reset.stepAt + 2 ^ 30 ≤ 2 ^ 30 ∧ Boot.reset.lcChange = false ∧
    (let b := { Boot.reset with powered := false, lc := 0 }; b.powered = false ∧ 1 = 1 ∧ b.lc = 0) ∧
    (let b := { Boot.reset with step := 8, lc := 1, minimal := true, clearf := true }
     8 ≤ b.step ∧ b.lc = 1 ∧ b.minimal = true ∧ b.clearf = true) ∧
    (let b := { Boot.reset with step := 3, lcChange := true }; b.step < 7 ∧ b.lcChange = true) ∧
    (∀ c ∈ ([(1, 1), (2, 2), (5, 3), (6, 4), (7, 5)] : List (Nat × Nat)),
      let s := { State.reset with boot := { Boot.reset with step := c.2, trouble := c.1 } }
      s.boot.powered = true ∧ s.boot.trouble = c.1 ∧ s.boot.step = c.2 ∧ s.opener = none ∧ s.gangIssuer = none ∧
      s.toPerform = none ∧ s.dueInput = none) ∧
    (1 : Word).toNat % 4 = 1 ∧ (3 : Word).toNat % 4 = 3 ∧ Boot.reset.lc = 2 ∧ Boot.reset.lc ≠ 3 := by decide

theorem witness_PortsInterfacesAndKeys :
    15 < 16 ∧ 3 < 4 ∧ State.reset.boot.minimal = false ∧ State.reset.boot.lc ≠ 3 ∧ ({ Boot.reset with minimal := true } : Boot).minimal = true ∧ NMap.get 0 State.reset.net.fports 0 ≠ 1 ∧ NMap.get 16 State.reset.net.cports 0 ≠ 0 ∧
    NMap.get 0 State.reset.net.tdi 0 = 0 ∧
    (let n := { State.reset.net with tdi := [(0, 1), (1, 2)], keys := [(1, ⟨1, false, 0⟩)] }
     NMap.get 0 n.tdi 0 = 1 ∧ NMap.get 0 n.tdi 1 = 2 ∧ (NMap.find n.keys 1).map (·.tdi) = some 1) ∧
    0 < 4095 ∧ 4095 < 4096 ∧ State.reset.boot.lc = 2 := by decide

theorem witness_GangTimeoutsAndDrains :
    (let c : CondE := ⟨.barrier 0 0, ⟨false, 0, 0, .seq⟩, 0, 5, 5⟩
     let q := { Gang.zero with conds := [c], wdog := 2 ^ 16, wdogK := 16 }
     q.live = false ∧ q.held = false ∧ q.sfrozen = false ∧ q.sweeping = false ∧ q.saving = false ∧ q.paused = false ∧
     c ∈ q.conds ∧ q.conds.all (fun e => e = c || decide (c.wall < e.wall)) = true ∧ 2 ^ q.wdogK ≤ q.wdog) ∧
    (let q := { Gang.zero with live := true, awaitFrom := some 0, gc := 2 ^ 16, wdogK := 16 }
     q.live = true ∧ q.held = false ∧ q.stage = .none ∧ q.awaitFrom.isSome = true ∧ 2 ^ q.wdogK ≤ q.awaitCount q.gc) ∧
    (let q := { Gang.zero with held := true, frec := { FRec.zero with told := false } }
     q.held = true ∧ q.frec.told = false ∧ q.frec.wall + 4 ≤ 4) ∧ State.reset.serving 0 = some 0 ∧
    (let d : Drain := ⟨⟨false, 0, 0, .mat⟩, 0, 0, 0, 0, 0, 1, 1, [0], [0], false⟩
     let s := launched (waiting .none [])
     let u := s.setGang 0 { s.gang 0 with gc := 4 }
     0 ∈ d.left ∧ u.rowRead d 0 = true ∧ u.takesDrain d = true ∧ u.accBusy d = false) ∧
    (let d : Drain := ⟨⟨false, 0, 0, .mat⟩, 0, 0, 0, 0, 0, 1, 1, [0], [0], true⟩
     d.refused = true ∧ d.ag.stew = false) := by decide

theorem witness_StewardEvents :
    (let q := { Steward.zero with ie := true, evmask := 0x2, event := 0x2 }
     let s := State.reset.setStew 0 q
     q.halt = false ∧ q.ie = true ∧ q.inh = false ∧ bitOf (s.enabled 0) 1 = true ∧ (∀ j, j < 1 → bitOf (s.enabled 0) j = false)) ∧
    (let q := { Steward.zero with ie := true, evmask := 0x10, timecmp := 0 }
     let s := State.reset.setStew 0 q
     bitOf (s.enabled 0) 4 = true ∧ q.timecmp.toNat ≤ s.wall) := by decide

theorem witness_YieldSaveAndRestore :
    (let s := gangRegs .seq [] []
     (stewRegs [] []).cur.stew = true ∧ s.cur.stew = false ∧ s.cur.cell = 0 ∧ s.cur.kind = .seq ∧ s.launchOf 0 = none) ∧
    (let s := launched (waiting .rdv allOthers)
     s.launchOf 0 = some (⟨0, 0, 0, 0, Cap.root⟩, launch0) ∧ NMap.find launch0.live 0 = some [] ∧
     NMap.find launch0.live 1 = none ∧ s.requested 0 = false ∧ s.quiescent s.cur = true) ∧
    (let s := launched (waiting .rdv allOthers)
     let t := s.setGang 0 { s.gang 0 with preempt := true }
     t.requested 0 = true) ∧
    (let s := launched (waiting .rdv [])
     s.quiescent s.cur = false) ∧
    (let s := launched (waiting .rdv allOthers)
     let t := s.setGang 0 { s.gang 0 with stage := .drain 0 0 }
     (t.gang 0).stage = .drain 0 0 ∧ (t.gang 0).held = false ∧ t.drained 0 = true) := by decide

theorem witness_PlacingAndIntervals :
    State.reset.cup.sliceReq = none ∧ (23 : Word).toNat % 32 < 24 ∧ bitOf (23 : Word).toNat 6 = false ∧ 24 ≤ (24 : Word).toNat % 32 ∧
    (let s := { State.reset with cup := { State.reset.cup with slices := (List.range 20).map (fun i => (i, 1)) } }
     bitOf (0x57 : Word).toNat 6 = true ∧
     ((List.range 24).filter (fun i => i ≠ (0x57 : Word).toNat % 32 ∧ NMap.get 0 s.cup.slices (24 * 0 + i) = 0)).length < 4) ∧
    (let s := { State.reset with cup := { State.reset.cup with sliceReq := some 0x40 } }
     (s.l2Held (bits 0x40 5 5) (2 ^ 60)).length ≤ l2Lines s.rolesNext (bits 0x40 5 5) ∧ s.cup.sliceReq = some 0x40 ∧ bitOf 0x40 6 = true ∧ s.coh.lines = []) ∧
    State.reset.sliceHeld 0 = false := by decide

theorem witness_PoursAndLevelsEnd :
    (let s := launched (waiting .rdv ((0, .seq) :: allOthers))
     s.retires 0 = true ∧ (s.gang 0).pour = some ⟨0, 0, 0, 0, Cap.root⟩ ∧ NMap.find s.cup.launches 0 = some launch0 ∧
     launch0.retired + 1 = launch0.n) ∧
    (let l := { launch0 with ending := some .cancelled }
     let s := { State.reset with cup := { State.reset.cup with launches := [(0, l)] } }
     NMap.find s.cup.launches 0 = some l ∧ l.ending = some .cancelled ∧ (∀ h ∈ s.gangsOf 0, s.atRest h = true) ∧
     s.wq = []) ∧
    (let g : Graph := ⟨0, none, 0, 0, 0, true, [], 0, 0, .running, true⟩
     let s := { State.reset with cup := { State.reset.cup with graphs := [(0, g)] } }
     g.ending = true ∧ g.status.final = false ∧ s.allFinal (fun l => l.graph = some 0) = true) ∧
    (let r : Sess := ⟨0, .running, false, true⟩
     r.ending = true ∧ State.reset.allFinal (fun l => l.session = 0) = true) := by decide

theorem witness_CupolaAnswers :
    (let s := stewRegs [] []
     let o := { s.newOp .dispatch (.launch 0 1 2 3) with caps := [Cap.root], val := 1 }
     o.k = .dispatch ∧ o.stage = 0 ∧ o.i = .launch 0 1 2 3 ∧ o.val = 1) ∧
    (let s := stewRegs [] []
     let o := { s.newOp .dispatch (.launch 0 1 2 3) with caps := [Cap.root] }
     o.val ≠ 1 ∧ s.before o.ag 0 = [] ∧ (match (s.submit .stew 0).2 with | .error _ => true | .ok _ => false) = true) ∧
    (let s := launched (stewRegs [] [])
     s.levelOf (Cap.handle (launchAddr 0)) = some (.launch 0) ∧
     (s.levelOf (Cap.handle (launchAddr 0))).bind s.levelSession = some 0 ∧
     s.inLevel s.cur (.launch 0) = false) ∧
    (let s := launched (waiting .none [])
     s.inLevel s.cur (.launch 0) = true ∧ bits (s.completionWord (.launch 0)) 42 40 < 2) := by decide


/-- Gang 0 of that launch at a stage of its save or restore, its image area in host memory. -/
def saved (t : SaveStage) : State :=
  let s := launched (waiting .rdv allOthers)
  s.setGang 0 { s.gang 0 with stage := t, image := 0x200000000000 }

theorem witness_contextSaveComplete :
    (let s := saved (.save 0 0 0)
     s.launchOf 0 = some (⟨0, 0, 0, 0, Cap.root⟩, launch0) ∧ (s.gang 0).stage = .save 0 0 0 ∧ 0 ≤ s.wall ∧
     (s.gang 0).held = false ∧ (s.gang 0).cancelAt = none) := by decide

set_option maxRecDepth 40000 in
theorem witness_contextRestoreComplete :
    (let s := saved (.restore 0)
     let s := s.setGang 0 { s.gang 0 with inImg := ⟨0, 0x880, putBytes 0 [] 0x200000000000 (leBytes 0x88049435A51 8), []⟩ }
     (s.gang 0).stage = .restore 0 ∧ (s.gang 0).cancelAt = none ∧ (s.gang 0).openAt = none ∧
     ((s.seenImage 0).imageAt (s.gang 0).image launch0).isSome = true) := by decide

set_option maxRecDepth 40000 in
/-- R337: a restore begun over a header reads 256 bytes on a wall cycle. -/
theorem test_restore_reads_in_order :
    (let s := memAt 0x200000000000 0x88049435A51 8 (saved .none)
     let s := (s.setGang 0 { s.gang 0 with openAt := none }).startRestore 0
     (s.gang 0).inImg.len = 0x880 ∧ ((s.restoreChunk 0).gang 0).inImg.bytes = [(0x200000000000, 0x51), (0x200000000001, 0x5A),
       (0x200000000002, 0x43), (0x200000000003, 0x49), (0x200000000004, 0x80), (0x200000000005, 0x08)]) := by decide

/-- Partition 0 with gang 0, and the given launches. -/
def placing (l : NMap Launch) (s : State) : State :=
  let s := memAt 0x20000 1 8 (memAt 0x20008 1 8 (s.csrPut 0x200 0x20000))
  { s with cup := { s.cup with launches := l } }

/-- The pour that partition 0 picks and its launch, when it may be placed, meet a test. -/
def picked (s : State) (f : State → Cand → Launch → Bool) : Bool :=
  let r := s.pick (s.candidates 0)
  s.poursRun 0 && s.ptValid 0 && s.freeGang 0 == some 0 &&
    r.2.any (fun c => (NMap.find r.1.cup.launches c.launch).any (f r.1 c))

/-- The pages that its grants lack. -/
def lacks (u : State) (l : Launch) : List (Nat × Bool) := (u.buildExtents 0 0 (l.grants.map (u.barrier 0 0))).2.missing

/-- A launch of one pour that has not begun. -/
def fresh0 : Launch := { launch0 with next := 0, live := [] }

set_option maxRecDepth 20000 in
theorem witness_pourPlacement :
    State.reset.ptValid 0 = false ∧ (placing [] State.reset).poursRun 0 = true ∧ (placing [] State.reset).freeGang 0 = some 0 ∧
    ((placing [] State.reset).pick ((placing [] State.reset).candidates 0)).2 = none ∧
    picked (placing [(0, fresh0)] State.reset) (fun u c l => c.image == none && lacks u l == [] &&
      ((u.buildExtents 0 0 (l.grants.map (u.barrier 0 0))).1.nodeSet l.nodes).isSome) = true ∧
    picked (placing [(0, { fresh0 with nodes := [node0] })] State.reset) (fun u c l => c.image == none && lacks u l == [] &&
      ((u.buildExtents 0 0 (l.grants.map (u.barrier 0 0))).1.nodeSet l.nodes).isNone) = true ∧
    picked (placing [(0, { launch0 with susp := [⟨0, 64, 0, []⟩], live := [] })] State.reset)
      (fun u c l => c.image == some 64 && lacks u l == []) = true ∧
    picked (placing [(0, { fresh0 with grants := [atBase 0x100000 0x100000] })] State.reset) (fun u _ l => lacks u l != []) = true := by decide

theorem witness_preemptionRequest :
    (let s := placing [(0, { launch0 with prio := 5 }), (1, fresh0)] ((waiting .none []).csrPut 0x205 0)
     s.preemptDue 0 = some (2 ^ 24) ∧ s.victim 0 = some 0) ∧ State.reset.preemptDue 0 = none := by decide

/-- Ring 15 of four entries, whose entry 0, at address 0, is of kind `k`; door `d`. -/
def ringAt (k d : Nat) : State :=
  let s := memAt 0 (1 + 256 * k) 2 (memAt 2000 4 4 State.reset)
  { s with cup := { s.cup with rings := [(15, { Ring.zero with door := d })] } }

theorem witness_RingsConsume :
    (∀ k ∈ [1, 2, 3, 4, 0, 5], let s := ringAt k (2 ^ 16 + 1)
     (s.ringHead 15).2.map heKind = some k ∧ s.ringRoom 15 = true) ∧
    (let s := ringAt 0 (2 ^ 16 + 1)
     let t := s.csrPut 0x208 0x8000
     t.ringHalted 15 = true ∧ (0x8000 : Word).toNat.testBit 15 = true) := by decide

/-! ### Witnesses: memory, copies, the Crucible, translation -/

/-- A piece of HBM in a page of ordering kind `k`. -/
def pieceAt (a n k : Nat) : Piece := ⟨a, a, n, { Attr.phys false with ok := k }⟩

/-- Operation 7 of steward 0, issued at wall cycle 0, in a package at wall cycle 9. -/
def opAt (f : Op → Op) : State :=
  let s := stewRegs [] []
  { s with wall := 9, ops := [(7, f (s.newOp .cstc (.nop 0)))] }

/-- The operation itself. -/
def op7 (s : State) : Op := (NMap.find s.ops 7).getD ((stewRegs [] []).newOp .cstc (.nop 0))

set_option maxRecDepth 20000 in
theorem witness_GlobalAccessesReturn :
    (∀ k ∈ [OpK.load 8 true 3, .cldc true 3, .atomic .swp 8 3, .acas 4 3, .ring .acq 3, .ring .take 3, .ring .pub 3, .ring .free 3],
      ∀ ok ∈ [0, 1, 2],
      let s := opAt (fun o => { o with k := k, pieces := [pieceAt 0x1000 8 ok], stage := 1, res := [5] })
      let o := op7 s
      (NMap.find s.ops 7).isSome = true ∧ o.k = k ∧ o.stage = 1 ∧ o.wall < s.wall ∧ o.flt = none ∧ o.res = [5] ∧
      s.loadWaits 7 o = false ∧ s.ready o.ag.cache false o.pieces = true ∧ s.mayServe 7 o.ag o.pieces = true ∧ s.slotFault o.ag o.pieces = none ∧
      ((s.serve 7 o.ag o.pieces).checkLines o.pieces false o.ag.cache).2 = none) ∧
    (∀ k ∈ [OpK.store, .cstc], ∀ ok ∈ [0, 1, 2],
      let s := opAt (fun o => { o with k := k, pieces := [pieceAt 0x1000 8 ok], val2 := 8 })
      let o := op7 s
      o.k = k ∧ o.stage = 0 ∧ o.flt = none ∧ (s.checkLines o.pieces true o.ag.cache).2 = none ∧
      soPieces o.pieces = decide (ok = 0) ∧ storeParts o.pieces (leBytes o.val.toNat o.val2.toNat) ≠ []) ∧
    (let s := opAt (fun o => { o with k := .fence, val := 7 })
     s.covers (op7 s).ag 7 false = false) ∧
    State.reset.invalWaits 1 = false ∧ State.reset.classBusy 0 = false ∧
    (op7 (opAt (fun o => { o with k := .mapBit 3 9 }))).k = .mapBit 3 9 := by decide

set_option maxRecDepth 20000 in
theorem witness_StoresAndAtomicsPerform :
    (let s := stewRegs [] []
     let q := pieceAt 0x1000 8 1
     let p := storeOf [q] (List.replicate 8 1)
     let s := { s with wq := [(3, p)] }
     p.data.length = q.len ∧ s.backing q.pa = .hbm ∧ (∀ i, i < q.len → inSlotWindow (q.pa + i) = false) ∧
     q.attr.zrl = false ∧ s.held p.ag 3 p.relMark p.pieces = false ∧ s.ready p.ag.cache true p.pieces = true ∧
     s.mayServe 3 p.ag p.pieces = true ∧ (s.checkLines p.pieces true p.ag.cache).2 = none) ∧
    (let s := opAt (fun o => { o with k := .atomic .max 4 3, pieces := [pieceAt 0x1FFC 4 2] })
     let o := op7 s
     let u := s.serve 7 o.ag o.pieces
     o.stage = 0 ∧ s.atomicWaits 7 o = false ∧ s.homeReady o.pieces = true ∧ s.mayServe 7 o.ag o.pieces = true ∧
     (u.checkLines o.pieces true).2 = none ∧ u.blockFault (s.holderOf o.ag) o.pieces = none ∧ s.backing o.pa = .hbm ∧
     (∀ i, i < 4 → inSlotWindow (o.pa + i) = false)) ∧
    (let o := op7 (opAt (fun o => { o with k := .ringHold true, stage := 2 }))
     o.stage = 2 ∧ o.flt = none) := by decide

/-- Steward 0 with copy 7, of 64 bytes from its scratchpad to 0x1000 bytes above, changed by `f`. -/
def copyAt (f : Copy → Copy) : State :=
  let s := stewRegs [] []
  { s with wall := 99, copies := [(7, f
      { ag := s.cur, pc := 0, ch := 0, kind := .lin, src := { Cap.root with addr := BitVec.ofNat 64 scratchBase },
        dst := { Cap.root with addr := BitVec.ofNat 64 (scratchBase + 0x1000) }, stride := 0, len := 64, ready := true,
        bar := none, scope := 0, wall := 0, got := [], queued := false, stopped := false, keep := false, fl := 0, floor := none,
        inbox := [], inTags := [], idxAt := none, sent := 0, again := false, fails := none })] }

/-- Its offset in a scratchpad. -/
def offOf : Side → Option Nat
  | .spm a => some a
  | _ => none

/-- Its pieces of memory. -/
def memOf : Side → Option (List Piece)
  | .mem l => some l
  | _ => none

set_option maxRecDepth 20000 in
theorem witness_CopiesAndPatternsLand :
    (let s := copyAt id
     (s.copy? 7).any (fun c =>
       let run := s.runAt c 0
       !c.queued && !c.stopped && c.ready && decide (c.kind = .lin) && decide (0 + 64 ≤ c.len) && s.chunk c 0 64 == 64 &&
       s.srcRuns c 64 0 64 == [(0, 64)] && !c.keep && c.ag.cell == 0 && c.receivers.contains 0 && c.fresh 0 0 64 &&
       prefixFrom c.got 0 (c.got.length + 1) 0 == 0 && s.landWhole c 0 0 64 && decide (s.copyFloor c ≤ s.wall) &&
       c.inbox == [] && decide (run.src % 8 = 0) && decide ((run.src + 64) % 8 = 0) && !s.readsAhead c 0 0 64 &&
       offOf (s.srcSide c run 64) == some 0 && offOf (s.dstSide c run 64) == some 0x1000 &&
       ((s.cellOf c.ag).spmFault (partLines 0x1000 64)).isNone &&
       s.landFree c 0 0 64 (.spm 0x1000) ((Side.spm 0).lines 64) && !s.earlierWrites 7 c run.dst 64) = true) ∧
    (let s := copyAt (fun c => { c with ag := ⟨false, 0, 0, .seq⟩, dst := { Cap.root with addr := 0 } })
     (s.copy? 7).any (fun c => (s.copyFailure c).isSome && !c.ag.stew && !(s.gang c.ag.unit).held && !c.queued && !c.stopped &&
       c.ready) = true) ∧
    (let s := copyAt (fun c => { c with kind := .scadd 0 3 0, dst := { Cap.root with addr := 0 } })
     (s.copy? 7).any (fun c =>
       let run := s.runAt c 0
       decide (0 + 8 ≤ c.len) && c.fresh c.ag.cell 0 8 && offOf (s.srcSide c run 8) == some 0 &&
       (memOf (s.dstSide c run 8)).any (fun l => l.any (fun p => decide (l = [p]) && p.len == 8 && !p.attr.zrl && s.homeReady [p] &&
         s.landFree c c.ag.cell 0 8 .none ((Side.spm 0).lines 8) && !s.earlierWrites 7 c run.dst 8 &&
         !s.storeFirst 7 c (.mem [p]) && !soPieces [p] && s.mayServe 7 c.ag [p] && decide (s.backing p.pa = .hbm) && !inSlotWindow p.pa && !inSlotWindow (p.pa + 7)))) = true) ∧
    (let s := inQs .ladle { QStream.unbound with st := 2 } Cell.zero
     let q := NMap.get QStream.unbound (s.cellOf ⟨false, 0, 0, .ladle⟩).qs 0
     q.st = 2 ∧ q.buf.length < 16 ∧
     q.ahead = [] ∧ (s.cellOf ⟨false, 0, 0, .ladle⟩).linesNow (s.qlines ⟨false, 0, 0, .ladle⟩ q 0) = s.qlines ⟨false, 0, 0, .ladle⟩ q 0 ∧
     s.ready (⟨false, 0, 0, .ladle⟩ : Agent).cache false (s.qtouch ⟨false, 0, 0, .ladle⟩ q 0) = true ∧
     s.readMay s.nextId ⟨false, 0, 0, .ladle⟩ (s.qtouch ⟨false, 0, 0, .ladle⟩ q 0) = true) := by
  decide

/-- Operation 7 of steward 0 with node 0, sealed, its index entry changed by `f`, in its first capability. -/
def crucibleAt (i : Instr) (f : Node → Node) : State :=
  let s := opAt (fun o => { o with k := .crucible, i := i, caps := [node0] })
  { s with cru := { s.cru with nodes := [(0, f { Node.free with st := 2, size := 16, depth := 2 })] } }

theorem witness_CrucibleGoesOn :
    (∀ i ∈ [Instr.klease 0 3 1, .krenew 0 3 1, .kdrop 0 3 1, .kpin 0 3 1 0, .kunpin 0 3 1 0, .kstat 0 3 1 4, .kname 0 3 1,
        .kdepth 0 3 1, .kanc 0 3 1 2],
      (let s := crucibleAt i id
       (op7 s).i = i ∧ (op7 s).k = .crucible ∧ (op7 s).stage ≠ 3 ∧ (op7 s).flt = none ∧ s.cru.turn ≤ (op7 s).ag.key ∧
       s.nodeOf ((op7 s).caps.headD Cap.null) = some 0 ∧ ((op7 s).caps.headD Cap.null).nhDev = s.boot.dev ∧
       (s.node 0).timed = none ∧ (s.node 0).timedIn s.tick = false ∧ (s.node 0).refs < 2 ^ 32 - 1 ∧
       (s.node 0).lifetime.contains (s.holderOf (op7 s).ag) = false ∧ NMap.get 0 (s.node 0).pins (s.pinnerOf (op7 s).ag) = 0) ∧
      (let s := crucibleAt i (fun n => { n with gen := 1 })
       s.nodeOf ((op7 s).caps.headD Cap.null) = none)) ∧
    (let s := crucibleAt (.krenew 0 3 1) (fun n => { n with timed := some 1 })
     (s.node 0).timedIn s.tick = true) ∧
    (let s := crucibleAt (.kpin 0 3 1 0) (fun n => { n with children := 2 ^ 32 - 1 }); 2 ^ 32 - 1 ≤ (s.node 0).refs) ∧
    (let s := crucibleAt (.kunpin 0 3 1 0) (fun n => { n with pins := [(4096, 1)] })
     NMap.get 0 (s.node 0).pins (s.pinnerOf (op7 s).ag) ≠ 0) ∧
    (let s := crucibleAt (.kdrop 0 3 1) (fun n => { n with lifetime := [2 ^ 60] })
     (s.node 0).lifetime.contains (s.holderOf (op7 s).ag) = true) ∧
    (let s := opAt (fun o => { o with k := .crucible, i := .kanc 0 3 1 2, caps := [node0], val := 1 })
     let t := { s with cru := { s.cru with nodes := [(0, { Node.free with st := 2, size := 16, depth := 1 })] } }
     1 ≤ (op7 t).val.toNat ∧ (op7 t).val.toNat ≤ (t.node 0).depth ∧ t.anc 0 (op7 t).val.toNat = some 0) ∧
    (let s := opAt (fun o => { o with k := .crucible, i := .kopen 0 3 1 2 4, caps := [Cap.null] })
     s.crTier 0 0 = false ∧ (let t := memAt 0x18 0x41 8 s
      t.crTier 0 0 = true ∧ t.crQuota 0 = 0 ∧
      (({ t with cru := { t.cru with turn := (op7 t).ag.key } } : State).room (t.crPart 0) 0 (t.crSize 0)).2 = false ∧
      (let u := memAt 0x18 0x103 8 (memAt 0x20028 1 4 (s.csrPut 0x200 0x20000)); u.crTier 0 2 = true ∧
       (({ u with cru := { u.cru with turn := (op7 u).ag.key } } : State).room (u.crPart 0) 2 (u.crSize 0)).2 = true))) ∧
    (let s := opAt (fun o => { o with k := .crucible, i := .kseal 0 3 1 2 4 5, addr := scratchBase,
                                      caps := [Cap.root, { Cap.root with addr := BitVec.ofNat 64 (slotAddr 5) }] })
     let t := { s with cru := { s.cru with nodes := [(5, { Node.free with st := 1, owner := some (s.holderOf s.cur) })] } }
     let o := op7 t
     t.held o.ag 7 o.relMark o.pieces = false ∧ t.owes o.ag 7 true = false ∧ t.blockOf o.ag (o.caps.getD 1 Cap.null) = some 5 ∧
     o.pieces = [] ∧ (t.cellOf o.ag).spmFault (spmLines 0 128) = none) ∧
    (let s := opAt (fun o => { o with k := .crucible, i := .kmatch 0 3 1 2 4, addr := scratchBase, val := 32 })
     let o := op7 s
     bitOf o.val.toNat 48 = false ∧ o.res = [] ∧ o.pieces = [] ∧ (s.cellOf o.ag).spmFault (spmLines 0 128) = none) ∧
    (let s := crucibleAt (.krepl 0 3 1 2 4) id
     let t := { s with ops := s.ops.map (fun e => (e.1, { e.2 with res := [2, 2, 1], cres := [node0] })) }
     (op7 t).prog.phase = 2 ∧ (op7 t).prog.depth < (op7 t).prog.j ∧ (t.nodeOf (op7 t).best).isSome) ∧
    (let s := crucibleAt (.kdrop 0 3 1) (fun n => { n with timed := some 0, demote := some 1, leases := [⟨5, 6, 0, 0, 1, 0, false, none⟩] })
     inForce 0 s.tick = false ∧ (s.node 0).timed = some 0 ∧ (s.node 0).demote = some 1 ∧
     (s.node 0).leases.find? (XLease.sameRead 5 6) = some ⟨5, 6, 0, 0, 1, 0, false, none⟩ ∧ (⟨5, 6, 0, 0, 1, 0, false, none⟩ : XLease).left ≠ 0 ∧
     (s.ctx 5).dead = false) ∧
    (let s := memAt 4 (2 ^ 31 + 9) 4 State.reset
     let w := s.readLE ((s.csrGet 0x540).toNat + 4 * 1) 4
     bitOf w 31 = true ∧ w % 2 ^ 18 ≠ s.boot.dev ∧ (s.ctx (w % 2 ^ 18)).dead = false) ∧
    (let s := { State.reset with tick := 16384, cru := { State.reset.cru with dir := [⟨7, 0, 0, [5], 0⟩] } }
     s.holderDevs.contains 5 = true ∧ 16384 ≤ (s.tick + 2 ^ 32 - NMap.get 0 s.cru.heard 5) % 2 ^ 32) := by decide

/-- Virtual address 0 of partition 0 mapped by a leaf of 2 MiB. -/
def mapped (leaf : Nat) (s : State) : State :=
  memAt 0 0x1001 8 (memAt 0x1000 0x2001 8 (memAt 0x2000 0x3001 8 (memAt 0x3000 0x4001 8 (memAt 0x4000 leaf 8 s))))

set_option maxRecDepth 20000 in
theorem witness_TranslationRegistersAndMigrations :
    (State.reset.walk 0 0 0).1.resident = false ∧
    (let w := ((mapped 0x200003 State.reset).walk 0 0 0).1
     w.resident = true ∧ w.malformed = false ∧ w.size = 2) ∧
    (1 : Word).toNat % 4 = 1 ∧ State.reset.invalWaits 1 = false ∧
    (let s := { waiting .none [] with wq := [(0, { storeOf [pieceAt 0 8 1] [] with ag := ⟨false, 0, 0, .seq⟩ })] }
     s.invalWaits 1 = true) ∧
    (let s := State.reset.csrPut 0x305 0x80040004
     s.tr.gath.length + (s.tr.held.map List.length).getD 0 < 256 ∧ s.tr.gath.length + 1 < (s.csrGet 0x305).toNat / 2 ^ 16 % 2 ^ 16) ∧
    (let s := { State.reset with tr := { State.reset.tr with gath := [⟨0, 0, true, false, 0⟩] } }
     s.tr.gath = ⟨0, 0, true, false, 0⟩ :: [] ∧ s.tr.held = none ∧
     ({ s with wall := 2 ^ 32 } : State).wall ≥ 0 + (s.csrGet 0x305).toNat / 2 ^ 32) ∧
    (let s := State.reset.csrPut 0x305 16
     s.batchFits [⟨0, 0, true, false, 0⟩] = true) ∧
    (let s := memAt 0x40 0x200000 8 (memAt 0x48 0x400000 8 (memAt 0x58 2 8 State.reset))
     let ctl := s.readLE 0x58 8
     ctl % 4 = 2 ∧ ctl / 4 % 2 ^ 6 = 0 ∧ ctl / 2 ^ 16 % 2 ^ 48 = 0 ∧ s.readLE 0x68 24 = 0 ∧ s.readLE 0x40 8 % 2 ^ 21 = 0 ∧
     s.readLE 0x48 8 % 2 ^ 21 = 0 ∧ s.migBusy false 0 (s.readLE 0x50 8) = none ∧ s.tagless (s.readLE 0x48 8) = false ∧
     (let m : Migration := ⟨true, 0, 0, 0, s.readLE 0x50 8, 4096, 0, 0, 0⟩
      ({ s with tr := { s.tr with mig := [m] } } : State).migBusy false 0 (s.readLE 0x50 8) ≠ none)) ∧
    (let s := memAt 0x48 0x200000000000 8 (memAt 0x58 0 8 (memAt 0x60 0x1000 8 (memAt 0x1000 0x803 8 State.reset)))
     s.tagless (s.readLE 0x48 8) = true ∧ s.migBusy false 0 (s.readLE 0x50 8) = none ∧
     ∃ p ∈ groupPtes (pageBytes 0) (s.readLE 0x60 8), bitOf (s.readLE p 8) 11 = true) ∧
    (let s := memAt 0x58 3 8 State.reset; s.readLE 0x58 8 % 4 = 3) ∧
    (let s := mapped 0x200003 State.reset
     s.migBusy true 0 0 = none ∧ s.hostMigration 0 0 0x200000000000 ≠ none ∧ s.hostMigration 1 0 0x200000000000 = none ∧
     (let m : Migration := ⟨true, 0, 0, 0, 0, 0x200000, 0, 0, 0⟩
      let t : State := { s with tr := { s.tr with mig := [m] } }
      t.migBusy true 0 0 = some 2 ∧ ∀ q ∈ t.tr.mig, q.host = true)) ∧
    (let m : Migration := ⟨true, 0, 0, 0x200000, 0, 0x200000, 0, 0x4000, 0⟩
     let s := { State.reset with tr := { State.reset.tr with mig := [m] } }
     s.tr.mig[0]? = some m ∧ s.migLines m = []) := by decide

/-- The epoch of partition 0 in a phase, with places still to visit. -/
def epochAt (p : Nat) (l : List Fettle) (s : State) : State :=
  { s with tr := { s.tr with epoch := { s.tr.epoch with phase := p, fettle := l } }, wall := 2 ^ 16 }

set_option maxRecDepth 20000 in
theorem witness_RevocationEpochs :
    (let s := epochAt 1 [] (waiting .none [])
     let t := s.setGang 0 { s.gang 0 with swept := false }
     t.tr.epoch.phase = 1 ∧ (t.gang 0).pour.map (·.part) = some t.tr.epoch.part ∧ (t.gang 0).swept = false ∧
     (t.gang 0).sweeping = false ∧ t.tr.epoch.opened + 2 ^ 16 ≤ t.wall ∧ t.allSwept = false) ∧
    (let s := epochAt 1 [] (waiting .none [])
     let t := s.setGang 0 { s.gang 0 with sweeping := true, sweepAt := some 0 }
     (t.gang 0).sweepAt = some 0 ∧ (t.gang 0).sweeping = true ∧ 0 + 64 ≤ t.wall) ∧
    (State.reset.gang 0).sweeping = false ∧ State.reset.tr.epoch.phase ≠ 1 ∧
    (let s := epochAt 1 [] State.reset; s.tr.epoch.phase = 1 ∧ s.allSwept = true) ∧
    (let s := epochAt 2 [] State.reset
     s.tr.epoch.phase = 2 ∧ s.settled = true ∧ s.tr.epoch.phase ≠ 3) ∧
    (let s := epochAt 3 [] State.reset
     s.tr.epoch.phase = 3 ∧ s.tr.epoch.fettle = [] ∧ s.tr.epoch.phase ≠ 2 ∧ s.tr.epoch.fettle.find? s.canFettle = none) ∧
    (∀ f ∈ [Fettle.page 0, .posted 0], let s := epochAt 3 [f] (mapped 0x200003 State.reset)
     s.tr.epoch.phase = 3 ∧ s.tr.epoch.fettle ≠ [] ∧ s.tr.epoch.fettle.find? s.canFettle = some f ∧
     (s.walkTables s.tr.epoch.part 0).resident = true) ∧
    (let s := epochAt 3 [.page 0] State.reset
     let w := s.walkTables s.tr.epoch.part 0
     s.tr.epoch.fettle.find? s.canFettle = some (.page 0) ∧ w.resident = false) ∧
    (let s := epochAt 3 [.page 0] (mapped 0x800 State.reset)
     let w := s.walkTables s.tr.epoch.part 0
     s.tr.epoch.fettle.find? s.canFettle = some (.page 0) ∧ w.resident = false ∧ (w.malformed = true ∨ bitOf w.leaf 11 = true)) ∧
    (let l : Launch := { launch0 with susp := [⟨0, 64, 0, []⟩], areas := [(0, (64, 4096))] }
     let s := epochAt 3 [.image 0 0] (placing [(0, l)] State.reset)
     s.tr.epoch.fettle.find? s.canFettle = some (.image 0 0) ∧ NMap.find s.cup.launches 0 = some l ∧
     l.susp.any (fun x => x.idx == 0) = true ∧ NMap.find l.areas 0 = some (64, 4096)) := by decide

/-! ### Witnesses: coherence, the host and the network -/

/-- Line 5, home to nobody, with states, messages and an open transaction. -/
def lineAt (v : Line) : State := { State.reset with coh := { State.reset.coh with lines := [(5, v)] } }

/-- The line in that state. -/
def of5 (v : Line) : Line := (lineAt v).line 5

/-- A request of agent 0 that awaits the acknowledgements of a list and the answer of an owner. -/
def txn0 (r : CReq) (acks : List Nat) (fwd : Option Nat) (hit : List Nat := []) : CTxn := ⟨r, 0, acks, fwd, false, false, false, hit, 0, [], none⟩

/-- Line 5, with line 6 of its sector at home in another state, under partition 7. -/
def beside (h : HomeSt) (v : Line) : State :=
  { State.reset with coh := { State.reset.coh with lines := [(5, v), (6, { Line.fresh with home := h, part := 7 })] } }

set_option maxRecDepth 20000 in
theorem witness_CoherenceProtocol :
    State.reset.coherent (5 * 64) = true ∧ State.reset.agentDead 1 = false ∧ State.reset.hbm.flips = [] ∧
    (∀ m ∈ [Moesi.i, .s, .o, .m, .e, .isD, .imD, .smA, .miA, .eiA],
      ∀ g ∈ [CMsg.inv 1, .fwds 1 0, .fwdx 1 0, .data 1 .s, .dataFrom 1 1 .m, .cmp 1, .wbAck 1],
      let s := lineAt { Line.fresh with st := [(1, m)], home := .he 1, msgs := [g] }
      let v := s.line 5
      g ∈ v.msgs ∧ v.of 1 = m ∧ v.txn = none ∧ v.msgs = [g] ∧ v.queue = [] ∧ s.arrives 5 g = true ∧
      v.cross 1 v.probePart = false ∧ v.home.owner = some 1) ∧
    (∀ r ∈ [CReq.rds, .rdx, .upg, .wbd, .wbe],
      ∀ h ∈ [HomeSt.hi, .hs [0], .hs [1], .hs [0, 1], .he 0, .he 1, .ho 0 [], .ho 1 [0], .ho 0 [1]],
      let s := lineAt { Line.fresh with home := h, msgs := [.req r 1 0] }
      let v := s.line 5
      s.coherent (5 * 64) = true ∧ s.arrives 5 (.req r 1 0) = true ∧ s.dirFull 5 = false ∧ v.queue = [] ∧ v.txn = none ∧
      v.home = h ∧ v.msgs = [.req r 1 0] ∧ v.part = 0) ∧
    (∀ r ∈ [CReq.rds, .rdx, .upg, .wbd, .wbe],
      ∀ y ∈ [txn0 .rdx [1] none [1], txn0 .rds [] (some 1), { txn0 .rdx [2] none with recalled := true }],
      let s := lineAt { Line.fresh with txn := some y, msgs := [.req r 1 0] }
      s.arrives 5 (.req r 1 0) = true ∧ (s.line 5).txn = some y ∧ (s.line 5).msgs = [.req r 1 0]) ∧
    (∀ y ∈ [txn0 .rdx [1, 2] none, txn0 .rdx [1] (some 2), txn0 .rdx [1] none, txn0 .upg [1] none],
      let s := lineAt { Line.fresh with txn := some y, msgs := [.invAck 1 false true false] }
      let v := s.line 5
      v.txn = some y ∧ v.msgs = [.invAck 1 false true false] ∧ s.arrives 5 (.invAck 1 false true false) = true ∧ 1 ∈ y.acks ∧ v.queue = [] ∧ y.recalled = false) ∧
    (∀ r ∈ [CReq.rds, .rdx, .upg], ∀ h ∈ [HomeSt.he 1, .ho 1 []], ∀ k ∈ [Moesi.e, .m, .o], ∀ w : Bool,
      let y := txn0 r [] (some 1)
      let s := lineAt { Line.fresh with txn := some y, home := h, msgs := [.fwdAck 1 false w k] }
      let v := s.line 5
      (∀ q ∈ v.msgs, s.arrives 5 q = true) ∧ v.txn = some y ∧ v.msgs = [.fwdAck 1 false w k] ∧ y.acks = [] ∧ y.fwd = some 1 ∧ v.home = h ∧ v.queue = [] ∧
      y.recalled = false ∧ y.cmp = false ∧ y.leaving = false) := by
  decide

/-- The same for a write-back buffer and for an entry that names sharers of another line (R383, R386). -/
theorem witness_CoherenceProtocolBuffers :
    (∀ r ∈ [CReq.rds, .rdx, .upg], ∀ p ∈ [(CReq.wbd, Moesi.m), (.wbe, .e)],
      let y := { txn0 r [] (some 1) with answer := some p.2 }
      let s := lineAt { Line.fresh with txn := some y, home := .he 1, msgs := [.req p.1 1 0] }
      let v := s.line 5
      s.arrives 5 (.req p.1 1 0) = true ∧ v.txn = some y ∧ v.msgs = [.req p.1 1 0] ∧ y.fwd = some 1 ∧ y.answer = some p.2 ∧ v.queue = [] ∧ v.home = .he 1) ∧
    (∀ k ∈ [Moesi.e, .m, .o], let y := { txn0 .rds [] (some 1) with leaving := true }
      let v := of5 { Line.fresh with txn := some y, home := .he 1, msgs := [.fwdAck 1 false true k] }
      v.txn = some y ∧ y.leaving = true ∧ v.msgs = [.fwdAck 1 false true k]) ∧
    (∀ h ∈ [HomeSt.hs [0], .ho 1 [0], .hs [2]], ∀ r ∈ [CReq.rds, .rdx, .upg],
      let s := beside h { Line.fresh with msgs := [.req r 1 7] }
      let v := s.line 5
      s.arrives 5 (.req r 1 7) = true ∧ s.dirFull 5 = false ∧ v.home = .hi ∧ v.msgs = [.req r 1 7] ∧ s.named 5 1 = h.sharers ∧ s.named 5 1 ≠ [] ∧
      v.entryPart (s.sectorPart 5) 7 = 7) := by
  decide

set_option maxRecDepth 20000 in
theorem witness_HostSlicesAndDeath :
    (∀ r ∈ [HostReq.rd 5 true 0, .wr 5 60 [1, 2, 3, 4]], let s := State.reset
     s.coherent (5 * 64) = true ∧ s.coh.hostQ = [] ∧ s.firstAt s.nextId (s.hostPieces r) = true ∧
     s.inTurn hostKey (s.hostPieces r) = true ∧ s.lineOpen 5 = true ∧ s.dirFull 5 = false ∧ s.copiesAwake noL2 5 = true ∧
     ({ s with coh := { s.coh with retention := [(s.homeSlice 5, true)] } } : State).lineOpen 5 = false) ∧
    (let s := State.reset
     let r : HostReq := .wr 5 60 [1, 2, 3, 4]
     s.lineErr (s.physAttr (5 * 64)) (5 * 64) false false = .fine ∧
     (s.line 5).home = .hi ∧ (s.line 5).st = [] ∧ (s.line 5).quiet = true ∧ s.named 5 2 = [] ∧
     (let t := beside (.hs [0]) Line.fresh; t.named 5 2 = [0] ∧ (t.line 5).home = .hi) ∧
     (let t := beside (.hs [2]) { Line.fresh with home := .he 2 }; t.named 5 0 = [2] ∧ (t.line 5).home = .he 2) ∧
     (s.checkLines (s.hostPieces r) true).2 = none ∧ s.hbm.flips = [] ∧ s.backing (5 * 64 + 60) = .hbm ∧
     (∀ j, j < 4 → inSlotWindow (5 * 64 + 60 + j) = false) ∧ NSet.mem s.coh.retention 47 = false ∧
     s.coh.dead.getLsbD 6 = false) ∧
    ((of5 { Line.fresh with home := .he 2, st := [(2, .m)] }).home = .he 2 ∧
     (of5 { Line.fresh with home := .he 2, st := [(2, .m)] }).quiet = true) ∧
    (∀ g ∈ [Moesi.m, .e, .s], let s := lineAt { Line.fresh with msgs := [.data 2 g] }
     (s.line 5).msgs = [.data 2 g] ∧ (s.line 5).queue = [] ∧ s.arrives 5 (.data 2 g) = true ∧ s.agentDead 2 = false ∧
     s.lineErrAt (s.physAttr (5 * 64)) (5 * 64) false false true = .fine) ∧
    (∀ b : Bool, let v := of5 { Line.fresh with msgs := [.bisnp b false] }; .bisnp b false ∈ v.msgs) ∧
    (∀ b : Bool, let v := of5 { Line.fresh with msgs := [.bisnp b true] }
     v.msgs = [.bisnp b true] ∧ v.queue = [] ∧ v.txn = none ∧ .bisnp b true ∈ v.msgs) ∧
    (∀ b : Bool, ∀ x ∈ [{ txn0 .rdx [] (some 2) with recalled := true }, { txn0 .rdx [2] none with recalled := true },
        txn0 .rdx [2] none, txn0 .upg [2] none, txn0 .rds [] (some 2), txn0 .rdx [] (some 2), txn0 .upg [] (some 2)],
      let v := of5 { Line.fresh with home := .he 2, txn := some x, msgs := [.bisnp b true] }
      v.msgs = [.bisnp b true] ∧ v.queue = [] ∧ v.txn = some x ∧ x.leaving = false ∧ v.home = .he 2 ∧ x.a ≠ 2) ∧
    (let s := { State.reset with coh := { State.reset.coh with waking := [(47, 0)] } }; NMap.find s.coh.waking 47 = some 0) := by decide

/-- The same for the timeouts of probes (R388, R390). -/
theorem witness_HostSlicesAndDeathTimeouts :
    (∀ a ≤ 2, let x := { txn0 .rdx [a] none with due := [(a, 0)] }
     let s := lineAt { Line.fresh with txn := some x }
     (s.line 5).txn = some x ∧
     (x.acks ++ x.fwd.toList).find? (fun b => (NMap.find x.due b).any (fun d => decide (d ≤ s.wall))) = some a) := by decide

theorem witness_RegisterWritesAct :
    (({ Gang.zero with held := true } : Gang).held = true ∧ ({ Gang.zero with sfrozen := true } : Gang).sfrozen = true) ∧
    (64 : Word).getLsbD 6 = true ∧ State.reset.hbm.rateBusy = none ∧
    (let v : Word := 0x41F; v.toNat / 2 ^ 9 % 2 ^ 2 ≠ 3 ∧ bitOf v.toNat 8 = false) ∧
    (let v : Word := 0x11F; bitOf v.toNat 8 = true ∧ NMap.find State.reset.hbm.chMasked (v.toNat % 2 ^ 8) = none) := by decide

/-- Transaction 3 open towards device 9. -/
def xactAt (k : XKind) (len : Nat) : State :=
  { State.reset with cru := { State.reset.cru with xacts := [(3, ⟨k, 9, 0, 0, 0, len, 0⟩)] } }

set_option exponentiation.threshold 2100 in
theorem witness_RepliesAndDirectory :
    (∀ k ∈ [XKind.lookup, .read none, .stat, .reg 0],
      (NMap.find (xactAt k 16).cru.xacts 3).map (fun x => (x.dev, x.kind, x.off, x.len)) = some (9, k, 0, 16)) ∧
    (let s := { xactAt .stat 0 with wall := 2 ^ 26 }
     0 + 64 * min (max (s.csrGet 0x400).toNat 1024) (2 ^ 20) ≤ s.wall) ∧
    (State.reset.ctx 9).dead = false ∧ State.reset.dirFind 7 9 = none ∧ NSet.mem State.reset.cru.gone 9 = false ∧
    State.reset.cru.dir.find? (fun r => r.name == 7) = none ∧ (State.reset.node 0).st ≠ 2 ∧
    (let s := { State.reset with cru := { State.reset.cru with gone := [(9, true)], dir := [⟨7, 0, 0, [5], 0⟩] } }
     NSet.mem s.cru.gone 9 = true ∧ s.dirFind 7 9 = some (5, 0) ∧ NSet.mem s.cru.gone (5 % 2 ^ 18) = false) ∧
    (let b := (State.reset.csrGet 0x541).toNat + 64 * 0
     State.reset.backing b = .hbm ∧ (∀ i, i < 64 → inSlotWindow (b + i) = false)) ∧
    (let s := crucibleAt (.klease 0 3 1) (fun n => { n with depth := 1 })
     let n := s.node 0
     n.st = 2 ∧ n.size ≠ 0 ∧ 8 + 8 ≤ n.depth * n.size ∧ n.depth = 1 ∧ s.anc 0 1 = some 0 ∧ 8 < n.depth * n.size ∧ s.ingotsDead 0 n.size 8 (8 + 8) = false) := by decide

/-- The context of device 9 is in the cache and reads `c`; export 0 gives everybody the whole of memory. -/
def peer (c : Ctx) : State :=
  let s := ((State.reset.csrPut 0x531 1).writeCap 0 Cap.root).writeLE 0x10 8 3
  { s with net := { s.net with cached := [(9, true)], ctx := [(9, c)] } }

/-- A packet awaiting its acknowledgement. -/
def sentPacket : Packet := ⟨3, 0, 9, 0, 4, 0, 0, 0, 0, 0, []⟩

set_option maxRecDepth 20000 in
theorem witness_PacketsTransportAndExports :
    (let s := peer Ctx.zero
     NSet.mem s.net.cached 9 = true ∧ (s.ctx 9).dead = false ∧ (s.ctx 9).unacked = [] ∧ (s.ctx 9).expected = 0 ∧
     s.exportReady (s.mkPacket 1 0 9 0 0 0 0x1000 8 5 []) = true ∧ s.exportAt 9 0 0x1000 8 8 false = some 0x1000 ∧ (s.checkLines (s.physPieces 0x1000 8) false).2 = none ∧
     s.exportReady (s.mkPacket 3 0 9 0 0 0 0x1000 8 5 [1, 2, 3, 4, 5, 6, 7, 8]) = true ∧
     s.exportAt 9 0 0x1000 8 8 true = some 0x1000 ∧ s.backing 0x1000 = .hbm ∧
     (s.checkLines (s.physPieces 0x1000 8) true).2 = none ∧
     (∀ i, i < 8 → inSlotWindow (0x1000 + i) = false)) ∧
    (let s := copyAt (fun c => { c with kind := .rread 0x40 })
     (s.copy? 7).any (fun v => !v.stopped && !v.queued && v.fails.isNone && decide (0x40 - 0x40 + 8 ≤ v.len) && v.fresh v.ag.cell 0 8 &&
       offOf (s.dstSide v (s.runAt v 0) 8) == some 0x1000) = true) ∧
    (let s := peer { Ctx.zero with unacked := [sentPacket] }
     (s.ctx 9).unacked = [sentPacket] ∧ psnGe 4 sentPacket.psn = true ∧ psnGe ((4 + 2 ^ 24 - 1) % 2 ^ 24) sentPacket.psn = false ∧
     (s.ctx 9).unacked ≠ [] ∧ ({ s with net := { s.net with fports := [(0, 3)] } } : State).linksOpen = true ∧ s.net.txWait = [] ∧
     (let t := { s with wall := 2 ^ 40 }; (t.ctx 9).since + (t.csrGet 0x521).toNat ≤ t.wall)) ∧
    (let s := { State.reset with net := { State.reset.net with heldPkts := [⟨{ sentPacket with src := 9 }, 0, 0⟩] }, wall := 3761 }
     s.net.heldPkts = [⟨{ sentPacket with src := 9 }, 0, 0⟩] ∧ 0 + 3760 < s.wall) ∧
    (∀ h ∈ State.reset.net.heldPkts, h.pkt.src ≠ 9) ∧
    (let w : WaitPkt := ⟨{ sentPacket with src := 9 }, 0, some []⟩
     w.pieces.isSome ∧ w.pkt.exp / 2 ^ 18 % 2 ^ 16 = 0 ∧ w.pkt.exp / 2 ^ 18 % 2 ^ 16 ≠ 1 ∧ w.pkt.src ≠ 8) ∧
    ((peer { Ctx.zero with rnrUntil := some 0 }).ctx 9).rnrUntil = some 0 ∧ State.reset.net.revoking = none ∧
    (let s := { State.reset with net := { State.reset.net with revoking := some (0, 4) }, wall := 5 }
     s.net.revoking = some (0, 4) ∧ 4 < s.wall ∧ s.backing ((s.csrGet 0x530).toNat + 0x10) = .hbm ∧
     (∀ j, j < 8 → inSlotWindow ((s.csrGet 0x530).toNat + 0x10 + j) = false)) := by decide

/-- The host has modified line 0x40 of that memory. -/
def hostHas : State := (peer Ctx.zero).setLine 0x40 { Line.fresh with st := [(2, .m)], home := .he 2 }

set_option maxRecDepth 20000 in
/-- R385, R415: an accepted read whose line the host has modified waits for the recall; then it is served. -/
theorem test_accepted_packet_waits_for_host :
    (let t := resState hostHas (execFliranRead 9 0 0 0 0x1000 8 5 hostHas)
     (t.ctx 9).expected = 1 ∧ t.pktWaits 9 = true ∧ t.appliedPsn 9 = 2 ^ 24 - 1 ∧ (t.line 0x40).txn.isSome ∧
     (let u := (t.setLine 0x40 Line.fresh).applyWaiting 9
      u.pktWaits 9 = false ∧ u.appliedPsn 9 = 0 ∧ (u.ctx 9).unacked.map (·.ty) = [2])) := by decide

/-! ### Witnesses: one step, encodings, memory -/

/-- Only steward 0 runs, at address 0, where the word `w` stands; step 7 of reset is over. -/
def alone (w : Nat) : State :=
  let s := memAt 0 w 4 { State.reset with boot := { State.reset.boot with step := 8 } }
  (s.setStew 1 { s.stew 1 with halt := true }).setStreamOf (stewSeq 0) { regs [] [] with pc := 0 }

set_option maxRecDepth 20000 in
theorem witness_StepRunsTheInstruction :
    (let s := alone 0b0101_0000001_000000000000000000000
     s.boot.powered = true ∧ 7 ≤ s.boot.step ∧ s.boot.step ≠ 9 ∧ s.opener = none ∧ s.gangIssuer = none ∧
     s.toPerform = none ∧ s.dueInput = none ∧ capCheck (s.streamOf (stewSeq 0)).pcc 0 4 1 [.ex] = none ∧ (s.streamOf (stewSeq 0)).word = none ∧ s.backing 0 ≠ .unbacked ∧
     (({ s with cur := stewSeq 0 } : State).checkLines [⟨0, 0, 4, s.physAttr 0⟩] false (stewSeq 0).cache).2 = none ∧
     capCheck Cap.null 0 4 1 [.ex] = some .tag ∧
     s.stewIssuer = some (stewSeq 0) ∧ (s.firstChange s.offersNow).isNone = true ∧
     (({ s with cur := stewSeq 0 } : State).fetchWord (stewSeq 0)).toOption = some 0b0101_0000001_000000000000000000000 ∧
     (decode (mapOf (stewSeq 0)) 0b0101_0000001_000000000000000000000).toOption = some (.nop 5)) ∧
    (decode (mapOf (stewSeq 0)) 0).isOk = false ∧
    (let s := State.reset.withPourWord .vec 0b0101_0000001_000000000000000000000
     s.boot.powered = true ∧ s.opener.or s.gangIssuer = some ⟨false, 0, 0, .vec⟩) := by decide

theorem witness_EncodeAndDecodeAgree :
    (Instr.nop 15).wf = true ∧ (encode (Instr.nop 15)).isSome = true ∧
    (decode .vec 0b0101_0001001_00011_00100_00101_000000).isOk = true := by decide

set_option maxRecDepth 40000 in
theorem witness_StepKeepsMemoryCanonical :
    (alone 1).memWf = true ∧ (match step (alone 1) with | .next _ => true | _ => false) = true := by decide

theorem witness_LatticeDecoding :
    Machine.Num.nan.isNan = true ∧ (0xFFFF : Nat) < 2 ^ (8 * 2) ∧ (0xFFFFFFFF : Nat) < 2 ^ (8 * 4) := by decide

end Sys2Proof.Tests
end

section
/-!
Reductions and scans (R71, R72, R253): what VR… and VSC… leave in their register, and that the balanced tree of integer
additions yields the plain sum.
-/
namespace Sys2Proof.Machine

/-! ### The shapes of reductions and scans -/

theorem RedOp.excludes_iff (o : RedOp) : o.excludes = true ↔ o = .max ∨ o = .min := by
  cases o <;> decide

/-- What enters position k of the tree: the lane, or where it is inactive nothing or the identity (R72). -/
def State.redInput (s : State) (o : RedOp) (a : VR) (p : PR) (k : Nat) : Option Lane :=
  if (s.active p).toNat.testBit k then some (laneOf (s.cell.rv a.toNat) k)
  else if o = .max ∨ o = .min then none else some o.unit

/-- Result and flags of a reduction. -/
def State.reduced (s : State) (o : RedOp) (a : VR) (p : PR) (r : BitVec 3) : Lane × FFlags :=
  o.tree (modeOf (vshRm s.cell.vsh) r.toNat) 6 ((List.range 64).map (s.redInput o a p)) 0

/-- Results and flags of a scan. -/
def State.scanned (s : State) (o : RedOp) (a : VR) (p : PR) (r : BitVec 3) : List Lane × FFlags :=
  o.scan (modeOf (vshRm s.cell.vsh) r.toNat) (s.active p) 0 (s.lanes a)
    (if o = .max ∨ o = .min then none else some o.unit)

theorem State.vreduce_eq (s : State) (o : RedOp) (d a : VR) (p : PR) (r : BitVec 3) :
    s.vreduce o d a p r = s.vwrite 8 d (BitVec.allOnes 64)
      ((List.range 64).map (fun _ => (s.reduced o a p r).1), (s.reduced o a p r).2) := by
  have hin : (List.range 64).map (fun k => if (s.active p).toNat.testBit k then some ((s.lanes a).getD k 0)
      else if o.excludes then none else some o.unit) = (List.range 64).map (s.redInput o a p) := by
    refine List.map_congr_left fun k hk => ?_
    simp only [State.redInput, s.lanes_getD a (List.mem_range.1 hk), RedOp.excludes_iff]
  rw [State.vreduce, hin]
  rfl

/-- A reduction puts its result in all 64 lanes on g + 8 (R253). -/
theorem vreduce_completes {i : Instr} {s : State} {o : RedOp} {d a : VR} {p : PR} {r : BitVec 3}
    (h : exec i s = s.vreduce o d a p r) :
    VecCompletes i s 8 d.toNat (BitVec.allOnes 64) (fun _ => (s.reduced o a p r).1) (s.reduced o a p r).2 := by
  rw [State.vreduce_eq] at h
  exact vwrite_completes h fun k hk _ => by
    simp only [List.getD_eq_getElem?_getD, List.getElem?_map, List.getElem?_range hk, Option.map_some, Option.getD_some]

/-- A scan puts the running combination in the active lanes on g + 10 (R253). -/
theorem vscan_completes {i : Instr} {s : State} {o : RedOp} {d a : VR} {p : PR} {r : BitVec 3}
    (h : exec i s = s.vscan o d a p r) :
    VecCompletes i s 10 d.toNat (s.active p) (fun k => (s.scanned o a p r).1.getD k 0) (s.scanned o a p r).2 := by
  have hv : s.vscan o d a p r = s.vwrite 10 d (s.active p) (s.scanned o a p r) := by
    simp only [State.vscan, State.scanned, RedOp.excludes_iff]
  exact vwrite_completes (h.trans hv) fun _ _ _ => rfl

/-! ### The tree of integer additions -/

@[simp] theorem RedOp.pair_isum_some (m : RMode) (x y : Lane) :
    RedOp.isum.pair m (some x) (some y) = (some (x + y), 0) := rfl

/-- One level of integer additions halves the number of operands and keeps their sum. -/
theorem RedOp.level_isum (m : RMode) (k : Nat) (l : List Lane) (hl : l.length = 2 * k) :
    ∃ h : List Lane, h.length = k ∧ h.sum = l.sum ∧ RedOp.isum.level m (l.map some) = (h.map some, 0) := by
  induction k generalizing l with
  | zero =>
    obtain rfl : l = [] := List.length_eq_zero_iff.1 hl
    exact ⟨[], rfl, rfl, rfl⟩
  | succ k ih =>
    match l, hl with
    | x :: y :: l, hl =>
      obtain ⟨h, hlen, hsum, hlev⟩ := ih l (by simp only [List.length_cons] at hl; omega)
      refine ⟨(x + y) :: h, by simp [hlen], by simp [hsum, BitVec.add_assoc], ?_⟩
      simp [RedOp.level, hlev]

/-- The balanced tree of integer additions over 2^n operands yields their sum, whatever its order (R253). -/
theorem RedOp.tree_isum (m : RMode) (n : Nat) (l : List Lane) (hl : l.length = 2 ^ n) (f : FFlags) :
    RedOp.isum.tree m n (l.map some) f = (l.sum, f) := by
  induction n generalizing l with
  | zero =>
    obtain ⟨x, rfl⟩ := List.length_eq_one_iff.1 hl
    simp [RedOp.tree]
  | succ n ih =>
    obtain ⟨h, hlen, hsum, hlev⟩ := RedOp.level_isum m (2 ^ n) l (by rw [hl, Nat.pow_succ, Nat.mul_comm])
    simp [RedOp.tree, hlev, ih h hlen, hsum]

/-- A sum of words in which some positions stand as 0 is the sum of the others' values modulo 2^w. -/
theorem sum_map_ite_eq_ofNat {w : Nat} (q : Nat → Bool) (x : Nat → BitVec w) (ks : List Nat) :
    (ks.map (fun k => if q k then x k else 0#w)).sum = BitVec.ofNat w ((ks.filter q).map (fun k => (x k).toNat)).sum := by
  induction ks with
  | nil => rfl
  | cons k ks ih => by_cases hk : q k <;> simp [hk, ih, BitVec.ofNat_add]

/-- The integer sum reduction: the sum of the active lanes modulo 2^32, and no flag (R253). -/
theorem State.reduced_isum (s : State) (a : VR) (p : PR) (r : BitVec 3) :
    s.reduced .isum a p r = (BitVec.ofNat 32 (((List.range 64).filter (fun k => (s.active p).toNat.testBit k)).map
      (fun k => (laneOf (s.cell.rv a.toNat) k).toNat)).sum, 0) := by
  have hin : (List.range 64).map (s.redInput .isum a p) = ((List.range 64).map (fun k =>
      if (s.active p).toNat.testBit k then laneOf (s.cell.rv a.toNat) k else 0#32)).map some := by
    rw [List.map_map]
    refine List.map_congr_left fun k _ => ?_
    by_cases hk : (s.active p).toNat.testBit k <;> simp [State.redInput, RedOp.unit, hk]
  rw [State.reduced, hin, RedOp.tree_isum _ 6 _ (by simp), sum_map_ite_eq_ofNat]

/-- Settles O19: each instruction is the shape of its operation; the integer sum is that of the tree of additions. -/
theorem vectorReductions : Obligations.VectorReductions := by
  unfold Obligations.VectorReductions
  refine ⟨fun s g d a p r => ⟨?reductions, ?scans⟩, fun s g d a p r => ?sum⟩
  case reductions =>
    simp only [List.forall_mem_cons]
    exact ⟨vreduce_completes rfl, vreduce_completes rfl, vreduce_completes rfl, vreduce_completes rfl,
      vreduce_completes rfl, vreduce_completes rfl, by simp⟩
  case scans =>
    simp only [List.forall_mem_cons]
    exact ⟨vscan_completes rfl, vscan_completes rfl, vscan_completes rfl, vscan_completes rfl,
      vscan_completes rfl, vscan_completes rfl, by simp⟩
  case sum =>
    have h := vreduce_completes (show exec (.vrisum g d a p r) s = s.vreduce .isum d a p r from rfl)
    rwa [State.reduced_isum] at h

end Sys2Proof.Machine
end

section
/-!
The matrix engine (R276 to R280, R285, R286, R405): a tile operation whose checks pass, its faults, and the moves of
block scales.
-/
namespace Sys2Proof.Machine

/-! ### One effect beside a change of the issuing cell -/

/-- A change of the issuing cell that keeps its streams keeps the issuing stream. -/
theorem State.me_setCell {s : State} {c : Cell} (hc : c.streams = s.cell.streams) : (s.setCell c).me = s.me := by
  have hcell : (s.setCell c).cellOf s.cur = c := s.cellOf_setCellOf_self s.cur c
  have hcur : (s.setCell c).cur = s.cur := s.cur_setCellOf s.cur c
  rw [State.me, State.streamOf, hcur, hcell, Cell.stream, hc]
  rfl

/-- An instruction that changes its cell at issue and places one effect. -/
theorem completesFrom_setCell {i : Instr} {s : State} {c : Cell} {lat : Nat} {act : Act}
    (h : exec i s = .next ((s.setCell c).sched lat act).advance) (hc : c.streams = s.cell.streams) :
    CompletesFrom i s (s.setCell c) [(lat, act)] :=
  ⟨_, h, State.me_setCell hc ▸ issued_one (s.setCell c) lat act⟩

/-! ### Tile operations -/

theorem etLattice_iff (f : Nat) : etLattice f = true ↔ f = 8 ∨ f = 9 := by simp [etLattice]

/-- Slots, scales, engine and accumulator are ready for a tile operation (checks 4 to 7 of R286). -/
def State.mmaFree (s : State) (a : BitVec 3) (oa ob : BitVec 4) : Prop :=
  NSet.mem s.cell.claims oa.toNat = true ∧ NSet.mem s.cell.claims ob.toNat = true ∧
  mmaEntries s.cell.msh ≤ s.cell.bound.length ∧
  linePending s.cell.linePend oa.toNat (16 * mshBm s.cell.msh) s.now = false ∧
  linePending s.cell.linePend ob.toNat (16 * mshBn s.cell.msh) s.now = false ∧
  spanAt s.cell.ports 1 s.now = false ∧ spanAt s.cell.accRead a.toNat s.now = false

/-- The memory error of the operand lines of a tile operation (R405). -/
def State.mmaError (s : State) (oa ob : BitVec 4) : Option Flt :=
  s.cell.wordFault (slotWords oa.toNat (16 * mshBm s.cell.msh) ++ slotWords ob.toNat (16 * mshBn s.cell.msh))

/-- A limit of the mask register: `x0` masks nothing (R277). -/
def maskLimit (xm : XR) (v n : Nat) : Nat := if xm = 0 then n else if v < n then v else n

/-- What a tile operation samples (R277, R278). -/
def State.mmaTile (s : State) (a : BitVec 3) (oa ob : BitVec 4) (xm : XR) (z : BitVec 1) : Tile :=
  let w := s.cell.msh
  let mk := (s.rx xm).toNat
  { acc := a.toNat, msh := w, flush := s.cell.mmode.toNat.testBit 3, zr := decide (z = 1),
    rows := maskLimit xm (bits mk 7 0) (16 * mshBm w), cols := maskLimit xm (bits mk 15 8) (16 * mshBn w),
    depth := maskLimit xm (bits mk 25 16) (mshDepth w * mshBk w),
    a := s.cell.slotLines oa.toNat (16 * mshBm w), b := s.cell.slotLines ob.toNat (16 * mshBn w),
    scales := s.cell.bound.take (mmaEntries w) }

/-- The cell once a tile operation has issued: its scales are taken, engine, slots and accumulator are busy (R285). -/
def State.mmaCell (s : State) (a : BitVec 3) (oa ob : BitVec 4) : Cell :=
  let c := s.cell
  let t := mmaCycles c.msh
  let hold (l : List Busy) (o : Nat) : List Busy := spanAdd l s.now ⟨o, s.now, s.now + t - 1⟩
  { c with
    bound := c.bound.drop (mmaEntries c.msh)
    ports := spanAdd c.ports s.now ⟨1, s.now, s.now + t - 1⟩
    slotHold := hold (hold c.slotHold oa.toNat) ob.toNat
    accPend := spanAdd c.accPend s.now ⟨a.toNat, s.now, s.now + t + 7⟩ }

theorem maskLimit_eq (xm : XR) (v n : Nat) : (if xm == 0 then n else min v n) = maskLimit xm v n := by
  have hmin : min v n = if v < n then v else n := by split <;> omega
  simp only [maskLimit, hmin, beq_iff_eq]

section
variable {i : Instr} {s : State} {lat : Bool} {a : BitVec 3} {oa ob : BitVec 4} {xm : XR} {z : BitVec 1}

/-- A tile operation whose operands pass every check but that of their lines' errors. -/
theorem State.mma_of_free (hfmt : etLattice (mshAf s.cell.msh) = lat) (hfree : s.mmaFree a oa ob) :
    (s.mmaError oa ob = none → s.mma i lat a oa ob xm z = ((s.setCell (s.mmaCell a oa ob)).sched
      (mmaCycles s.cell.msh + 8) (.mma (s.mmaTile a oa ob xm z))).advance) ∧
    (∀ f, s.mmaError oa ob = some f → s.mma i lat a oa ob xm z = s.raise f) := by
  obtain ⟨ha, hb, hneed, hpa, hpb, hport, hacc⟩ := hfree
  unfold State.mma State.mmaError
  simp only [hfmt, ha, hb, Nat.not_lt.2 hneed, hpa, hpb, hport, hacc, maskLimit_eq, ne_eq, not_true_eq_false, if_false,
    Bool.true_eq_false, Bool.false_eq_true, or_self]
  constructor
  · intro he
    rw [he]
    rfl
  · intro f he
    rw [he]

/-- With a fit format, free operands and no error the tile performs T + 8 cycles later (R278). -/
theorem mma_completesFrom (hi : exec i s = .next (s.mma i lat a oa ob xm z))
    (hfmt : etLattice (mshAf s.cell.msh) = lat) (hfree : s.mmaFree a oa ob) (he : s.mmaError oa ob = none) :
    CompletesFrom i s (s.setCell (s.mmaCell a oa ob))
      [(mmaCycles s.cell.msh + 8, .mma (s.mmaTile a oa ob xm z))] := by
  rw [(State.mma_of_free hfmt hfree).1 he] at hi
  exact completesFrom_setCell hi rfl

/-- An operand line with an uncorrectable error is a memory error (R405). -/
theorem mma_faults_memory (hi : exec i s = .next (s.mma i lat a oa ob xm z))
    (hfmt : etLattice (mshAf s.cell.msh) = lat) (hfree : s.mmaFree a oa ob) {f : Flt} (he : s.mmaError oa ob = some f) :
    Faults i s f := by
  rw [(State.mma_of_free hfmt hfree).2 f he] at hi
  exact hi

/-- A format that does not fit the instruction is an illegal shape (R277). -/
theorem mma_faults_format (hi : exec i s = .next (s.mma i lat a oa ob xm z))
    (hfmt : etLattice (mshAf s.cell.msh) ≠ lat) :
    ∃ f, f.cause = 2 ∧ f.faux = mshAf s.cell.msh ∧ Faults i s f := by
  rw [State.mma, if_pos hfmt] at hi
  exact ⟨_, rfl, rfl, hi⟩

/-- An operand A that is not claimed (check 4 of R286). -/
theorem mma_faults_unclaimed (hi : exec i s = .next (s.mma i lat a oa ob xm z))
    (hfmt : etLattice (mshAf s.cell.msh) = lat) (ha : NSet.mem s.cell.claims oa.toNat = false) :
    Faults i s (timeFlt .unclaimed oa.toNat s.cur.cell) := by
  rw [State.mma, if_neg (fun hne => hne hfmt), if_pos ha] at hi
  exact hi

end

/-! ### MZERO (R280, R286) -/

theorem mzero_faults_busy (s : State) (g : BitVec 4) (a : BitVec 3)
    (h : spanAt s.cell.accRead a.toNat s.now = true ∨ spanAt s.cell.accPend a.toNat s.now = true) :
    Faults (.mzero g a) s (timeFlt .busy a.toNat s.cur.cell) := by
  change execMzero g a s = _
  rw [execMzero, if_pos h]
  rfl

theorem mzero_completesFrom (s : State) (g : BitVec 4) (a : BitVec 3)
    (hr : spanAt s.cell.accRead a.toNat s.now = false) (hp : spanAt s.cell.accPend a.toNat s.now = false) :
    CompletesFrom (.mzero g a) s
      (s.setCell { s.cell with accPend := spanAdd s.cell.accPend s.now ⟨a.toNat, s.now, s.now⟩ })
      [(1, .mzero a.toNat)] := by
  refine completesFrom_setCell ?_ rfl
  change execMzero g a s = _
  rw [execMzero, if_neg (by simp [hr, hp])]

/-! ### MSCALE (R276, R63) -/

section
variable {s : State} {g : BitVec 4} {n : BitVec 7}

theorem mscale_illegal (h : n.toNat = 0 ∨ 64 < n.toNat) :
    ∃ f, f.cause = 1 ∧ f.sub = 1 ∧ Faults (.mscale g n) s f := by
  have hill : exec (.mscale g n) s = .next (s.illegal (.mscale g n) 1) := by
    change execMscale g n s = _
    rw [execMscale, if_pos h]
  exact ⟨_, rfl, rfl, hill⟩

/-- MSCALE of a legal count: too few entries, then one not landed, then too many bound; else the entries move. -/
theorem execMscale_of_legal (h1 : 1 ≤ n.toNat) (h2 : n.toNat ≤ 64) :
    exec (.mscale g n) s = .next (
      if s.cell.scaleQ.length < n.toNat then s.raise (queueFlt 0 n.toNat s.cell.scaleQ.length)
      else if (s.cell.scaleQ.take n.toNat).any (fun e => !e.landed) then
        s.raise (queueFlt 1 n.toNat ((s.cell.scaleQ.take n.toNat).filter (·.landed)).length)
      else if 64 < s.cell.bound.length + n.toNat then s.raise (queueFlt 2 n.toNat s.cell.bound.length)
      else (s.sched 1 (.scaleMove n.toNat)).advance) := by
  change execMscale g n s = _
  rw [execMscale, if_neg (by omega)]

/-- Some entry that MSCALE takes has not landed. -/
theorem any_not_landed_iff (l : List ScaleE) :
    l.any (fun e => !e.landed) = true ↔ ¬ ∀ e ∈ l, e.landed = true := by simp

theorem mscale_faults_short (h1 : 1 ≤ n.toNat) (h2 : n.toNat ≤ 64) (hq : s.cell.scaleQ.length < n.toNat) :
    Faults (.mscale g n) s (queueFlt 0 n.toNat s.cell.scaleQ.length) := by
  rw [Faults, execMscale_of_legal h1 h2, if_pos hq]

theorem mscale_faults_notLanded (h1 : 1 ≤ n.toNat) (h2 : n.toNat ≤ 64) (hq : n.toNat ≤ s.cell.scaleQ.length)
    (hl : ¬ ∀ e ∈ s.cell.scaleQ.take n.toNat, e.landed = true) :
    Faults (.mscale g n) s (queueFlt 1 n.toNat ((s.cell.scaleQ.take n.toNat).filter (·.landed)).length) := by
  rw [Faults, execMscale_of_legal h1 h2, if_neg (Nat.not_lt.2 hq), if_pos ((any_not_landed_iff _).2 hl)]

/-- What MSCALE does once its entries have landed depends on the room in the bound set alone. -/
theorem execMscale_of_landed (h1 : 1 ≤ n.toNat) (h2 : n.toNat ≤ 64) (hq : n.toNat ≤ s.cell.scaleQ.length)
    (hl : ∀ e ∈ s.cell.scaleQ.take n.toNat, e.landed = true) :
    exec (.mscale g n) s = .next (
      if 64 < s.cell.bound.length + n.toNat then s.raise (queueFlt 2 n.toNat s.cell.bound.length)
      else (s.sched 1 (.scaleMove n.toNat)).advance) := by
  rw [execMscale_of_legal h1 h2, if_neg (Nat.not_lt.2 hq), if_neg fun h => (any_not_landed_iff _).1 h hl]

theorem mscale_faults_full (h1 : 1 ≤ n.toNat) (h2 : n.toNat ≤ 64) (hq : n.toNat ≤ s.cell.scaleQ.length)
    (hl : ∀ e ∈ s.cell.scaleQ.take n.toNat, e.landed = true) (hb : 64 < s.cell.bound.length + n.toNat) :
    Faults (.mscale g n) s (queueFlt 2 n.toNat s.cell.bound.length) := by
  rw [Faults, execMscale_of_landed h1 h2 hq hl, if_pos hb]

theorem mscale_completes (h1 : 1 ≤ n.toNat) (h2 : n.toNat ≤ 64) (hq : n.toNat ≤ s.cell.scaleQ.length)
    (hl : ∀ e ∈ s.cell.scaleQ.take n.toNat, e.landed = true) (hb : s.cell.bound.length + n.toNat ≤ 64) :
    Completes (.mscale g n) s [(1, .scaleMove n.toNat)] := by
  refine ⟨_, ?_, issued_one s 1 _⟩
  rw [execMscale_of_landed h1 h2 hq hl, if_neg (Nat.not_lt.2 hb)]

end

/-- Settles O24: the tile operations by their shared shape, MZERO and MSCALE by their cases. -/
theorem matrixMultiply : Obligations.MatrixMultiply := by
  unfold Obligations.MatrixMultiply
  refine ⟨fun s g a oa ob xm z => ?tile, fun s g n => ?scale⟩
  case tile =>
    have hmma : exec (.mma g a oa ob xm z) s = .next (s.mma (.mma g a oa ob xm z) false a oa ob xm z) := rfl
    have hmmal : exec (.mmal g a oa ob xm z) s = .next (s.mma (.mmal g a oa ob xm z) true a oa ob xm z) := rfl
    have hplain : ¬ (mshAf s.cell.msh = 8 ∨ mshAf s.cell.msh = 9) → etLattice (mshAf s.cell.msh) = false :=
      fun h => Bool.eq_false_iff.2 fun e => h ((etLattice_iff _).1 e)
    have hlat : mshAf s.cell.msh = 8 ∨ mshAf s.cell.msh = 9 → etLattice (mshAf s.cell.msh) = true := (etLattice_iff _).2
    refine ⟨fun hf hfree he => mma_completesFrom hmma (hplain hf) hfree he,
      fun hf hfree he => mma_completesFrom hmmal (hlat hf) hfree he,
      fun hf => mma_faults_format hmma (by simp [hlat hf]),
      fun hf => mma_faults_format hmmal (by simp [hplain hf]), ?_,
      mzero_faults_busy s g a, mzero_completesFrom s g a⟩
    simp only [List.forall_mem_cons]
    exact ⟨fun hf => ⟨mma_faults_unclaimed hmma (hplain hf), fun hfree _ he => mma_faults_memory hmma (hplain hf) hfree he⟩,
      fun hf => ⟨mma_faults_unclaimed hmmal (hlat hf), fun hfree _ he => mma_faults_memory hmmal (hlat hf) hfree he⟩,
      by simp⟩
  case scale =>
    exact ⟨mscale_illegal, fun h1 h2 =>
      ⟨fun hq => ⟨_, rfl, rfl, mscale_faults_short h1 h2 hq⟩,
        fun hq hl => ⟨_, rfl, rfl, mscale_faults_notLanded h1 h2 hq hl⟩,
        fun hq hl hb => ⟨_, rfl, rfl, mscale_faults_full h1 h2 hq hl hb⟩,
        fun hq hl hb => mscale_completes h1 h2 hq hl hb⟩⟩

end Sys2Proof.Machine
end

section
/-!
The Lattice-8 decoder (R77 to R79): the fields of a codeword, the parity that gives bit 0 of n_7, the encoder as the
inverse of the decoder, and the eight exact values.
-/
namespace Sys2Proof.Machine

/-! ### Two's complement values -/

/-- The two's complement value of the low n bits is the number itself modulo 2^n. -/
theorem sx_emod (n v : Nat) : sx n v % (2 ^ n : Nat) = (v % 2 ^ n : Nat) := by
  simp only [sx]
  split
  · next h0 => rw [h0, Nat.pow_zero, Nat.mod_one]; rfl
  · split
    · rw [Int.sub_emod_right, ← Int.natCast_emod, Nat.mod_mod]
    · rw [← Int.natCast_emod, Nat.mod_mod]

/-- Keeping n bits of the two's complement value gives back those bits. -/
theorem wrap_sx (n v : Nat) : wrap n (sx n v) = v % 2 ^ n := by
  rw [wrap, sx_emod, Int.toNat_natCast]

/-- A two's complement value has the parity of its bits. -/
theorem sx_emod_two {n : Nat} (hn : n ≠ 0) (v : Nat) : sx n v % 2 = (v % 2 : Nat) := by
  have hd : 2 ∣ 2 ^ n := Nat.pow_dvd_pow 2 (Nat.one_le_iff_ne_zero.2 hn)
  calc sx n v % 2 = sx n v % (2 ^ n : Nat) % 2 := (Int.emod_emod_of_dvd _ (Int.natCast_dvd_natCast.2 hd)).symm
    _ = (v % 2 ^ n % 2 : Nat) := by rw [sx_emod]; rfl
    _ = (v % 2 : Nat) := by rw [Nat.mod_mod_of_dvd v hd]

/-- Sums whose terms agree in parity agree in parity. -/
theorem sum_map_emod_two (f : Nat → Int) (g : Nat → Nat) (h : ∀ j, f j % 2 = (g j % 2 : Nat)) (l : List Nat) :
    (l.map f).sum % 2 = ((l.map g).sum % 2 : Nat) := by
  induction l with
  | nil => rfl
  | cons j l ih =>
    have hj := h j
    rw [List.map_cons, List.map_cons, List.sum_cons, List.sum_cons]
    omega

/-! ### The fields of a codeword -/

/-- Bits of a coordinate. -/
def coordBits (wide : LFmt) : Nat := if wide then 4 else 2

/-- The stored field of n_j for j below 7 (R77, R78). -/
def cwField (wide : LFmt) (w j : Nat) : Nat := w / 2 ^ (coordBits wide * j) % 2 ^ coordBits wide

/-- The stored upper bits of n_7. -/
def cwLast (wide : LFmt) (w : Nat) : Nat := w / 2 ^ (7 * coordBits wide) % 2 ^ (coordBits wide - 1)

theorem coordBits_ne_zero (wide : LFmt) : coordBits wide ≠ 0 := by cases wide <;> decide

theorem parityN_succ_toNat (n v : Nat) : (parityN (n + 1) v).toNat = (v % 2 + (parityN n (v / 2)).toNat) % 2 := by
  rw [parityN]
  rcases Nat.mod_two_eq_zero_or_one v with h | h <;> cases parityN n (v / 2) <;> simp [h]

/-- The parity under a mask is that of the sum of the bits the mask selects. -/
theorem parityN_and (n w m : Nat) :
    (parityN n (w &&& m)).toNat = (((List.range n).filter m.testBit).map (fun i => w / 2 ^ i % 2)).sum % 2 := by
  induction n generalizing w m with
  | zero => rfl
  | succ n ih =>
    have hshift : (((List.range n).map Nat.succ).filter m.testBit).map (fun i => w / 2 ^ i % 2) =
        ((List.range n).filter (m / 2).testBit).map (fun i => w / 2 / 2 ^ i % 2) := by
      rw [List.filter_map, List.map_map]
      congr 1
      · funext i
        simp [Nat.pow_succ', Nat.div_div_eq_div_mul]
      · congr 1
        funext i
        simp [Nat.testBit_succ]
    have hbit : (w &&& m) % 2 = if m.testBit 0 then w % 2 else 0 := by
      rw [← Nat.pow_one 2, Nat.and_mod_two_pow, Nat.testBit_zero]
      rcases Nat.mod_two_eq_zero_or_one m with h | h <;> simp [h]
    rw [parityN_succ_toNat, Nat.and_div_two, ih, hbit, List.range_succ_eq_map, List.filter_cons, ← hshift]
    split <;> simp

/-- Bit 0 of n_7 is the parity of the low bits of n_0 to n_6 (R77, R78). -/
theorem lowParity_eq (wide : LFmt) (w : Nat) :
    lowParity wide w = ((List.range 7).map (fun j => w / 2 ^ (coordBits wide * j) % 2)).sum % 2 := by
  have hmask : (List.range 32).filter (Nat.testBit (if wide then 0x01111111 else 0x1555)) =
      (List.range 7).map (coordBits wide * ·) := by cases wide <;> decide
  have h := parityN_and 32 w (if wide then 0x01111111 else 0x1555)
  rw [hmask, List.map_map] at h
  exact (Bool.cond_eq_ite _ _ _).symm.trans h

theorem cwCoords_eq (wide : LFmt) (w : Nat) :
    cwCoords wide w = (List.range 7).map (fun j => sx (coordBits wide) (cwField wide w j)) ++
      [sx (coordBits wide) (cwLast wide w * 2 + lowParity wide w)] := by
  cases wide <;> simp [cwCoords, cwField, cwLast, coordBits, bits, Nat.add_assoc]

theorem cwCoset_eq (wide : LFmt) (w : Nat) : cwCoset wide w = w / 2 ^ (8 * coordBits wide - 1) % 2 := by
  cases wide <;> rfl

@[simp] theorem cwCoords_length (wide : LFmt) (w : Nat) : (cwCoords wide w).length = 8 := by
  rw [cwCoords_eq]
  rfl

theorem cwCoords_getD (wide : LFmt) (w : Nat) {j : Nat} (hj : j < 7) :
    (cwCoords wide w).getD j 0 = sx (coordBits wide) (cwField wide w j) := by
  rw [cwCoords_eq, List.getD_eq_getElem?_getD, List.getElem?_append_left (by rwa [List.length_map, List.length_range]),
    List.getElem?_map, List.getElem?_range hj]
  rfl

theorem cwCoords_getD_seven (wide : LFmt) (w : Nat) :
    (cwCoords wide w).getD 7 0 = sx (coordBits wide) (cwLast wide w * 2 + lowParity wide w) := by
  rw [cwCoords_eq]
  rfl

/-! ### Parity and the encoder -/

/-- A field of n_0 to n_6 has the parity of its low bit. -/
theorem sx_cwField_emod_two (wide : LFmt) (w j : Nat) :
    sx (coordBits wide) (cwField wide w j) % 2 = (w / 2 ^ (coordBits wide * j) % 2 % 2 : Nat) := by
  have hk := coordBits_ne_zero wide
  rw [sx_emod_two hk, cwField, Nat.mod_mod_of_dvd _ (Nat.pow_dvd_pow 2 (Nat.one_le_iff_ne_zero.2 hk)), Nat.mod_mod]

/-- The integers of a codeword have an even sum: bit 0 of n_7 repeats the parity of the others (R77, R78). -/
theorem cwCoords_sum_even (wide : LFmt) (w : Nat) : (cwCoords wide w).sum % 2 = 0 := by
  have hlow := sum_map_emod_two _ _ (sx_cwField_emod_two wide w) (List.range 7)
  have hlast := sx_emod_two (coordBits_ne_zero wide) (cwLast wide w * 2 + lowParity wide w)
  rw [← lowParity_eq] at hlow
  rw [cwCoords_eq, List.sum_append, List.sum_singleton]
  omega

/-- The digits of w in base 2^k up to position m spell w modulo 2^(k·m). -/
theorem foldl_digits {k w : Nat} {digit : Nat → Nat} (m : Nat)
    (h : ∀ j, j < m → digit j = w / 2 ^ (k * j) % 2 ^ k) :
    (List.range m).foldl (fun a j => a + digit j * 2 ^ (k * j)) 0 = w % 2 ^ (k * m) := by
  induction m with
  | zero => rw [Nat.mul_zero, Nat.pow_zero, Nat.mod_one]; rfl
  | succ m ih =>
    rw [List.range_succ, List.foldl_append, ih fun j hj => h j (Nat.lt_succ_of_lt hj), Nat.mul_succ, Nat.pow_add,
      Nat.mod_mul, Nat.mul_comm (2 ^ (k * m)), ← h m (Nat.lt_succ_self m)]
    rfl

/-- The encoder gives back the codeword from its integers and its coset. -/
theorem encE8_cwCoords (wide : LFmt) {w : Nat} (hw : w < 2 ^ (8 * coordBits wide)) :
    encE8 wide (cwCoords wide w) (cwCoset wide w) = w := by
  generalize hk : coordBits wide = k at hw
  have hpos : k ≠ 0 := hk ▸ coordBits_ne_zero wide
  have hlow : (List.range 7).foldl (fun a j => a + wrap k ((cwCoords wide w).getD j 0) * 2 ^ (k * j)) 0 =
      w % 2 ^ (7 * k) := by
    rw [Nat.mul_comm 7]
    refine foldl_digits 7 fun j hj => ?_
    rw [cwCoords_getD wide w hj, hk, wrap_sx, cwField, hk, Nat.mod_mod]
  have hlast : wrap k ((cwCoords wide w).getD 7 0) / 2 = w / 2 ^ (7 * k) % 2 ^ (k - 1) := by
    have hlt : cwLast wide w < 2 ^ (k - 1) := hk ▸ Nat.mod_lt _ (Nat.two_pow_pos _)
    have hp : lowParity wide w < 2 := lowParity_eq wide w ▸ Nat.mod_lt _ Nat.two_pos
    have htwo : 2 ^ k = 2 ^ (k - 1) * 2 := (Nat.pow_pred_mul (Nat.pos_of_ne_zero hpos)).symm
    rw [cwCoords_getD_seven, hk, wrap_sx, Nat.mod_eq_of_lt (by omega), ← hk, ← cwLast]
    omega
  calc encE8 wide (cwCoords wide w) (cwCoset wide w)
      = w % 2 ^ (7 * k) + w / 2 ^ (7 * k) % 2 ^ (k - 1) * 2 ^ (7 * k) + w / 2 ^ (8 * k - 1) % 2 * 2 ^ (8 * k - 1) := by
        rw [← hlow, ← hlast, ← hk, ← cwCoset_eq]; rfl
    _ = w % 2 ^ (8 * k - 1) + w / 2 ^ (8 * k - 1) % 2 * 2 ^ (8 * k - 1) := by
        rw [show 8 * k - 1 = 7 * k + (k - 1) by omega, Nat.pow_add, Nat.mod_mul, Nat.mul_comm (_ % 2 ^ (k - 1))]
    _ = w % 2 ^ (8 * k) := by
        have htop : 2 ^ (8 * k) = 2 ^ (8 * k - 1) * 2 := (Nat.pow_pred_mul (by omega)).symm
        rw [htop, Nat.mod_mul, Nat.mul_comm (w / _ % 2)]
    _ = w := Nat.mod_eq_of_lt hw

/-- No two codewords have the same integers and coset: the encoder tells them apart. -/
theorem cwCoords_cwCoset_injective (wide : LFmt) {w v : Nat} (hw : w < 2 ^ (8 * coordBits wide))
    (hv : v < 2 ^ (8 * coordBits wide)) (hn : cwCoords wide v = cwCoords wide w)
    (hc : cwCoset wide v = cwCoset wide w) : v = w := by
  rw [← encE8_cwCoords wide hv, hn, hc, encE8_cwCoords wide hw]

/-! ### The exact values -/

theorem Num.mul_isNan_right (a : Num) {s : Num} (hs : s.isNan = true) : (a.mul s).1.isNan = true := by
  cases s with
  | nan => cases a <;> rfl
  | inf _ | fin _ _ _ => cases hs

/-- The sign of a product is the difference of the signs. -/
theorem signed_mul (s t : Bool) (m n : Nat) :
    (if s != t then -((m * n : Nat) : Int) else (m * n : Nat)) =
      (if s then -(m : Int) else m) * (if t then -(n : Int) else n) := by
  rw [Int.natCast_mul]
  cases s <;> cases t
  case false.false => rfl
  case false.true => exact (Int.mul_neg _ _).symm
  case true.false => exact (Int.neg_mul _ _).symm
  case true.true => exact (Int.neg_mul_neg _ _).symm

theorem signed_natAbs (v : Int) : (if decide (v < 0) then -(v.natAbs : Int) else v.natAbs) = v := by
  simp only [decide_eq_true_eq]
  split <;> omega

/-- The exact product of v / 2 and a finite scale (R68). -/
theorem Num.half_mul_fin (v : Int) (neg : Bool) (m : Nat) (x : Int) :
    ((Num.fin (decide (v < 0)) v.natAbs (-1)).mul (.fin neg m x)).1 =
      .fin (decide (v < 0) != neg) (v.natAbs * m) (x - 1) := by
  rw [Num.mul, Int.sub_eq_add_neg, Int.add_comm]

@[simp] theorem decE8_length (wide : LFmt) (w : Nat) (s : Num) : (decE8 wide w s).length = 8 := by
  rw [decE8, List.length_map, cwCoords_length]

/-- Lane j of a decoded codeword: (2·n_j + c) / 2 times the scale (R79). -/
theorem decE8_getD (wide : LFmt) (w : Nat) (s : Num) {j : Nat} (hj : j < 8) {v : Int}
    (hv : v = 2 * (cwCoords wide w).getD j 0 + (cwCoset wide w : Int)) :
    (decE8 wide w s).getD j Num.nan = ((Num.fin (decide (v < 0)) v.natAbs (-1)).mul s).1 := by
  subst hv
  have hn : j < (cwCoords wide w).length := (cwCoords_length wide w).symm ▸ hj
  simp only [decE8, List.getD_eq_getElem?_getD, List.getElem?_map, List.getElem?_eq_getElem hn, Option.map_some,
    Option.getD_some]

/-- Settles O17: the fields by the layout, distinctness by the encoder, the values by the exact product. -/
theorem latticeDecoding : Obligations.LatticeDecoding := by
  unfold Obligations.LatticeDecoding
  intro wide w v s k n c low
  have hc : cwCoset wide w = c := cwCoset_eq wide w
  refine ⟨cwCoords_length wide w, fun j hj => cwCoords_getD wide w hj, ?last, hc, cwCoords_sum_even wide w,
    fun hw hv hn hcv => cwCoords_cwCoset_injective wide hw hv hn (hcv.trans hc.symm), decE8_length wide w s,
    fun j hj => ⟨fun hs => ?nan, ?fin⟩⟩
  case last =>
    have h := cwCoords_getD_seven wide w
    rwa [lowParity_eq] at h
  case nan =>
    rw [decE8_getD wide w s hj rfl]
    exact Num.mul_isNan_right _ hs
  case fin =>
    rintro neg m x rfl
    refine ⟨_, _, (decE8_getD wide w _ hj rfl).trans (Num.half_mul_fin _ neg m x), ?_⟩
    rw [signed_mul, signed_natAbs, hc]

end Sys2Proof.Machine
end
